-- ==== Sys2Proof/Word.lean ====
section
/-! DEFINITION. Words, tick values and the numbers of the part's objects (spec 00, "Words", "Ticks and time",
"Numbering of objects"), and fixed-size tables of like things. -/

namespace Sys2Proof

/-- A word is 32 bits (spec 00, Words). -/
abbrev Word := BitVec 32

/-- A tick value: a 32-bit value of COUNTER (spec 00, Ticks and time). -/
abbrev Tick := BitVec 32

/-- Slots 0 to 31. -/
abbrev SlotId := Fin 32
/-- Generations 0 to 4 of a slot; a slot uses 0 to DEPTH−1. -/
abbrev GenId := Fin 5
/-- Capture ports 0 to 11. -/
abbrev PortId := Fin 12
/-- Emit links 0 to 5. -/
abbrev LinkId := Fin 6
/-- Cohorts 0 to 3. -/
abbrev CohortId := Fin 4
/-- Inspection handles 0 and 1. -/
abbrev HandleId := Fin 2
/-- Pages 0 to 2047 of the sample store. -/
abbrev PageId := Fin 2048
/-- Schedule entries 0 to 1023. -/
abbrev EntryId := Fin 1024

/-- A fixed number of like things, numbered from 0. -/
abbrev Table (n : Nat) (α : Type) := Vector α n

/-- Entry i of a table with x in its place; every other entry is kept. -/
def Table.put {n : Nat} {α : Type} (t : Table n α) (i : Fin n) (x : α) : Table n α :=
  t.set i.val x i.isLt

end Sys2Proof
end

