-- ==== Sys2Proof/Syntax.lean ====
section
/-! DEFINITION. The commands the part takes: one constructor for each row of spec/opcode_table.json. The table gives the
rows no fields; the operands are what the row's rule needs from outside (log 10). -/

namespace Sys2Proof

/-- One transfer on a capture line: a data word, the tag lines and the three flags (R38). `last` is END. -/
structure Transfer where
  word  : Word
  tag   : BitVec 8
  start : Bool
  last  : Bool
  error : Bool
  deriving DecidableEq, Repr

/-- A command: an access of the host, an event of a line or pin, or an indivisible act of one of the part's blocks
(spec 95, "the part's steps, each whole and indivisible"). -/
inductive Instr where
  /-- SLOT_CONFIGURE: a write to its trigger register (R13, R14). -/
  | slotConfigure
  /-- SLOT_FREEZE (R16). -/
  | slotFreeze
  /-- SLOT_THAW (R17). -/
  | slotThaw
  /-- SLOT_TEARDOWN (R18). -/
  | slotTeardown
  /-- COHORT_SET (R67). -/
  | cohortSet
  /-- LINK_START (R91). -/
  | linkStart
  /-- LINK_LOAD (R84). -/
  | linkLoad
  /-- LINK_CANCEL (R86). -/
  | linkCancel
  /-- LINK_STOP (R109). -/
  | linkStop
  /-- HANDLE_PIN (R126). -/
  | handlePin
  /-- HANDLE_RELEASE (R128). -/
  | handleRelease
  /-- FEED_OPEN (R131). -/
  | feedOpen
  /-- FEED_CLOSE (R133). -/
  | feedClose
  /-- FEED_ABORT (R134). -/
  | feedAbort
  /-- PAGE_TAKE: one take of the allocation in progress (R29). -/
  | pageTake
  /-- CHECK_EXAMINE: one examination of the program check in progress (R76, R77). -/
  | checkExamine
  /-- CAPTURE_TRANSFER: a transfer arrives on a capture line (R39). -/
  | captureTransfer (p : PortId) (x : Transfer)
  /-- HEAD_TAKE_START: the head of a port takes a START entry (R41). -/
  | headTakeStart (p : PortId)
  /-- HEAD_TAKE_WORD: the head takes the word of an entry inside a block (R43). -/
  | headTakeWord (p : PortId)
  /-- HEAD_DROP_ENTRY: the head drops an entry outside any block (R44). -/
  | headDropEntry (p : PortId)
  /-- HEAD_TAKE_END: the head takes an END without ERROR (R45). -/
  | headTakeEnd (p : PortId)
  /-- SOURCE_ERROR: the head takes an END with ERROR (R46). -/
  | sourceError (p : PortId)
  /-- PORT_ENABLE: the host sets ENABLE of a port (R50). -/
  | portEnable (p : PortId)
  /-- PORT_DISABLE: the host clears ENABLE of a port (R49). -/
  | portDisable (p : PortId)
  /-- OVERFLOWED_CLEAR: the host writes `bit` to OVERFLOWED of a port (R54). -/
  | overflowedClear (p : PortId) (bit : Bool)
  /-- STORE_GRANT: the store arbiter grants one waiting request (R33, R34, R35). -/
  | storeGrant
  /-- TICK: the interval in progress ends and the timebase ticks; `ready` holds the READY levels of the six emit lines at
  the tick (R139, R141). -/
  | tick (ready : BitVec 6)
  /-- PERIOD_EXPIRY of a link (R93 to R95). -/
  | periodExpiry (k : LinkId)
  /-- LINK_PLACE_WORD: a link places its next word that needs no store read (R100). -/
  | linkPlaceWord (k : LinkId)
  /-- WORD_TAKEN: a transfer point of a link's emit line with READY high (R115). -/
  | wordTaken (k : LinkId)
  /-- STALL_ABORT of a link (R120). -/
  | stallAbort (k : LinkId)
  /-- ABORT_WORD_GIVE_UP of a link (R122). -/
  | abortWordGiveUp (k : LinkId)
  /-- WINDOW_EXPIRY of a cohort (R62, R63). -/
  | windowExpiry (c : CohortId)
  /-- FEED_IDLE_EXPIRY (R135). -/
  | feedIdleExpiry
  /-- HANDLE_DATA_READ: the host reads the data register of a handle (R127). -/
  | handleDataRead (h : HandleId)
  /-- HANDLE_ADDR_WRITE: the host writes the address register of a handle (R127). -/
  | handleAddrWrite (h : HandleId) (v : Word)
  /-- OVERREAD_CLEAR: the host writes `bit` to OVERREAD of a handle (R127). -/
  | overreadClear (h : HandleId) (bit : Bool)
  /-- FEED_DATA_WRITE: the host writes the feed data register (R132). -/
  | feedDataWrite (v : Word)
  /-- OVERLENGTH_CLEAR: the host writes `bit` to OVERLENGTH (R132). -/
  | overlengthClear (bit : Bool)
  /-- SCHEDULE_WRITE: the host writes word A (`second` false) or word B (`second` true) of a schedule entry (R71, R79). -/
  | scheduleWrite (e : EntryId) (second : Bool) (v : Word)
  /-- PROTECTED_WRITE_CLEAR: the host writes `bit` to PROTECTED_WRITE (R82). -/
  | protectedWriteClear (bit : Bool)
  /-- COMMAND_REJECTED_CLEAR: the host writes `bit` to COMMAND_REJECTED (R156). -/
  | commandRejectedClear (bit : Bool)
  /-- SLOT_SELECT: the host writes the slot number of the slot view (R24). -/
  | slotSelect (v : Word)
  /-- EVENT_POP: the host writes the POP register (R148). -/
  | eventPop
  /-- EVENT_LOST: the host reads the LOST register (R145). -/
  | eventLost
  /-- EVENT_MASK: the host writes the MASK register (R146). -/
  | eventMask (v : Word)
  /-- PRESCALE: the host writes the PRESCALE field, the other fields of GLOBAL_CONTROL as they stand (R139). -/
  | prescale (v : BitVec 16)
  /-- IRQ_ENABLE: the host writes the IRQ_ENABLE field, the other fields as they stand (R149). -/
  | irqEnable (bit : Bool)
  /-- RESET_DEVICE: the host writes the whole GLOBAL_CONTROL word, RESET_DEVICE being its bit 0 (R157, §11.2). -/
  | resetDevice (v : Word)
  /-- POWER_ON_RESET: the RESET pin is asserted (R159). -/
  | powerOnReset
  /-- RESET_RELEASE: the RESET pin is released (R159). -/
  | resetRelease
  /-- REBUILD_LINK_PAGE: the rebuild of the free list links its next page (R27). -/
  | rebuildLinkPage
  /-- SCHEDULE_CLEAR: the clearing of the schedule memory by a power-on reset (R73). -/
  | scheduleClear
  /-- REGISTER_WRITE: a host write of a word of the register window (R160). -/
  | registerWrite (a : BitVec 12) (v : Word)
  deriving DecidableEq, Repr

end Sys2Proof
end

