-- ==== Sys2Proof/Decode.lean ====
section
/-! DEFINITION. The command a word of the opcode table spells. No row of the table gives any bits (log 25). -/

namespace Sys2Proof

/-- The command that a word spells by the table's bits: none, since no row has any (log 25). -/
def decodeTableWord (_nbits _w : Nat) : Option Instr := none

end Sys2Proof
end

