-- ==== Sys2Proof/Config.lean ====
section
/-! DEFINITION. What one build of the part fixes: the sizes the manual gives, and the two values it leaves open, as free values. -/

namespace Sys2Proof.Config

/-- The silicon step, ID bits 7:0 (§11.2). The manual gives no value: a free value (log 17). -/
opaque siliconStep : BitVec 8

/-- The content of a store word after power is applied, by its store address (R25). The manual says that it is unknown: a
free value (log 7). -/
opaque unknownStoreWord : Nat → Word

/-- Entries of a capture port's FIFO (R39, R40). -/
def fifoDepth : Nat := 32
/-- The FIFO level above which capture requests are preferred (R34). -/
def preferenceLevel : Nat := 24
/-- Words of a link's output buffer (R100, R117). -/
def bufferDepth : Nat := 64
/-- Records the event queue holds (R144). -/
def queueDepth : Nat := 64
/-- Pages of the sample store (R25). -/
def pages : Nat := 2048
/-- Words of a page (R25). -/
def pageWords : Nat := 32
/-- Words of the sample store (R25). -/
def storeWords : Nat := 65536
/-- The longest frame a program may build, in words (R76, R99). -/
def frameLimit : Nat := 4096
/-- Record positions, 0 to 1023 (R13, R76). -/
def recordWords : Nat := 1024
/-- Longest cohort window and feed idle limit, in ticks (R67, R131). -/
def longestWindow : Nat := 1048575
/-- Longest link period, in ticks (R91). -/
def longestPeriod : Nat := 16777215
/-- The EVENT_MASK bits that exist: one for each KIND code 1 to 16 (R146, §11.2). -/
def maskBits : Word := 0x0001FFFE#32
/-- How many arbiter grants the model looks ahead for the end of a held host access (R160; log 6). -/
def grantBound : Nat := 512

end Sys2Proof.Config
end

