-- ==== Sys2Proof/Machine/Memory.lean ====
section
/-! DEFINITION. A memory as a list of (address, value) pairs in ONE canonical form: addresses strictly rising, all below
the memory's size, and no pair equal to what an unlisted address reads as. `dflt a` is what an unlisted address a reads
as; none means that it has no value. -/

namespace Sys2Proof

/-- A memory: its listed addresses and their values. -/
abbrev Cells (α : Type) := List (Nat × α)

namespace Cells

/-- The value listed at an address. -/
def listed {α : Type} : Cells α → Nat → Option α
  | [], _ => none
  | (k, v) :: m, a => if a = k then some v else listed m a

/-- What an address reads as. -/
def read {α : Type} (dflt : Nat → Option α) (m : Cells α) (a : Nat) : Option α :=
  match listed m a with
  | some v => some v
  | none => dflt a

/-- The list with (a, v) in its place. -/
def place {α : Type} : Cells α → Nat → α → Cells α
  | [], a, v => [(a, v)]
  | (k, w) :: m, a, v =>
    if a < k then (a, v) :: (k, w) :: m
    else if a = k then (a, v) :: m
    else (k, w) :: place m a v

/-- The list without address a. -/
def remove {α : Type} : Cells α → Nat → Cells α
  | [], _ => []
  | (k, w) :: m, a => if a = k then m else (k, w) :: remove m a

/-- The memory after a write of v at address a; a value equal to what an unlisted address reads as is not listed. -/
def write {α : Type} [DecidableEq α] (dflt : Nat → Option α) (m : Cells α) (a : Nat) (v : α) : Cells α :=
  if dflt a = some v then remove m a else place m a v

/-- The addresses of a list are strictly rising, above `lo` where one is given. -/
def rising {α : Type} : Option Nat → Cells α → Bool
  | _, [] => true
  | lo, (k, _) :: m => (match lo with | some l => decide (l < k) | none => true) && rising (some k) m

/-- The canonical form. -/
def wf {α : Type} [DecidableEq α] (size : Nat) (dflt : Nat → Option α) (m : Cells α) : Bool :=
  rising none m && m.all (fun c => decide (c.1 < size) && decide (dflt c.1 ≠ some c.2))

end Cells
end Sys2Proof
end

