-- ==== Sys2Proof/Machine/State.lean ====
section
/-! DEFINITION. The state of the HK3206: every register, FIFO, buffer, counter, mode and pin the spec gives the part, the
implied state its rules speak of, and the queue of the commands that are waiting. Plain data. -/

namespace Sys2Proof.Machine

/-- Why a step stops with a fault. Every constructor belongs to states that no run reaches. -/
inductive Fault where
  /-- Raised by STORE_GRANT, and by a host access that ends a held one: a request names a word whose page is not on the
  generation's chain (R32 gives such a word no store address). Safe: the model stops (log 8). -/
  | brokenChain
  /-- Raised by a host access that comes while another is held, when the arbiter has not granted the held one within
  Config.grantBound grants (R33 and R34 grant it sooner). Safe: the model stops (log 6). -/
  | heldAccessNotGranted
  deriving DecidableEq, Repr

/-- Why a step is refused. -/
inductive Refusal where
  /-- Raised by exec's arm of a command that has no meaning yet; every command has one, so no arm raises it. Safe. -/
  | notModelled (mnemonic : String)
  deriving DecidableEq, Repr

/-! ### Slot table (chapter 1) -/

/-- The states of a slot (R1). -/
inductive SlotState where
  | unused | configuring | active | frozen | draining
  deriving DecidableEq, Repr

/-- The states of a generation (R2). -/
inductive GenState where
  | empty | filling | sealed | ready
  deriving DecidableEq, Repr

/-- Where a slot's blocks come from: a capture port, or the feed. -/
inductive Source where
  | port (p : PortId)
  | feed
  deriving DecidableEq, Repr

/-- A generation record (§1.2). `fill` numbers the fills of the record, so that a write request can name the fill it
belongs to (R35; the model's own field, log 9). -/
structure Gen where
  state     : GenState
  pins      : Nat
  seq       : Word
  stamp     : Tick
  tag       : BitVec 8
  words     : Nat
  isShort   : Bool
  isPartial : Bool
  epoch     : BitVec 16
  head      : Option PageId
  fill      : Nat
  deriving DecidableEq, Repr

/-- A slot descriptor with its generation records (§1.1). -/
structure Slot where
  state    : SlotState
  source   : Source
  offset   : Nat
  length   : Nat
  depth    : Nat
  decimate : Nat
  decCount : Nat
  cohort   : Option CohortId
  ppg      : Nat
  nextSeq  : Word
  newest   : Option GenId
  overruns : Nat
  abandons : Nat
  gens     : Table 5 Gen
  deriving DecidableEq, Repr

/-! ### Sample store, page pool and arbiter (chapter 2) -/

/-- The allocation context (§2.4, R28). -/
structure Alloc where
  slot      : SlotId
  gen       : GenId
  taken     : Nat
  first     : Option PageId
  last      : Option PageId
  remaining : Nat
  deriving DecidableEq, Repr

/-- The page pool: free list, page link table and allocation context. `next` lists the NEXT entries that differ from what
the rebuild of R27 leaves. -/
structure Pool where
  head  : Option PageId
  tail  : Option PageId
  count : Nat
  next  : Cells (Option PageId)
  alloc : Option Alloc
  deriving DecidableEq, Repr

/-- A waiting write of one word to one generation (R33), with the fill it belongs to (R35). -/
structure WriteReq where
  slot : SlotId
  gen  : GenId
  pos  : Nat
  word : Word
  fill : Nat
  deriving DecidableEq, Repr

/-- A waiting read of one word of one generation (R33). -/
structure ReadReq where
  slot : SlotId
  gen  : GenId
  pos  : Nat
  deriving DecidableEq, Repr

/-! ### Capture ports (chapter 3) -/

/-- A FIFO entry: a transfer, its arrival time and its BREAK mark (§3.2). -/
structure FifoEntry where
  word    : Word
  tag     : BitVec 8
  start   : Bool
  last    : Bool
  error   : Bool
  arrived : Tick
  brk     : Bool
  deriving DecidableEq, Repr

/-- The framing state of a port's head (§3.2). -/
inductive PortState where
  | idle | inBlock | discard
  deriving DecidableEq, Repr

/-- A member of a FILL set: a slot and its FILLING generation, with the fill the member belongs to. -/
structure FillMember where
  slot : SlotId
  gen  : GenId
  fill : Nat
  deriving DecidableEq, Repr

/-- A port context (§3.2). `begun`: the START entry at the head has had steps 1 to 4 of R41. `writing`: the word at the
head has been taken and has requests outstanding. `due`: the members whose request for that word is still to be
presented (R43; log 11, log 12). `req`: the port's waiting store request. -/
structure Port where
  enable     : Bool
  awaitStart : Bool
  fifo       : List FifoEntry
  state      : PortState
  wordIndex  : Nat
  fill       : List FillMember
  blocksSeen : Word
  overflowed : Bool
  begun      : Bool
  writing    : Bool
  due        : List FillMember
  req        : Option WriteReq
  deriving DecidableEq, Repr

/-! ### Cohorts (chapter 4) -/

/-- The states of a cohort (R56). -/
inductive CohortState where
  | idle | gathering
  deriving DecidableEq, Repr

/-- What a cohort does with its seals when its window expires. -/
inductive Policy where
  | publish | discard
  deriving DecidableEq, Repr

/-- A cohort record (§4.1). MEMBERS and SEALED are sets of slots, bit i for slot i. OPEN is `idle`; the PARTIAL policy
is `publish`. -/
structure Cohort where
  state    : CohortState
  window   : Nat
  policy   : Policy
  epoch    : BitVec 16
  deadline : Tick
  members  : BitVec 32
  sealed   : BitVec 32
  deriving DecidableEq, Repr

/-! ### Schedule memory and the program check (chapter 5) -/

/-- A program: its first entry, its number of entries and its tag (R74). -/
structure Program where
  base : Nat
  len  : Nat
  tag  : BitVec 16
  deriving DecidableEq, Repr

/-- The commands that take time (R154). -/
inductive LongCommand where
  | configure | start | load
  deriving DecidableEq, Repr

/-- The context of a program check (§5.3). `slots` is the set SLOTS, in the order the values were added. -/
structure Check where
  link  : LinkId
  kind  : LongCommand
  prog  : Program
  pos   : Nat
  slots : List SlotId
  run   : Nat
  items : Nat
  deriving DecidableEq, Repr

/-! ### Emit links and emit lines (chapters 6 and 7) -/

/-- The states of a link (R90). -/
inductive LinkState where
  | off | wait | frame | stopping
  deriving DecidableEq, Repr

/-- The states of an emit line (R116). -/
inductive LineState where
  | quiet | drive | gap | abort
  deriving DecidableEq, Repr

/-- A pin set entry: the pinned generation and the values given at the grant (§6.1), EPOCH among them (R10, R69; log 30). -/
structure PinEntry where
  slot      : SlotId
  gen       : GenId
  seq       : Word
  stamp     : Tick
  words     : Nat
  isShort   : Bool
  isPartial : Bool
  epoch     : BitVec 16
  deriving DecidableEq, Repr

/-- The kinds of an item (R97, R98). -/
inductive ItemKind where
  | data | stale | repeated | absent
  deriving DecidableEq, Repr

/-- An item list entry (§6.1): the schedule entry, the kind, the slot, what the item carries, its number of data words n
and its first record word. -/
structure Item where
  entry     : Nat
  kind      : ItemKind
  slot      : SlotId
  seq       : Word
  stamp     : Tick
  isShort   : Bool
  isPartial : Bool
  n         : Nat
  first     : Nat
  deriving DecidableEq, Repr

/-- What frame begin fixes for the frame in flight beside its items (R94, R96), and how far it has gone: `next` is the
program index after its FRAME_END, `placed` and `taken` count its words, `crc` is the running register of R119. -/
structure Frame where
  number : BitVec 16
  cycle  : BitVec 16
  tag    : BitVec 16
  begun  : Tick
  next   : Nat
  placed : Nat
  taken  : Nat
  crc    : Word
  deriving DecidableEq, Repr

/-- A link context with its emit line (§6.1, §7.2). `giveUpDue` marks an abort word whose give-up has come due (R122;
log 14). -/
structure Link where
  state        : LinkState
  active       : Program
  pending      : Program
  pendingValid : Bool
  cursor       : Nat
  period       : Nat
  remain       : Nat
  sync         : Word
  stallLimit   : Nat
  frameNo      : BitVec 16
  cycleNo      : BitVec 16
  slips        : Nat
  aborts       : Nat
  pinSet       : List PinEntry
  items        : List Item
  lastSeen     : Table 32 Word
  buffer       : List Word
  frame        : Option Frame
  req          : Option ReadReq
  line         : LineState
  stallTimer   : Nat
  abortWord    : Option Word
  giveUpDue    : Bool
  deriving DecidableEq, Repr

/-! ### Handles and feed (chapter 8) -/

/-- The states of a handle (R125). -/
inductive HandleState where
  | free | held | revoked
  deriving DecidableEq, Repr

/-- A handle record (§8.1), with its waiting store request. -/
structure Handle where
  state     : HandleState
  slot      : SlotId
  gen       : GenId
  seq       : Word
  stamp     : Tick
  tag       : BitVec 8
  words     : Nat
  isShort   : Bool
  isPartial : Bool
  epoch     : BitVec 16
  addr      : BitVec 10
  overread  : Bool
  req       : Option ReadReq
  deriving DecidableEq, Repr

/-- The states of the feed (R130). -/
inductive FeedState where
  | idle | opened
  deriving DecidableEq, Repr

/-- The feed context (§8.5), with the fill its session belongs to and its waiting store request. OPEN is `opened`. -/
structure Feed where
  state      : FeedState
  slot       : SlotId
  gen        : GenId
  wordIndex  : Nat
  idleLimit  : Nat
  idleCount  : Nat
  overlength : Bool
  fill       : Nat
  req        : Option WriteReq
  deriving DecidableEq, Repr

/-! ### Timebase and event queue (chapter 9) -/

/-- The timebase (§9.1). `prescale` is the field as written, `inForce` the value that governs the interval in progress;
0 stands for 65536 in both (R139). -/
structure Timebase where
  counter  : Tick
  prescale : BitVec 16
  inForce  : BitVec 16
  divider  : Nat
  deriving DecidableEq, Repr

/-- The sixteen kinds of event record (R143). -/
inductive EventKind where
  | commandDone | slotOverrun | genAbandoned | slotReleased | cohortPublished | cohortTimeout | cohortSuperseded
  | frameSlip | frameAborted | itemMark | cycleDone | programSwapped | linkStopped | handleRevoked | feedTimeout
  | feedAbandoned
  deriving DecidableEq, Repr

/-- An event record (R143). -/
structure EventRecord where
  kind   : EventKind
  object : BitVec 16
  arg    : Word
  reason : BitVec 4
  stamp  : Tick
  deriving DecidableEq, Repr

/-- The event queue (§9.4). LEVEL is the number of records. -/
structure EventQueue where
  records   : List EventRecord
  mask      : Word
  lost      : Nat
  irqEnable : Bool
  deriving DecidableEq, Repr

/-! ### Command unit and resets (chapter 10) -/

/-- The result codes (R155). -/
inductive ResultCode where
  | ok | badArg | state | noPages | inUse | notReady | noGeneration | badProgram
  deriving DecidableEq, Repr

/-- The states of the command unit. -/
inductive UnitState where
  | idle | busy
  deriving DecidableEq, Repr

/-- The running command with its copied arguments (R151); `began` is the timebase value at its acceptance (R91). -/
structure Running where
  command : LongCommand
  args    : Table 6 Word
  began   : Tick
  deriving DecidableEq, Repr

/-- The command unit (chapter 10). -/
structure CommandUnit where
  args     : Table 6 Word
  state    : UnitState
  running  : Option Running
  code     : ResultCode
  detail   : Word
  rejected : Bool
  deriving DecidableEq, Repr

/-- The reset in progress: none, the RESET pin asserted, or the work of R157 and R159 with the number of pages linked so
far and whether the schedule memory is still to be cleared. -/
inductive ResetPhase where
  | none
  | held
  | running (linked : Nat) (clearing : Bool)
  deriving DecidableEq, Repr

/-- The state of the part. -/
structure State where
  /-- The commands that are waiting, first in, first out. -/
  pending        : List Instr
  slots          : Table 32 Slot
  /-- The words of the sample store written since power was applied (R25; log 7). -/
  store          : Cells Word
  pool           : Pool
  /-- LAST_GRANTED, a ring position 0 to 20 (R33). -/
  lastGranted    : Fin 21
  ports          : Table 12 Port
  cohorts        : Table 4 Cohort
  /-- The schedule memory, word A of entry e at 2e and word B at 2e+1. -/
  schedule       : Cells Word
  protectedWrite : Bool
  protectedEntry : EntryId
  check          : Option Check
  links          : Table 6 Link
  handles        : Table 2 Handle
  feed           : Feed
  timebase       : Timebase
  events         : EventQueue
  cmd            : CommandUnit
  slotSelect     : Word
  resetPhase     : ResetPhase
  /-- READY of the six emit lines, as last sampled at a TICK (log 3). -/
  readyPins      : BitVec 6
  /-- What the last completed host read returned (log 18). -/
  busRead        : Word
  deriving DecidableEq, Repr

/-! ### Values after reset -/

/-- A generation record after reset (R23), keeping the fill number given. -/
def Gen.blank (fill : Nat) : Gen :=
  { state := .empty, pins := 0, seq := 0, stamp := 0, tag := 0, words := 0, isShort := false, isPartial := false,
    epoch := 0, head := none, fill := fill }

/-- A slot after reset (R23). -/
def Slot.reset : Slot :=
  { state := .unused, source := .port 0, offset := 0, length := 0, depth := 0, decimate := 0, decCount := 0,
    cohort := none, ppg := 0, nextSeq := 1, newest := none, overruns := 0, abandons := 0,
    gens := Vector.replicate 5 (Gen.blank 0) }

/-- A capture port after reset (R53). -/
def Port.reset : Port :=
  { enable := false, awaitStart := true, fifo := [], state := .idle, wordIndex := 0, fill := [], blocksSeen := 0,
    overflowed := false, begun := false, writing := false, due := [], req := none }

/-- A cohort after reset (R68). -/
def Cohort.reset : Cohort :=
  { state := .idle, window := 0, policy := .publish, epoch := 1, deadline := 0, members := 0, sealed := 0 }

/-- A program record after reset (R83, R89). -/
def Program.reset : Program := { base := 0, len := 0, tag := 0 }

/-- A link and its emit line after reset (R89, R124). -/
def Link.reset : Link :=
  { state := .off, active := Program.reset, pending := Program.reset, pendingValid := false, cursor := 0, period := 0,
    remain := 0, sync := 0, stallLimit := 0, frameNo := 0, cycleNo := 0, slips := 0, aborts := 0, pinSet := [],
    items := [], lastSeen := Vector.replicate 32 0, buffer := [], frame := none, req := none, line := .quiet,
    stallTimer := 0, abortWord := none, giveUpDue := false }

/-- A handle after reset (R138). -/
def Handle.reset : Handle :=
  { state := .free, slot := 0, gen := 0, seq := 0, stamp := 0, tag := 0, words := 0, isShort := false,
    isPartial := false, epoch := 0, addr := 0, overread := false, req := none }

/-- The feed after reset (R138). -/
def Feed.reset : Feed :=
  { state := .idle, slot := 0, gen := 0, wordIndex := 0, idleLimit := 0, idleCount := 0, overlength := false, fill := 0,
    req := none }

/-- The free list and the allocation context when the rebuild of R27 has linked every page. -/
def Pool.reset : Pool :=
  { head := some 0, tail := some 2047, count := 2048, next := [], alloc := none }

/-- The part when a power-on reset has ended (each block's reset rule), with no tick since the release of the RESET pin
(log 5). -/
def State.reset : State :=
  { pending := []
    slots := Vector.replicate 32 Slot.reset
    store := []
    pool := Pool.reset
    lastGranted := 20
    ports := Vector.replicate 12 Port.reset
    cohorts := Vector.replicate 4 Cohort.reset
    schedule := []
    protectedWrite := false
    protectedEntry := 0
    check := none
    links := Vector.replicate 6 Link.reset
    handles := Vector.replicate 2 Handle.reset
    feed := Feed.reset
    timebase := { counter := 0, prescale := 100, inForce := 100, divider := 0 }
    events := { records := [], mask := Config.maskBits, lost := 0, irqEnable := false }
    cmd := { args := Vector.replicate 6 0, state := .idle, running := none, code := .ok, detail := 0, rejected := false }
    slotSelect := 0
    resetPhase := .none
    readyPins := 0
    busRead := 0 }

end Sys2Proof.Machine
end

