-- ==== Sys2Proof/Machine/Operands.lean ====
section
/-! DEFINITION. The fields of packed words: command arguments (§11.3, R162), schedule entries (§11.7), and the placing of
a field in a word that is read or sent. -/

namespace Sys2Proof.Machine

/-- Bits hi:lo of a word, as a number. -/
def bits (w : Word) (hi lo : Nat) : Nat := (w.extractLsb' lo (hi + 1 - lo)).toNat

/-- The word with the number v in bits hi:lo and 0 elsewhere; of v, only what fits the field. -/
def field (hi lo v : Nat) : Word := BitVec.ofNat 32 (v % 2 ^ (hi + 1 - lo)) <<< lo

/-- The word with a flag at bit lo. -/
def flagBit (lo : Nat) (b : Bool) : Word := field lo lo b.toNat

/-- An object number given as a whole argument: none above the object's range (R162). -/
def objectArg (n : Nat) (w : Word) : Option (Fin n) :=
  if h : w.toNat < n then some ⟨w.toNat, h⟩ else none

/-- SOURCE, ARG1 bits 4:0 of SLOT_CONFIGURE: 0-11 a capture port, 16 FEED, none for the values R162 refuses. -/
def sourceArg (w : Word) : Option Source :=
  if h : bits w 4 0 < 12 then some (.port ⟨bits w 4 0, h⟩)
  else if bits w 4 0 = 16 then some .feed
  else none

/-- COHORT, ARG3 bits 26:24 of SLOT_CONFIGURE: 0-3 a cohort, 7 none; the outer none for the values R162 refuses. -/
def cohortArg (w : Word) : Option (Option CohortId) :=
  if h : bits w 26 24 < 4 then some (some ⟨bits w 26 24, h⟩)
  else if bits w 26 24 = 7 then some none
  else none

/-- OFFSET, ARG2 bits 9:0 of SLOT_CONFIGURE. -/
def offsetArg (w : Word) : Nat := bits w 9 0
/-- LENGTH, ARG2 bits 26:16 of SLOT_CONFIGURE. -/
def lengthArg (w : Word) : Nat := bits w 26 16
/-- DEPTH, ARG3 bits 2:0 of SLOT_CONFIGURE. -/
def depthArg (w : Word) : Nat := bits w 2 0
/-- DECIMATE, ARG3 bits 16:8 of SLOT_CONFIGURE. -/
def decimateArg (w : Word) : Nat := bits w 16 8
/-- BASE, ARG1 bits 9:0 of LINK_START and LINK_LOAD. -/
def baseArg (w : Word) : Nat := bits w 9 0
/-- LEN, ARG1 bits 26:16 of LINK_START and LINK_LOAD. -/
def lenArg (w : Word) : Nat := bits w 26 16

/-- PPG = ceil(LENGTH/32) (R14). -/
def pagesFor (length : Nat) : Nat := (length + 31) / Config.pageWords

/-- The ACTION of a schedule entry (R72, §11.7). -/
inductive Action where
  | emit | emitFresh | frameEnd | invalid
  deriving DecidableEq, Repr

/-- A schedule entry by its fields (R72). -/
structure SchedEntry where
  action : Action
  mark   : Bool
  slot   : SlotId
  offset : Nat
  count  : Nat
  maxAge : Nat
  deriving DecidableEq, Repr

/-- The ACTION codes of word A, bits 1:0 (§11.7). -/
def actionOf (w : Word) : Action :=
  match bits w 1 0 with
  | 0 => .emit
  | 1 => .emitFresh
  | 2 => .frameEnd
  | _ => .invalid

/-- The SLOT field of word A, bits 8:4. -/
def slotOf (w : Word) : SlotId := Fin.ofNat 32 (bits w 8 4)

/-- A schedule entry from its two words (§11.7). -/
def entryOf (a b : Word) : SchedEntry :=
  { action := actionOf a, mark := a.getLsbD 2, slot := slotOf a, offset := bits a 25 16, count := bits b 10 0,
    maxAge := bits b 31 16 }

/-- The bits of word A (false) and word B (true) that are stored; the others read 0 (§11.7). -/
def entryMask (second : Bool) : Word := if second then 0xFFFF07FF#32 else 0x03FF01F7#32

end Sys2Proof.Machine
end

