-- ==== Sys2Proof/Machine/Flags.lean ====
section
/-! DEFINITION. Counters that saturate or wrap, sticky flags, the codes of results, kinds and reasons, the event mask and
the interrupt line. -/

namespace Sys2Proof.Machine

/-- A saturating counter after one increase (spec 00, Counters). -/
def saturate (limit n : Nat) : Nat := min (n + 1) limit

/-- A 16-bit saturating counter after one increase (R5, R9, R43, R95, R106). -/
def saturate16 (n : Nat) : Nat := saturate 65535 n

/-- NEXT_SEQ after a publish: it wraps from 2^32−1 to 1 (R3). -/
def nextSeqAfter (n : Word) : Word := if n = 0xFFFFFFFF#32 then 1 else n + 1

/-- EPOCH after a publish: it wraps from 65535 to 1 (R60). -/
def nextEpochAfter (e : BitVec 16) : BitVec 16 := if e = 0xFFFF#16 then 1 else e + 1

/-- A sticky flag after the host has written `bit` to it: 1 clears it, 0 leaves it (R161). -/
def afterClear (flag bit : Bool) : Bool := flag && !bit

/-- The ticks from one tick value to a later one, modulo 2^32 (R142). -/
def ticksBetween (now start : Tick) : Nat := (now - start).toNat

/-- Core clock cycles of an interval: 0 stands for 65536 (R139). -/
def cyclesOf (p : BitVec 16) : Nat := if p = 0 then 65536 else p.toNat

/-- The value of a result code (R155). -/
def ResultCode.value : ResultCode → Nat
  | .ok => 0 | .badArg => 1 | .state => 2 | .noPages => 3 | .inUse => 4 | .notReady => 5 | .noGeneration => 6
  | .badProgram => 7

/-- The code of an event kind (R143). -/
def EventKind.value : EventKind → Nat
  | .commandDone => 1 | .slotOverrun => 2 | .genAbandoned => 3 | .slotReleased => 4 | .cohortPublished => 5
  | .cohortTimeout => 6 | .cohortSuperseded => 7 | .frameSlip => 8 | .frameAborted => 9 | .itemMark => 10
  | .cycleDone => 11 | .programSwapped => 12 | .linkStopped => 13 | .handleRevoked => 14 | .feedTimeout => 15
  | .feedAbandoned => 16

/-- Why a generation's content is thrown away (R9). -/
inductive AbandonReason where
  | sourceError | missingEnd | captureOverflow | portDisabled | feedAbort | feedTimeout | teardown | cohortDiscard
  deriving DecidableEq, Repr

/-- The REASON codes of GEN_ABANDONED (R143). -/
def AbandonReason.value : AbandonReason → BitVec 4
  | .sourceError => 1 | .missingEnd => 2 | .captureOverflow => 3 | .portDisabled => 4 | .feedAbort => 5
  | .feedTimeout => 6 | .teardown => 7 | .cohortDiscard => 8

/-- Why a frame is aborted (R106). -/
inductive AbortReason where
  | stall | stop
  deriving DecidableEq, Repr

/-- The REASON codes of FRAME_ABORTED (R143). -/
def AbortReason.value : AbortReason → BitVec 4
  | .stall => 1 | .stop => 2

/-- Why a program fails its check (R77). -/
inductive CheckFailure where
  | range | badAction | window | emptyFrame | tooManySlots | frameTooLong | noFinalEnd
  deriving DecidableEq, Repr

/-- The BAD_PROGRAM reasons of DETAIL (R155). -/
def CheckFailure.value : CheckFailure → Nat
  | .range => 1 | .badAction => 2 | .window => 3 | .emptyFrame => 4 | .tooManySlots => 5 | .frameTooLong => 6
  | .noFinalEnd => 7

/-- DETAIL of a BAD_PROGRAM result: 19:16 reason, 9:0 entry number (§11.3). -/
def badProgramDetail (r : CheckFailure) (entry : Nat) : Word := field 19 16 r.value ||| field 9 0 entry

/-- OBJECT of an ITEM_MARK: link number in 14:12, schedule entry number in 9:0 (§11.9). -/
def markObject (k : LinkId) (entry : Nat) : Nat := k.val * 4096 + entry % 1024

/-- A kind is queued when its bit of MASK is set (R144, R146). -/
def EventQueue.enables (q : EventQueue) (k : EventKind) : Bool := q.mask.getLsbD k.value

/-- The queue takes an offered record: masked, refused and counted in LOST, or appended (R144, R145). -/
def EventQueue.take (q : EventQueue) (r : EventRecord) : EventQueue :=
  if q.enables r.kind then
    if q.records.length < Config.queueDepth then { q with records := q.records ++ [r] }
    else { q with lost := saturate 255 q.lost }
  else q

/-- The interrupt line: asserted while LEVEL is above 0 and IRQ_ENABLE is set (R149). -/
def EventQueue.irqLine (q : EventQueue) : Bool := q.irqEnable && !q.records.isEmpty

end Sys2Proof.Machine
end

