-- ==== Sys2Proof/Machine/Ops.lean ====
section
/-! DEFINITION. The named operations over the state that several commands share: reading and writing a block's record,
offering an event, and the slot table's, page pool's and cohort unit's own acts (chapters 1, 2 and 4). -/

namespace Sys2Proof.Machine

/-- Every slot, in ascending order. -/
def allSlots : List SlotId := List.finRange 32
/-- Every generation number, in ascending order. -/
def allGens : List GenId := [0, 1, 2, 3, 4]
/-- Every link, in ascending order. -/
def allLinks : List LinkId := [0, 1, 2, 3, 4, 5]
/-- Every capture port, in ascending order. -/
def allPorts : List PortId := [0, 1, 2, 3, 4, 5, 6, 7, 8, 9, 10, 11]
/-- Every cohort, in ascending order. -/
def allCohorts : List CohortId := [0, 1, 2, 3]
/-- Both handles. -/
def allHandles : List HandleId := [0, 1]

/-! ### Reading and writing one record -/

namespace State

/-- The descriptor of a slot. -/
def slot (s : State) (i : SlotId) : Slot := s.slots.get i
/-- The context of a port. -/
def port (s : State) (p : PortId) : Port := s.ports.get p
/-- The record of a cohort. -/
def cohort (s : State) (c : CohortId) : Cohort := s.cohorts.get c
/-- The context of a link. -/
def link (s : State) (k : LinkId) : Link := s.links.get k
/-- The record of a handle. -/
def handle (s : State) (h : HandleId) : Handle := s.handles.get h
/-- COUNTER as it stands. -/
def now (s : State) : Tick := s.timebase.counter

/-- The state with a slot's descriptor replaced. -/
def setSlot (s : State) (i : SlotId) (x : Slot) : State := { s with slots := Table.put s.slots i x }
/-- The state with a port's context replaced. -/
def setPort (s : State) (p : PortId) (x : Port) : State := { s with ports := Table.put s.ports p x }
/-- The state with a cohort's record replaced. -/
def setCohort (s : State) (c : CohortId) (x : Cohort) : State := { s with cohorts := Table.put s.cohorts c x }
/-- The state with a link's context replaced. -/
def setLink (s : State) (k : LinkId) (x : Link) : State := { s with links := Table.put s.links k x }
/-- The state with a handle's record replaced. -/
def setHandle (s : State) (h : HandleId) (x : Handle) : State := { s with handles := Table.put s.handles h x }
/-- The state with the feed's context replaced. -/
def setFeed (s : State) (x : Feed) : State := { s with feed := x }
/-- The state with the page pool replaced. -/
def setPool (s : State) (x : Pool) : State := { s with pool := x }

/-- A block offers a record to the event queue; the queue fills STAMP (R143, R144). -/
def offer (s : State) (kind : EventKind) (object : Nat) (arg : Word) (reason : BitVec 4) : State :=
  let r : EventRecord :=
    { kind := kind, object := BitVec.ofNat 16 object, arg := arg, reason := reason, stamp := s.now }
  { s with events := s.events.take r }

/-- The command that has just ended writes CODE and DETAIL (R153, R154). -/
def result (s : State) (code : ResultCode) (detail : Word) : State :=
  { s with cmd := { s.cmd with code := code, detail := detail } }

end State

/-! ### One slot: generations, targets, publishes (chapter 1) -/

namespace Slot

/-- A generation record of the slot. -/
def gen (x : Slot) (g : GenId) : Gen := x.gens.get g
/-- The slot with a generation record replaced. -/
def setGen (x : Slot) (g : GenId) (y : Gen) : Slot := { x with gens := Table.put x.gens g y }

/-- The generation that is FILLING, if any. -/
def fillingGen (x : Slot) : Option GenId := allGens.find? fun g => (x.gen g).state = .filling
/-- The generation that is SEALED, if any. -/
def sealedGen (x : Slot) : Option GenId := allGens.find? fun g => (x.gen g).state = .sealed

/-- A READY generation that a writer may take: unpinned and not NEWEST (R4). -/
def reusable (x : Slot) (g : GenId) : Bool :=
  (x.gen g).state = .ready && (x.gen g).pins = 0 && x.newest ≠ some g

/-- Of the generations in a list, the one with the smallest SEQ, the earlier in the list where two are equal. -/
def oldest (x : Slot) (l : List GenId) : Option GenId :=
  l.foldl (fun best g => match best with
    | none => some g
    | some b => if (x.gen g).seq < (x.gen b).seq then some g else some b) none

/-- The choice of a writer target: the lowest-numbered EMPTY generation, else the READY candidate with the smallest SEQ
(R4). -/
def target (x : Slot) : Option GenId :=
  match allGens.find? (fun g => g.val < x.depth && (x.gen g).state = .empty) with
  | some g => some g
  | none => x.oldest (allGens.filter fun g => g.val < x.depth && x.reusable g)

/-- The record of a generation just chosen as writer target (R4). -/
def filled (y : Gen) (stamp : Tick) (tag : BitVec 8) : Gen :=
  { y with state := .filling, words := 0, isShort := false, isPartial := false, epoch := 0, stamp := stamp, tag := tag,
           fill := y.fill + 1 }

/-- The record of a generation whose content is thrown away: EMPTY, with SEQ, STAMP, TAG and HEAD kept (R7, R9). -/
def emptied (y : Gen) : Gen :=
  { y with state := .empty, words := 0, isShort := false, isPartial := false, epoch := 0 }

/-- The slot after the discarding of a generation that counts in ABANDONS (R8, R9, R18). -/
def abandoned (x : Slot) (g : GenId) : Slot :=
  { x.setGen g (emptied (x.gen g)) with abandons := saturate16 x.abandons }

/-- WORDS and SHORT of a generation at its completion (R6). -/
def completed (x : Slot) (y : Gen) (count : Nat) : Gen :=
  { y with words := count, isShort := decide (count < x.length) }

/-- A publish: the generation, whose other fields are given, becomes READY with SEQ = NEXT_SEQ and NEWEST (R3, R6, R8). -/
def published (x : Slot) (g : GenId) (y : Gen) (epoch : BitVec 16) (isPartial : Bool) : Slot :=
  { x.setGen g { y with state := .ready, seq := x.nextSeq, epoch := epoch, isPartial := isPartial } with
    newest := some g, nextSeq := nextSeqAfter x.nextSeq }

/-- The slot with PINS of a generation changed. -/
def setPins (x : Slot) (g : GenId) (n : Nat) : Slot := x.setGen g { x.gen g with pins := n }

/-- SEQ of NEWEST, 0 where there is none (R5). -/
def newestSeq (x : Slot) : Word := match x.newest with
  | some g => (x.gen g).seq
  | none => 0

/-- Every generation's PINS is 0 (R20). -/
def unpinned (x : Slot) : Bool := allGens.all fun g => (x.gen g).pins = 0

/-- A slot's answer to a pin request. -/
inductive PinAnswer where
  | granted (g : GenId)
  | notReady
  | refused
  deriving DecidableEq, Repr

/-- The answer to a pin request (R10). -/
def pinAnswer (x : Slot) : PinAnswer :=
  match x.state with
  | .active | .frozen => (match x.newest with
    | some g => .granted g
    | none => .notReady)
  | .unused | .configuring | .draining => .refused

end Slot

/-! ### Page pool (chapter 2) -/

/-- What NEXT of a page reads as where the page link table lists nothing: what the rebuild of R27 leaves. -/
def rebuiltNext (a : Nat) : Option (Option PageId) :=
  some (if h : a + 1 < 2048 then some ⟨a + 1, h⟩ else none)

/-- What a schedule word reads as where the schedule memory lists nothing (R73). -/
def clearedWord (_ : Nat) : Option Word := some 0

/-- The store lists the words written since power was applied: for a word that is not listed no known value stands (R25;
log 7). -/
def unknownWord (_ : Nat) : Option Word := none

namespace Pool

/-- NEXT of a page. -/
def nextOf (q : Pool) (p : PageId) : Option PageId := (Cells.read rebuiltNext q.next p.val).join

/-- The pool with NEXT of a page written. -/
def setNext (q : Pool) (p : PageId) (n : Option PageId) : Pool :=
  { q with next := Cells.write rebuiltNext q.next p.val n }

/-- The page reached from p by following NEXT n times (R32). -/
def follow (q : Pool) (p : PageId) : Nat → Option PageId
  | 0 => some p
  | n + 1 => match q.nextOf p with
    | some p' => follow q p' n
    | none => none

/-- The last page of the chain from p: the page whose NEXT is END. `fuel` bounds the walk; 2048 pages bound any chain. -/
def lastPage (q : Pool) (p : PageId) : Nat → PageId
  | 0 => p
  | fuel + 1 => match q.nextOf p with
    | some p' => lastPage q p' fuel
    | none => p

/-- One page joins the free list at TAIL, its own NEXT becoming END (R27). -/
def linkPage (q : Pool) (p : PageId) : Pool :=
  let q1 := match q.tail with
    | some t => q.setNext t (some p)
    | none => { q with head := some p }
  { q1.setNext p none with tail := some p, count := q.count + 1 }

/-- A chain of ppg pages joins the free list at TAIL (R30). -/
def appendChain (q : Pool) (first : PageId) (ppg : Nat) : Pool :=
  let l := q.lastPage first Config.pages
  let q1 := match q.tail with
    | some t => q.setNext t (some first)
    | none => { q with head := some first }
  { q1 with tail := some l, count := q.count + ppg }

end Pool

/-- The store address of word w of a generation (R32); none where the walk leaves the chain. -/
def State.wordAddress (s : State) (i : SlotId) (g : GenId) (w : Nat) : Option Nat :=
  match ((s.slot i).gen g).head with
  | none => none
  | some h => match s.pool.follow h (w / Config.pageWords) with
    | none => none
    | some p => some (Config.pageWords * p.val + w % Config.pageWords)

/-- The word at a store address: the one written last, or the unknown content that power-on left there, a free value (R25;
log 7). -/
def State.readStore (s : State) (a : Nat) : Word := (Cells.read unknownWord s.store a).getD (Config.unknownStoreWord a)

/-! ### Acts of the slot table and the cohort unit -/

/-- The set holding one slot. -/
def slotBit (i : SlotId) : BitVec 32 := BitVec.twoPow 32 i.val

namespace State

/-- A FILLING generation is abandoned (R9). A generation that is not FILLING has nothing to abandon (log 19). -/
def abandon (s : State) (i : SlotId) (g : GenId) (why : AbandonReason) : State :=
  if ((s.slot i).gen g).state = .filling then
    (s.setSlot i ((s.slot i).abandoned g)).offer .genAbandoned i.val (BitVec.ofNat 32 ((s.slot i).gen g).words) why.value
  else s

/-- The slot's SEALED generation, if it holds one, is emptied and counted: a cohort discard (R8) or a seal dropped at
teardown (R18). -/
def dropSeal (s : State) (i : SlotId) (why : AbandonReason) : State :=
  match (s.slot i).sealedGen with
  | none => s
  | some g =>
    (s.setSlot i ((s.slot i).abandoned g)).offer .genAbandoned i.val (BitVec.ofNat 32 ((s.slot i).gen g).words) why.value

/-- The slot's SEALED generation, if it holds one, is published under a cohort's epoch (R8). -/
def publishSeal (s : State) (i : SlotId) (epoch : BitVec 16) (isPartial : Bool) : State :=
  match (s.slot i).sealedGen with
  | none => s
  | some g => s.setSlot i ((s.slot i).published g ((s.slot i).gen g) epoch isPartial)

/-- Every slot of a set publishes its seal, in ascending order (R60, R62). -/
def publishSeals (s : State) (set : BitVec 32) (epoch : BitVec 16) (isPartial : Bool) : State :=
  allSlots.foldl (fun t i => if set.getLsbD i.val then t.publishSeal i epoch isPartial else t) s

/-- Every slot of a set discards its seal, in ascending order (R63). -/
def discardSeals (s : State) (set : BitVec 32) : State :=
  allSlots.foldl (fun t i => if set.getLsbD i.val then t.dropSeal i .cohortDiscard else t) s

/-- The full publish of a cohort (R60). -/
def fullPublish (s : State) (c : CohortId) : State :=
  let e := (s.cohort c).epoch
  let t := s.publishSeals (s.cohort c).sealed e false
  (t.setCohort c { t.cohort c with sealed := 0, epoch := nextEpochAfter e, state := .idle }).offer
    .cohortPublished c.val (e.setWidth 32) 0

/-- The cohort unit takes the report of a member's seal (R57, R58, R59). -/
def sealReport (s : State) (c : CohortId) (i : SlotId) (superseded : Bool) : State :=
  let k := s.cohort c
  let sealed := k.sealed ||| slotBit i
  match k.state with
  | .idle =>
    if sealed = k.members then (s.setCohort c { k with sealed := sealed }).fullPublish c
    else s.setCohort c { k with
      sealed := sealed, state := .gathering,
      deadline := if k.window = 0 then k.deadline else s.now + BitVec.ofNat 32 k.window }
  | .gathering =>
    if superseded then s
    else if sealed = k.members then (s.setCohort c { k with sealed := sealed }).fullPublish c
    else s.setCohort c { k with sealed := sealed }

/-- The completion of a generation of a cohort slot: it is sealed, an older seal of the slot is superseded, and the
cohort unit is told (R7). -/
def sealGen (s : State) (i : SlotId) (g : GenId) (c : CohortId) (count : Nat) : State :=
  let x := s.slot i
  let y := x.setGen g { x.completed (x.gen g) count with state := .sealed }
  match x.sealedGen with
  | none => (s.setSlot i y).sealReport c i false
  | some o =>
    ((s.setSlot i (y.setGen o (Slot.emptied (x.gen o)))).offer .cohortSuperseded i.val (BitVec.ofNat 32 c.val) 0).sealReport
      c i true

/-- The completion of a FILLING generation with `count` words: published in a slot without a cohort (R6), sealed in a
cohort slot (R7). A completion that finds no FILLING generation has no effect (R6). -/
def complete (s : State) (i : SlotId) (g : GenId) (count : Nat) : State :=
  let x := s.slot i
  if (x.gen g).state = .filling then
    match x.cohort with
    | none => s.setSlot i (x.published g (x.completed (x.gen g) count) 0 false)
    | some c => s.sealGen i g c count
  else s

/-- A member's departure from its cohort (R64). -/
def depart (s : State) (c : CohortId) (i : SlotId) : State :=
  let k := s.cohort c
  let members := k.members &&& ~~~ slotBit i
  let sealed := k.sealed &&& ~~~ slotBit i
  let t := s.setCohort c { k with members := members, sealed := sealed }
  match k.state with
  | .idle => t
  | .gathering =>
    if sealed = 0 then t.setCohort c { k with members := members, sealed := sealed, state := .idle }
    else if sealed = members then t.fullPublish c
    else t

/-- A slot joins the MEMBERS of a cohort (R65). -/
def join (s : State) (c : CohortId) (i : SlotId) : State :=
  s.setCohort c { s.cohort c with members := (s.cohort c).members ||| slotBit i }

/-- A writer-target request of an ACTIVE slot (R4, R5): the chosen generation becomes FILLING, or the slot counts an
overrun. -/
def requestTarget (s : State) (i : SlotId) (stamp : Tick) (tag : BitVec 8) : State :=
  let x := s.slot i
  match x.target with
  | some g => s.setSlot i (x.setGen g (Slot.filled (x.gen g) stamp tag))
  | none => (s.setSlot i { x with overruns := saturate16 x.overruns }).offer .slotOverrun i.val x.newestSeq 0

/-- The fill that a granted writer-target request begins. -/
def targetFill (s : State) (i : SlotId) (g : GenId) : Nat := ((s.slot i).gen g).fill + 1

/-- A granted pin request adds one to PINS (R10). -/
def addPin (s : State) (i : SlotId) (g : GenId) : State :=
  s.setSlot i ((s.slot i).setPins g (((s.slot i).gen g).pins + 1))

/-- Every link's last-seen entry for a slot becomes 0 (R20). -/
def forgetSlot (s : State) (i : SlotId) : State :=
  allLinks.foldl (fun t k => t.setLink k { t.link k with lastSeen := Table.put (t.link k).lastSeen i 0 }) s

/-- The pool takes back the chain of one generation, whose HEAD becomes END (R30). -/
def returnChain (s : State) (i : SlotId) (g : GenId) : State :=
  let x := s.slot i
  match (x.gen g).head with
  | none => s
  | some f =>
    (s.setPool (s.pool.appendChain f x.ppg)).setSlot i (x.setGen g { x.gen g with head := none })

/-- The pool takes back a slot's chains, generation 0 first (R30). -/
def returnChains (s : State) (i : SlotId) : State :=
  allGens.foldl (fun t g => if g.val < (s.slot i).depth then t.returnChain i g else t) s

/-- The end of a drain (R20). -/
def drainEnd (s : State) (i : SlotId) : State :=
  let t := (s.returnChains i).forgetSlot i
  (t.setSlot i { t.slot i with state := .unused }).offer .slotReleased i.val
    (BitVec.ofNat 32 ((s.slot i).depth * (s.slot i).ppg)) 0

/-- The slot table's test for the end of a drain (R20). -/
def drainCheck (s : State) (i : SlotId) : State :=
  if (s.slot i).state = .draining ∧ (s.slot i).unpinned = true then s.drainEnd i else s

/-- The release of a pin (R11). -/
def release (s : State) (i : SlotId) (g : GenId) : State :=
  (s.setSlot i ((s.slot i).setPins g (((s.slot i).gen g).pins - 1))).drainCheck i

end State

end Sys2Proof.Machine
end

