-- ==== Sys2Proof/Machine/Capture.lean ====
section
/-! DEFINITION. Capture ports: the intake and the head (chapter 3). The acts of the head are divided as the table of steps
divides them (spec 95): an END met on the entry that also carried START is taken by HEAD_TAKE_END or SOURCE_ERROR after
HEAD_TAKE_START (log 11). -/

namespace Sys2Proof.Machine

/-- The FIFO with the BREAK mark set on its tail entry (R39). -/
def markTail : List FifoEntry → List FifoEntry
  | [] => []
  | [e] => [{ e with brk := true }]
  | e :: f :: l => e :: markTail (f :: l)

/-- The entry a transfer becomes: the tag is sampled with START, ERROR with END (R38, R39). -/
def entryFor (x : Transfer) (now : Tick) : FifoEntry :=
  { word := x.word, tag := if x.start then x.tag else 0, start := x.start, last := x.last, error := x.error && x.last,
    arrived := now, brk := false }

/-- Word i of a block is due to a slot's window (R43). -/
def Slot.wants (x : Slot) (i : Nat) : Bool := x.offset ≤ i && i < x.offset + x.length

namespace State

/-- The intake takes one transfer (R39). -/
def intake (s : State) (p : PortId) (x : Transfer) : State :=
  let q := s.port p
  if q.enable = false ∨ (q.awaitStart = true ∧ x.start = false) then s
  else if q.fifo.length < Config.fifoDepth then
    s.setPort p { q with awaitStart := false, fifo := q.fifo ++ [entryFor x s.now] }
  else s.setPort p { q with awaitStart := false, fifo := markTail q.fifo, overflowed := true }

/-- The generations of the members in a list are abandoned, in the list's order (R9). -/
def abandonMembers (s : State) (l : List FillMember) (why : AbandonReason) : State :=
  l.foldl (fun t m => t.abandon m.slot m.gen why) s

/-- The generations of the members in a list are completed with the words written into them (R45). R45 and R58 give the
completions of one block no order; that they are taken in the list's order, the FILL set's, is the model's choice
(log 27). -/
def completeMembers (s : State) (l : List FillMember) : State :=
  l.foldl (fun t m => t.complete m.slot m.gen ((t.slot m.slot).gen m.gen).words) s

/-- The open block is given up: every member's generation is abandoned and the FILL set becomes empty (R46 to R49). -/
def giveUpBlock (s : State) (p : PortId) (why : AbandonReason) : State :=
  let t := s.abandonMembers (s.port p).fill why
  t.setPort p { t.port p with fill := [], due := [] }

/-- A slot joins the FILL set of a port's open block (R41). -/
def addMember (s : State) (p : PortId) (m : FillMember) : State :=
  s.setPort p { s.port p with fill := (s.port p).fill ++ [m] }

/-- A slot bound to the port that keeps the block makes its writer-target request (R41, R42). -/
def keepBlock (s : State) (p : PortId) (e : FifoEntry) (i : SlotId) : State :=
  match (s.slot i).target with
  | some g => (s.requestTarget i e.arrived e.tag).addMember p { slot := i, gen := g, fill := s.targetFill i g }
  | none => s.requestTarget i e.arrived e.tag

/-- A block is offered to a slot (R42). -/
def offerBlock (s : State) (p : PortId) (e : FifoEntry) (i : SlotId) : State :=
  let x := s.slot i
  if x.state = .active ∧ x.source = .port p then
    if x.decCount + 1 = x.decimate then (s.setSlot i { x with decCount := 0 }).keepBlock p e i
    else s.setSlot i { x with decCount := x.decCount + 1 }
  else s

/-- A block is offered to every slot, in ascending order (R41). -/
def offerToSlots (s : State) (p : PortId) (e : FifoEntry) : State :=
  allSlots.foldl (fun t i => t.offerBlock p e i) s

/-- The head has finished with its entry: the entry leaves the FIFO, after the BREAK mark has had its effect (R48). -/
def leaveEntry (s : State) (p : PortId) : State :=
  match (s.port p).fifo with
  | [] => s
  | e :: l =>
    if e.brk then
      let t := if (s.port p).state = .inBlock then s.giveUpBlock p .captureOverflow else s
      t.setPort p { t.port p with fifo := l, state := .discard, begun := false }
    else s.setPort p { s.port p with fifo := l, begun := false }

/-- The block ends at its END: every member completes, the FILL set becomes empty and the port IDLE (R45). -/
def endBlock (s : State) (p : PortId) : State :=
  let t := s.completeMembers (s.port p).fill
  t.setPort p { t.port p with fill := [], due := [], state := .idle }

/-- The head finishes with a word: WORD_INDEX advances, an END ends the block, the entry leaves (R43, R45, R48). -/
def finishWord (s : State) (p : PortId) : State :=
  match (s.port p).fifo with
  | [] => s
  | e :: _ =>
    let t := s.setPort p { s.port p with wordIndex := saturate16 (s.port p).wordIndex, writing := false, due := [] }
    (if e.last then t.endBlock p else t).leaveEntry p

/-- The port presents the request of the next due member, unless a request of the port is still waiting (R33, R43). -/
def presentWrite (s : State) (p : PortId) : State :=
  let q := s.port p
  match q.req, q.due, q.fifo with
  | none, m :: l, e :: _ =>
    s.setPort p { q with
      due := l
      req := some { slot := m.slot, gen := m.gen, pos := q.wordIndex - (s.slot m.slot).offset, word := e.word,
                    fill := m.fill } }
  | _, _, _ => s

/-- The head takes the word of its entry: due requests are presented one at a time, and a word due to no member is
finished with at once (R43, R44). -/
def takeWord (s : State) (p : PortId) : State :=
  let q := s.port p
  match q.fill.filter (fun m => (s.slot m.slot).wants q.wordIndex) with
  | [] => s.finishWord p
  | m :: l => (s.setPort p { q with writing := true, due := m :: l }).presentWrite p

/-- What the port does once its waiting request has been granted or withdrawn (R43). -/
def afterRequest (s : State) (p : PortId) : State :=
  match (s.port p).due with
  | _ :: _ => s.presentWrite p
  | [] => if (s.port p).writing then s.finishWord p else s

/-- Steps 1 to 4 of R41. -/
def beginBlock (s : State) (p : PortId) (e : FifoEntry) : State :=
  let s1 := if (s.port p).state = .inBlock then s.giveUpBlock p .missingEnd else s
  let s2 := s1.setPort p { s1.port p with blocksSeen := (s1.port p).blocksSeen + 1, wordIndex := 0 }
  let s3 := s2.offerToSlots p e
  s3.setPort p { s3.port p with state := .inBlock, begun := true }

/-- HEAD_TAKE_START (R41). -/
def headStart (s : State) (p : PortId) : State :=
  match (s.port p).fifo with
  | [] => s
  | e :: _ =>
    if e.start = true ∧ (s.port p).begun = false ∧ (s.port p).writing = false then
      if e.last then s.beginBlock p e else (s.beginBlock p e).takeWord p
    else s

/-- HEAD_TAKE_WORD (R43, R44). -/
def headWord (s : State) (p : PortId) : State :=
  match (s.port p).fifo with
  | [] => s
  | e :: _ =>
    if (s.port p).state = .inBlock ∧ e.start = false ∧ e.last = false ∧ (s.port p).writing = false then s.takeWord p
    else s

/-- HEAD_TAKE_END (R45). -/
def headEnd (s : State) (p : PortId) : State :=
  match (s.port p).fifo with
  | [] => s
  | e :: _ =>
    if (s.port p).state = .inBlock ∧ e.last = true ∧ e.error = false ∧ (s.port p).begun = e.start ∧
        (s.port p).writing = false then s.takeWord p
    else s

/-- SOURCE_ERROR (R46). -/
def headError (s : State) (p : PortId) : State :=
  match (s.port p).fifo with
  | [] => s
  | e :: _ =>
    if (s.port p).state = .inBlock ∧ e.last = true ∧ e.error = true ∧ (s.port p).begun = e.start ∧
        (s.port p).writing = false then
      let t := s.giveUpBlock p .sourceError
      (t.setPort p { t.port p with state := .idle }).leaveEntry p
    else s

/-- HEAD_DROP_ENTRY (R44). -/
def headDrop (s : State) (p : PortId) : State :=
  match (s.port p).fifo with
  | [] => s
  | e :: _ =>
    if (s.port p).state ≠ .inBlock ∧ e.start = false ∧ (s.port p).writing = false then s.leaveEntry p else s

end State

/-- What a command answers. -/
abbrev Result := Host.Outcome State Fault Refusal

/-- CAPTURE_TRANSFER (R39). -/
def execCaptureTransfer (p : PortId) (x : Transfer) (s : State) : Result := .next (s.intake p x)

/-- HEAD_TAKE_START (R41). -/
def execHeadTakeStart (p : PortId) (s : State) : Result := .next (s.headStart p)

/-- HEAD_TAKE_WORD (R43, R44). -/
def execHeadTakeWord (p : PortId) (s : State) : Result := .next (s.headWord p)

/-- HEAD_DROP_ENTRY (R44). -/
def execHeadDropEntry (p : PortId) (s : State) : Result := .next (s.headDrop p)

/-- HEAD_TAKE_END (R45). -/
def execHeadTakeEnd (p : PortId) (s : State) : Result := .next (s.headEnd p)

/-- SOURCE_ERROR (R46). -/
def execSourceError (p : PortId) (s : State) : Result := .next (s.headError p)

end Sys2Proof.Machine
end

