-- ==== Sys2Proof/Machine/Frames.lean ====
section
/-! DEFINITION. Emit links at work: frame begin, assembly, the emit line, frame end and abort (chapters 6 and 7). -/

namespace Sys2Proof.Machine

/-! ### The frame CRC (R119) -/

/-- The CRC register after one bit. -/
def crcBit (r : Word) (b : Bool) : Word :=
  if r.msb = b then r <<< 1 else (r <<< 1) ^^^ 0x04C11DB7#32

/-- The CRC register after the n lowest bits of a word, the highest of them first. -/
def crcBits (r w : Word) : Nat → Word
  | 0 => r
  | n + 1 => crcBits (crcBit r (w.getLsbD n)) w n

/-- The CRC register after one word: the most significant byte and bit first. -/
def crcWord (r w : Word) : Word := crcBits r w 32

/-- The CRC register before the first word. -/
def crcStart : Word := 0xFFFFFFFF#32

/-! ### Frame words (R99, R118, §11.8) -/

/-- The code of an item kind (§11.8). -/
def ItemKind.value : ItemKind → Nat
  | .data => 0 | .stale => 1 | .repeated => 2 | .absent => 3

/-- A word of a frame: made by the link, read from the store (record word pos of the slot's pinned generation), or the
trailer. -/
inductive FrameWord where
  | plain (w : Word)
  | data (i : SlotId) (pos : Nat)
  | trailer
  deriving DecidableEq, Repr

/-- Item header 1 (§11.8). -/
def itemHeader (it : Item) : Word :=
  field 31 30 it.kind.value ||| field 28 24 it.slot.val ||| flagBit 17 it.isShort ||| flagBit 16 it.isPartial |||
    field 10 0 it.n

/-- Word j of an item: three header words, then its data words (R99). -/
def itemWord (it : Item) : Nat → FrameWord
  | 0 => .plain (itemHeader it)
  | 1 => .plain it.seq
  | 2 => .plain it.stamp
  | j + 3 => .data it.slot (it.first + j)

/-- Word j after the frame header: the items' words in order, then the trailer. -/
def bodyWord : List Item → Nat → Option FrameWord
  | [], 0 => some .trailer
  | [], _ + 1 => none
  | it :: l, j => if j < 3 + it.n then some (itemWord it j) else bodyWord l (j - (3 + it.n))

/-- Header word j of a frame (§11.8). -/
def headerWord (k : LinkId) (l : Link) (f : Frame) : Nat → Word
  | 0 => l.sync
  | 1 => field 31 16 f.number.toNat ||| field 15 12 k.val ||| field 10 0 l.items.length
  | 2 => field 31 16 f.cycle.toNat ||| field 15 0 f.tag.toNat
  | _ => f.begun

/-- Word j of the frame in flight, counted from 0. -/
def frameWord (k : LinkId) (l : Link) (f : Frame) (j : Nat) : Option FrameWord :=
  if j < 4 then some (.plain (headerWord k l f j)) else bodyWord l.items (j - 4)

/-- The item whose last word is word j after the frame header (§6.6). -/
def itemEndingAt : List Item → Nat → Option Item
  | [], _ => none
  | it :: l, j =>
    if j + 1 = 3 + it.n then some it
    else if j < 3 + it.n then none
    else itemEndingAt l (j - (3 + it.n))

/-- The number of words of a frame with these items, header and trailer counted (R99). -/
def frameLength (items : List Item) : Nat := 4 + (items.map fun it => 3 + it.n).sum + 1

/-- The word an emit line presents with VALID high; none with VALID low (R116). -/
def Link.presented (l : Link) : Option Word :=
  match l.line with
  | .drive => l.buffer.head?
  | .abort => l.abortWord
  | .quiet | .gap => none

/-! ### Classification (R97, R98) -/

/-- The pin of a frame on a slot. -/
def Link.pinOn (l : Link) (i : SlotId) : Option PinEntry := l.pinSet.find? fun p => p.slot = i

/-- The number of data words of a DATA item, W being the pinned generation's WORDS (R98). -/
def dataCount (offset count w : Nat) : Nat :=
  if w ≤ offset then 0 else if count = 0 then w - offset else min count (w - offset)

/-- The item of one EMIT or EMIT_FRESH entry, at frame begin time t (R97, R98). -/
def classify (l : Link) (t : Tick) (c : Nat × SchedEntry) : Item :=
  let e := c.2
  match l.pinOn e.slot with
  | none =>
    { entry := c.1, kind := .absent, slot := e.slot, seq := 0, stamp := 0, isShort := false, isPartial := false, n := 0,
      first := e.offset }
  | some p =>
    if e.maxAge ≠ 0 ∧ e.maxAge < ticksBetween t p.stamp then
      { entry := c.1, kind := .stale, slot := e.slot, seq := p.seq, stamp := p.stamp, isShort := p.isShort,
        isPartial := p.isPartial, n := 0, first := e.offset }
    else if e.action = .emitFresh ∧ p.seq = l.lastSeen.get e.slot then
      { entry := c.1, kind := .repeated, slot := e.slot, seq := p.seq, stamp := p.stamp, isShort := p.isShort,
        isPartial := p.isPartial, n := 0, first := e.offset }
    else
      let n := dataCount e.offset e.count p.words
      { entry := c.1, kind := .data, slot := e.slot, seq := p.seq, stamp := p.stamp,
        isShort := p.isShort || (decide (e.count ≠ 0) && decide (n < e.count)) || (decide (e.count = 0) && decide (n = 0)),
        isPartial := p.isPartial, n := n, first := e.offset }

/-- The distinct slots a frame's entries name, in the order of each slot's first entry (R96). -/
def distinctSlots (l : List (Nat × SchedEntry)) : List SlotId :=
  l.foldl (fun acc c => if c.2.slot ∈ acc then acc else acc ++ [c.2.slot]) []

namespace State

/-- A word of the schedule memory. -/
def scheduleWord (s : State) (a : Nat) : Word := (Cells.read clearedWord s.schedule a).getD 0

/-- A schedule entry as it stands (R71, R72). -/
def entry (s : State) (e : Nat) : SchedEntry := entryOf (s.scheduleWord (2 * e)) (s.scheduleWord (2 * e + 1))

/-- The entries of a program from index k up to its next FRAME_END, each with its entry number, and the index after that
FRAME_END (R96). `fuel` counts the entries the program still holds. -/
def frameRun (s : State) (base : Nat) : Nat → Nat → List (Nat × SchedEntry) × Nat
  | 0, k => ([], k)
  | fuel + 1, k =>
    if (s.entry (base + k)).action = .frameEnd then ([], k + 1)
    else match frameRun s base fuel (k + 1) with
      | (l, next) => ((base + k, s.entry (base + k)) :: l, next)

/-- A link's pin request for one slot of its frame (R96). -/
def claimPin (s : State) (k : LinkId) (i : SlotId) : State :=
  match (s.slot i).pinAnswer with
  | .granted g =>
    let y := (s.slot i).gen g
    (s.addPin i g).setLink k { s.link k with
      pinSet := (s.link k).pinSet ++
        [{ slot := i, gen := g, seq := y.seq, stamp := y.stamp, words := y.words, isShort := y.isShort,
           isPartial := y.isPartial, epoch := y.epoch }] }
  | .notReady | .refused => s

/-- The claim of a frame begin: one request for each distinct slot, taken together (R61, R96). -/
def claimPins (s : State) (k : LinkId) (l : List SlotId) : State := l.foldl (fun t i => t.claimPin k i) s

/-- The link places a word of its frame in the output buffer; the line leaves QUIET or GAP (R100, R116, R119). -/
def placeWord (s : State) (k : LinkId) (w : Word) (isTrailer : Bool) : State :=
  let l := s.link k
  match l.frame with
  | none => s
  | some f =>
    s.setLink k { l with
      buffer := l.buffer ++ [w]
      frame := some { f with placed := f.placed + 1, crc := if isTrailer then f.crc else crcWord f.crc w }
      line := if l.line = .abort then .abort else .drive }

/-- A link whose next word is a data word, with room in its buffer and no request waiting, presents its read request
(R33, R100; log 13). -/
def presentRead (s : State) (k : LinkId) : State :=
  let l := s.link k
  match l.frame with
  | none => s
  | some f =>
    if l.line ≠ .abort ∧ l.req = none ∧ l.buffer.length < Config.bufferDepth then
      match frameWord k l f f.placed with
      | some (.data i pos) =>
        (match l.pinOn i with
        | some p => s.setLink k { l with req := some { slot := i, gen := p.gen, pos := pos } }
        | none => s)
      | some (.plain _) | some .trailer | none => s
    else s

/-- LINK_PLACE_WORD: the link places its next word where that is a header word, an item header word or the trailer
(R100). -/
def placeNext (s : State) (k : LinkId) : State :=
  let l := s.link k
  match l.frame with
  | none => s
  | some f =>
    if l.line ≠ .abort ∧ l.buffer.length < Config.bufferDepth then
      match frameWord k l f f.placed with
      | some (.plain w) => (s.placeWord k w false).presentRead k
      | some .trailer => s.placeWord k (~~~ f.crc) true
      | some (.data _ _) | none => s
    else s

/-- Frame begin (R94, R96 to R100). -/
def frameBegin (s : State) (k : LinkId) : State :=
  let l := s.link k
  let run := s.frameRun l.active.base (l.active.len - l.cursor) l.cursor
  let t := s.claimPins k (distinctSlots run.1)
  let l1 := t.link k
  let f : Frame :=
    { number := l.frameNo, cycle := l.cycleNo, tag := l.active.tag, begun := s.now, next := run.2, placed := 0, taken := 0,
      crc := crcStart }
  (t.setLink k { l1 with
    state := .frame, frameNo := l.frameNo + 1, frame := some f, items := run.1.map (classify l1 s.now) }).placeWord
      k l.sync false

/-- A slip (R95). -/
def slip (s : State) (k : LinkId) : State :=
  let l := s.link k
  (s.setLink k { l with frameNo := l.frameNo + 1, slips := saturate16 l.slips }).offer
    .frameSlip k.val (l.frameNo.setWidth 32) 0

/-- A period expiry has come due and is still to be taken. -/
def periodDue (s : State) (k : LinkId) : Bool :=
  ((s.link k).state = .wait || (s.link k).state = .frame) && (s.link k).remain = 0

/-- PERIOD_EXPIRY (R93): REMAIN is reloaded, and the expiry begins a frame in WAIT (R94) or is a slip in FRAME (R95). -/
def periodExpiry (s : State) (k : LinkId) : State :=
  if s.periodDue k then
    let t := s.setLink k { s.link k with remain := (s.link k).period }
    if (s.link k).state = .wait then t.frameBegin k else t.slip k
  else s

/-- A link's pins are released and the pin set becomes empty (R104, R106). No rule gives the releases of one frame an order;
the order of the pin set is the model's choice (log 28). -/
def releasePins (s : State) (k : LinkId) : State :=
  let t := (s.link k).pinSet.foldl (fun t p => t.release p.slot p.gen) s
  t.setLink k { t.link k with pinSet := [] }

/-- A link reaches OFF (R112). -/
def linkOff (s : State) (k : LinkId) (reason : BitVec 4) : State :=
  let l := s.link k
  (s.setLink k { l with state := .off, pendingValid := false, pinSet := [], items := [], buffer := [], frame := none }).offer
    .linkStopped k.val (l.frameNo.setWidth 32) reason

/-- The swap at the end of a cycle (R87). -/
def swapProgram (s : State) (k : LinkId) : State :=
  let l := s.link k
  (s.setLink k { l with active := l.pending, pendingValid := false }).offer
    .programSwapped k.val (l.pending.tag.setWidth 32) 0

/-- The end of a cycle (R87, R104 step 3). -/
def cycleEnd (s : State) (k : LinkId) : State :=
  let l := s.link k
  (s.setLink k { l with cursor := 0, cycleNo := l.cycleNo + 1 }).offer .cycleDone k.val (l.cycleNo.setWidth 32) 0

/-- The cursor moves past the frame's FRAME_END, and a cycle may end (R104 steps 2 and 3, R107). -/
def advanceCursor (s : State) (k : LinkId) (next : Nat) : State :=
  let l := s.link k
  let t := s.setLink k { l with cursor := next, items := [], frame := none }
  if next < l.active.len then t else t.cycleEnd k

/-- Steps 2 to 5 of R104: the cursor, the end of a cycle, the swap, and the link's return to WAIT or its way to OFF, with
the given REASON of LINK_STOPPED. -/
def frameDone (s : State) (k : LinkId) (reason : BitVec 4) : State :=
  let l := s.link k
  match l.frame with
  | none => s
  | some f =>
    let t := s.advanceCursor k f.next
    if l.state = .stopping then t.linkOff k reason
    else
      let t1 := if l.active.len ≤ f.next ∧ l.pendingValid = true then t.swapProgram k else t
      t1.setLink k { t1.link k with state := .wait }

/-- The end of a frame sent whole (R104). -/
def frameEnd (s : State) (k : LinkId) : State := (s.releasePins k).frameDone k 0

/-- An item completes: the last-seen update of R102 and the ITEM_MARK of R103. -/
def itemDone (s : State) (k : LinkId) (it : Item) : State :=
  let t := if it.kind = .data ∨ it.kind = .repeated then
      s.setLink k { s.link k with lastSeen := Table.put (s.link k).lastSeen it.slot it.seq }
    else s
  if (s.entry it.entry).mark then t.offer .itemMark (markObject k it.entry) it.seq 0 else t

/-- The item whose last word is word j of the frame (§6.6). -/
def itemEnding (s : State) (k : LinkId) (j : Nat) : Option Item :=
  if 4 ≤ j then itemEndingAt (s.link k).items (j - 4) else none

/-- A word that is not the trailer has left the buffer (R117). -/
def afterTake (s : State) (k : LinkId) (j : Nat) : State :=
  match s.itemEnding k j with
  | some it => (s.itemDone k it).presentRead k
  | none => s.presentRead k

/-- The abort word leaves the line, taken or given up (R122). -/
def clearAbortWord (s : State) (k : LinkId) : State :=
  s.setLink k { s.link k with abortWord := none, line := .quiet, stallTimer := 0, giveUpDue := false }

/-- WORD_TAKEN: a transfer point with READY high (R115, R117, R122). With VALID low it takes nothing. -/
def wordTaken (s : State) (k : LinkId) : State :=
  let l := s.link k
  match l.line with
  | .quiet | .gap => s
  | .abort => (s.clearAbortWord k).frameDone k 0
  | .drive =>
    match l.buffer, l.frame with
    | _ :: rest, some f =>
      let l1 := { l with buffer := rest, frame := some { f with taken := f.taken + 1 }, stallTimer := 0 }
      if frameWord k l f f.taken = some .trailer then (s.setLink k { l1 with line := .quiet }).frameEnd k
      else (s.setLink k { l1 with line := if rest.isEmpty then .gap else .drive }).afterTake k f.taken
    | _, _ => s

/-- The abort of the frame in flight (R106, R121). -/
def abortFrame (s : State) (k : LinkId) (why : AbortReason) : State :=
  let l := s.link k
  match l.frame with
  | none => s
  | some f =>
    let t := (s.setLink k { l with
      req := none, buffer := [], abortWord := some (~~~ l.sync), line := .abort, stallTimer := 0,
      giveUpDue := false }).releasePins k
    (t.setLink k { t.link k with aborts := saturate16 (t.link k).aborts }).offer
      .frameAborted k.val (f.number.setWidth 32) why.value

/-- A stall has reached its limit and the abort is still to be taken (R120). -/
def stallDue (s : State) (k : LinkId) : Bool :=
  (s.link k).line = .drive && (s.link k).stallTimer = (s.link k).stallLimit

/-- STALL_ABORT (R120). -/
def stallAbort (s : State) (k : LinkId) : State := if s.stallDue k then s.abortFrame k .stall else s

/-- The give-up of an abort word has come due and is still to be taken (R122). -/
def giveUpDue (s : State) (k : LinkId) : Bool :=
  (s.link k).line = .abort && (s.link k).state = .stopping && (s.link k).giveUpDue

/-- ABORT_WORD_GIVE_UP (R111, R122): the word is dropped, and the link goes to OFF with UNFLUSHED. -/
def giveUp (s : State) (k : LinkId) : State :=
  if s.giveUpDue k then (s.clearAbortWord k).frameDone k 1 else s

end State

/-- PERIOD_EXPIRY (R93). -/
def execPeriodExpiry (k : LinkId) (s : State) : Result := .next (s.periodExpiry k)

/-- LINK_PLACE_WORD (R100). -/
def execLinkPlaceWord (k : LinkId) (s : State) : Result := .next (s.placeNext k)

/-- WORD_TAKEN (R115). -/
def execWordTaken (k : LinkId) (s : State) : Result := .next (s.wordTaken k)

/-- STALL_ABORT (R120). -/
def execStallAbort (k : LinkId) (s : State) : Result := .next (s.stallAbort k)

/-- ABORT_WORD_GIVE_UP (R122). -/
def execAbortWordGiveUp (k : LinkId) (s : State) : Result := .next (s.giveUp k)

end Sys2Proof.Machine
end

