-- ==== Sys2Proof/Machine/Store.lean ====
section
/-! DEFINITION. The store arbiter: the choice of a waiting request and the carrying out of its access (chapter 2, §2.7 and
§2.8). -/

namespace Sys2Proof.Machine

/-- Who may claim the store port (§2.7). -/
inductive Requester where
  | port (p : PortId)
  | link (k : LinkId)
  | handle (h : HandleId)
  | feed
  deriving DecidableEq, Repr

/-- The requester at a ring position: 0-11 capture ports, 12-17 links, 18 and 19 handles, 20 the feed (R33). -/
def requesterAt (r : Fin 21) : Requester :=
  if h : r.val < 12 then .port ⟨r.val, h⟩
  else if h : r.val < 18 then .link ⟨r.val - 12, by omega⟩
  else if h : r.val < 20 then .handle ⟨r.val - 18, by omega⟩
  else .feed

/-- The ring positions after LAST_GRANTED, in the order the arbiter looks at them (R33). -/
def ringAfter (last : Fin 21) : List (Fin 21) :=
  (List.range 21).map fun n => Fin.ofNat 21 (last.val + 1 + n)

/-- What one grant came to. -/
inductive Grant where
  /-- The access was carried out. -/
  | done (s : State)
  /-- The write was withdrawn at its grant; the arbiter grants again (R35). -/
  | withdrawn (s : State)
  /-- The access has no store word. -/
  | stuck (f : Fault)
  deriving DecidableEq, Repr

namespace State

/-- A requester has a request waiting. -/
def waiting (s : State) (r : Fin 21) : Bool :=
  match requesterAt r with
  | .port p => (s.port p).req.isSome
  | .link k => (s.link k).req.isSome
  | .handle h => (s.handle h).req.isSome
  | .feed => s.feed.req.isSome

/-- Some capture FIFO holds more than 24 words (R34). -/
def capturePreferred (s : State) : Bool := allPorts.any fun p => Config.preferenceLevel < (s.port p).fifo.length

/-- The request the arbiter grants next: the first in ring order after LAST_GRANTED (R33), a capture request before any
other while the preference holds (R34). -/
def nextGrant (s : State) : Option (Fin 21) :=
  let ring := ringAfter s.lastGranted
  match (if s.capturePreferred then ring.find? (fun r => r.val < 12 && s.waiting r) else none) with
  | some r => some r
  | none => ring.find? s.waiting

/-- The request's generation is FILLING in the fill the request belongs to (R35). -/
def sameFill (s : State) (q : WriteReq) : Bool :=
  ((s.slot q.slot).gen q.gen).state = .filling && ((s.slot q.slot).gen q.gen).fill = q.fill

/-- A store word is written. -/
def storeWord (s : State) (a : Nat) (w : Word) : State := { s with store := Cells.write unknownWord s.store a w }

/-- A word is written into a generation, whose WORDS increases by one (R43, R132). -/
def writeInto (s : State) (a : Nat) (q : WriteReq) : State :=
  let x := s.slot q.slot
  (s.storeWord a q.word).setSlot q.slot (x.setGen q.gen { x.gen q.gen with words := (x.gen q.gen).words + 1 })

/-- LAST_GRANTED is set to the position granted (R33). -/
def granted (s : State) (r : Fin 21) : State := { s with lastGranted := r }

/-- The word a read request names (R25, R32). -/
def readFor (s : State) (q : ReadReq) : Except Fault Word :=
  match s.wordAddress q.slot q.gen q.pos with
  | none => .error .brokenChain
  | some a => .ok (s.readStore a)

/-- A capture port's request is granted (R35, R43). -/
def grantPort (s : State) (r : Fin 21) (p : PortId) (q : WriteReq) : Grant :=
  let t := s.setPort p { s.port p with req := none }
  if s.sameFill q then
    match s.wordAddress q.slot q.gen q.pos with
    | none => .stuck .brokenChain
    | some a => .done (((t.writeInto a q).granted r).afterRequest p)
  else .withdrawn (t.afterRequest p)

/-- The feed's request is granted (R35, R132). -/
def grantFeed (s : State) (r : Fin 21) (q : WriteReq) : Grant :=
  let t := s.setFeed { s.feed with req := none }
  if s.sameFill q then
    match s.wordAddress q.slot q.gen q.pos with
    | none => .stuck .brokenChain
    | some a => .done ((t.writeInto a q).setFeed { t.feed with wordIndex := saturate16 t.feed.wordIndex } |>.granted r)
  else .withdrawn t

/-- A link's request is granted: the word enters its output buffer (R100). -/
def grantLink (s : State) (r : Fin 21) (k : LinkId) (q : ReadReq) : Grant :=
  match s.readFor q with
  | .error f => .stuck f
  | .ok w =>
    .done ((((s.setLink k { s.link k with req := none }).placeWord k w false).presentRead k).granted r)

/-- A handle's request is granted: the host read returns the word and ADDR advances (R127). -/
def grantHandle (s : State) (r : Fin 21) (h : HandleId) (q : ReadReq) : Grant :=
  match s.readFor q with
  | .error f => .stuck f
  | .ok w =>
    let t := s.setHandle h { s.handle h with req := none, addr := (s.handle h).addr + 1 }
    .done ({ t with busRead := w }.granted r)

/-- The request at a ring position is granted. -/
def grantAt (s : State) (r : Fin 21) : Grant :=
  match requesterAt r with
  | .port p => (match (s.port p).req with
    | some q => s.grantPort r p q
    | none => .done s)
  | .link k => (match (s.link k).req with
    | some q => s.grantLink r k q
    | none => .done s)
  | .handle h => (match (s.handle h).req with
    | some q => s.grantHandle r h q
    | none => .done s)
  | .feed => (match s.feed.req with
    | some q => s.grantFeed r q
    | none => .done s)

/-- The number of write requests that a grant may have to withdraw: those waiting and those still to be presented. -/
def writeRequests (s : State) : Nat :=
  (allPorts.map fun p => (s.port p).due.length + (s.port p).req.isSome.toNat).sum + s.feed.req.isSome.toNat

/-- The arbiter grants one request; where a write is withdrawn at its grant, the arbiter grants again (R33 to R35).
`fuel` bounds the withdrawals. -/
def arbitrate : Nat → State → Result
  | 0, s => .next s
  | fuel + 1, s =>
    match s.nextGrant with
    | none => .next s
    | some r =>
      match s.grantAt r with
      | .done t => .next t
      | .withdrawn t => arbitrate fuel t
      | .stuck f => .fault f

/-- One grant of the store port (R33, R34, R35). -/
def grantOne (s : State) : Result := arbitrate (s.writeRequests + 1) s

end State

/-- STORE_GRANT (R33). -/
def execStoreGrant (s : State) : Result := s.grantOne

end Sys2Proof.Machine
end

