-- ==== Sys2Proof/Machine/Bus.lean ====
section
/-! DEFINITION. Host accesses: one at a time, held by the wait line where they need the store (R160), discarded or answered
during a reset (R158, R159); and the acceptance and the end of a command (chapter 10). -/

namespace Sys2Proof.Machine

/-- Go on from a next state; keep a stop. -/
def Result.andThen (r : Result) (f : State → Result) : Result :=
  match r with
  | .next s => f s
  | .fault e => .fault e
  | .refused e => .refused e

namespace State

/-- A host access is held: the wait line is asserted (R160). -/
def waitLine (s : State) : Bool := (allHandles.any fun h => (s.handle h).req.isSome) || s.feed.req.isSome

/-- The arbiter grants until no host access is held: an access held by the wait line has ended before the next is taken
(R160; log 6). `fuel` bounds the grants. -/
def endHeld : Nat → State → Result
  | 0, s => if s.waitLine then .fault .heldAccessNotGranted else .next s
  | fuel + 1, s => if s.waitLine then Result.andThen s.grantOne (endHeld fuel) else .next s

/-- A host access that the part takes. -/
def hostAccess (s : State) (act : State → State) : Result :=
  Result.andThen (endHeld Config.grantBound s) fun t => .next (act t)

/-- A host write: discarded while a reset is in progress, ignored while the RESET pin is asserted (R158, R159). -/
def hostWrite (s : State) (act : State → State) : Result :=
  match s.resetPhase with
  | .none => s.hostAccess act
  | .running _ _ | .held => .next s

/-- A host write to GLOBAL_CONTROL or EVENT_MASK: taken during a reset too (R158), ignored while the pin is asserted. -/
def controlWrite (s : State) (act : State → State) : Result :=
  match s.resetPhase with
  | .none | .running _ _ => s.hostAccess act
  | .held => .next s

/-- A host read with an effect: taken during a reset too; it returns 0 while the pin is asserted (R158, R159). -/
def hostRead (s : State) (act : State → State) : Result :=
  match s.resetPhase with
  | .none | .running _ _ => s.hostAccess act
  | .held => .next { s with busRead := 0 }

/-- A trigger write: accepted in IDLE, dropped with COMMAND_REJECTED in BUSY (R152, R156). -/
def trigger (act : State → State) (s : State) : State :=
  match s.cmd.state with
  | .idle => act s
  | .busy => { s with cmd := { s.cmd with rejected := true } }

/-- An argument register (R151). -/
def arg (s : State) (n : Fin 6) : Word := s.cmd.args.get n

/-- A command is refused by the test with this order number (R153, R155). -/
def refuse (s : State) (code : ResultCode) (test : Nat) : State := s.result code (BitVec.ofNat 32 test)

/-- A command that takes time sets the unit BUSY, with its arguments copied (R151, R154). -/
def startCommand (s : State) (c : LongCommand) : State :=
  { s with cmd := { s.cmd with
      state := .busy, running := some { command := c, args := s.cmd.args, began := s.now } } }

/-- The end of a command that takes time: the result, COMMAND_DONE, the unit IDLE (R154). -/
def endCommand (s : State) (object : Nat) (code : ResultCode) (detail : Word) : State :=
  let t := (s.result code detail).offer .commandDone object (BitVec.ofNat 32 code.value) 0
  { t with cmd := { t.cmd with state := .idle, running := none } }

end State

end Sys2Proof.Machine
end

