-- ==== Sys2Proof/Machine/Cohorts.lean ====
section
/-! DEFINITION. COHORT_SET and the expiry of a cohort's window (chapter 4). -/

namespace Sys2Proof.Machine

/-- The policy ARG2 of COHORT_SET selects: 0 PARTIAL, 1 DISCARD, as a whole value (R162). -/
def policyArg (w : Word) : Option Policy :=
  if w = 0 then some .publish else if w = 1 then some .discard else none

namespace State

/-- COHORT_SET (R67). -/
def cohortSet (s : State) : State :=
  match objectArg 4 (s.arg 0) with
  | none => s.refuse .badArg 1
  | some c =>
    if (s.cohort c).state ≠ .idle then s.refuse .state 2
    else if Config.longestWindow < (s.arg 1).toNat then s.refuse .badArg 3
    else match policyArg (s.arg 2) with
      | none => s.refuse .badArg 4
      | some p => (s.setCohort c { s.cohort c with window := (s.arg 1).toNat, policy := p }).result .ok 0

/-- A window expiry has come due and is still to be taken (R62). -/
def windowDue (s : State) (c : CohortId) : Bool :=
  (s.cohort c).state = .gathering && (s.cohort c).window ≠ 0 && s.now = (s.cohort c).deadline

/-- The expiry under PARTIAL: the cohort publishes what it holds (R62). -/
def partialPublish (s : State) (c : CohortId) : State :=
  let e := (s.cohort c).epoch
  let t := s.publishSeals (s.cohort c).sealed e true
  (t.setCohort c { t.cohort c with sealed := 0, epoch := nextEpochAfter e, state := .idle }).offer
    .cohortTimeout c.val (e.setWidth 32) 0

/-- The expiry under DISCARD: the cohort discards what it holds (R63). -/
def cohortDiscard (s : State) (c : CohortId) : State :=
  let t := s.discardSeals (s.cohort c).sealed
  (t.setCohort c { t.cohort c with sealed := 0, state := .idle }).offer .cohortTimeout c.val 0 0

/-- WINDOW_EXPIRY (R62, R63). -/
def windowExpiry (s : State) (c : CohortId) : State :=
  if s.windowDue c then
    match (s.cohort c).policy with
    | .publish => s.partialPublish c
    | .discard => s.cohortDiscard c
  else s

end State

/-- COHORT_SET (R67). -/
def execCohortSet (s : State) : Result := s.hostWrite (State.trigger State.cohortSet)
/-- WINDOW_EXPIRY (R62, R63). -/
def execWindowExpiry (c : CohortId) (s : State) : Result := .next (s.windowExpiry c)

end Sys2Proof.Machine
end

