-- ==== Sys2Proof/Machine/Events.lean ====
section
/-! DEFINITION. The host's accesses to the event queue and to COMMAND_REJECTED (§9.4 to §9.6, R156). -/

namespace Sys2Proof.Machine
namespace State

/-- POP removes the oldest record; on an empty queue it has no effect (R148). -/
def popEvent (s : State) : State := { s with events := { s.events with records := s.events.records.drop 1 } }

/-- A read of LOST returns it and sets it to 0 (R145). -/
def readLost (s : State) : State :=
  { s with events := { s.events with lost := 0 }, busRead := BitVec.ofNat 32 s.events.lost }

/-- A write of MASK: the bits of the kinds that exist are stored (R146). -/
def writeMask (v : Word) (s : State) : State := { s with events := { s.events with mask := v &&& Config.maskBits } }

/-- A write of IRQ_ENABLE (R149). -/
def writeIrqEnable (bit : Bool) (s : State) : State := { s with events := { s.events with irqEnable := bit } }

/-- The host writes COMMAND_REJECTED (R156). -/
def clearRejected (bit : Bool) (s : State) : State :=
  { s with cmd := { s.cmd with rejected := afterClear s.cmd.rejected bit } }

end State

/-- EVENT_POP (R148). -/
def execEventPop (s : State) : Result := s.hostWrite State.popEvent
/-- EVENT_LOST (R145). -/
def execEventLost (s : State) : Result := s.hostRead State.readLost
/-- EVENT_MASK (R146). -/
def execEventMask (v : Word) (s : State) : Result := s.controlWrite (State.writeMask v)
/-- IRQ_ENABLE (R149). -/
def execIrqEnable (bit : Bool) (s : State) : Result := s.controlWrite (State.writeIrqEnable bit)
/-- COMMAND_REJECTED_CLEAR (R156). -/
def execCommandRejectedClear (bit : Bool) (s : State) : Result := s.hostWrite (State.clearRejected bit)

end Sys2Proof.Machine
end

