-- ==== Sys2Proof/Machine/Feed.lean ====
section
/-! DEFINITION. The feed (§8.5 to §8.9). -/

namespace Sys2Proof.Machine
namespace State

/-- FEED_OPEN after its tests: the feed asks the slot for a generation (R131). -/
def openFeed (s : State) (i : SlotId) : State :=
  let t := s.requestTarget i s.now ((s.arg 1).setWidth 8)
  match (s.slot i).target with
  | some g =>
    (t.setFeed
      { state := .opened, slot := i, gen := g, wordIndex := 0, idleLimit := (s.arg 2).toNat, idleCount := 0,
        overlength := false, fill := s.targetFill i g, req := s.feed.req }).result .ok (BitVec.ofNat 32 g.val)
  | none => t.result .noGeneration 0

/-- FEED_OPEN (R131). -/
def feedOpen (s : State) : State :=
  match objectArg 32 (s.arg 0) with
  | none => s.refuse .badArg 1
  | some i =>
    if s.feed.state ≠ .idle then s.refuse .inUse 2
    else if 255 < (s.arg 1).toNat then s.refuse .badArg 3
    else if ¬ (1 ≤ (s.arg 2).toNat ∧ (s.arg 2).toNat ≤ Config.longestWindow) then s.refuse .badArg 4
    else if (s.slot i).state ≠ .active then s.refuse .state 5
    else if (s.slot i).source ≠ .feed then s.refuse .badArg 6
    else s.openFeed i

/-- A host write of the feed data register (R132). -/
def writeFeed (v : Word) (s : State) : State :=
  let f := s.feed
  match f.state with
  | .idle => s
  | .opened =>
    if f.wordIndex < (s.slot f.slot).length then
      s.setFeed { f with
        idleCount := 0, req := some { slot := f.slot, gen := f.gen, pos := f.wordIndex, word := v, fill := f.fill } }
    else s.setFeed { f with idleCount := 0, overlength := true, wordIndex := saturate16 f.wordIndex }

/-- WORDS of the generation FEED_CLOSE completes (R133). -/
def feedWords (s : State) : Nat := min s.feed.wordIndex (s.slot s.feed.slot).length

/-- FEED_CLOSE (R133). -/
def feedClose (s : State) : State :=
  match s.feed.state with
  | .idle => s.refuse .state 1
  | .opened =>
    ((s.setFeed { s.feed with state := .idle }).complete s.feed.slot s.feed.gen s.feedWords).result .ok
      (BitVec.ofNat 32 s.feedWords)

/-- FEED_ABORT (R134). -/
def feedAbort (s : State) : State :=
  match s.feed.state with
  | .idle => s.refuse .state 1
  | .opened =>
    ((s.setFeed { s.feed with state := .idle }).abandon s.feed.slot s.feed.gen .feedAbort).result .ok
      (BitVec.ofNat 32 s.feed.wordIndex)

/-- The idle timer's expiry has come due and is still to be taken (R135). -/
def feedDue (s : State) : Bool := s.feed.state = .opened && s.feed.idleLimit ≤ s.feed.idleCount

/-- FEED_IDLE_EXPIRY (R135). -/
def feedExpiry (s : State) : State :=
  if s.feedDue then
    ((s.setFeed { s.feed with state := .idle }).abandon s.feed.slot s.feed.gen .feedTimeout).offer
      .feedTimeout s.feed.slot.val (BitVec.ofNat 32 s.feed.wordIndex) 0
  else s

/-- The host writes OVERLENGTH (R132). -/
def clearOverlength (bit : Bool) (s : State) : State :=
  s.setFeed { s.feed with overlength := afterClear s.feed.overlength bit }

end State

/-- FEED_OPEN (R131). -/
def execFeedOpen (s : State) : Result := s.hostWrite (State.trigger State.feedOpen)
/-- FEED_CLOSE (R133). -/
def execFeedClose (s : State) : Result := s.hostWrite (State.trigger State.feedClose)
/-- FEED_ABORT (R134). -/
def execFeedAbort (s : State) : Result := s.hostWrite (State.trigger State.feedAbort)
/-- FEED_DATA_WRITE (R132). -/
def execFeedDataWrite (v : Word) (s : State) : Result := s.hostWrite (State.writeFeed v)
/-- FEED_IDLE_EXPIRY (R135). -/
def execFeedIdleExpiry (s : State) : Result := .next s.feedExpiry
/-- OVERLENGTH_CLEAR (R132). -/
def execOverlengthClear (bit : Bool) (s : State) : Result := s.hostWrite (State.clearOverlength bit)

end Sys2Proof.Machine
end

