-- ==== Sys2Proof/Machine/Handles.lean ====
section
/-! DEFINITION. Inspection handles (§8.1 to §8.4). -/

namespace Sys2Proof.Machine
namespace State

/-- HANDLE_PIN granted on a generation (R10, R126). -/
def pinHandle (s : State) (h : HandleId) (i : SlotId) (g : GenId) : State :=
  let y := (s.slot i).gen g
  ((s.addPin i g).setHandle h
    { state := .held, slot := i, gen := g, seq := y.seq, stamp := y.stamp, tag := y.tag, words := y.words,
      isShort := y.isShort, isPartial := y.isPartial, epoch := y.epoch, addr := 0, overread := false,
      req := (s.handle h).req }).result .ok (BitVec.ofNat 32 g.val)

/-- HANDLE_PIN (R126). -/
def handlePin (s : State) : State :=
  match objectArg 2 (s.arg 0) with
  | none => s.refuse .badArg 1
  | some h =>
    if (s.handle h).state ≠ .free then s.refuse .inUse 2
    else match objectArg 32 (s.arg 1) with
      | none => s.refuse .badArg 3
      | some i => match (s.slot i).pinAnswer with
        | .granted g => s.pinHandle h i g
        | .notReady => s.result .notReady 0
        | .refused => s.result .state 0

/-- HANDLE_RELEASE (R128). -/
def handleRelease (s : State) : State :=
  match objectArg 2 (s.arg 0) with
  | none => s.refuse .badArg 1
  | some h =>
    let y := s.handle h
    match y.state with
    | .held => ((s.setHandle h { y with state := .free }).release y.slot y.gen).result .ok 0
    | .revoked => (s.setHandle h { y with state := .free }).result .ok 1
    | .free => s.refuse .state 2

/-- A host read of a handle's data register (R127): it waits for the store, or returns 0. -/
def readHandle (h : HandleId) (s : State) : State :=
  let y := s.handle h
  match y.state with
  | .held =>
    if y.addr.toNat < y.words then
      s.setHandle h { y with req := some { slot := y.slot, gen := y.gen, pos := y.addr.toNat } }
    else { s.setHandle h { y with overread := true, addr := y.addr + 1 } with busRead := 0 }
  | .revoked | .free => { s with busRead := 0 }

/-- A host write of a handle's address register: ADDR is the value modulo 1024 (R127). -/
def writeHandleAddr (h : HandleId) (v : Word) (s : State) : State :=
  s.setHandle h { s.handle h with addr := v.setWidth 10 }

/-- The host writes OVERREAD (R127). -/
def clearOverread (h : HandleId) (bit : Bool) (s : State) : State :=
  s.setHandle h { s.handle h with overread := afterClear (s.handle h).overread bit }

end State

/-- HANDLE_PIN (R126). -/
def execHandlePin (s : State) : Result := s.hostWrite (State.trigger State.handlePin)
/-- HANDLE_RELEASE (R128). -/
def execHandleRelease (s : State) : Result := s.hostWrite (State.trigger State.handleRelease)
/-- HANDLE_DATA_READ (R127). -/
def execHandleDataRead (h : HandleId) (s : State) : Result := s.hostRead (State.readHandle h)
/-- HANDLE_ADDR_WRITE (R127). -/
def execHandleAddrWrite (h : HandleId) (v : Word) (s : State) : Result := s.hostWrite (State.writeHandleAddr h v)
/-- OVERREAD_CLEAR (R127). -/
def execOverreadClear (h : HandleId) (bit : Bool) (s : State) : Result := s.hostWrite (State.clearOverread h bit)

end Sys2Proof.Machine
end

