-- ==== Sys2Proof/Machine/Schedule.lean ====
section
/-! DEFINITION. The schedule memory, its protection, and the program check (chapter 5). -/

namespace Sys2Proof.Machine

/-- An entry lies in a program (R74). -/
def Program.holds (p : Program) (e : Nat) : Bool := p.base ≤ e && e < p.base + p.len

/-- The entries a link's programs protect: a link in OFF protects none (R79). -/
def Link.protects (l : Link) (e : Nat) : Bool :=
  l.state ≠ .off && (l.active.holds e || (l.pendingValid && l.pending.holds e))

/-- The words an item may come to in the worst case (R76). -/
def worstItem (e : SchedEntry) : Nat := if e.count = 0 then 3 + (1024 - e.offset) else 3 + e.count

/-- SLOTS of the check after an entry (R76). -/
def slotsWith (l : List SlotId) (i : SlotId) : List SlotId := if i ∈ l then l else l ++ [i]

namespace State

/-- An entry is protected (R79, R80). -/
def isProtected (s : State) (e : Nat) : Bool :=
  (allLinks.any fun k => (s.link k).protects e) || (match s.check with
    | some c => c.prog.holds e
    | none => false)

/-- A host write of a schedule word: it takes effect, or is discarded and recorded (R71, R79). -/
def writeSchedule (e : EntryId) (second : Bool) (v : Word) (s : State) : State :=
  if s.isProtected e.val then
    if s.protectedWrite then s else { s with protectedWrite := true, protectedEntry := e }
  else { s with schedule := Cells.write clearedWord s.schedule (2 * e.val + second.toNat) (v &&& entryMask second) }

/-- The host writes PROTECTED_WRITE (R82). -/
def clearProtected (bit : Bool) (s : State) : State :=
  { s with protectedWrite := afterClear s.protectedWrite bit }

/-- The check fails: BAD_PROGRAM, and the under-check protection ends (R78). -/
def checkFail (s : State) (k : LinkId) (why : CheckFailure) (entry : Nat) : State :=
  { s with check := none }.endCommand k.val .badProgram (badProgramDetail why entry)

/-- The check begins: the range test, then the context (R75). The command that runs it has made the unit BUSY. -/
def checkStart (s : State) (k : LinkId) (kind : LongCommand) (p : Program) : State :=
  if 1 ≤ p.len ∧ p.len ≤ 1024 ∧ p.base + p.len ≤ 1024 then
    { s with check := some { link := k, kind := kind, prog := p, pos := 0, slots := [], run := 5, items := 0 } }
  else s.checkFail k .range p.base

/-- REMAIN at the pass of a LINK_START check, `elapsed` ticks after its acceptance (R92). -/
def firstRemain (period elapsed : Nat) : Nat := if elapsed < period then period - elapsed else 1

/-- A passed LINK_START check: the link takes up its run (R92). -/
def startLink (s : State) (k : LinkId) (p : Program) : State :=
  match s.cmd.running with
  | none => s
  | some r =>
    let period := (r.args.get 3).toNat
    s.setLink k { s.link k with
      state := .wait, active := p, period := period, sync := r.args.get 4, stallLimit := (r.args.get 5).toNat,
      frameNo := 0, cycleNo := 0, cursor := 0, slips := 0, aborts := 0, lastSeen := Vector.replicate 32 0,
      pendingValid := false, remain := firstRemain period (ticksBetween s.now r.began) }

/-- A passed LINK_LOAD check: the program becomes the link's pending program (R85). -/
def loadLink (s : State) (k : LinkId) (p : Program) : State :=
  s.setLink k { s.link k with pending := p, pendingValid := true }

/-- The check passes (R78). -/
def checkPass (s : State) (c : Check) : State :=
  let t := { s with check := none }
  (match c.kind with
    | .start => t.startLink c.link c.prog
    | .load => t.loadLink c.link c.prog
    | .configure => t).endCommand c.link.val .ok 0

/-- An entry passes its tests: the check goes on with the next entry (R76, R77). -/
def checkNext (s : State) (c : Check) : State := { s with check := some { c with pos := c.pos + 1 } }

/-- The examination of a FRAME_END entry (R77). -/
def examineEnd (s : State) (c : Check) : State :=
  if c.items = 0 then s.checkFail c.link .emptyFrame (c.prog.base + c.pos)
  else if c.pos + 1 = c.prog.len then s.checkPass c
  else s.checkNext { c with slots := [], run := 5, items := 0 }

/-- The examination of an EMIT or EMIT_FRESH entry (R76). -/
def examineItem (s : State) (c : Check) (e : SchedEntry) : State :=
  let n := c.prog.base + c.pos
  let slots := slotsWith c.slots e.slot
  let run := c.run + worstItem e
  if 1024 < e.offset + e.count then s.checkFail c.link .window n
  else if 9 ≤ slots.length then s.checkFail c.link .tooManySlots n
  else if Config.frameLimit < run then s.checkFail c.link .frameTooLong n
  else if c.pos + 1 = c.prog.len then s.checkFail c.link .noFinalEnd n
  else s.checkNext { c with slots := slots, run := run, items := c.items + 1 }

/-- CHECK_EXAMINE: one examination of the check in progress (R75 to R78). -/
def checkExamine (s : State) : State :=
  match s.check with
  | none => s
  | some c =>
    let e := s.entry (c.prog.base + c.pos)
    match e.action with
    | .invalid => s.checkFail c.link .badAction (c.prog.base + c.pos)
    | .frameEnd => s.examineEnd c
    | .emit | .emitFresh => s.examineItem c e

end State

/-- SCHEDULE_WRITE (R71, R79). -/
def execScheduleWrite (e : EntryId) (second : Bool) (v : Word) (s : State) : Result :=
  s.hostWrite (State.writeSchedule e second v)
/-- PROTECTED_WRITE_CLEAR (R82). -/
def execProtectedWriteClear (bit : Bool) (s : State) : Result := s.hostWrite (State.clearProtected bit)
/-- CHECK_EXAMINE (R76, R77). -/
def execCheckExamine (s : State) : Result := .next s.checkExamine

end Sys2Proof.Machine
end

