-- ==== Sys2Proof/Machine/Links.lean ====
section
/-! DEFINITION. The link commands (§5.5, §6.2, §6.9). -/

namespace Sys2Proof.Machine
namespace State

/-- The program a LINK_START or LINK_LOAD names: BASE and LEN from ARG1, TAG from ARG2 (§11.3). -/
def argProgram (s : State) : Program :=
  { base := baseArg (s.arg 1), len := lenArg (s.arg 1), tag := (s.arg 2).setWidth 16 }

/-- LINK_START: the tests of R91, then the check begins. -/
def linkStart (s : State) : State :=
  match objectArg 6 (s.arg 0) with
  | none => s.refuse .badArg 1
  | some k =>
    if (s.link k).state ≠ .off then s.refuse .state 2
    else if 65535 < (s.arg 2).toNat then s.refuse .badArg 3
    else if ¬ (1 ≤ (s.arg 3).toNat ∧ (s.arg 3).toNat ≤ Config.longestPeriod) then s.refuse .badArg 4
    else if ¬ (1 ≤ (s.arg 5).toNat ∧ (s.arg 5).toNat ≤ 65535) then s.refuse .badArg 5
    else (s.startCommand .start).checkStart k .start s.argProgram

/-- LINK_LOAD: the tests of R84, then the check begins. -/
def linkLoad (s : State) : State :=
  match objectArg 6 (s.arg 0) with
  | none => s.refuse .badArg 1
  | some k =>
    if ¬ ((s.link k).state = .wait ∨ (s.link k).state = .frame) then s.refuse .state 2
    else if 65535 < (s.arg 2).toNat then s.refuse .badArg 3
    else (s.startCommand .load).checkStart k .load s.argProgram

/-- LINK_CANCEL (R86). -/
def linkCancel (s : State) : State :=
  match objectArg 6 (s.arg 0) with
  | none => s.refuse .badArg 1
  | some k =>
    if (s.link k).state = .off then s.refuse .state 2
    else (s.setLink k { s.link k with pendingValid := false }).result .ok (if (s.link k).pendingValid then 1 else 0)

/-- LINK_STOP in FRAME: the link enters STOPPING; in mode ABORT the frame is aborted, unless its abort word is already
waiting (R108, R110, R111). -/
def stopFrame (s : State) (k : LinkId) (abort : Bool) : State :=
  let t := if abort = true ∧ (s.link k).line ≠ .abort then s.abortFrame k .stop else s
  t.setLink k { t.link k with state := .stopping }

/-- The mode ARG1 of LINK_STOP selects: 0 FINISH, 1 ABORT, as a whole value (R162). -/
def stopMode (w : Word) : Option Bool := if w = 0 then some false else if w = 1 then some true else none

/-- LINK_STOP (R109). -/
def linkStop (s : State) : State :=
  match objectArg 6 (s.arg 0) with
  | none => s.refuse .badArg 1
  | some k =>
    if ¬ ((s.link k).state = .wait ∨ (s.link k).state = .frame) then s.refuse .state 2
    else match stopMode (s.arg 1) with
      | none => s.refuse .badArg 3
      | some abort =>
        (if (s.link k).state = .wait then s.linkOff k 0 else s.stopFrame k abort).result .ok 0

end State

/-- LINK_START (R91). -/
def execLinkStart (s : State) : Result := s.hostWrite (State.trigger State.linkStart)
/-- LINK_LOAD (R84). -/
def execLinkLoad (s : State) : Result := s.hostWrite (State.trigger State.linkLoad)
/-- LINK_CANCEL (R86). -/
def execLinkCancel (s : State) : Result := s.hostWrite (State.trigger State.linkCancel)
/-- LINK_STOP (R109). -/
def execLinkStop (s : State) : Result := s.hostWrite (State.trigger State.linkStop)

end Sys2Proof.Machine
end

