-- ==== Sys2Proof/Machine/Ports.lean ====
section
/-! DEFINITION. The host's side of the capture ports: enable, disable and the OVERFLOWED flag (§3.7, §3.9). -/

namespace Sys2Proof.Machine
namespace State

/-- ENABLE of a port is set: a port whose ENABLE is clear starts taking its line (R50). -/
def enablePort (p : PortId) (s : State) : State :=
  if (s.port p).enable then s else s.setPort p { s.port p with enable := true, awaitStart := true }

/-- ENABLE of a port is cleared: a port whose ENABLE is set stops taking its line (R49). A request that is still waiting
is left to its grant. -/
def disablePort (p : PortId) (s : State) : State :=
  if (s.port p).enable then
    let t := if (s.port p).state = .inBlock then s.giveUpBlock p .portDisabled else s
    t.setPort p { t.port p with
      enable := false, fifo := [], state := .idle, wordIndex := 0, begun := false, writing := false, due := [] }
  else s

/-- The host writes OVERFLOWED of a port (R54). -/
def clearOverflowed (p : PortId) (bit : Bool) (s : State) : State :=
  s.setPort p { s.port p with overflowed := afterClear (s.port p).overflowed bit }

/-- A host write of CAPTURE_ENABLE: bit p for port p, the ports taken in ascending order (§11.2; log 23). -/
def writeEnables (v : Word) (s : State) : State :=
  allPorts.foldl (fun t p => if v.getLsbD p.val then t.enablePort p else t.disablePort p) s

end State

/-- PORT_ENABLE (R50). -/
def execPortEnable (p : PortId) (s : State) : Result := s.hostWrite (State.enablePort p)
/-- PORT_DISABLE (R49). -/
def execPortDisable (p : PortId) (s : State) : Result := s.hostWrite (State.disablePort p)
/-- OVERFLOWED_CLEAR (R54). -/
def execOverflowedClear (p : PortId) (bit : Bool) (s : State) : Result := s.hostWrite (State.clearOverflowed p bit)

end Sys2Proof.Machine
end

