-- ==== Sys2Proof/Machine/Resets.lean ====
section
/-! DEFINITION. Device reset and power-on reset (§10.3, R27, R73, and the reset rule of each block). -/

namespace Sys2Proof.Machine
namespace State

/-- The values every block takes at the start of either reset (R23, R27, R53, R68, R82, R83, R89, R124, R138, R150, R151,
R155 to R157); the store, the page link table, the schedule memory, the timebase, MASK, IRQ_ENABLE, the READY pins and the
data lines are kept, and so is the queue of commands. -/
def resetBlocks (s : State) (phase : ResetPhase) : State :=
  { State.reset with
    pending := s.pending
    store := s.store
    pool := { head := none, tail := none, count := 0, next := s.pool.next, alloc := none }
    schedule := s.schedule
    timebase := s.timebase
    events := { s.events with records := [], lost := 0 }
    cmd := { State.reset.cmd with state := .busy }
    resetPhase := phase
    readyPins := s.readyPins
    busRead := s.busRead }

/-- A device reset starts, when no reset is in progress (R157). -/
def startDeviceReset (s : State) : State :=
  match s.resetPhase with
  | .none => s.resetBlocks (.running 0 false)
  | .running _ _ | .held => s

/-- A host write of GLOBAL_CONTROL: IRQ_ENABLE and PRESCALE are stored from the word, and a 1 in RESET_DEVICE starts a device
reset when none is in progress (R157, §11.2). -/
def writeControl (v : Word) (s : State) : State :=
  let t := { s with
    events := { s.events with irqEnable := v.getLsbD 1 }
    timebase := { s.timebase with prescale := v.extractLsb' 16 16 } }
  if v.getLsbD 0 then t.startDeviceReset else t

/-- The RESET pin is asserted (R159): the start event of a power-on reset. A held host read is ended and returns 0. -/
def assertReset (s : State) : State :=
  let t := s.resetBlocks .held
  { t with
    timebase := { counter := 0, prescale := 100, inForce := 100, divider := 0 }
    events := { t.events with mask := Config.maskBits, irqEnable := false }
    busRead := if allHandles.any (fun h => (s.handle h).req.isSome) then 0 else s.busRead }

/-- The RESET pin is released (R159): the timebase counts, and the rebuild and the clearing begin. -/
def releaseReset (s : State) : State :=
  match s.resetPhase with
  | .held => { s with resetPhase := .running 0 true }
  | .none | .running _ _ => s

/-- The reset ends (R157, R159). -/
def endReset (s : State) : State := { s with resetPhase := .none, cmd := { s.cmd with state := .idle } }

/-- REBUILD_LINK_PAGE: the rebuild links the next page, and the reset ends when no work is left (R27, R157). -/
def rebuildPage (s : State) : State :=
  match s.resetPhase with
  | .running n clearing =>
    if h : n < 2048 then
      let t := { s.setPool (s.pool.linkPage ⟨n, h⟩) with resetPhase := .running (n + 1) clearing }
      if n + 1 = 2048 ∧ clearing = false then t.endReset else t
    else s
  | .none | .held => s

/-- SCHEDULE_CLEAR: the clearing of the schedule memory is finished, and the reset ends when no work is left (R73, R159;
log 15). -/
def clearSchedule (s : State) : State :=
  match s.resetPhase with
  | .running n true =>
    let t := { s with schedule := [], resetPhase := .running n false }
    if n = 2048 then t.endReset else t
  | .running _ false | .none | .held => s

end State

/-- RESET_DEVICE (R157). -/
def execResetDevice (v : Word) (s : State) : Result := s.controlWrite (State.writeControl v)
/-- POWER_ON_RESET (R159). -/
def execPowerOnReset (s : State) : Result := .next s.assertReset
/-- RESET_RELEASE (R159). -/
def execResetRelease (s : State) : Result := .next s.releaseReset
/-- REBUILD_LINK_PAGE (R27). -/
def execRebuildLinkPage (s : State) : Result := .next s.rebuildPage
/-- SCHEDULE_CLEAR (R73). -/
def execScheduleClear (s : State) : Result := .next s.clearSchedule

end Sys2Proof.Machine
end

