-- ==== Sys2Proof/Machine/Slots.lean ====
section
/-! DEFINITION. The slot commands, the page take and the slot view's selection (chapter 1, §2.4). -/

namespace Sys2Proof.Machine

/-- The arguments of a SLOT_CONFIGURE that passed checks 3 to 8 of R13. -/
structure ConfigureArgs where
  source   : Source
  offset   : Nat
  length   : Nat
  depth    : Nat
  decimate : Nat
  cohort   : Option CohortId
  deriving DecidableEq, Repr

/-- Checks 3 to 8 of R13 on the packed arguments: the configuration, or the order number of the failed check. -/
def configureArgs (a1 a2 a3 : Word) : Except Nat ConfigureArgs :=
  match sourceArg a1 with
  | none => .error 3
  | some src =>
    if ¬ (1 ≤ lengthArg a2 ∧ lengthArg a2 ≤ 1024 ∧ offsetArg a2 ≤ 1023 ∧ offsetArg a2 + lengthArg a2 ≤ 1024) then .error 4
    else if ¬ (2 ≤ depthArg a3 ∧ depthArg a3 ≤ 5) then .error 5
    else if ¬ (1 ≤ decimateArg a3 ∧ decimateArg a3 ≤ 256) then .error 6
    else match cohortArg a3 with
      | none => .error 7
      | some c =>
        if c ≠ none ∧ depthArg a3 < 3 then .error 8
        else .ok { source := src, offset := offsetArg a2, length := lengthArg a2, depth := depthArg a3,
                   decimate := decimateArg a3, cohort := c }

/-- The generation records of a slot just configured: blank, the fill numbers kept (R14, log 9). -/
def Slot.blankGens (x : Slot) : Table 5 Gen :=
  allGens.foldl (fun t g => Table.put t g (Gen.blank (x.gen g).fill)) x.gens

/-- The descriptor of a slot just configured (R14). -/
def Slot.configured (x : Slot) (a : ConfigureArgs) : Slot :=
  { state := .configuring, source := a.source, offset := a.offset, length := a.length, depth := a.depth,
    decimate := a.decimate, decCount := 0, cohort := a.cohort, ppg := pagesFor a.length, nextSeq := 1, newest := none,
    overruns := 0, abandons := 0, gens := x.blankGens }

namespace State

/-- The allocation context opened for a slot (R28). -/
def openAlloc (s : State) (i : SlotId) (pages : Nat) : State :=
  s.setPool { s.pool with
    alloc := some { slot := i, gen := 0, taken := 0, first := none, last := none, remaining := pages } }

/-- A slot with a cohort joins it (R65). -/
def joinCohort (s : State) (i : SlotId) : Option CohortId → State
  | some c => s.join c i
  | none => s

/-- SLOT_CONFIGURE accepted (R14, R28, R65). -/
def acceptConfigure (s : State) (i : SlotId) (a : ConfigureArgs) : State :=
  (((s.setSlot i ((s.slot i).configured a)).joinCohort i a.cohort).openAlloc i (a.depth * pagesFor a.length)).startCommand
    .configure

/-- SLOT_CONFIGURE: the nine checks of R13, then R14. -/
def slotConfigure (s : State) : State :=
  match objectArg 32 (s.arg 0) with
  | none => s.refuse .badArg 1
  | some i =>
    if (s.slot i).state ≠ .unused then s.refuse .state 2
    else match configureArgs (s.arg 1) (s.arg 2) (s.arg 3) with
      | .error n => s.refuse .badArg n
      | .ok a =>
        if s.pool.count < a.depth * pagesFor a.length then s.refuse .noPages 9
        else s.acceptConfigure i a

/-- SLOT_FREEZE (R16). -/
def slotFreeze (s : State) : State :=
  match objectArg 32 (s.arg 0) with
  | none => s.refuse .badArg 1
  | some i =>
    if (s.slot i).state = .active then (s.setSlot i { s.slot i with state := .frozen }).result .ok 0
    else s.refuse .state 2

/-- SLOT_THAW (R17). -/
def slotThaw (s : State) : State :=
  match objectArg 32 (s.arg 0) with
  | none => s.refuse .badArg 1
  | some i =>
    if (s.slot i).state = .frozen then (s.setSlot i { s.slot i with state := .active }).result .ok 0
    else s.refuse .state 2

/-- A slot leaves the FILL set of a port's open block; no further write is presented for it (R18, R51). -/
def removeMember (s : State) (p : PortId) (i : SlotId) : State :=
  s.setPort p { s.port p with
    fill := (s.port p).fill.filter (fun m => m.slot ≠ i), due := (s.port p).due.filter (fun m => m.slot ≠ i) }

/-- The writer of a torn-down slot's FILLING generation loses it: a port's block goes on without the slot, the feed
returns to IDLE and reports (R18 step 1, R51, R137). -/
def dropWriter (s : State) (i : SlotId) : State :=
  match (s.slot i).source with
  | .port p => s.removeMember p i
  | .feed =>
    if s.feed.state = .opened ∧ s.feed.slot = i then
      (s.setFeed { s.feed with state := .idle }).offer .feedAbandoned i.val (BitVec.ofNat 32 s.feed.wordIndex) 0
    else s

/-- Step 1 of R18. -/
def abandonFilling (s : State) (i : SlotId) : State :=
  match (s.slot i).fillingGen with
  | some g => (s.abandon i g .teardown).dropWriter i
  | none => s

/-- The forced revocation of one handle, if it holds a pin on the slot (R19, R129). The end of the drain is judged after
every handle has been revoked (R18). -/
def revokeHandle (s : State) (i : SlotId) (h : HandleId) : State :=
  let y := s.handle h
  if y.state = .held ∧ y.slot = i then
    ((s.setSlot i ((s.slot i).setPins y.gen (((s.slot i).gen y.gen).pins - 1))).setHandle h { y with state := .revoked }).offer
      .handleRevoked h.val y.seq 0
  else s

/-- Step 4 of R18. -/
def revokeHandles (s : State) (i : SlotId) : State := allHandles.foldl (fun t h => t.revokeHandle i h) s

/-- The departure of a torn-down slot from its cohort (step 3 of R18, R64). -/
def leaveCohort (s : State) (i : SlotId) : Option CohortId → State
  | some c => s.depart c i
  | none => s

/-- SLOT_TEARDOWN accepted (R18): the changes of the acceptance, with the records in the order the rule gives. -/
def acceptTeardown (s : State) (i : SlotId) (force : Bool) : State :=
  let t1 := (s.abandonFilling i).dropSeal i .teardown
  let t2 := t1.setSlot i { t1.slot i with state := .draining, cohort := none }
  let t3 := if force then t2.revokeHandles i else t2
  ((t3.drainCheck i).leaveCohort i (s.slot i).cohort).result .ok 0

/-- SLOT_TEARDOWN (R18); force is set when any bit of ARG1 is 1 (R162). -/
def slotTeardown (s : State) : State :=
  match objectArg 32 (s.arg 0) with
  | none => s.refuse .badArg 1
  | some i =>
    if (s.slot i).state = .active ∨ (s.slot i).state = .frozen then s.acceptTeardown i (s.arg 1 ≠ 0)
    else s.refuse .state 2

/-- The free list gives up the page at its HEAD (R29 step 1). -/
def takeHead (s : State) (p : PageId) : State :=
  let q := s.pool
  s.setPool { q with
    head := if q.tail = some p then none else q.nextOf p
    tail := if q.tail = some p then none else q.tail
    count := q.count - 1 }

/-- The page joins the chain being built (R29 step 2, the links). -/
def chainPage (s : State) (last : Option PageId) (p : PageId) : State :=
  let q := s.pool.setNext p none
  s.setPool (match last with
    | some l => q.setNext l (some p)
    | none => q)

/-- Configure completes (R15). -/
def configureDone (s : State) (i : SlotId) : State :=
  ((s.setPool { s.pool with alloc := none }).setSlot i { s.slot i with state := .active }).endCommand i.val .ok 0

/-- The allocation context after a take, and the HEAD of a chain that is complete (R29 steps 2 to 4). -/
def advanceAlloc (s : State) (a : Alloc) (p : PageId) : State :=
  let first := match a.first with
    | some f => some f
    | none => some p
  let x := s.slot a.slot
  let whole := a.taken + 1 = x.ppg
  let t := if whole then s.setSlot a.slot (x.setGen a.gen { x.gen a.gen with head := first }) else s
  let b : Alloc :=
    if whole then { a with gen := a.gen + 1, taken := 0, first := none, last := none, remaining := a.remaining - 1 }
    else { a with taken := a.taken + 1, first := first, last := some p, remaining := a.remaining - 1 }
  if a.remaining ≤ 1 then t.configureDone a.slot else t.setPool { t.pool with alloc := some b }

/-- PAGE_TAKE: one take of the allocation in progress (R29). -/
def pageTake (s : State) : State :=
  match s.pool.alloc, s.pool.head with
  | some a, some p => ((s.takeHead p).chainPage a.last p).advanceAlloc a p
  | _, _ => s

/-- SLOT_SELECT is written (R24). -/
def selectSlot (v : Word) (s : State) : State := { s with slotSelect := v }

end State

/-- SLOT_CONFIGURE (R13, R14). -/
def execSlotConfigure (s : State) : Result := s.hostWrite (State.trigger State.slotConfigure)
/-- SLOT_FREEZE (R16). -/
def execSlotFreeze (s : State) : Result := s.hostWrite (State.trigger State.slotFreeze)
/-- SLOT_THAW (R17). -/
def execSlotThaw (s : State) : Result := s.hostWrite (State.trigger State.slotThaw)
/-- SLOT_TEARDOWN (R18). -/
def execSlotTeardown (s : State) : Result := s.hostWrite (State.trigger State.slotTeardown)
/-- PAGE_TAKE (R29). -/
def execPageTake (s : State) : Result := .next s.pageTake
/-- SLOT_SELECT (R24). -/
def execSlotSelect (v : Word) (s : State) : Result := s.hostWrite (State.selectSlot v)

end Sys2Proof.Machine
end

