-- ==== Sys2Proof/Machine/Time.lean ====
section
/-! DEFINITION. The timebase and the tick (§9.1, §9.2). -/

namespace Sys2Proof.Machine

/-- The link period timer takes a tick (R93). -/
def Link.tickPeriod (l : Link) : Link :=
  match l.state with
  | .wait | .frame => { l with remain := l.remain - 1 }
  | .off | .stopping => l

/-- The stall timer takes a tick (R120, R122). In ABORT it stops at STALL_LIMIT, and in STOPPING a timer that stands
there after the tick makes the give-up due (log 14). -/
def Link.tickStall (l : Link) (ready : Bool) : Link :=
  if ready then l
  else match l.line with
    | .drive => { l with stallTimer := l.stallTimer + 1 }
    | .abort =>
      let n := saturate l.stallLimit l.stallTimer
      { l with stallTimer := n, giveUpDue := l.giveUpDue || (decide (l.state = .stopping) && decide (n = l.stallLimit)) }
    | .quiet | .gap => l

namespace State

/-- A tick at one link and its emit line. -/
def tickLink (ready : BitVec 6) (s : State) (k : LinkId) : State :=
  s.setLink k ((s.link k).tickPeriod.tickStall (ready.getLsbD k.val))

/-- A tick at the feed's idle timer (R135). -/
def tickFeed (s : State) : State :=
  match s.feed.state with
  | .opened => s.setFeed { s.feed with idleCount := s.feed.idleCount + 1 }
  | .idle => s

/-- The expiries of a link that the last tick made due and no command has taken yet. -/
def takeLinkExpiries (s : State) (k : LinkId) : State := ((s.stallAbort k).giveUp k).periodExpiry k

/-- Every expiry still to be taken is taken, links first, then cohorts, then the feed, each in ascending order (log 2): an
expiry is taken at the tick that causes it, so before another core clock cycle is counted and before the next tick (R141). -/
def takeExpiries (s : State) : State :=
  (allCohorts.foldl State.windowExpiry (allLinks.foldl takeLinkExpiries s)).feedExpiry

/-- The tick itself: COUNTER advances, the PRESCALE written last comes into force, and every running timer takes the tick
(R139, R141). -/
def advanceTime (ready : BitVec 6) (s : State) : State :=
  let t := { s with
    timebase := { s.timebase with
      counter := s.timebase.counter + 1, inForce := s.timebase.prescale, divider := 0 }
    readyPins := ready }
  (allLinks.foldl (tickLink ready) t).tickFeed

/-- TICK: the interval in progress ends and the timebase ticks (R139); the timebase is held while the RESET pin is asserted
(R140). The expiries that this tick causes are events of their own, taken at it (R141; log 2). -/
def tick (ready : BitVec 6) (s : State) : State :=
  match s.resetPhase with
  | .held => s
  | .none | .running _ _ => advanceTime ready s.takeExpiries

/-- One core clock cycle: DIVIDER advances, and a tick takes place when it reaches the PRESCALE value in force (R139). No
cycle is counted while an expiry of the last tick is still to be taken, and with no command waiting the expiries of a tick
are taken with it (R141; log 2). The READY pins keep the levels last sampled (log 3). -/
def clockCycle (s : State) : State :=
  match s.resetPhase with
  | .held => s
  | .none | .running _ _ =>
    if s.timebase.divider + 1 < cyclesOf s.timebase.inForce then
      let t := s.takeExpiries
      { t with timebase := { t.timebase with divider := t.timebase.divider + 1 } }
    else (s.tick s.readyPins).takeExpiries

/-- A write of PRESCALE: kept at once, in force from the tick that ends the interval in progress (R139). -/
def writePrescale (v : BitVec 16) (s : State) : State := { s with timebase := { s.timebase with prescale := v } }

end State

/-- TICK (R139). -/
def execTick (ready : BitVec 6) (s : State) : Result := .next (s.tick ready)
/-- PRESCALE (R139). -/
def execPrescale (v : BitVec 16) (s : State) : Result := s.controlWrite (State.writePrescale v)

end Sys2Proof.Machine
end

