-- ==== Sys2Proof/Machine/Window.lean ====
section
/-! DEFINITION. The register window: which register stands at a word address, what a host read of it returns and what a host
write to it does (chapter 11). -/

namespace Sys2Proof.Machine

/-- A location of the register window (§11.2 to §11.7). The number of a group's word stands with the group. -/
inductive Location where
  | id | globalControl | globalStatus | freeCount | counter | captureEnable | eventMask | eventLevel | eventLost
  | eventPop | eventHead (n : Fin 3)
  | portWord (p : PortId) (n : Fin 3)
  | cohortWord (c : CohortId) (n : Fin 5)
  | arg (n : Fin 6) | result | detail | trigger (n : Fin 14)
  | slotSelect | slotWord (n : Fin 6) | genWord (g : GenId) (n : Fin 5)
  | linkWord (k : LinkId) (n : Fin 11)
  | handleWord (h : HandleId) (n : Fin 7)
  | feedWord (n : Fin 5)
  | schedule (e : EntryId) (second : Bool)
  | undefined
  deriving DecidableEq, Repr

/-- Word n of element i of an array of groups, where both are in range. -/
def groupAt {a b : Nat} (mk : Fin a → Fin b → Location) (i n : Nat) : Location :=
  if h : i < a ∧ n < b then mk ⟨i, h.1⟩ ⟨n, h.2⟩ else .undefined

/-- Word n of a group, where it is in range. -/
def wordAt {b : Nat} (mk : Fin b → Location) (n : Nat) : Location :=
  if h : n < b then mk ⟨n, h⟩ else .undefined

/-- The global area, 0x000 to 0x00F (§11.2). -/
def globalAt : Nat → Location
  | 0 => .id | 1 => .globalControl | 2 => .globalStatus | 3 => .freeCount | 4 => .counter | 5 => .captureEnable
  | 6 => .eventMask | 7 => .eventLevel | 8 => .eventLost | 9 => .eventPop | 10 => .eventHead 0 | 11 => .eventHead 1
  | 12 => .eventHead 2 | _ => .undefined

/-- The command area from 0x100 (§11.3). -/
def commandAt (n : Nat) : Location :=
  if n < 6 then wordAt .arg n
  else if n = 8 then .result
  else if n = 9 then .detail
  else if n < 16 then .undefined
  else wordAt .trigger (n - 16)

/-- The slot view from 0x140 (§11.4). -/
def slotViewAt (n : Nat) : Location :=
  if n = 0 then .slotSelect
  else if n < 7 then wordAt .slotWord (n - 1)
  else if n < 16 then .undefined
  else groupAt .genWord ((n - 16) / 8) ((n - 16) % 8)

/-- The handles and the feed from 0x200 (§11.6). -/
def handlesAt (n : Nat) : Location :=
  if n < 32 then groupAt .handleWord (n / 16) (n % 16) else wordAt .feedWord (n - 32)

/-- A schedule word from 0x800: word A of an entry at an even place, word B at the odd place after it (§11.7). -/
def scheduleAt (n : Nat) : Location :=
  if h : n / 2 < 1024 then .schedule ⟨n / 2, h⟩ (n % 2 = 1) else .undefined

/-- What stands at a word address (chapter 11, address map). -/
def locationAt (a : BitVec 12) : Location :=
  let n := a.toNat
  if n < 0x010 then globalAt n
  else if n < 0x040 then groupAt .portWord ((n - 0x010) / 4) ((n - 0x010) % 4)
  else if n < 0x060 then groupAt .cohortWord ((n - 0x040) / 8) ((n - 0x040) % 8)
  else if n < 0x100 then .undefined
  else if n < 0x120 then commandAt (n - 0x100)
  else if n < 0x140 then .undefined
  else if n < 0x180 then slotViewAt (n - 0x140)
  else if n < 0x1E0 then groupAt .linkWord ((n - 0x180) / 16) ((n - 0x180) % 16)
  else if n < 0x200 then .undefined
  else if n < 0x230 then handlesAt (n - 0x200)
  else if n < 0x800 then .undefined
  else scheduleAt (n - 0x800)

/-! ### What reads return -/

/-- An optional number, none reading as the all-ones value given (R163). -/
def orOnes {n : Nat} (ones : Nat) : Option (Fin n) → Nat
  | some i => i.val
  | none => ones

/-- STATE of a slot (§11.4). -/
def SlotState.value : SlotState → Nat
  | .unused => 0 | .configuring => 1 | .active => 2 | .frozen => 3 | .draining => 4
/-- STATE of a generation (§11.4). -/
def GenState.value : GenState → Nat
  | .empty => 0 | .filling => 1 | .sealed => 2 | .ready => 3
/-- SOURCE of a slot (§11.4). -/
def Source.value : Source → Nat
  | .port p => p.val | .feed => 16
/-- STATE of a port (§11.2). -/
def PortState.value : PortState → Nat
  | .idle => 0 | .inBlock => 1 | .discard => 2
/-- STATE of a link (§11.5). -/
def LinkState.value : LinkState → Nat
  | .off => 0 | .wait => 1 | .frame => 2 | .stopping => 3
/-- Line state (§11.5). -/
def LineState.value : LineState → Nat
  | .quiet => 0 | .drive => 1 | .gap => 2 | .abort => 3
/-- STATE of a handle (§11.6). -/
def HandleState.value : HandleState → Nat
  | .free => 0 | .held => 1 | .revoked => 2

/-- The number of slots in a set. -/
def setSize (m : BitVec 32) : Nat := (allSlots.filter fun i => m.getLsbD i.val).length

/-- The three head words of a record (§11.9). -/
def EventRecord.headWord (r : EventRecord) : Fin 3 → Word
  | 0 => field 31 16 (r.stamp.toNat / 65536) ||| field 11 8 r.reason.toNat ||| field 4 0 r.kind.value
  | 1 => field 31 16 r.stamp.toNat ||| field 15 0 r.object.toNat
  | 2 => r.arg

/-- A word of the event head: 0 while the queue is empty (R147). -/
def EventQueue.headWord (q : EventQueue) (n : Fin 3) : Word :=
  match q.records with
  | [] => 0
  | r :: _ => r.headWord n

/-- A word of a port's status (§11.2). -/
def Port.statusWord (q : Port) : Fin 3 → Word
  | 0 => flagBit 0 q.enable ||| field 2 1 q.state.value ||| flagBit 3 q.overflowed ||| flagBit 4 q.awaitStart |||
      field 13 8 q.fifo.length
  | 1 => field 15 0 q.wordIndex
  | 2 => q.blocksSeen

/-- A word of a cohort's status (§11.2). -/
def Cohort.statusWord (c : Cohort) : Fin 5 → Word
  | 0 => flagBit 0 (c.state = .gathering) ||| flagBit 1 (c.policy = .discard) ||| field 13 8 (setSize c.members) |||
      field 31 16 c.epoch.toNat
  | 1 => field 19 0 c.window
  | 2 => c.deadline
  | 3 => c.members
  | 4 => c.sealed

/-- A descriptor word of the slot view, 0x141 to 0x146 (§11.4). -/
def Slot.viewWord (x : Slot) : Fin 6 → Word
  | 0 => field 2 0 x.state.value ||| field 6 4 x.depth ||| field 10 8 (orOnes 7 x.cohort) ||| field 20 16 x.source.value |||
      field 26 24 (orOnes 7 x.newest)
  | 1 => field 9 0 x.offset ||| field 26 16 x.length
  | 2 => field 8 0 x.decCount ||| field 24 16 x.decimate
  | 3 => field 5 0 x.ppg
  | 4 => x.nextSeq
  | 5 => field 15 0 x.overruns ||| field 31 16 x.abandons

/-- A generation word of the slot view (§11.4). -/
def Gen.viewWord (y : Gen) : Fin 5 → Word
  | 0 => field 1 0 y.state.value ||| flagBit 4 y.isShort ||| flagBit 5 y.isPartial ||| field 11 8 y.pins |||
      field 23 16 y.tag.toNat
  | 1 => y.seq
  | 2 => y.stamp
  | 3 => field 10 0 y.words ||| field 31 16 y.epoch.toNat
  | 4 => field 11 0 (orOnes 0xFFF y.head)

/-- A word of a link's status (§11.5). -/
def Link.statusWord (l : Link) : Fin 11 → Word
  | 0 => field 1 0 l.state.value ||| field 5 4 l.line.value ||| field 15 12 l.pinSet.length ||| field 22 16 l.buffer.length
  | 1 => field 9 0 l.active.base ||| field 26 16 l.active.len
  | 2 => field 15 0 l.active.tag.toNat ||| field 31 16 l.pending.tag.toNat
  | 3 => field 9 0 l.pending.base ||| field 26 16 l.pending.len ||| flagBit 31 l.pendingValid
  | 4 => field 9 0 l.cursor
  | 5 => field 23 0 l.period
  | 6 => field 23 0 l.remain
  | 7 => l.sync
  | 8 => field 15 0 l.stallLimit ||| field 31 16 l.stallTimer
  | 9 => field 15 0 l.frameNo.toNat ||| field 31 16 l.cycleNo.toNat
  | 10 => field 15 0 l.slips ||| field 31 16 l.aborts

/-- A word of a handle (§11.6) other than DATA, which State.handleData gives. -/
def Handle.statusWord (y : Handle) : Fin 7 → Word
  | 0 => field 1 0 y.state.value ||| flagBit 4 y.overread ||| field 12 8 y.slot.val ||| field 18 16 y.gen.val
  | 1 => y.seq
  | 2 => y.stamp
  | 3 => field 10 0 y.words ||| field 23 16 y.tag.toNat ||| flagBit 24 y.isShort ||| flagBit 25 y.isPartial
  | 4 => field 15 0 y.epoch.toNat
  | 5 => field 9 0 y.addr.toNat
  | 6 => 0

/-- A word of the feed (§11.6); its data register reads 0. -/
def Feed.statusWord (f : Feed) : Fin 5 → Word
  | 0 => flagBit 0 (f.state = .opened) ||| flagBit 4 f.overlength ||| field 12 8 f.slot.val ||| field 18 16 f.gen.val
  | 1 => field 15 0 f.wordIndex
  | 2 => field 19 0 f.idleLimit
  | 3 => field 19 0 f.idleCount
  | 4 => 0

namespace State

/-- A reset is in progress: what RESET_DEVICE reads (R157, R159). -/
def inReset (s : State) : Bool :=
  match s.resetPhase with
  | .none => false
  | .running _ _ | .held => true

/-- The slot the view shows, if SLOT_SELECT names one (R24). -/
def viewedSlot (s : State) : Option Slot :=
  if h : s.slotSelect.toNat < 32 then some (s.slot ⟨s.slotSelect.toNat, h⟩) else none

/-- What the data register of a handle returns where the read waits for no request of its own to be granted: 0, or the
record word at ADDR (R127). A word whose page is on no chain reads 0 here; HANDLE_DATA_READ faults on it (log 8). -/
def handleData (s : State) (h : HandleId) : Word :=
  let y := s.handle h
  if y.state = .held ∧ y.addr.toNat < y.words then
    match s.readFor { slot := y.slot, gen := y.gen, pos := y.addr.toNat } with
    | .ok w => w
    | .error _ => 0
  else 0

/-- CAPTURE_ENABLE: ENABLE of the twelve ports (§11.2). -/
def enableWord (s : State) : Word :=
  allPorts.foldl (fun w p => w ||| flagBit p.val (s.port p).enable) 0

/-- The value of the register at a location (chapter 11). Two points are the model's choice: GLOBAL_STATUS bit 8 is 1 while
the interrupt line is asserted (log 29), and SLOT_SELECT reads the value written, above 31 too (log 31). -/
def locationWord (s : State) : Location → Word
  | .id => field 31 16 0x3206 ||| field 15 8 0x48 ||| field 7 0 Config.siliconStep.toNat
  | .globalControl => flagBit 0 s.inReset ||| flagBit 1 s.events.irqEnable ||| field 31 16 s.timebase.prescale.toNat
  | .globalStatus => flagBit 0 s.protectedWrite ||| flagBit 8 s.events.irqLine ||| field 25 16 s.protectedEntry.val
  | .freeCount => field 11 0 s.pool.count
  | .counter => s.timebase.counter
  | .captureEnable => s.enableWord
  | .eventMask => s.events.mask
  | .eventLevel => field 6 0 s.events.records.length
  | .eventLost => field 7 0 s.events.lost
  | .eventPop => 0
  | .eventHead n => s.events.headWord n
  | .portWord p n => (s.port p).statusWord n
  | .cohortWord c n => (s.cohort c).statusWord n
  | .arg n => s.arg n
  | .result => field 2 0 s.cmd.code.value ||| flagBit 8 (s.cmd.state = .busy) ||| flagBit 16 s.cmd.rejected
  | .detail => s.cmd.detail
  | .trigger _ => 0
  | .slotSelect => s.slotSelect
  | .slotWord n => (match s.viewedSlot with
    | some x => x.viewWord n
    | none => 0)
  | .genWord g n => (match s.viewedSlot with
    | some x => (if g.val < x.depth then x.gen g else Gen.blank 0).viewWord n
    | none => 0)
  | .linkWord k n => (s.link k).statusWord n
  | .handleWord h n => if n = 6 then s.handleData h else (s.handle h).statusWord n
  | .feedWord n => s.feed.statusWord n
  | .schedule e second => s.scheduleWord (2 * e.val + second.toNat)
  | .undefined => 0

/-- What a host read of a word address returns, as the part stands (R160); every read returns 0 while the RESET pin is
asserted (R159). What a read does beside returning a value belongs to EVENT_LOST and HANDLE_DATA_READ (R161). -/
def readWord (s : State) (a : BitVec 12) : Word :=
  match s.resetPhase with
  | .held => 0
  | .none | .running _ _ => s.locationWord (locationAt a)

/-! ### What writes do -/

/-- An argument register is written (R151). -/
def writeArg (n : Fin 6) (v : Word) (s : State) : State :=
  { s with cmd := { s.cmd with args := Table.put s.cmd.args n v } }

/-- The commands in the order of their trigger registers (R152, §11.3). -/
def triggered : Fin 14 → State → State
  | 0 => slotConfigure | 1 => slotFreeze | 2 => slotThaw | 3 => slotTeardown | 4 => cohortSet | 5 => linkStart
  | 6 => linkLoad | 7 => linkCancel | 8 => linkStop | 9 => handlePin | 10 => handleRelease | 11 => feedOpen
  | 12 => feedClose | 13 => feedAbort

/-- What a host write to a location does, GLOBAL_CONTROL and EVENT_MASK apart: the writable fields are stored, a read-only
or undefined location is left as it is (R160, R161). -/
def writeLocation (v : Word) (l : Location) (s : State) : State :=
  match l with
  | .globalStatus => s.clearProtected (v.getLsbD 0)
  | .captureEnable => s.writeEnables v
  | .eventPop => s.popEvent
  | .portWord p n => if n = 0 then s.clearOverflowed p (v.getLsbD 3) else s
  | .arg n => s.writeArg n v
  | .result => s.clearRejected (v.getLsbD 16)
  | .trigger n => s.trigger (triggered n)
  | .slotSelect => s.selectSlot v
  | .handleWord h n =>
    if n = 0 then s.clearOverread h (v.getLsbD 4) else if n = 5 then s.writeHandleAddr h v else s
  | .feedWord n => if n = 0 then s.clearOverlength (v.getLsbD 4) else if n = 4 then s.writeFeed v else s
  | .schedule e second => s.writeSchedule e second v
  | .id | .globalControl | .freeCount | .counter | .eventMask | .eventLevel | .eventLost | .eventHead _ | .cohortWord _ _
  | .detail | .slotWord _ | .genWord _ _ | .linkWord _ _ | .undefined => s

/-- A host write of a word address (R160): GLOBAL_CONTROL and EVENT_MASK are taken during a reset too (R158). -/
def writeWord (s : State) (a : BitVec 12) (v : Word) : Result :=
  match locationAt a with
  | .globalControl => s.controlWrite (writeControl v)
  | .eventMask => s.controlWrite (writeMask v)
  | l => s.hostWrite (writeLocation v l)

end State

/-- REGISTER_WRITE (R160). At a location that has a row of its own the write has that row's effect (log 10). -/
def execRegisterWrite (a : BitVec 12) (v : Word) (s : State) : Result := s.writeWord a v

end Sys2Proof.Machine
end

