-- ==== Sys2Proof/Machine/Dispatch.lean ====
section
/-! DEFINITION. The meaning of every command: one arm for each row of spec/opcode_table.json. -/

namespace Sys2Proof.Machine

/-- The effect of a command on everything but the queue. -/
def exec (i : Instr) (s : State) : Host.Outcome State Fault Refusal :=
  match i with
  | .slotConfigure => Sys2Proof.Machine.execSlotConfigure s
  | .slotFreeze => Sys2Proof.Machine.execSlotFreeze s
  | .slotThaw => Sys2Proof.Machine.execSlotThaw s
  | .slotTeardown => Sys2Proof.Machine.execSlotTeardown s
  | .cohortSet => Sys2Proof.Machine.execCohortSet s
  | .linkStart => Sys2Proof.Machine.execLinkStart s
  | .linkLoad => Sys2Proof.Machine.execLinkLoad s
  | .linkCancel => Sys2Proof.Machine.execLinkCancel s
  | .linkStop => Sys2Proof.Machine.execLinkStop s
  | .handlePin => Sys2Proof.Machine.execHandlePin s
  | .handleRelease => Sys2Proof.Machine.execHandleRelease s
  | .feedOpen => Sys2Proof.Machine.execFeedOpen s
  | .feedClose => Sys2Proof.Machine.execFeedClose s
  | .feedAbort => Sys2Proof.Machine.execFeedAbort s
  | .pageTake => Sys2Proof.Machine.execPageTake s
  | .checkExamine => Sys2Proof.Machine.execCheckExamine s
  | .captureTransfer p x => Sys2Proof.Machine.execCaptureTransfer p x s
  | .headTakeStart p => Sys2Proof.Machine.execHeadTakeStart p s
  | .headTakeWord p => Sys2Proof.Machine.execHeadTakeWord p s
  | .headDropEntry p => Sys2Proof.Machine.execHeadDropEntry p s
  | .headTakeEnd p => Sys2Proof.Machine.execHeadTakeEnd p s
  | .sourceError p => Sys2Proof.Machine.execSourceError p s
  | .portEnable p => Sys2Proof.Machine.execPortEnable p s
  | .portDisable p => Sys2Proof.Machine.execPortDisable p s
  | .overflowedClear p bit => Sys2Proof.Machine.execOverflowedClear p bit s
  | .storeGrant => Sys2Proof.Machine.execStoreGrant s
  | .tick ready => Sys2Proof.Machine.execTick ready s
  | .periodExpiry k => Sys2Proof.Machine.execPeriodExpiry k s
  | .linkPlaceWord k => Sys2Proof.Machine.execLinkPlaceWord k s
  | .wordTaken k => Sys2Proof.Machine.execWordTaken k s
  | .stallAbort k => Sys2Proof.Machine.execStallAbort k s
  | .abortWordGiveUp k => Sys2Proof.Machine.execAbortWordGiveUp k s
  | .windowExpiry c => Sys2Proof.Machine.execWindowExpiry c s
  | .feedIdleExpiry => Sys2Proof.Machine.execFeedIdleExpiry s
  | .handleDataRead h => Sys2Proof.Machine.execHandleDataRead h s
  | .handleAddrWrite h v => Sys2Proof.Machine.execHandleAddrWrite h v s
  | .overreadClear h bit => Sys2Proof.Machine.execOverreadClear h bit s
  | .feedDataWrite v => Sys2Proof.Machine.execFeedDataWrite v s
  | .overlengthClear bit => Sys2Proof.Machine.execOverlengthClear bit s
  | .scheduleWrite e second v => Sys2Proof.Machine.execScheduleWrite e second v s
  | .protectedWriteClear bit => Sys2Proof.Machine.execProtectedWriteClear bit s
  | .commandRejectedClear bit => Sys2Proof.Machine.execCommandRejectedClear bit s
  | .slotSelect v => Sys2Proof.Machine.execSlotSelect v s
  | .eventPop => Sys2Proof.Machine.execEventPop s
  | .eventLost => Sys2Proof.Machine.execEventLost s
  | .eventMask v => Sys2Proof.Machine.execEventMask v s
  | .prescale v => Sys2Proof.Machine.execPrescale v s
  | .irqEnable bit => Sys2Proof.Machine.execIrqEnable bit s
  | .resetDevice v => Sys2Proof.Machine.execResetDevice v s
  | .powerOnReset => Sys2Proof.Machine.execPowerOnReset s
  | .resetRelease => Sys2Proof.Machine.execResetRelease s
  | .rebuildLinkPage => Sys2Proof.Machine.execRebuildLinkPage s
  | .scheduleClear => Sys2Proof.Machine.execScheduleClear s
  | .registerWrite a v => Sys2Proof.Machine.execRegisterWrite a v s

end Sys2Proof.Machine
end

