-- ==== Sys2Proof/Machine/Step.lean ====
section
/-! DEFINITION. One step of the part: the command at the front of the queue, or one core clock cycle when the queue is
empty. -/

namespace Sys2Proof.Machine

/-- One step. On an empty queue one core clock cycle passes (R139; log 3). -/
def step (s : State) : Host.Outcome State Fault Refusal :=
  match s.pending with
  | [] => .next s.clockCycle
  | c :: rest => exec c { s with pending := rest }

/-- The state with the command that a word spells put at the front of the queue (log 25, log 26). -/
def State.withFetchWord (s : State) (nbits w : Nat) : State :=
  match decodeTableWord nbits w with
  | some c => { s with pending := c :: s.pending }
  | none => s

end Sys2Proof.Machine
end

