-- ==== Sys2Proof/Safety.lean ====
section
/-! DEFINITION. What the statements about the part speak of: when a host access is taken at once, the records a step
offers, the effects that several commands share (releases, completions, abandons, writes), and the invariants of the
reachable states. -/

namespace Sys2Proof.Machine

/-- The fourteen commands a trigger register gives (R152). -/
def isTrigger : Instr → Bool
  | .slotConfigure | .slotFreeze | .slotThaw | .slotTeardown | .cohortSet | .linkStart | .linkLoad | .linkCancel
  | .linkStop | .handlePin | .handleRelease | .feedOpen | .feedClose | .feedAbort => true
  | _ => false

/-- The host writes that a reset discards: every one but those to GLOBAL_CONTROL and EVENT_MASK (R158). -/
def isDiscardedInReset : Instr → Bool
  | .portEnable _ | .portDisable _ | .overflowedClear _ _ | .handleAddrWrite _ _ | .overreadClear _ _ | .feedDataWrite _
  | .overlengthClear _ | .scheduleWrite _ _ _ | .protectedWriteClear _ | .commandRejectedClear _ | .slotSelect _
  | .eventPop => true
  | .registerWrite a _ => a ≠ 0x001#12 && a ≠ 0x006#12
  | c => isTrigger c

/-- The commands that are accesses of the host to the register window (chapter 11). -/
def isHostAccess : Instr → Bool
  | .portEnable _ | .portDisable _ | .overflowedClear _ _ | .handleDataRead _ | .handleAddrWrite _ _ | .overreadClear _ _
  | .feedDataWrite _ | .overlengthClear _ | .scheduleWrite _ _ _ | .protectedWriteClear _ | .commandRejectedClear _
  | .slotSelect _ | .eventPop | .eventLost | .eventMask _ | .prescale _ | .irqEnable _ | .resetDevice _
  | .registerWrite _ _ => true
  | c => isTrigger c

/-- The queue after the records of a list are offered to it, in order (R144). -/
def EventQueue.takeAll (q : EventQueue) (l : List EventRecord) : EventQueue := l.foldl EventQueue.take q

namespace State

/-- A host access is taken at once: no reset is in progress and no access is held. -/
def hostFree (s : State) : Prop := s.resetPhase = .none ∧ s.waitLine = false

/-- A trigger write is accepted: the access is taken at once and the unit is IDLE (R152). -/
def unitFree (s : State) : Prop := s.hostFree ∧ s.cmd.state = .idle

/-- The n STORE_GRANTs that a held host access waits for: the wait line is asserted before each of them (R160). -/
def grants : Nat → State → State → Prop
  | 0, s, t => t = s
  | n + 1, s, t => s.waitLine = true ∧ ∃ u, exec .storeGrant s = .next u ∧ grants n u t

/-- The expiries as commands, in the order in which the model takes those still outstanding (log 2). -/
def expiryCommands : List Instr :=
  ((List.finRange 6).flatMap fun k => [.stallAbort k, .abortWordGiveUp k, .periodExpiry k]) ++
    (List.finRange 4).map Instr.windowExpiry ++ [.feedIdleExpiry]

/-- Every outstanding expiry is taken: the expiries' commands run one after the other, each without effect where its expiry
is not due (R141; log 1, log 2). -/
def afterExpiries (s : State) : Host.Outcome State Fault Refusal :=
  expiryCommands.foldl (fun r c => Result.andThen r (exec c)) (.next s)

/-- No tick has left an expiry to be taken (R141). -/
def nothingDue (s : State) : Prop :=
  (∀ k, s.periodDue k = false ∧ s.stallDue k = false ∧ s.giveUpDue k = false) ∧ (∀ c, s.windowDue c = false) ∧
    s.feedDue = false

/-- The record a block offers now (R143). -/
def record (s : State) (kind : EventKind) (object : Nat) (arg : Word) (reason : BitVec 4) : EventRecord :=
  { kind := kind, object := BitVec.ofNat 16 object, arg := arg, reason := reason, stamp := s.now }

/-- The result record with a code and a detail, the unit otherwise as it was (R153). -/
def withResult (s : State) (code : ResultCode) (detail : Word) : CommandUnit :=
  { s.cmd with code := code, detail := detail }

/-- A command refused by the test with an order number: the result is written and nothing else changes (R153, R155). -/
def refusedBy (s : State) (code : ResultCode) (test : Nat) : State :=
  { s with cmd := s.withResult code (BitVec.ofNat 32 test) }

/-- The three memories are in canonical form. -/
def memoriesWf (s : State) : Bool :=
  Cells.wf Config.storeWords unknownWord s.store && Cells.wf Config.pages rebuiltNext s.pool.next &&
    Cells.wf 2048 clearedWord s.schedule

/-! ### Packed words -/

end State

/-- A word with these fields, each (high bit, low bit, value), a value being cut to its field; every bit outside them is 0
(R160). -/
def hasFields (w : Word) (fields : List (Nat × Nat × Nat)) : Prop :=
  (∀ f ∈ fields, bits w f.1 f.2.1 = f.2.2 % 2 ^ (f.1 + 1 - f.2.1)) ∧
    ∀ n < 32, (∀ f ∈ fields, ¬ (f.2.1 ≤ n ∧ n ≤ f.1)) → w.getLsbD n = false

/-! ### The free list and the chains (chapter 2) -/

/-- From a start, following NEXT goes through exactly the pages of a list and then meets END (§2.2). -/
def linkedList (q : Pool) : Option PageId → List PageId → Prop
  | h, [] => h = none
  | h, p :: l => h = some p ∧ linkedList q (q.nextOf p) l

/-- The free list holds exactly these pages, from HEAD to TAIL, and COUNT is their number (R26). -/
def freeList (q : Pool) (l : List PageId) : Prop := linkedList q q.head l ∧ q.tail = l.getLast? ∧ q.count = l.length

namespace State

/-- The pages of a slot's chains in generation order, generation 0 first (R30). -/
def chainPages (s : State) (chain : SlotId → GenId → List PageId) (i : SlotId) : List PageId :=
  ((List.finRange 5).filter fun g : GenId => g.val < (s.slot i).depth).flatMap (chain i)

/-- The pool takes back the chains of the slots of a list: behind the pages that the free list holds stand the chains of the
first slot in generation order, then those of the next slot (R20, R30). -/
def returnsChains (s t : State) (slots : List SlotId) : Prop :=
  ∀ (free : List PageId) (chain : SlotId → GenId → List PageId), s.memoriesWf = true → freeList s.pool free →
    (∀ i ∈ slots, ∀ g : GenId, g.val < (s.slot i).depth → chain i g ≠ [] ∧ (chain i g).length = (s.slot i).ppg ∧
      linkedList s.pool ((s.slot i).gen g).head (chain i g)) →
    (free ++ slots.flatMap (s.chainPages chain)).Nodup →
    freeList t.pool (free ++ slots.flatMap (s.chainPages chain))

/-! ### The release of a frame's pins (R11, R20, R104, R106) -/

/-- The slots whose drain ended between two states, of those that the pins of a list name, in the list's order. -/
def drained (s t : State) (l : List PinEntry) : List SlotId :=
  (l.map PinEntry.slot).filter fun i => (s.slot i).state = .draining ∧ (t.slot i).state = .unused

/-- A last-seen table with the entries of some slots set to 0 (R20). -/
def forgetAll (slots : List SlotId) (seen : Table 32 Word) : Table 32 Word := slots.foldl (fun l i => Table.put l i 0) seen

/-- The records of the drains that ended (R20), in the order of the pin set (log 28). -/
def releaseRecords (s : State) (ended : List SlotId) : List EventRecord :=
  ended.map fun i => s.record .slotReleased i.val (BitVec.ofNat 32 ((s.slot i).depth * (s.slot i).ppg)) 0

/-- Link k releases the pins of its pin set: PINS of each generation named falls by one (R11), and a DRAINING slot whose
every PINS is then 0 becomes UNUSED, its chains returned and the last-seen entries of every link cleared (R20, R30). The
slots named are different. What else of link k changes, and the records, are left to the statement. -/
def releasesPins (s t : State) (k : LinkId) : Prop :=
  let l := (s.link k).pinSet
  let ended := s.drained t l
  (∀ p ∈ l,
    let x := s.slot p.slot
    let pinsAfter := fun g => if g = p.gen then (x.gen g).pins - 1 else (x.gen g).pins
    (p.slot ∈ ended ↔ x.state = .draining ∧ ∀ g, pinsAfter g = 0) ∧
    (∀ g, (t.slot p.slot).gen g = { x.gen g with
      pins := pinsAfter g, head := if p.slot ∈ ended ∧ g.val < x.depth then none else (x.gen g).head }) ∧
    t.slot p.slot = { x with
      state := if p.slot ∈ ended then .unused else x.state, gens := (t.slot p.slot).gens }) ∧
  (∀ i, i ∉ l.map PinEntry.slot → t.slot i = s.slot i) ∧
  s.returnsChains t ended ∧ (ended = [] → t.pool = s.pool) ∧ t.pool.alloc = s.pool.alloc ∧
  (t.link k).lastSeen = forgetAll ended (s.link k).lastSeen ∧
  ∀ j, j ≠ k → t.link j = { s.link j with lastSeen := forgetAll ended (s.link j).lastSeen }

/-! ### Completions and abandons (§1.4, chapter 4) -/

/-- No slot holds two SEALED generations (R4). -/
def oneSeal (s : State) : Prop :=
  ∀ j x y, ((s.slot j).gen x).state = .sealed → ((s.slot j).gen y).state = .sealed → x = y

/-- What NEXT_SEQ is after a publish (R3). -/
def seqAfter (w : Word) : Word := if w.toNat = 4294967295 then 1 else w + 1

/-- The seal that a slot holds is published under an epoch (R8). -/
def publishesSeal (s t : State) (j : SlotId) (epoch : BitVec 16) : Prop :=
  ∀ x, ((s.slot j).gen x).state = .sealed →
    (t.slot j).gen x = { (s.slot j).gen x with
      state := .ready, seq := (s.slot j).nextSeq, epoch := epoch, isPartial := false } ∧
    (∀ y, y ≠ x → (t.slot j).gen y = (s.slot j).gen y) ∧
    t.slot j = { s.slot j with newest := some x, nextSeq := seqAfter (s.slot j).nextSeq, gens := (t.slot j).gens }

/-- The completion of a FILLING generation with n words: published at once in a slot without a cohort (R6); in a cohort slot
it is sealed, an older seal is superseded (R7), and the cohort takes the report (R57 to R60). -/
def completes (s t : State) (i : SlotId) (g : GenId) (n : Nat) : Prop :=
  let x := s.slot i
  let whole := { x.gen g with words := n, isShort := decide (n < x.length) }
  let others := fun j => j ≠ i → t.slot j = s.slot j
  let publishes := fun epoch : BitVec 16 =>
    (t.slot i).gen g = { whole with state := .ready, seq := x.nextSeq, epoch := epoch, isPartial := false } ∧
    (∀ h, h ≠ g → (t.slot i).gen h = x.gen h) ∧
    t.slot i = { x with newest := some g, nextSeq := seqAfter x.nextSeq, gens := (t.slot i).gens }
  t = { s with slots := t.slots, cohorts := t.cohorts, events := t.events } ∧
  (x.cohort = none → publishes 0 ∧ (∀ j, others j) ∧ t.cohorts = s.cohorts ∧ t.events = s.events) ∧
  ∀ c, x.cohort = some c →
    let k := s.cohort c
    let sealed := k.sealed ||| BitVec.twoPow 32 i.val
    let noSeal := ∀ o, (x.gen o).state ≠ .sealed
    (∀ d, d ≠ c → t.cohort d = s.cohort d) ∧
    (∀ o, k.state = .gathering → (x.gen o).state = .sealed →
      (t.slot i).gen g = { whole with state := .sealed } ∧
      (t.slot i).gen o = { x.gen o with state := .empty, words := 0, isShort := false, isPartial := false, epoch := 0 } ∧
      (∀ h, h ≠ g → h ≠ o → (t.slot i).gen h = x.gen h) ∧ t.slot i = { x with gens := (t.slot i).gens } ∧
      (∀ j, others j) ∧ t.cohort c = k ∧
      t.events = s.events.take (s.record .cohortSuperseded i.val (BitVec.ofNat 32 c.val) 0)) ∧
    (noSeal → sealed ≠ k.members →
      (t.slot i).gen g = { whole with state := .sealed } ∧ (∀ h, h ≠ g → (t.slot i).gen h = x.gen h) ∧
      t.slot i = { x with gens := (t.slot i).gens } ∧ (∀ j, others j) ∧ t.events = s.events ∧
      t.cohort c = { k with
        sealed := sealed, state := .gathering,
        deadline := if k.state = .idle ∧ k.window ≠ 0 then s.timebase.counter + BitVec.ofNat 32 k.window
                    else k.deadline }) ∧
    (noSeal → sealed = k.members →
      publishes k.epoch ∧ (∀ j, j ≠ i → k.sealed.getLsbD j.val = true → s.publishesSeal t j k.epoch) ∧
      (∀ j, j ≠ i → k.sealed.getLsbD j.val = false → t.slot j = s.slot j) ∧
      t.cohort c = { k with
        state := .idle, sealed := 0, epoch := if k.epoch.toNat = 65535 then 1 else k.epoch + 1 } ∧
      t.events = s.events.take (s.record .cohortPublished c.val (k.epoch.setWidth 32) 0))

/-- The generations of a list's members complete one after the other, in the list's order (log 27), each with the words
written into it (R45). -/
def completesAll : State → List FillMember → State → Prop
  | s, [], t => t = s
  | s, m :: l, t => ∃ u, s.completes u m.slot m.gen ((s.slot m.slot).gen m.gen).words ∧ completesAll u l t

/-- The members of a block can be completed or abandoned: each has its own slot and is FILLING, and no slot holds two
seals (R4, §3.2). -/
def blockReady (s : State) (l : List FillMember) : Prop :=
  (l.map FillMember.slot).Nodup ∧ (∀ m ∈ l, ((s.slot m.slot).gen m.gen).state = .filling) ∧ s.oneSeal

/-- Every member of a block is abandoned: its generation is EMPTY with SEQ, STAMP, TAG and HEAD kept, ABANDONS has risen, and
one GEN_ABANDONED with the reason's code is offered for each, in the list's order (R9). -/
def abandonsAll (s t : State) (l : List FillMember) (why : BitVec 4) : Prop :=
  (∀ m ∈ l,
    (t.slot m.slot).gen m.gen = { (s.slot m.slot).gen m.gen with
      state := .empty, words := 0, isShort := false, isPartial := false, epoch := 0 } ∧
    t.slot m.slot = { s.slot m.slot with
      gens := (t.slot m.slot).gens, abandons := min ((s.slot m.slot).abandons + 1) 65535 } ∧
    ∀ g, g ≠ m.gen → (t.slot m.slot).gen g = (s.slot m.slot).gen g) ∧
  (∀ i, i ∉ l.map FillMember.slot → t.slot i = s.slot i) ∧
  t.events = s.events.takeAll (l.map fun m =>
    s.record .genAbandoned m.slot.val (BitVec.ofNat 32 ((s.slot m.slot).gen m.gen).words) why)

/-! ### Words at a port's head, and grants -/

/-- The members of a FILL set a word is due to, in the set's order (R43). -/
def dueMembers (s : State) (l : List FillMember) (word : Nat) : List FillMember :=
  l.filter fun m => (s.slot m.slot).offset ≤ word ∧ word < (s.slot m.slot).offset + (s.slot m.slot).length

/-- The write of the entry's word for one member of a port's FILL set (R43). -/
def writeFor (s : State) (p : PortId) (e : FifoEntry) (m : FillMember) : WriteReq :=
  { slot := m.slot, gen := m.gen, pos := (s.port p).wordIndex - (s.slot m.slot).offset, word := e.word, fill := m.fill }

/-- The word at the head of a port is due to the members m :: rest: the port presents the first write, unless a write of an
ended block still waits for its grant (log 12); nothing else changes (R33, R43). -/
def presentsWrites (s t : State) (p : PortId) (e : FifoEntry) (m : FillMember) (rest : List FillMember) : Prop :=
  ((s.port p).req = none → t.port p = { s.port p with writing := true, due := rest, req := some (s.writeFor p e m) }) ∧
  ((s.port p).req ≠ none → t.port p = { s.port p with writing := true, due := m :: rest }) ∧
  (∀ r, r ≠ p → t.port r = s.port r) ∧ t = { s with ports := t.ports }

/-- The head has finished with the word of its entry e: WORD_INDEX advances and the entry leaves. An END first completes
every member of the FILL set and leaves the port IDLE; a BREAK mark gives up the block that is still open and leaves the
port in DISCARD (R43, R45, R48). -/
def finishesWord (s t : State) (p : PortId) (e : FifoEntry) (l : List FifoEntry) : Prop :=
  let q := s.port p
  let done := { q with
    fifo := l, wordIndex := min (q.wordIndex + 1) 65535, writing := false, due := [], begun := false }
  (∀ r, r ≠ p → t.port r = s.port r) ∧
  (e.last = false → e.brk = false → t.port p = done ∧ t = { s with ports := t.ports }) ∧
  (e.last = true → t.port p = { done with fill := [], state := if e.brk then .discard else .idle } ∧
    ∃ u, s.completesAll q.fill u ∧ t = { u with ports := t.ports }) ∧
  (e.last = false → e.brk = true → t.port p = { done with fill := [], state := .discard } ∧
    s.abandonsAll t q.fill 3 ∧ t = { s with slots := t.slots, ports := t.ports, events := t.events })

/-- The word of a granted write is stored and nothing else in the store, WORDS of its generation rises by one, and
LAST_GRANTED is the position granted (R33, R35, R43, R132). What becomes of the requester is left to the statement. -/
def writesWord (s t : State) (r : Fin 21) (q : WriteReq) (a : Nat) : Prop :=
  t.readStore a = q.word ∧ (∀ b, b ≠ a → t.readStore b = s.readStore b) ∧
  (t.slot q.slot).gen q.gen = { (s.slot q.slot).gen q.gen with words := ((s.slot q.slot).gen q.gen).words + 1 } ∧
  (∀ g, g ≠ q.gen → (t.slot q.slot).gen g = (s.slot q.slot).gen g) ∧
  t.slot q.slot = { s.slot q.slot with gens := (t.slot q.slot).gens } ∧ (∀ i, i ≠ q.slot → t.slot i = s.slot i) ∧
  t.lastGranted = r

/-- The read request a link holds after a word has been placed or taken: the request `kept` that it held, if it held one;
else a request for the next word of its frame, where that is a data word of a pinned slot and the buffer has room, naming
the pinned generation and the record word (R33, R100; log 13); else none. -/
def presentsRead (k : LinkId) (kept : Option ReadReq) (l : Link) : Prop :=
  (∀ q, kept = some q → l.req = some q) ∧
  (kept = none → ∀ f, l.frame = some f →
    let next := frameWord k l f f.placed
    (∀ i pos p, next = some (.data i pos) → l.line ≠ .abort → l.buffer.length < 64 → p ∈ l.pinSet → p.slot = i →
      (l.pinSet.map PinEntry.slot).Nodup → l.req = some { slot := i, gen := p.gen, pos := pos }) ∧
    ((l.line = .abort ∨ 64 ≤ l.buffer.length ∨ ∀ i pos, next = some (.data i pos) → ∀ p ∈ l.pinSet, p.slot ≠ i) →
      l.req = none))

/-! ### Invariants -/

/-- The unit is BUSY while a check, an allocation or a reset is in progress, and at no other time; never two of them at
once (R152, R154, R157). -/
def unitInv (s : State) : Prop :=
  match s.resetPhase, s.check, s.pool.alloc with
  | .none, none, none => s.cmd.state = .idle ∧ s.cmd.running = none
  | .none, some c, none =>
    s.cmd.state = .busy ∧ c.kind ≠ .configure ∧ ∃ r, s.cmd.running = some r ∧ r.command = c.kind
  | .none, none, some _ => s.cmd.state = .busy ∧ ∃ r, s.cmd.running = some r ∧ r.command = .configure
  | .held, none, none | .running _ _, none, none => s.cmd.state = .busy ∧ s.cmd.running = none
  | _, _, _ => False

/-- A cohort's state is GATHERING exactly while SEALED is not empty (R56); EPOCH is never 0 (R60); WINDOW is in range. -/
def cohortInv (s : State) : Prop :=
  ∀ c, ((s.cohort c).state = .gathering ↔ (s.cohort c).sealed ≠ 0) ∧ (s.cohort c).epoch ≠ 0 ∧
    (s.cohort c).window ≤ Config.longestWindow

/-- A pinned generation is READY, and so is NEWEST (R2, R4); an UNUSED slot holds no pin; NEXT_SEQ is never 0 (R3); the
counters stay in range (R22). -/
def slotInv (s : State) : Prop :=
  ∀ i, (∀ g, 0 < ((s.slot i).gen g).pins → ((s.slot i).gen g).state = .ready) ∧
    (∀ g, (s.slot i).newest = some g → ((s.slot i).gen g).state = .ready) ∧
    ((s.slot i).state = .unused → ∀ g, ((s.slot i).gen g).pins = 0) ∧
    (s.slot i).nextSeq ≠ 0 ∧ (s.slot i).overruns ≤ 65535 ∧ (s.slot i).abandons ≤ 65535

/-- The queues hold no more than their places (R40, R144), and the counters of the ports and the feed stay in range. -/
def queueInv (s : State) : Prop :=
  s.events.records.length ≤ Config.queueDepth ∧ s.events.lost ≤ 255 ∧ s.feed.wordIndex ≤ 65535 ∧
    ∀ p, (s.port p).fifo.length ≤ Config.fifoDepth ∧ (s.port p).wordIndex ≤ 65535

/-- A generation has a writer: it is a member of its slot's port's open block, or the open feed's generation. -/
def hasWriter (s : State) (i : SlotId) (g : GenId) : Prop :=
  (∃ p n, (s.slot i).source = .port p ∧ { slot := i, gen := g, fill := n } ∈ (s.port p).fill) ∨
    ((s.slot i).source = .feed ∧ s.feed.state = .opened ∧ s.feed.slot = i ∧ s.feed.gen = g)

/-- The FILLING generations are exactly those that have a writer (§3.2, R130), in slots that are ACTIVE or FROZEN; a port's
FILL set is in ascending slot order, and empty outside a block. -/
def fillInv (s : State) : Prop :=
  (∀ p, ((s.port p).fill.map FillMember.slot).Pairwise (· < ·) ∧ ((s.port p).state ≠ .inBlock → (s.port p).fill = []) ∧
    ∀ m ∈ (s.port p).fill, (s.slot m.slot).source = .port p) ∧
  (s.feed.state = .opened → (s.slot s.feed.slot).source = .feed) ∧
  ∀ i g, (((s.slot i).gen g).state = .filling ↔ s.hasWriter i g) ∧
    (((s.slot i).gen g).state = .filling → (s.slot i).state = .active ∨ (s.slot i).state = .frozen)

/-- MEMBERS holds exactly the slots whose COHORT names the cohort and whose state is CONFIGURING, ACTIVE or FROZEN (R55);
the slot of an allocation is CONFIGURING. -/
def memberInv (s : State) : Prop :=
  (∀ a, s.pool.alloc = some a → (s.slot a.slot).state = .configuring) ∧
  ∀ c i, (s.cohort c).members.getLsbD i.val = true ↔
    ((s.slot i).cohort = some c ∧
      ((s.slot i).state = .configuring ∨ (s.slot i).state = .active ∨ (s.slot i).state = .frozen))

/-- SEALED names exactly the members that hold a SEALED generation (R57), and a slot holds at most one (R4). -/
def sealInv (s : State) : Prop :=
  ∀ i, (∀ c, (s.cohort c).sealed.getLsbD i.val = true ↔
      ((s.slot i).cohort = some c ∧ ∃ g, ((s.slot i).gen g).state = .sealed)) ∧
    (∀ g h, ((s.slot i).gen g).state = .sealed → ((s.slot i).gen h).state = .sealed → g = h) ∧
    (∀ g, ((s.slot i).gen g).state = .sealed →
      (s.slot i).cohort ≠ none ∧ ((s.slot i).state = .active ∨ (s.slot i).state = .frozen))

/-- A link with no frame in flight: the line is QUIET, and no pin, item, word, request or abort word is left (R96, R116). -/
def linkAtRest (l : Link) : Prop :=
  l.line = .quiet ∧ l.pinSet = [] ∧ l.items = [] ∧ l.buffer = [] ∧ l.frame = none ∧ l.req = none ∧ l.abortWord = none

/-- A link with a frame in flight that is not aborted: the buffer holds the words placed and not yet taken, at most 64 of
them, and is empty exactly in GAP (R100, R116, R117). -/
def linkDriving (k : LinkId) (l : Link) (f : Frame) : Prop :=
  l.abortWord = none ∧ f.placed = f.taken + l.buffer.length ∧ f.placed ≤ frameLength l.items ∧
    l.buffer.length ≤ Config.bufferDepth ∧
    ((l.line = .drive ∧ l.buffer ≠ []) ∨ (l.line = .gap ∧ l.buffer = [] ∧ f.placed < frameLength l.items)) ∧
    (l.req ≠ none → l.buffer.length < Config.bufferDepth ∧ ∃ i pos, frameWord k l f f.placed = some (.data i pos))

/-- A link whose frame is aborted: the abort word waits, and no pin, word or request is left (R106, R121). -/
def linkAborted (l : Link) : Prop :=
  l.line = .abort ∧ l.abortWord = some (~~~ l.sync) ∧ l.pinSet = [] ∧ l.buffer = [] ∧ l.req = none

/-- A link in OFF or WAIT has no frame in flight, and a link in FRAME or STOPPING has one (R90, R116). -/
def linkOk (k : LinkId) (l : Link) : Prop :=
  match l.state with
  | .off | .wait => linkAtRest l
  | .frame | .stopping => ∃ f, l.frame = some f ∧ (linkDriving k l f ∨ linkAborted l)

/-- Every link and its line agree, and a check for LINK_START belongs to a link in OFF (R91). -/
def linkInv (s : State) : Prop :=
  (∀ c, s.check = some c → c.kind = .start → (s.link c.link).state = .off) ∧ ∀ k, linkOk k (s.link k)

/-- The free list as far as the rebuild has come (R27): every page below n is linked to the next. -/
def linkedUpTo (q : Pool) (n : Nat) : Prop :=
  q.count = n ∧ (n = 0 → q.head = none ∧ q.tail = none) ∧
    ∀ p : PageId, (p.val = 0 → 0 < n → q.head = some p) ∧ (p.val + 1 = n → q.tail = some p ∧ q.nextOf p = none) ∧
      ∀ p' : PageId, p.val + 1 = p'.val → p'.val < n → q.nextOf p = some p'

/-- While a reset is in progress every slot is UNUSED, no allocation is open, and the free list is as far as the rebuild has
come (R27, R157, R159). -/
def rebuildInv (s : State) : Prop :=
  match s.resetPhase with
  | .none => True
  | .held => linkedUpTo s.pool 0 ∧ s.pool.alloc = none ∧ ∀ i, (s.slot i).state = .unused
  | .running n clearing =>
    n ≤ 2048 ∧ ¬ (n = 2048 ∧ clearing = false) ∧ linkedUpTo s.pool n ∧ s.pool.alloc = none ∧
      ∀ i, (s.slot i).state = .unused

/-- During a reset every handle is FREE, the feed is IDLE, and the wait line holds no access (R158). -/
def resetIsQuiet (s : State) : Prop :=
  s.resetPhase ≠ .none → s.waitLine = false ∧ (∀ h, (s.handle h).state = .free) ∧ s.feed.state = .idle

/-- PINS of every generation is the number of links and handles whose pin names it: a link's pin set names a slot at most
once, and a handle in HELD holds the generation it was given (R10). -/
def pinInv (s : State) : Prop :=
  (∀ k, ((s.link k).pinSet.map PinEntry.slot).Nodup) ∧
    ∀ i g, ((s.slot i).gen g).pins =
      ((List.finRange 6).filter fun k => (s.link k).pinSet.any fun p => decide (p.slot = i ∧ p.gen = g)).length +
      ((List.finRange 2).filter fun h => (s.handle h).state = .held ∧ (s.handle h).slot = i ∧ (s.handle h).gen = g).length

/-- The chain of a generation is built: the generation is one of the slot's, and the slot is past CONFIGURING, or the
allocation in progress has gone on to a later generation of it (R15, R29). -/
def hasChain (s : State) (i : SlotId) (g : GenId) : Prop :=
  match (s.slot i).state with
  | .unused => False
  | .configuring => ∃ a, s.pool.alloc = some a ∧ a.slot = i ∧ g < a.gen
  | .active | .frozen | .draining => g.val < (s.slot i).depth

/-- The allocation in progress: its slot is CONFIGURING, `building` are the pages taken for the chain of GEN, from FIRST to
LAST, TAKEN is their number, and REMAINING counts the pages still to take, which the free list holds (R28, R29). -/
def allocOk (s : State) (a : Alloc) (building free : List PageId) : Prop :=
  let x := s.slot a.slot
  a.gen.val < x.depth ∧ linkedList s.pool a.first building ∧ a.last = building.getLast? ∧ a.taken = building.length ∧
    a.taken < x.ppg ∧ a.remaining + a.gen.val * x.ppg + a.taken = x.depth * x.ppg ∧ a.remaining ≤ free.length

/-- Outside a reset every page of the store is at exactly one place: on the free list, on the chain of one generation, or on
the chain being built, and every chain that is built has PPG pages (R25, R26, R28, R29). During a reset no generation has a
chain (R23, R27); where the free list then stands is said by rebuildInv. -/
def pagesInv (s : State) : Prop :=
  (∀ i, ((s.slot i).state = .configuring ↔ ∃ a, s.pool.alloc = some a ∧ a.slot = i) ∧
    ((s.slot i).state ≠ .unused → 1 ≤ (s.slot i).ppg ∧ (s.slot i).depth ≤ 5)) ∧
  match s.resetPhase with
  | .held | .running _ _ => ∀ i g, ((s.slot i).gen g).head = none
  | .none => ∃ (free building : List PageId) (chain : SlotId → GenId → List PageId),
    freeList s.pool free ∧
    (∀ i g, linkedList s.pool ((s.slot i).gen g).head (chain i g) ∧
      (s.hasChain i g → (chain i g).length = (s.slot i).ppg) ∧ (¬ s.hasChain i g → chain i g = [])) ∧
    (s.pool.alloc = none → building = []) ∧ (∀ a, s.pool.alloc = some a → s.allocOk a building free) ∧
    (free ++ building ++ (List.finRange 32).flatMap fun i => (List.finRange 5).flatMap (chain i)).Nodup ∧
    (free ++ building ++ (List.finRange 32).flatMap fun i => (List.finRange 5).flatMap (chain i)).length = 2048

end State
end Sys2Proof.Machine
end

