-- ==== Sys2Proof/Certificates/Slice0/Obligations.lean ====
section
/-! DEFINITION. The statements for the provers, block by block in the order of the spec's chapters. -/

open Sys2Proof Sys2Proof.Machine

/-! ### The step and the resets -/

/-- A step takes the command at the front of the queue and runs it on the state with the queue's rest. -/
def Obligations.StepRunsTheFrontCommand : Prop :=
  ∀ (s : State) (c : Instr) (rest : List Instr), s.pending = c :: rest → step s = exec c { s with pending := rest }

/-- On an empty queue one core clock cycle passes: DIVIDER advances, or the interval ends with a tick (R139). An expiry is
taken at the tick that causes it: the expiries of the last tick that no command has taken are taken before a cycle is counted,
and those of a tick that ends the interval are taken with it (R141). None is then left: no window and no idle limit, no
give-up, no period expiry of a link with PERIOD above 0, and no stall that was due to a frame in flight. That an empty queue
stands for a clock cycle and that READY keeps its last levels is the model's choice (log 3), and so is the order of the
expiries; a command that follows a TICK in the queue is an event of the same tick and may come before them (log 2). -/
def Obligations.EmptyQueueIsOneClockCycle : Prop :=
  (∀ s : State, s.pending = [] →
    (s.resetPhase = .held → step s = .next s) ∧
    (s.resetPhase ≠ .held → s.timebase.divider + 1 < cyclesOf s.timebase.inForce →
      step s = Result.andThen s.afterExpiries fun u =>
        .next { u with timebase := { u.timebase with divider := u.timebase.divider + 1 } }) ∧
    (s.resetPhase ≠ .held → cyclesOf s.timebase.inForce ≤ s.timebase.divider + 1 →
      step s = Result.andThen (exec (.tick s.readyPins) s) State.afterExpiries)) ∧
  (∀ s : State, s.nothingDue → s.afterExpiries = .next s) ∧
  ∀ s : State, ∃ u, s.afterExpiries = .next u ∧ u.timebase = s.timebase ∧ (∀ c, u.windowDue c = false) ∧
    u.feedDue = false ∧ ∀ k, u.giveUpDue k = false ∧ ((s.link k).period ≠ 0 → u.periodDue k = false) ∧
      (s.stallDue k = true → (s.link k).frame ≠ none → u.stallDue k = false)

/-- What the register window reads (chapter 11). After a power-on reset: the values of §11.2, §11.4 and the reset rules (R23,
R27, R53, R68, R89, R138, R150, R155); that COUNTER reads 0, as before the first tick, is the model's choice of the moment
(log 5). In any state: while the RESET pin is asserted every read returns 0 (R159), and a read of an undefined location or a
write-only register returns 0 (R160). Otherwise every register reads the fields of its layout, as the part stands, and 0 in
its unused bits: the global, port, cohort, command, link, handle, feed and schedule words, the event head (0 while the queue
is empty, R147), and the slot view, which reads 0 past slot 31, an empty record past DEPTH, and the all-ones value for none
and END (R24, R163). The model's choices: bit 8 of GLOBAL_STATUS is 1 when asserted (log 29), SLOT_SELECT itself reads the
value written, above 31 too (log 31), and these reads are a function of the state (log 20). The silicon step is a free value
(log 17). -/
def Obligations.WindowReadsAfterPowerOnReset : Prop :=
  (State.reset.readWord 0x001 = 0x00640000 ∧ State.reset.readWord 0x002 = 0 ∧ State.reset.readWord 0x003 = 2048 ∧
  State.reset.readWord 0x004 = 0 ∧ State.reset.readWord 0x005 = 0 ∧ State.reset.readWord 0x006 = 0x0001FFFE ∧
  State.reset.readWord 0x007 = 0 ∧ State.reset.readWord 0x008 = 0 ∧ State.reset.readWord 0x00A = 0 ∧
  State.reset.readWord 0x108 = 0 ∧ State.reset.readWord 0x109 = 0 ∧ State.reset.readWord 0x140 = 0 ∧
  State.reset.readWord 0x141 = 0x07000700 ∧ State.reset.readWord 0x145 = 1 ∧ State.reset.readWord 0x154 = 0xFFF ∧
  (∀ p : PortId, (State.reset.port p).statusWord 0 = 0x10 ∧ (State.reset.port p).statusWord 2 = 0) ∧
  (∀ c : CohortId, (State.reset.cohort c).statusWord 0 = 0x00010000 ∧ (State.reset.cohort c).statusWord 3 = 0) ∧
  (∀ k : LinkId, (State.reset.link k).statusWord 0 = 0 ∧ (State.reset.link k).statusWord 9 = 0) ∧
  (∀ h : HandleId, (State.reset.handle h).statusWord 0 = 0) ∧ State.reset.feed.statusWord 0 = 0) ∧
  (∀ (s : State) (a : BitVec 12),
    let n := a.toNat
    let readsNothing := n = 0x009 ∨ (0x00D ≤ n ∧ n ≤ 0x00F) ∨ (0x010 ≤ n ∧ n ≤ 0x03F ∧ n % 4 = 3) ∨
      (0x040 ≤ n ∧ n ≤ 0x05F ∧ 5 ≤ n % 8) ∨ (0x060 ≤ n ∧ n ≤ 0x0FF) ∨ n = 0x106 ∨ n = 0x107 ∨
      (0x10A ≤ n ∧ n ≤ 0x13F) ∨ (0x147 ≤ n ∧ n ≤ 0x14F) ∨ (0x150 ≤ n ∧ n ≤ 0x177 ∧ 5 ≤ n % 8) ∨
      (0x178 ≤ n ∧ n ≤ 0x17F) ∨ (0x180 ≤ n ∧ n ≤ 0x1DF ∧ 11 ≤ n % 16) ∨ (0x1E0 ≤ n ∧ n ≤ 0x1FF) ∨
      (0x200 ≤ n ∧ n ≤ 0x21F ∧ 7 ≤ n % 16) ∨ (0x224 ≤ n ∧ n ≤ 0x7FF)
    s.resetPhase = .held ∨ readsNothing → s.readWord a = 0) ∧
  (∀ s : State, s.resetPhase ≠ .held →
    let reads := fun (n : Nat) (fields : List (Nat × Nat × Nat)) => hasFields (s.readWord (BitVec.ofNat 12 n)) fields
    let q := s.events
    reads 0x000 [(31, 16, 0x3206), (15, 8, 0x48), (7, 0, Config.siliconStep.toNat)] ∧
    reads 0x001 [(0, 0, if s.resetPhase = .none then 0 else 1), (1, 1, q.irqEnable.toNat),
      (31, 16, s.timebase.prescale.toNat)] ∧
    reads 0x002 [(0, 0, s.protectedWrite.toNat), (8, 8, if q.records ≠ [] ∧ q.irqEnable = true then 1 else 0),
      (25, 16, s.protectedEntry.val)] ∧
    reads 0x003 [(11, 0, s.pool.count)] ∧ s.readWord 0x004 = s.timebase.counter ∧
    reads 0x005 ((List.finRange 12).map fun p => (p.val, p.val, (s.port p).enable.toNat)) ∧ s.readWord 0x006 = q.mask ∧
    reads 0x007 [(6, 0, q.records.length)] ∧ reads 0x008 [(7, 0, q.lost)] ∧
    (q.records = [] → s.readWord 0x00A = 0 ∧ s.readWord 0x00B = 0 ∧ s.readWord 0x00C = 0) ∧
    (∀ r l, q.records = r :: l →
      reads 0x00A [(4, 0, r.kind.value), (11, 8, r.reason.toNat), (31, 16, r.stamp.toNat / 65536)] ∧
      reads 0x00B [(15, 0, r.object.toNat), (31, 16, r.stamp.toNat)] ∧ s.readWord 0x00C = r.arg) ∧
    (∀ p : PortId, let x := s.port p
      reads (0x010 + 4 * p.val) [(0, 0, x.enable.toNat), (2, 1, x.state.value), (3, 3, x.overflowed.toNat),
        (4, 4, x.awaitStart.toNat), (13, 8, x.fifo.length)] ∧
      reads (0x011 + 4 * p.val) [(15, 0, x.wordIndex)] ∧ s.readWord (BitVec.ofNat 12 (0x012 + 4 * p.val)) = x.blocksSeen) ∧
    (∀ c : CohortId, let x := s.cohort c
      reads (0x040 + 8 * c.val) [(0, 0, if x.state = .gathering then 1 else 0), (1, 1, if x.policy = .discard then 1 else 0),
        (13, 8, ((List.finRange 32).filter fun i => x.members.getLsbD i.val).length), (31, 16, x.epoch.toNat)] ∧
      reads (0x041 + 8 * c.val) [(19, 0, x.window)] ∧ s.readWord (BitVec.ofNat 12 (0x042 + 8 * c.val)) = x.deadline ∧
      s.readWord (BitVec.ofNat 12 (0x043 + 8 * c.val)) = x.members ∧
      s.readWord (BitVec.ofNat 12 (0x044 + 8 * c.val)) = x.sealed) ∧
    (∀ n : Fin 6, s.readWord (BitVec.ofNat 12 (0x100 + n.val)) = s.arg n) ∧
    reads 0x108 [(2, 0, s.cmd.code.value), (8, 8, if s.cmd.state = .busy then 1 else 0), (16, 16, s.cmd.rejected.toNat)] ∧
    s.readWord 0x109 = s.cmd.detail ∧ s.readWord 0x140 = s.slotSelect ∧
    (31 < s.slotSelect.toNat → ∀ n, 0x141 ≤ n → n ≤ 0x17F → s.readWord (BitVec.ofNat 12 n) = 0) ∧
    (∀ i : SlotId, s.slotSelect.toNat = i.val → let x := s.slot i
      reads 0x141 [(2, 0, x.state.value), (6, 4, x.depth), (10, 8, match x.cohort with | some c => c.val | none => 7),
        (20, 16, match x.source with | .port p => p.val | .feed => 16),
        (26, 24, match x.newest with | some g => g.val | none => 7)] ∧
      reads 0x142 [(9, 0, x.offset), (26, 16, x.length)] ∧ reads 0x143 [(8, 0, x.decCount), (24, 16, x.decimate)] ∧
      reads 0x144 [(5, 0, x.ppg)] ∧ s.readWord 0x145 = x.nextSeq ∧ reads 0x146 [(15, 0, x.overruns), (31, 16, x.abandons)] ∧
      ∀ g : GenId, let y := x.gen g
        (g.val < x.depth →
          reads (0x150 + 8 * g.val) [(1, 0, y.state.value), (4, 4, y.isShort.toNat), (5, 5, y.isPartial.toNat),
            (11, 8, y.pins), (23, 16, y.tag.toNat)] ∧
          s.readWord (BitVec.ofNat 12 (0x151 + 8 * g.val)) = y.seq ∧
          s.readWord (BitVec.ofNat 12 (0x152 + 8 * g.val)) = y.stamp ∧
          reads (0x153 + 8 * g.val) [(10, 0, y.words), (31, 16, y.epoch.toNat)] ∧
          reads (0x154 + 8 * g.val) [(11, 0, match y.head with | some p => p.val | none => 0xFFF)]) ∧
        (x.depth ≤ g.val → (∀ j < 4, s.readWord (BitVec.ofNat 12 (0x150 + 8 * g.val + j)) = 0) ∧
          s.readWord (BitVec.ofNat 12 (0x154 + 8 * g.val)) = 0xFFF)) ∧
    (∀ k : LinkId, let x := s.link k
      let at' := 0x180 + 16 * k.val
      reads at' [(1, 0, x.state.value), (5, 4, x.line.value), (15, 12, x.pinSet.length), (22, 16, x.buffer.length)] ∧
      reads (at' + 1) [(9, 0, x.active.base), (26, 16, x.active.len)] ∧
      reads (at' + 2) [(15, 0, x.active.tag.toNat), (31, 16, x.pending.tag.toNat)] ∧
      reads (at' + 3) [(9, 0, x.pending.base), (26, 16, x.pending.len), (31, 31, x.pendingValid.toNat)] ∧
      reads (at' + 4) [(9, 0, x.cursor)] ∧ reads (at' + 5) [(23, 0, x.period)] ∧ reads (at' + 6) [(23, 0, x.remain)] ∧
      s.readWord (BitVec.ofNat 12 (at' + 7)) = x.sync ∧ reads (at' + 8) [(15, 0, x.stallLimit), (31, 16, x.stallTimer)] ∧
      reads (at' + 9) [(15, 0, x.frameNo.toNat), (31, 16, x.cycleNo.toNat)] ∧
      reads (at' + 10) [(15, 0, x.slips), (31, 16, x.aborts)]) ∧
    (∀ h : HandleId, let x := s.handle h
      let at' := 0x200 + 16 * h.val
      reads at' [(1, 0, x.state.value), (4, 4, x.overread.toNat), (12, 8, x.slot.val), (18, 16, x.gen.val)] ∧
      s.readWord (BitVec.ofNat 12 (at' + 1)) = x.seq ∧ s.readWord (BitVec.ofNat 12 (at' + 2)) = x.stamp ∧
      reads (at' + 3) [(10, 0, x.words), (23, 16, x.tag.toNat), (24, 24, x.isShort.toNat), (25, 25, x.isPartial.toNat)] ∧
      reads (at' + 4) [(15, 0, x.epoch.toNat)] ∧ reads (at' + 5) [(9, 0, x.addr.toNat)] ∧
      ((x.state ≠ .held ∨ x.words ≤ x.addr.toNat) → s.readWord (BitVec.ofNat 12 (at' + 6)) = 0) ∧
      (∀ a, x.state = .held → x.addr.toNat < x.words → s.wordAddress x.slot x.gen x.addr.toNat = some a →
        s.readWord (BitVec.ofNat 12 (at' + 6)) = s.readStore a)) ∧
    reads 0x220 [(0, 0, if s.feed.state = .opened then 1 else 0), (4, 4, s.feed.overlength.toNat), (12, 8, s.feed.slot.val),
      (18, 16, s.feed.gen.val)] ∧
    reads 0x221 [(15, 0, s.feed.wordIndex)] ∧ reads 0x222 [(19, 0, s.feed.idleLimit)] ∧
    reads 0x223 [(19, 0, s.feed.idleCount)] ∧
    ∀ e : EntryId, s.readWord (BitVec.ofNat 12 (0x800 + 2 * e.val)) = s.scheduleWord (2 * e.val) ∧
      s.readWord (BitVec.ofNat 12 (0x801 + 2 * e.val)) = s.scheduleWord (2 * e.val + 1)) ∧
  [SlotState.unused, .configuring, .active, .frozen, .draining].map SlotState.value = [0, 1, 2, 3, 4] ∧
  [GenState.empty, .filling, .sealed, .ready].map GenState.value = [0, 1, 2, 3] ∧
  [PortState.idle, .inBlock, .discard].map PortState.value = [0, 1, 2] ∧
  [LinkState.off, .wait, .frame, .stopping].map LinkState.value = [0, 1, 2, 3] ∧
  [LineState.quiet, .drive, .gap, .abort].map LineState.value = [0, 1, 2, 3] ∧
  [HandleState.free, .held, .revoked].map HandleState.value = [0, 1, 2] ∧
  [ResultCode.ok, .badArg, .state, .noPages, .inUse, .notReady, .noGeneration, .badProgram].map ResultCode.value =
    [0, 1, 2, 3, 4, 5, 6, 7] ∧
  [EventKind.commandDone, .slotOverrun, .genAbandoned, .slotReleased, .cohortPublished, .cohortTimeout, .cohortSuperseded,
    .frameSlip, .frameAborted, .itemMark, .cycleDone, .programSwapped, .linkStopped, .handleRevoked, .feedTimeout,
    .feedAbandoned].map EventKind.value = [1, 2, 3, 4, 5, 6, 7, 8, 9, 10, 11, 12, 13, 14, 15, 16]

/-- A write of GLOBAL_CONTROL with RESET_DEVICE set, no reset in progress, starts a device reset: every block takes its reset
values; MASK, the timebase, the store and the schedule memory are kept, and IRQ_ENABLE and PRESCALE are stored from the word
(R157, §11.2). With the bit clear, or while a reset is in progress, it stores those two fields and nothing else; while the
pin is asserted it is ignored (R157 to R159). READY as last sampled (log 3) and the word last read (log 18), fields of the
model's own, stay. -/
def Obligations.GlobalControlWrites : Prop :=
  (∀ (s : State) (v : Word), s.hostFree → v.getLsbD 0 = true →
      exec (.resetDevice v) s = .next { State.reset with
        pending := s.pending
        store := s.store
        pool := { head := none, tail := none, count := 0, next := s.pool.next, alloc := none }
        schedule := s.schedule
        timebase := { s.timebase with prescale := v.extractLsb' 16 16 }
        events := { records := [], mask := s.events.mask, lost := 0, irqEnable := v.getLsbD 1 }
        cmd := { args := Vector.replicate 6 0, state := .busy, running := none, code := .ok, detail := 0, rejected := false }
        resetPhase := .running 0 false
        readyPins := s.readyPins
        busRead := s.busRead }) ∧
  (∀ (s : State) (v : Word),
      ((s.hostFree ∧ v.getLsbD 0 = false) ∨ (∃ n b, s.resetPhase = .running n b ∧ s.waitLine = false) →
        exec (.resetDevice v) s = .next { s with
          events := { s.events with irqEnable := v.getLsbD 1 }
          timebase := { s.timebase with prescale := v.extractLsb' 16 16 } }) ∧
      (s.resetPhase = .held → exec (.resetDevice v) s = .next s))

/-- The assertion of the RESET pin starts a power-on reset whatever is in progress, and its release starts the rebuild and the
clearing (R140, R150, R159). A held handle read is ended and returns 0; the data lines are a field of the model's own (log
18), of which nothing else is said here, and READY stays as last sampled (log 3). That a RESET_RELEASE with the pin not
asserted changes nothing is the model's choice (log 1). -/
def Obligations.PowerOnResetStartsAndIsReleased : Prop :=
  ∀ s : State,
    (∃ t, exec .powerOnReset s = .next t ∧
      t = { State.reset with
        pending := s.pending
        store := s.store
        pool := { head := none, tail := none, count := 0, next := s.pool.next, alloc := none }
        schedule := s.schedule
        timebase := { counter := 0, prescale := 100, inForce := 100, divider := 0 }
        events := { records := [], mask := 0x0001FFFE, lost := 0, irqEnable := false }
        cmd := { args := Vector.replicate 6 0, state := .busy, running := none, code := .ok, detail := 0,
                 rejected := false }
        resetPhase := .held
        readyPins := s.readyPins
        busRead := t.busRead } ∧
      ((∃ h, (s.handle h).req ≠ none) → t.busRead = 0)) ∧
    (s.resetPhase = .held → exec .resetRelease s = .next { s with resetPhase := .running 0 true }) ∧
    (s.resetPhase ≠ .held → exec .resetRelease s = .next s)

/-- Host writes that leave no effect: a trigger written while the unit is BUSY is dropped, COMMAND_REJECTED is set and nothing
else changes (R152, R156); while a reset is in progress every host write but those to GLOBAL_CONTROL and EVENT_MASK is
discarded without a trace, triggers included (R158); while the pin is asserted those two are ignored as well (R159). -/
def Obligations.DroppedAndDiscardedWrites : Prop :=
  ∀ (s : State) (c : Instr),
    (s.hostFree → s.cmd.state = .busy → isTrigger c = true →
      exec c s = .next { s with cmd := { s.cmd with rejected := true } }) ∧
    (s.resetPhase ≠ .none → isDiscardedInReset c = true → exec c s = .next s) ∧
    (s.resetPhase = .held → ∀ (v : Word) (x : BitVec 16) (b : Bool),
      exec (.eventMask v) s = .next s ∧ exec (.prescale x) s = .next s ∧ exec (.irqEnable b) s = .next s)

/-- One link of the rebuild appends its page at TAIL, and the last one ends the reset when the clearing is done (R27, R157,
R159). The clearing leaves every schedule word 0, and ends the reset when the rebuild is done (R73, R159). That the clearing
is one event is the model's choice (log 15), and so is that either command changes nothing when it is not due: with no page
left to link or no reset running, and with no clearing under way (log 1). -/
def Obligations.ResetWorkStepByStep : Prop :=
  (∀ (s : State) (n : Nat) (clearing : Bool) (h : n < 2048), s.resetPhase = .running n clearing → s.memoriesWf = true →
      s.pool.tail ≠ some ⟨n, h⟩ →
      ∃ t, exec .rebuildLinkPage s = .next t ∧ t.pool.tail = some ⟨n, h⟩ ∧ t.pool.nextOf ⟨n, h⟩ = none ∧
        t.pool.count = s.pool.count + 1 ∧
        (∀ q, s.pool.tail = some q → t.pool.nextOf q = some ⟨n, h⟩ ∧ t.pool.head = s.pool.head) ∧
        (s.pool.tail = none → t.pool.head = some ⟨n, h⟩) ∧
        (∀ q : PageId, q.val ≠ n → s.pool.tail ≠ some q → t.pool.nextOf q = s.pool.nextOf q) ∧
        (n = 2047 → clearing = false → t.resetPhase = .none ∧ t.cmd = { s.cmd with state := .idle }) ∧
        (n ≠ 2047 ∨ clearing = true → t.resetPhase = .running (n + 1) clearing ∧ t.cmd = s.cmd) ∧
        t.pool.alloc = s.pool.alloc ∧ t = { s with pool := t.pool, resetPhase := t.resetPhase, cmd := t.cmd }) ∧
  (∀ (s : State) (n : Nat), s.resetPhase = .running n true →
      ∃ t, exec .scheduleClear s = .next t ∧ (∀ a, t.scheduleWord a = 0) ∧
        (n = 2048 → t.resetPhase = .none ∧ t.cmd = { s.cmd with state := .idle }) ∧
        (n ≠ 2048 → t.resetPhase = .running n false ∧ t.cmd = s.cmd) ∧
        t = { s with schedule := t.schedule, resetPhase := t.resetPhase, cmd := t.cmd }) ∧
  (∀ s : State, (∀ n clearing, s.resetPhase = .running n clearing → 2048 ≤ n) → exec .rebuildLinkPage s = .next s) ∧
  (∀ s : State, (∀ n, s.resetPhase ≠ .running n true) → exec .scheduleClear s = .next s)

/-! ### The command unit -/


/-- A host write of 1 clears a sticky flag and a write of 0 leaves it (R54, R82, R127, R132, R156, R161). The plain register
writes store their field and nothing else (R24, R127, R139, R146, R149): SLOT_SELECT and a handle's ADDR out of reset,
PRESCALE, IRQ_ENABLE and EVENT_MASK also during one (R158). -/
def Obligations.FlagAndFieldWrites : Prop :=
  (∀ (s : State) (bit : Bool) (p : PortId) (h : HandleId), s.hostFree →
      (∃ t, exec (.overflowedClear p bit) s = .next t ∧ t.port p = { s.port p with overflowed := (s.port p).overflowed && !bit } ∧
        (∀ q, q ≠ p → t.port q = s.port q) ∧ t = { s with ports := t.ports }) ∧
      (∃ t, exec (.overreadClear h bit) s = .next t ∧ t.handle h = { s.handle h with overread := (s.handle h).overread && !bit } ∧
        (∀ q, q ≠ h → t.handle q = s.handle q) ∧ t = { s with handles := t.handles }) ∧
      exec (.overlengthClear bit) s = .next { s with feed := { s.feed with overlength := s.feed.overlength && !bit } } ∧
      exec (.protectedWriteClear bit) s = .next { s with protectedWrite := s.protectedWrite && !bit } ∧
      exec (.commandRejectedClear bit) s = .next { s with cmd := { s.cmd with rejected := s.cmd.rejected && !bit } }) ∧
  (∀ (s : State) (v : Word) (x : BitVec 16) (bit : Bool) (h : HandleId), s.waitLine = false →
      (s.resetPhase = .none → exec (.slotSelect v) s = .next { s with slotSelect := v }) ∧
      (s.resetPhase = .none → ∃ t, exec (.handleAddrWrite h v) s = .next t ∧
        t.handle h = { s.handle h with addr := BitVec.ofNat 10 (v.toNat % 1024) } ∧ (∀ q, q ≠ h → t.handle q = s.handle q) ∧
        t = { s with handles := t.handles }) ∧
      (s.resetPhase ≠ .held → exec (.prescale x) s = .next { s with timebase := { s.timebase with prescale := x } } ∧
        exec (.irqEnable bit) s = .next { s with events := { s.events with irqEnable := bit } } ∧
        exec (.eventMask v) s = .next { s with events := { s.events with mask := v &&& 0x0001FFFE#32 } }))

/-- Host writes of the window (R160, R161). Taken at once, a write to any address takes a next state. An argument register
takes the word in either state of the unit (R151). CAPTURE_ENABLE enables each port whose bit is 1 and disables each whose bit
is 0, by R49 and R50, in ascending order (log 23). Every address that is not one of a writable register changes nothing. A
location that has a row of its own has that row's effect in every state; that both spellings exist is the model's choice
(log 10). A host access of any kind, taken while another is held by the wait line, is the access on the state in which grants
of the store port have ended the held one (R160), so FEED_CLOSE and FEED_ABORT meet every feed write granted or withdrawn
(R36); that the access brings those grants with it, at most 512, is the model's choice (log 6). -/
def Obligations.WindowWrites : Prop :=
  (∀ (s t : State) (c : Instr) (n : Nat), s.resetPhase = .none → isHostAccess c = true → s.grants n t → n ≤ 512 →
    t.waitLine = false → exec c s = exec c t) ∧
  (∀ (s : State) (v : Word), s.hostFree →
    (∀ a, ∃ t, exec (.registerWrite a v) s = .next t) ∧
    (∀ n : Fin 6, ∃ t, exec (.registerWrite (BitVec.ofNat 12 (0x100 + n.val)) v) s = .next t ∧ t.arg n = v ∧
      (∀ m, m ≠ n → t.arg m = s.arg m) ∧ t = { s with cmd := { s.cmd with args := t.cmd.args } }) ∧
    exec (.registerWrite 0x005 v) s = (List.finRange 12).foldl (fun r p => Result.andThen r
      (exec (if v.getLsbD p.val then .portEnable p else .portDisable p))) (.next s) ∧
    (∃ t, exec (.registerWrite 0x005 v) s = .next t ∧ ∀ p : PortId, (t.port p).enable = v.getLsbD p.val) ∧
    (∀ a : BitVec 12,
      let n := a.toNat
      let writable := n ∈ [0x001, 0x002, 0x005, 0x006, 0x009, 0x108, 0x140, 0x200, 0x205, 0x210, 0x215, 0x220, 0x224] ∨
        (0x010 ≤ n ∧ n ≤ 0x03F ∧ n % 4 = 0) ∨ (0x100 ≤ n ∧ n ≤ 0x105) ∨ (0x110 ≤ n ∧ n ≤ 0x11D) ∨ 0x800 ≤ n
      ¬ writable → exec (.registerWrite a v) s = .next s)) ∧
  ∀ (s : State) (v : Word),
    let writes := fun (n : Nat) (c : Instr) => exec (.registerWrite (BitVec.ofNat 12 n) v) s = exec c s
    writes 0x001 (.resetDevice v) ∧ writes 0x002 (.protectedWriteClear (v.getLsbD 0)) ∧ writes 0x006 (.eventMask v) ∧
    writes 0x009 .eventPop ∧ (∀ p : PortId, writes (0x010 + 4 * p.val) (.overflowedClear p (v.getLsbD 3))) ∧
    writes 0x108 (.commandRejectedClear (v.getLsbD 16)) ∧ writes 0x110 .slotConfigure ∧ writes 0x111 .slotFreeze ∧
    writes 0x112 .slotThaw ∧ writes 0x113 .slotTeardown ∧ writes 0x114 .cohortSet ∧ writes 0x115 .linkStart ∧
    writes 0x116 .linkLoad ∧ writes 0x117 .linkCancel ∧ writes 0x118 .linkStop ∧ writes 0x119 .handlePin ∧
    writes 0x11A .handleRelease ∧ writes 0x11B .feedOpen ∧ writes 0x11C .feedClose ∧ writes 0x11D .feedAbort ∧
    writes 0x140 (.slotSelect v) ∧
    (∀ h : HandleId, writes (0x200 + 16 * h.val) (.overreadClear h (v.getLsbD 4)) ∧
      writes (0x205 + 16 * h.val) (.handleAddrWrite h v)) ∧
    writes 0x220 (.overlengthClear (v.getLsbD 4)) ∧ writes 0x224 (.feedDataWrite v) ∧
    ∀ e : EntryId, writes (0x800 + 2 * e.val) (.scheduleWrite e false v) ∧
      writes (0x801 + 2 * e.val) (.scheduleWrite e true v)

/-! ### Slots, pages and cohorts -/

/-- SLOT_CONFIGURE completes with the result of the first check of R13 that fails, at acceptance, the slot and the pool
unchanged. -/
def Obligations.ConfigureChecksInOrder : Prop :=
  ∀ s : State, s.unitFree →
    let a1 := s.arg 1
    let a2 := s.arg 2
    let a3 := s.arg 3
    let port := bits a1 4 0 ≤ 11 ∨ bits a1 4 0 = 16
    let window := 1 ≤ bits a2 26 16 ∧ bits a2 26 16 ≤ 1024 ∧ bits a2 9 0 + bits a2 26 16 ≤ 1024
    let depth := 2 ≤ bits a3 2 0 ∧ bits a3 2 0 ≤ 5
    let decimate := 1 ≤ bits a3 16 8 ∧ bits a3 16 8 ≤ 256
    let cohort := bits a3 26 24 ≤ 3 ∨ bits a3 26 24 = 7
    let deep := bits a3 26 24 = 7 ∨ 3 ≤ bits a3 2 0
    let fits := bits a3 2 0 * ((bits a2 26 16 + 31) / 32) ≤ s.pool.count
    let refused := fun code n => exec .slotConfigure s = .next (s.refusedBy code n)
    (31 < (s.arg 0).toNat → refused .badArg 1) ∧
    ∀ i : SlotId, (s.arg 0).toNat = i.val →
      ((s.slot i).state ≠ .unused → refused .state 2) ∧
      ((s.slot i).state = .unused →
        (¬ port → refused .badArg 3) ∧ (port → ¬ window → refused .badArg 4) ∧
        (port → window → ¬ depth → refused .badArg 5) ∧ (port → window → depth → ¬ decimate → refused .badArg 6) ∧
        (port → window → depth → decimate → ¬ cohort → refused .badArg 7) ∧
        (port → window → depth → decimate → cohort → ¬ deep → refused .badArg 8) ∧
        (port → window → depth → decimate → cohort → deep → ¬ fits → refused .noPages 9))

/-- SLOT_CONFIGURE accepted: the descriptor, the blank generation records, the open allocation, the cohort's new member and
the BUSY unit (R14, R28, R65, R154). The fill numbers, the model's own, are kept (log 9). -/
def Obligations.ConfigureOpensTheAllocation : Prop :=
  ∀ (s : State) (i : SlotId) (a : ConfigureArgs), s.unitFree → (s.arg 0).toNat = i.val → (s.slot i).state = .unused →
    configureArgs (s.arg 1) (s.arg 2) (s.arg 3) = .ok a → a.depth * ((a.length + 31) / 32) ≤ s.pool.count →
    (∀ p, a.source = .port p → p.val = bits (s.arg 1) 4 0) ∧ (a.source = .feed → bits (s.arg 1) 4 0 = 16) ∧
    a.offset = bits (s.arg 2) 9 0 ∧ a.length = bits (s.arg 2) 26 16 ∧ a.depth = bits (s.arg 3) 2 0 ∧
    a.decimate = bits (s.arg 3) 16 8 ∧ (∀ c, a.cohort = some c → c.val = bits (s.arg 3) 26 24) ∧
    (a.cohort = none → bits (s.arg 3) 26 24 = 7) ∧
    ∃ t, exec .slotConfigure s = .next t ∧
      t.slot i = { state := .configuring, source := a.source, offset := a.offset, length := a.length, depth := a.depth,
                   decimate := a.decimate, decCount := 0, cohort := a.cohort, ppg := (a.length + 31) / 32, nextSeq := 1,
                   newest := none, overruns := 0, abandons := 0, gens := (t.slot i).gens } ∧
      (∀ g, (t.slot i).gen g =
        { state := .empty, pins := 0, seq := 0, stamp := 0, tag := 0, words := 0, isShort := false, isPartial := false,
          epoch := 0, head := none, fill := ((s.slot i).gen g).fill }) ∧
      (∀ j, j ≠ i → t.slot j = s.slot j) ∧
      t.pool = { s.pool with alloc := some { slot := i, gen := 0, taken := 0, first := none, last := none,
                                             remaining := a.depth * ((a.length + 31) / 32) } } ∧
      (∀ c, a.cohort = some c →
        t.cohort c = { s.cohort c with members := (s.cohort c).members ||| BitVec.twoPow 32 i.val }) ∧
      (∀ c, a.cohort ≠ some c → t.cohort c = s.cohort c) ∧
      t = { s with
        slots := t.slots
        pool := t.pool
        cohorts := t.cohorts
        cmd := { s.cmd with
          state := .busy, running := some { command := .configure, args := s.cmd.args, began := s.timebase.counter } } }

/-- One take moves the page at HEAD of the free list to the end of the chain being built; the last page of a chain sets its
generation's HEAD, and the last of the slot makes it ACTIVE and ends the command (R15, R29, R154). Nothing else of the slot or
of the generation changes. With no allocation in progress or no free page the command changes nothing (log 1, log 22). -/
def Obligations.PageTakeMovesTheHeadPage : Prop :=
  ∀ s : State,
    ((s.pool.alloc = none ∨ s.pool.head = none) → exec .pageTake s = .next s) ∧
    ∀ (a : Alloc) (p : PageId), s.pool.alloc = some a → s.pool.head = some p → a.last ≠ some p → s.memoriesWf = true →
      ∃ t, exec .pageTake s = .next t ∧ t.pool.count = s.pool.count - 1 ∧
        (s.pool.tail = some p → t.pool.head = none ∧ t.pool.tail = none) ∧
        (s.pool.tail ≠ some p → t.pool.head = s.pool.nextOf p ∧ t.pool.tail = s.pool.tail) ∧
        t.pool.nextOf p = none ∧ (∀ l, a.last = some l → t.pool.nextOf l = some p) ∧
        (∀ q, q ≠ p → a.last ≠ some q → t.pool.nextOf q = s.pool.nextOf q) ∧
        t.slot a.slot = { s.slot a.slot with state := (t.slot a.slot).state, gens := (t.slot a.slot).gens } ∧
        (a.taken + 1 = (s.slot a.slot).ppg →
          (t.slot a.slot).gen a.gen = { (s.slot a.slot).gen a.gen with head := some (a.first.getD p) }) ∧
        (∀ g, (g ≠ a.gen ∨ a.taken + 1 ≠ (s.slot a.slot).ppg) → (t.slot a.slot).gen g = (s.slot a.slot).gen g) ∧
        (1 < a.remaining → a.taken + 1 ≠ (s.slot a.slot).ppg → t.pool.alloc =
          some { a with taken := a.taken + 1, first := some (a.first.getD p), last := some p, remaining := a.remaining - 1 }) ∧
        (1 < a.remaining → a.taken + 1 = (s.slot a.slot).ppg → t.pool.alloc =
          some { a with gen := a.gen + 1, taken := 0, first := none, last := none, remaining := a.remaining - 1 }) ∧
        (1 < a.remaining → (t.slot a.slot).state = (s.slot a.slot).state ∧ t.cmd = s.cmd ∧ t.events = s.events) ∧
        (a.remaining ≤ 1 → t.pool.alloc = none ∧ (t.slot a.slot).state = .active ∧
          t.cmd = { s.cmd with code := .ok, detail := 0, state := .idle, running := none } ∧
          t.events = s.events.take (s.record .commandDone a.slot.val 0 0)) ∧
        (∀ j, j ≠ a.slot → t.slot j = s.slot j) ∧
        t = { s with slots := t.slots, pool := t.pool, cmd := t.cmd, events := t.events }

/-- SLOT_FREEZE and SLOT_THAW move the slot between ACTIVE and FROZEN and change nothing else of it; in any other state, and
for a number above 31, they are refused (R16, R17, R153). -/
def Obligations.FreezeAndThaw : Prop :=
  ∀ s : State, s.unitFree →
    (31 < (s.arg 0).toNat →
      exec .slotFreeze s = .next (s.refusedBy .badArg 1) ∧ exec .slotThaw s = .next (s.refusedBy .badArg 1)) ∧
    ∀ i : SlotId, (s.arg 0).toNat = i.val →
      ((s.slot i).state ≠ .active → exec .slotFreeze s = .next (s.refusedBy .state 2)) ∧
      ((s.slot i).state ≠ .frozen → exec .slotThaw s = .next (s.refusedBy .state 2)) ∧
      ((s.slot i).state = .active → ∃ t, exec .slotFreeze s = .next t ∧ t.slot i = { s.slot i with state := .frozen } ∧
        (∀ j, j ≠ i → t.slot j = s.slot j) ∧ t = { s with slots := t.slots, cmd := s.withResult .ok 0 }) ∧
      ((s.slot i).state = .frozen → ∃ t, exec .slotThaw s = .next t ∧ t.slot i = { s.slot i with state := .active } ∧
        (∀ j, j ≠ i → t.slot j = s.slot j) ∧ t = { s with slots := t.slots, cmd := s.withResult .ok 0 })

/-- SLOT_TEARDOWN of a slot that holds no FILLING and no SEALED generation and is in no cohort, without force: with a pin left
it drains; with none it is released at once, its chains joining the free list behind TAIL in generation order, its pages
counted back, every HEAD END and every link's last-seen entry 0 (R18, R20, R30). -/
def Obligations.TeardownDrainsOrReleases : Prop :=
  ∀ (s : State) (i : SlotId), s.unitFree → (s.arg 0).toNat = i.val → s.arg 1 = 0 →
    ((s.slot i).state = .active ∨ (s.slot i).state = .frozen) → (s.slot i).cohort = none →
    (∀ g, ((s.slot i).gen g).state ≠ .filling ∧ ((s.slot i).gen g).state ≠ .sealed) →
    ((∃ g, 0 < ((s.slot i).gen g).pins) → ∃ t, exec .slotTeardown s = .next t ∧
      t.slot i = { s.slot i with state := .draining } ∧ (∀ j, j ≠ i → t.slot j = s.slot j) ∧
      t = { s with slots := t.slots, cmd := s.withResult .ok 0 }) ∧
    ((∀ g, ((s.slot i).gen g).pins = 0) → (∀ g : GenId, g.val < (s.slot i).depth → ((s.slot i).gen g).head ≠ none) →
      (s.slot i).depth ≤ 5 → ∃ t, exec .slotTeardown s = .next t ∧
      t.slot i = { s.slot i with state := .unused, gens := (t.slot i).gens } ∧
      (∀ g : GenId, g.val < (s.slot i).depth → (t.slot i).gen g = { (s.slot i).gen g with head := none }) ∧
      (∀ g : GenId, (s.slot i).depth ≤ g.val → (t.slot i).gen g = (s.slot i).gen g) ∧
      (∀ j, j ≠ i → t.slot j = s.slot j) ∧ t.pool.count = s.pool.count + (s.slot i).depth * (s.slot i).ppg ∧
      t.pool.alloc = s.pool.alloc ∧ s.returnsChains t [i] ∧
      (∀ k, t.link k = { s.link k with lastSeen := Table.put (s.link k).lastSeen i 0 }) ∧
      t.events = s.events.take (s.record .slotReleased i.val (BitVec.ofNat 32 ((s.slot i).depth * (s.slot i).ppg)) 0) ∧
      t = { s with slots := t.slots, pool := t.pool, links := t.links, events := t.events, cmd := s.withResult .ok 0 })

/-- SLOT_TEARDOWN of an ACTIVE or FROZEN slot makes the changes of R18 together: the FILLING generation is abandoned and its
writer ended (the port's FILL set loses the slot, the feed is IDLE; R9, R51, R137), the seal is dropped, ABANDONS counts both,
COHORT is none, and with force each handle HELD on the slot is REVOKED and its pin released (R19). With every PINS 0 the drain
ends at once (R20, R30); else the slot is DRAINING. READY generations are kept but for PINS and HEAD. The cohort loses the
member and its seal: no seal left, it is OPEN again; every member left sealed, it publishes; else it goes on (R64). The records
are offered in R18's order. The slot also leaves the model's list of the members still due (log 12). In any other state, and
for a number above 31, the command is refused. -/
def Obligations.TeardownEndsWritersAndSeals : Prop :=
  ∀ s : State, s.unitFree →
    (31 < (s.arg 0).toNat → exec .slotTeardown s = .next (s.refusedBy .badArg 1)) ∧
    ∀ i : SlotId, (s.arg 0).toNat = i.val →
      ((s.slot i).state ≠ .active → (s.slot i).state ≠ .frozen → exec .slotTeardown s = .next (s.refusedBy .state 2)) ∧
      ∀ filling sealed : Option GenId, (s.slot i).state = .active ∨ (s.slot i).state = .frozen →
        (∀ g, ((s.slot i).gen g).state = .filling ↔ filling = some g) →
        (∀ g, ((s.slot i).gen g).state = .sealed ↔ sealed = some g) → s.oneSeal →
        let x := s.slot i
        let revoked := (List.finRange 2).filter fun h =>
          s.arg 1 ≠ 0 ∧ (s.handle h).state = .held ∧ (s.handle h).slot = i
        let pinsAfter := fun g => (x.gen g).pins - (revoked.filter fun h => (s.handle h).gen = g).length
        let ended := decide (∀ g, pinsAfter g = 0)
        let feedEnds := decide (filling ≠ none ∧ x.source = .feed ∧ s.feed.state = .opened ∧ s.feed.slot = i)
        let wordsOf := fun g => BitVec.ofNat 32 (x.gen g).words
        ∃ t, exec .slotTeardown s = .next t ∧
          (∀ g, (t.slot i).gen g =
            { (if filling = some g ∨ sealed = some g then
                { x.gen g with state := .empty, words := 0, isShort := false, isPartial := false, epoch := 0 }
              else x.gen g) with
              pins := pinsAfter g, head := if ended = true ∧ g.val < x.depth then none else (x.gen g).head }) ∧
          t.slot i = { x with
            state := if ended then .unused else .draining, cohort := none, gens := (t.slot i).gens
            abandons := if filling = none ∧ sealed = none then x.abandons
              else min (x.abandons + filling.toList.length + sealed.toList.length) 65535 } ∧
          (∀ p, t.port p = if filling ≠ none ∧ x.source = .port p then { s.port p with
              fill := (s.port p).fill.filter fun m => m.slot ≠ i, due := (s.port p).due.filter fun m => m.slot ≠ i }
            else s.port p) ∧
          t.feed = (if feedEnds then { s.feed with state := .idle } else s.feed) ∧
          (∀ h, t.handle h = if h ∈ revoked then { s.handle h with state := .revoked } else s.handle h) ∧
          (ended = false → t.pool = s.pool ∧ t.links = s.links) ∧
          (ended = true → s.returnsChains t [i] ∧ t.pool.alloc = s.pool.alloc ∧
            ∀ k, t.link k = { s.link k with lastSeen := Table.put (s.link k).lastSeen i 0 }) ∧
          (let records := (filling.toList.map fun g => s.record .genAbandoned i.val (wordsOf g) 7) ++
              (if feedEnds then [s.record .feedAbandoned i.val (BitVec.ofNat 32 s.feed.wordIndex) 0] else []) ++
              (sealed.toList.map fun g => s.record .genAbandoned i.val (wordsOf g) 7) ++
              (revoked.map fun h => s.record .handleRevoked h.val (s.handle h).seq 0) ++
              (if ended then [s.record .slotReleased i.val (BitVec.ofNat 32 (x.depth * x.ppg)) 0] else []);
            (x.cohort = none → t.cohorts = s.cohorts ∧ (∀ j, j ≠ i → t.slot j = s.slot j) ∧
              t.events = s.events.takeAll records) ∧
            ∀ c, x.cohort = some c →
              let k := s.cohort c
              let left := k.members &&& ~~~ BitVec.twoPow 32 i.val
              let seals := k.sealed &&& ~~~ BitVec.twoPow 32 i.val
              (∀ d, d ≠ c → t.cohort d = s.cohort d) ∧
              (k.state = .idle ∨ seals = 0 ∨ seals ≠ left →
                t.cohort c = { k with
                  members := left, sealed := seals, state := if seals = 0 then .idle else k.state } ∧
                (∀ j, j ≠ i → t.slot j = s.slot j) ∧ t.events = s.events.takeAll records) ∧
              (k.state = .gathering → seals ≠ 0 → seals = left →
                t.cohort c = { k with
                  members := left, sealed := 0, state := .idle,
                  epoch := if k.epoch.toNat = 65535 then 1 else k.epoch + 1 } ∧
                (∀ j, seals.getLsbD j.val = true → s.publishesSeal t j k.epoch) ∧
                (∀ j, j ≠ i → seals.getLsbD j.val = false → t.slot j = s.slot j) ∧
                t.events = (s.events.takeAll records).take
                  (s.record .cohortPublished c.val (k.epoch.setWidth 32) 0))) ∧
          t = { s with
            slots := t.slots, pool := t.pool, ports := t.ports, cohorts := t.cohorts, links := t.links,
            handles := t.handles, feed := t.feed, events := t.events, cmd := s.withResult .ok 0 }

/-- COHORT_SET completes with the result of the first check that fails, and otherwise sets WINDOW and POLICY of the cohort
and nothing else of it (R67). -/
def Obligations.CohortSetSetsWindowAndPolicy : Prop :=
  ∀ s : State, s.unitFree →
    (3 < (s.arg 0).toNat → exec .cohortSet s = .next (s.refusedBy .badArg 1)) ∧
    ∀ c : CohortId, (s.arg 0).toNat = c.val →
      ((s.cohort c).state = .gathering → exec .cohortSet s = .next (s.refusedBy .state 2)) ∧
      ((s.cohort c).state = .idle → 1048575 < (s.arg 1).toNat → exec .cohortSet s = .next (s.refusedBy .badArg 3)) ∧
      ((s.cohort c).state = .idle → (s.arg 1).toNat ≤ 1048575 → 1 < (s.arg 2).toNat →
        exec .cohortSet s = .next (s.refusedBy .badArg 4)) ∧
      ((s.cohort c).state = .idle → (s.arg 1).toNat ≤ 1048575 → (s.arg 2).toNat ≤ 1 →
        ∃ t, exec .cohortSet s = .next t ∧
          t.cohort c = { s.cohort c with
            window := (s.arg 1).toNat, policy := if (s.arg 2).toNat = 0 then .publish else .discard } ∧
          (∀ d, d ≠ c → t.cohort d = s.cohort d) ∧ t = { s with cohorts := t.cohorts, cmd := s.withResult .ok 0 })

/-- A window expiry that has come due publishes the seals under PARTIAL and discards them under DISCARD, and the cohort is
OPEN again (R62, R63). One that is not due changes nothing (log 1). -/
def Obligations.WindowExpiryPublishesOrDiscards : Prop :=
  ∀ (s : State) (c : CohortId),
    (((s.cohort c).state = .idle ∨ (s.cohort c).window = 0 ∨ s.timebase.counter ≠ (s.cohort c).deadline) →
      exec (.windowExpiry c) s = .next s) ∧
    ((s.cohort c).state = .gathering → (s.cohort c).window ≠ 0 → s.timebase.counter = (s.cohort c).deadline →
      (∀ i g h, ((s.slot i).gen g).state = .sealed → ((s.slot i).gen h).state = .sealed → g = h) →
      ∃ t, exec (.windowExpiry c) s = .next t ∧
        t.cohort c = { s.cohort c with
          state := .idle, sealed := 0,
          epoch := if (s.cohort c).policy = .discard then (s.cohort c).epoch
                   else if (s.cohort c).epoch.toNat = 65535 then 1 else (s.cohort c).epoch + 1 } ∧
        (∀ d, d ≠ c → t.cohort d = s.cohort d) ∧
        (∀ i, (s.cohort c).sealed.getLsbD i.val = false → t.slot i = s.slot i) ∧
        (∀ i g, (s.cohort c).sealed.getLsbD i.val = true → ((s.slot i).gen g).state = .sealed →
          ((s.cohort c).policy = .publish →
            (t.slot i).gen g = { (s.slot i).gen g with
              state := .ready, seq := (s.slot i).nextSeq, epoch := (s.cohort c).epoch, isPartial := true } ∧
            t.slot i = { s.slot i with
              newest := some g, gens := (t.slot i).gens,
              nextSeq := if (s.slot i).nextSeq.toNat = 4294967295 then 1 else (s.slot i).nextSeq + 1 }) ∧
          ((s.cohort c).policy = .discard →
            (t.slot i).gen g = { (s.slot i).gen g with
              state := .empty, words := 0, isShort := false, isPartial := false, epoch := 0 } ∧
            t.slot i = { s.slot i with gens := (t.slot i).gens, abandons := min ((s.slot i).abandons + 1) 65535 }) ∧
          ∀ h, h ≠ g → (t.slot i).gen h = (s.slot i).gen h) ∧
        ((s.cohort c).policy = .publish →
          t.events = s.events.take (s.record .cohortTimeout c.val ((s.cohort c).epoch.setWidth 32) 0)) ∧
        t = { s with slots := t.slots, cohorts := t.cohorts, events := t.events })

/-- Under DISCARD the expiry offers one GEN_ABANDONED for each seal in ascending slot order and then COHORT_TIMEOUT with ARG 0
(R63, R70). -/
def Obligations.DiscardReportsEverySeal : Prop :=
  ∀ (s : State) (c : CohortId) (gen : SlotId → GenId), (s.cohort c).state = .gathering → (s.cohort c).window ≠ 0 →
    s.timebase.counter = (s.cohort c).deadline → (s.cohort c).policy = .discard →
    (∀ i, (s.cohort c).sealed.getLsbD i.val = true →
      ∀ g, ((s.slot i).gen g).state = .sealed ↔ g = gen i) →
    ∃ t, exec (.windowExpiry c) s = .next t ∧ t.events = (s.events.takeAll
      (((List.finRange 32).filter fun i : SlotId => (s.cohort c).sealed.getLsbD i.val).map fun i =>
        s.record .genAbandoned i.val (BitVec.ofNat 32 ((s.slot i).gen (gen i)).words) 8)).take
      (s.record .cohortTimeout c.val 0 0)

/-! ### Capture ports -/

/-- The intake takes each transfer at its arrival: ignored, queued, or lost with the tail entry marked (R38, R39, R40). -/
def Obligations.IntakeQueuesOrLosesATransfer : Prop :=
  ∀ (s : State) (p : PortId) (x : Transfer),
    let q := s.port p
    let e : FifoEntry := { word := x.word, tag := if x.start then x.tag else 0, start := x.start, last := x.last,
                           error := x.error && x.last, arrived := s.timebase.counter, brk := false }
    ((q.enable = false ∨ (q.awaitStart = true ∧ x.start = false)) → exec (.captureTransfer p x) s = .next s) ∧
    (q.enable = true → (q.awaitStart = false ∨ x.start = true) → ∃ t, exec (.captureTransfer p x) s = .next t ∧
      (q.fifo.length < 32 → t.port p = { q with awaitStart := false, fifo := q.fifo ++ [e] }) ∧
      (∀ l f, 32 ≤ q.fifo.length → q.fifo = l ++ [f] →
        t.port p = { q with awaitStart := false, fifo := l ++ [{ f with brk := true }], overflowed := true }) ∧
      (∀ r, r ≠ p → t.port r = s.port r) ∧ t = { s with ports := t.ports })

/-- HEAD_TAKE_START out of a block: the block is counted and every slot bound to the port is offered it under decimation; a
slot that keeps it fills its writer target with the entry's tag and arrival time and joins the FILL set, or counts an overrun
and offers SLOT_OVERRUN with SEQ of NEWEST, in ascending slot order (R4, R5, R41, R42). That is the state u. Then the word is
word 0 of the block: due to no member it leaves and WORD_INDEX is 1, and where the entry carries the BREAK mark the members are
abandoned with CAPTURE_OVERFLOW, after the records of the offer, and the port is in DISCARD (R9, R44, R48); due to members the
port presents the write of the first (R43), and the mark waits for the last grant. That an END on the same entry is taken by a
later act, and its mark with it, is the model's division (log 11); that a write of an ended fill may have to be granted first
is log 12, and the fill numbers are the model's (log 9). With no START waiting at the head the command changes nothing, the
model's choice (log 1). -/
def Obligations.BlockStartOffersTheBlock : Prop :=
  (∀ (s : State) (p : PortId),
    (∀ e l, (s.port p).fifo = e :: l → e.start = false ∨ (s.port p).begun = true ∨ (s.port p).writing = true) →
    exec (.headTakeStart p) s = .next s) ∧
  ∀ (s : State) (p : PortId) (e : FifoEntry) (l : List FifoEntry), (s.port p).fifo = e :: l → e.start = true →
    (s.port p).begun = false → (s.port p).writing = false → (s.port p).state ≠ .inBlock → (s.port p).fill = [] →
    let keeps := fun i => (s.slot i).state = .active ∧ (s.slot i).source = .port p ∧
      (s.slot i).decCount + 1 = (s.slot i).decimate
    let newestSeq := fun i => match (s.slot i).newest with
      | some g => ((s.slot i).gen g).seq
      | none => 0
    let members : List FillMember := (List.finRange 32).filterMap fun i =>
      if keeps i then (s.slot i).target.map (fun g => { slot := i, gen := g, fill := ((s.slot i).gen g).fill + 1 }) else none
    ∃ u t, exec (.headTakeStart p) s = .next t ∧
      u.port p = { s.port p with state := .inBlock, blocksSeen := (s.port p).blocksSeen + 1, wordIndex := 0, fill := members,
                                 begun := true } ∧
      u.events = s.events.takeAll (((List.finRange 32).filter fun i => keeps i ∧ (s.slot i).target = none).map fun i =>
        s.record .slotOverrun i.val (newestSeq i) 0) ∧
      (∀ i, ((s.slot i).state ≠ .active ∨ (s.slot i).source ≠ .port p) → u.slot i = s.slot i) ∧
      (∀ i, (s.slot i).state = .active → (s.slot i).source = .port p → (s.slot i).decCount + 1 ≠ (s.slot i).decimate →
        u.slot i = { s.slot i with decCount := (s.slot i).decCount + 1 }) ∧
      (∀ i, keeps i →
        ((s.slot i).target = none →
          u.slot i = { s.slot i with decCount := 0, overruns := min ((s.slot i).overruns + 1) 65535 }) ∧
        ∀ g, (s.slot i).target = some g →
          u.slot i = { s.slot i with decCount := 0, gens := (u.slot i).gens } ∧
          (u.slot i).gen g = { (s.slot i).gen g with
            state := .filling, words := 0, isShort := false, isPartial := false, epoch := 0, stamp := e.arrived,
            tag := e.tag, fill := ((s.slot i).gen g).fill + 1 } ∧
          ∀ h, h ≠ g → (u.slot i).gen h = (s.slot i).gen h) ∧
      (∀ r, r ≠ p → u.port r = s.port r) ∧ u = { s with slots := u.slots, ports := u.ports, events := u.events } ∧
      (e.last = true → t = u) ∧
      (e.last = false → s.dueMembers members 0 = [] → u.finishesWord t p e l) ∧
      ∀ m rest, e.last = false → s.dueMembers members 0 = m :: rest → u.presentsWrites t p e m rest

/-- The writer target is the lowest-numbered EMPTY generation, else the READY, unpinned generation that is not NEWEST with the
smallest SEQ; there is none exactly when no generation of the slot is such a candidate (R4). -/
def Obligations.WriterTargetChoice : Prop :=
  ∀ (x : Slot),
    let cand := fun g : GenId => g.val < x.depth ∧
      ((x.gen g).state = .empty ∨ ((x.gen g).state = .ready ∧ (x.gen g).pins = 0 ∧ x.newest ≠ some g))
    (x.target = none ↔ ∀ g, ¬ cand g) ∧
    ∀ g, x.target = some g → cand g ∧
      ((x.gen g).state = .empty → ∀ h, cand h → (x.gen h).state = .empty → g ≤ h) ∧
      ((x.gen g).state ≠ .empty → ∀ h, cand h → (x.gen h).state ≠ .empty ∧
        ((x.gen g).seq < (x.gen h).seq ∨ ((x.gen g).seq = (x.gen h).seq ∧ g ≤ h)))

/-- A word of the open block that is due to no member is dropped at the head and WORD_INDEX advances; a marked one is in the
statement about bad blocks (R43, R44). Outside a block an entry without START is dropped and changes nothing else, but that a
BREAK mark on it leaves the port in DISCARD (R44, R48). A word that is due to members, marked or not: the port presents the
write of the first of them, at the word's place in that slot's window (R33, R43), once no write of an ended block waits
(log 12). At any other head, or with none, HEAD_TAKE_WORD and HEAD_DROP_ENTRY change nothing, the model's choice (log 1). The
fields begun, writing and due and the number of a write's fill are the model's (log 9, log 11). -/
def Obligations.HeadWordsOutsideAndInsideWindows : Prop :=
  (∀ (s : State) (p : PortId),
    ((∀ e l, (s.port p).fifo = e :: l →
        (s.port p).state ≠ .inBlock ∨ e.start = true ∨ e.last = true ∨ (s.port p).writing = true) →
      exec (.headTakeWord p) s = .next s) ∧
    ((∀ e l, (s.port p).fifo = e :: l → (s.port p).state = .inBlock ∨ e.start = true ∨ (s.port p).writing = true) →
      exec (.headDropEntry p) s = .next s)) ∧
  (∀ (s : State) (p : PortId) (e : FifoEntry) (l : List FifoEntry), (s.port p).fifo = e :: l → e.start = false →
      (s.port p).writing = false →
      ((s.port p).state = .inBlock → e.last = false → e.brk = false →
        (∀ m ∈ (s.port p).fill, ¬ ((s.slot m.slot).offset ≤ (s.port p).wordIndex ∧
          (s.port p).wordIndex < (s.slot m.slot).offset + (s.slot m.slot).length)) →
        ∃ t, exec (.headTakeWord p) s = .next t ∧
          t.port p = { s.port p with
            fifo := l, wordIndex := min ((s.port p).wordIndex + 1) 65535, begun := false, due := [] } ∧
          (∀ r, r ≠ p → t.port r = s.port r) ∧ t = { s with ports := t.ports }) ∧
      ((s.port p).state ≠ .inBlock → ∃ t, exec (.headDropEntry p) s = .next t ∧
          t.port p = { s.port p with
            fifo := l, begun := false, state := if e.brk = true then .discard else (s.port p).state } ∧
          (∀ r, r ≠ p → t.port r = s.port r) ∧ t = { s with ports := t.ports })) ∧
  (∀ (s : State) (p : PortId) (e : FifoEntry) (l : List FifoEntry) (m : FillMember) (rest : List FillMember),
      (s.port p).fifo = e :: l → e.start = false → e.last = false → (s.port p).writing = false → (s.port p).state = .inBlock →
      (s.port p).fill.filter (fun m => decide ((s.slot m.slot).offset ≤ (s.port p).wordIndex ∧
          (s.port p).wordIndex < (s.slot m.slot).offset + (s.slot m.slot).length)) = m :: rest →
      ∃ t, exec (.headTakeWord p) s = .next t ∧ s.presentsWrites t p e m rest)

/-- An END without ERROR takes its word first. Due to members, the port presents their writes one at a time and the END waits
(R43); a port that still holds a write of an ended block presents nothing until that is granted, and all members stay due, the
model's reading (log 12). The END of an entry that also carried START is taken here, by an act after HEAD_TAKE_START, the
model's division (log 11). Due to none, the block ends: every member completes, published in a slot without a cohort and
sealed in a cohort slot, one after the other in the FILL set's order, the model's choice (log 27); the FILL set is empty and
the port IDLE, or in DISCARD where the entry carries a BREAK mark (R3, R6 to R8, R45, R48, R57 to R60). In slots without a
cohort: the generation is NEWEST with the slot's next SEQ, and SHORT is set when WORDS is below LENGTH. The number of a
write's fill is the model's (log 9). With no such END waiting at the head the command changes nothing, the model's choice (log
1). -/
def Obligations.BlockEndPublishes : Prop :=
  (∀ (s : State) (p : PortId),
    (∀ e l, (s.port p).fifo = e :: l → (s.port p).state ≠ .inBlock ∨ e.last = false ∨ e.error = true ∨
      (s.port p).begun ≠ e.start ∨ (s.port p).writing = true) →
    exec (.headTakeEnd p) s = .next s) ∧
  ∀ (s : State) (p : PortId) (e : FifoEntry) (l : List FifoEntry), (s.port p).fifo = e :: l → e.last = true →
    e.error = false → (s.port p).begun = e.start → (s.port p).writing = false → (s.port p).state = .inBlock →
    (∀ m rest, s.dueMembers (s.port p).fill (s.port p).wordIndex = m :: rest →
      ∃ t, exec (.headTakeEnd p) s = .next t ∧ s.presentsWrites t p e m rest) ∧
    (s.dueMembers (s.port p).fill (s.port p).wordIndex = [] → s.blockReady (s.port p).fill →
      ∃ t, exec (.headTakeEnd p) s = .next t ∧ s.finishesWord t p e l) ∧
    (e.brk = false → ((s.port p).fill.map FillMember.slot).Nodup →
      (∀ m ∈ (s.port p).fill, ¬ ((s.slot m.slot).offset ≤ (s.port p).wordIndex ∧
          (s.port p).wordIndex < (s.slot m.slot).offset + (s.slot m.slot).length) ∧
        ((s.slot m.slot).gen m.gen).state = .filling ∧ (s.slot m.slot).cohort = none) →
      ∃ t, exec (.headTakeEnd p) s = .next t ∧
        t.port p = { s.port p with
          fifo := l, wordIndex := min ((s.port p).wordIndex + 1) 65535, state := .idle, fill := [], due := [],
          begun := false } ∧
        (∀ m ∈ (s.port p).fill,
          (t.slot m.slot).gen m.gen = { (s.slot m.slot).gen m.gen with
            state := .ready, seq := (s.slot m.slot).nextSeq, epoch := 0, isPartial := false,
            isShort := decide (((s.slot m.slot).gen m.gen).words < (s.slot m.slot).length) } ∧
          t.slot m.slot = { s.slot m.slot with
            newest := some m.gen, gens := (t.slot m.slot).gens,
            nextSeq := if (s.slot m.slot).nextSeq.toNat = 4294967295 then 1 else (s.slot m.slot).nextSeq + 1 } ∧
          ∀ g, g ≠ m.gen → (t.slot m.slot).gen g = (s.slot m.slot).gen g) ∧
        (∀ i, i ∉ (s.port p).fill.map FillMember.slot → t.slot i = s.slot i) ∧ (∀ r, r ≠ p → t.port r = s.port r) ∧
        t = { s with slots := t.slots, ports := t.ports })

/-- An END with ERROR, a START met in a block, a disable of the port and the loss of a word each abandon every member of the
open block: its generation is EMPTY with SEQ, STAMP, TAG and HEAD kept, ABANDONS has risen, and one GEN_ABANDONED is offered
for each in the FILL set's order, with the reason of the cause (R9, R46 to R49). An END with ERROR leaves the port IDLE, or in
DISCARD where its entry carries the BREAK mark, which then abandons nothing more (R46, R48). After the START's abandons the
START is taken as out of a block (R41, R47). WORD_INDEX is left as it was by SOURCE_ERROR, the model's reading (log 11). The
loss is shown here on a word due to no member, and on one due to members in the statement about write grants. With no END with
ERROR waiting at the head SOURCE_ERROR changes nothing, the model's choice (log 1). -/
def Obligations.BadBlocksAreAbandoned : Prop :=
  (∀ (s : State) (p : PortId),
    (∀ e l, (s.port p).fifo = e :: l → (s.port p).state ≠ .inBlock ∨ e.last = false ∨ e.error = false ∨
      (s.port p).begun ≠ e.start ∨ (s.port p).writing = true) →
    exec (.sourceError p) s = .next s) ∧
  ∀ (s : State) (p : PortId), (s.port p).state = .inBlock → ((s.port p).fill.map FillMember.slot).Nodup →
    (∀ m ∈ (s.port p).fill, ((s.slot m.slot).gen m.gen).state = .filling) →
    let after := fun (t : State) (why : BitVec 4) => s.abandonsAll t (s.port p).fill why ∧
      (∀ r, r ≠ p → t.port r = s.port r) ∧ t = { s with slots := t.slots, ports := t.ports, events := t.events }
    (∀ e l, (s.port p).fifo = e :: l → e.last = true → e.error = true → (s.port p).begun = e.start →
      (s.port p).writing = false → ∃ t, exec (.sourceError p) s = .next t ∧
        t.port p = { s.port p with
          fifo := l, state := if e.brk = true then .discard else .idle, fill := [], due := [], begun := false } ∧
        after t 1) ∧
    (∀ e l, (s.port p).fifo = e :: l → e.start = true → (s.port p).begun = false → (s.port p).writing = false →
      ∃ u t, u.port p = { s.port p with state := .idle, fill := [], due := [] } ∧ after u 2 ∧
        exec (.headTakeStart p) s = exec (.headTakeStart p) u ∧ exec (.headTakeStart p) s = .next t) ∧
    (s.hostFree → (s.port p).enable = true → ∃ t, exec (.portDisable p) s = .next t ∧
        t.port p = { s.port p with
          enable := false, fifo := [], state := .idle, wordIndex := 0, fill := [], due := [], begun := false,
          writing := false } ∧ after t 4) ∧
    (∀ e l, (s.port p).fifo = e :: l → e.start = false → e.last = false → e.brk = true → (s.port p).writing = false →
      (∀ m ∈ (s.port p).fill, ¬ ((s.slot m.slot).offset ≤ (s.port p).wordIndex ∧
        (s.port p).wordIndex < (s.slot m.slot).offset + (s.slot m.slot).length)) →
      ∃ t, exec (.headTakeWord p) s = .next t ∧
        t.port p = { s.port p with
          fifo := l, state := .discard, wordIndex := min ((s.port p).wordIndex + 1) 65535, fill := [], due := [],
          begun := false } ∧ after t 3)

/-- Setting ENABLE of a port whose ENABLE is clear sets AWAIT_START; clearing it outside a block empties the FIFO; writing the
value it holds changes nothing (R49, R50). The fields begun, writing and due of a port are the model's (log 11). -/
def Obligations.PortEnableAndDisable : Prop :=
  ∀ (s : State) (p : PortId), s.hostFree →
    ((s.port p).enable = true → exec (.portEnable p) s = .next s) ∧
    ((s.port p).enable = false → exec (.portDisable p) s = .next s) ∧
    ((s.port p).enable = false → ∃ t, exec (.portEnable p) s = .next t ∧
      t.port p = { s.port p with enable := true, awaitStart := true } ∧ (∀ r, r ≠ p → t.port r = s.port r) ∧
      t = { s with ports := t.ports }) ∧
    ((s.port p).enable = true → (s.port p).state ≠ .inBlock → ∃ t, exec (.portDisable p) s = .next t ∧
      t.port p = { s.port p with
        enable := false, fifo := [], state := .idle, wordIndex := 0, begun := false, writing := false, due := [] } ∧
      (∀ r, r ≠ p → t.port r = s.port r) ∧ t = { s with ports := t.ports })

/-! ### The store arbiter -/

/-- The arbiter grants a waiting request, the first in ring order after LAST_GRANTED; while a FIFO holds more than 24 words
and a capture port waits, the first capture port (R33, R34). -/
def Obligations.ArbiterFollowsTheRing : Prop :=
  ∀ s : State,
    let distance := fun r : Fin 21 => (r.val + 20 - s.lastGranted.val) % 21
    let preferred := (∃ p, 24 < (s.port p).fifo.length) ∧ ∃ r : Fin 21, r.val < 12 ∧ s.waiting r = true
    (s.nextGrant = none ↔ ∀ r, s.waiting r = false) ∧
    ∀ r, s.nextGrant = some r → s.waiting r = true ∧ (preferred → r.val < 12) ∧
      ∀ q, s.waiting q = true → (preferred → q.val < 12) → distance r ≤ distance q

/-- A granted read of a link or a handle returns the word at its store address, and LAST_GRANTED moves to it: the word enters
the link's buffer and the link presents its next read (R33, R100; log 13), or is returned to the host, in the model's field
for the data lines (log 18), and ADDR advances modulo 1024 (R127). A word that nothing has written since power-on is a free
value (R25, log 7). -/
def Obligations.GrantedReadsReturnTheStoredWord : Prop :=
  ∀ (s : State) (r : Fin 21) (q : ReadReq) (a : Nat), s.nextGrant = some r →
    s.wordAddress q.slot q.gen q.pos = some a →
    let w := s.readStore a
    (∀ h : HandleId, r.val = 18 + h.val → (s.handle h).req = some q → ∃ t, exec .storeGrant s = .next t ∧
      t.handle h = { s.handle h with req := none, addr := BitVec.ofNat 10 (((s.handle h).addr.toNat + 1) % 1024) } ∧
      t.busRead = w ∧ (∀ g, g ≠ h → t.handle g = s.handle g) ∧
      t = { s with handles := t.handles, busRead := w, lastGranted := r }) ∧
    (∀ (k : LinkId) (f : Frame), r.val = 12 + k.val → (s.link k).req = some q → (s.link k).frame = some f →
      ∃ t, exec .storeGrant s = .next t ∧ (t.link k).buffer = (s.link k).buffer ++ [w] ∧
        (t.link k).frame = some { f with placed := f.placed + 1, crc := crcWord f.crc w } ∧
        t.link k = { s.link k with
          buffer := (t.link k).buffer, frame := (t.link k).frame, req := (t.link k).req,
          line := if (s.link k).line = .abort then .abort else .drive } ∧
        State.presentsRead k none (t.link k) ∧
        (∀ j, j ≠ k → t.link j = s.link j) ∧ t = { s with links := t.links, lastGranted := r })

/-- STORE_GRANT of a write. A request in the fill it belongs to stores its word and nothing else in the store, WORDS of its
generation rises and LAST_GRANTED moves; for the feed WORD_INDEX rises too (R35, R132). A capture port then presents the next
due write, or, with none left, finishes with the word: WORD_INDEX advances and the entry leaves, an END completes the block, a
BREAK mark gives it up (R43, R45, R48); that an END's members complete in the FILL set's order is the model's choice (log 27).
A request whose fill has ended is withdrawn: the store and LAST_GRANTED stay, the requester goes on in the same way, and the
arbiter grants again (R35, R51); that the same STORE_GRANT grants again, and ends with the withdrawal where no request is left,
is the model's reading (log 16), and so are the fill numbers by which a request names its fill (log 9) and the list of the
members still due, written one after the other (log 11, log 12). With no request a grant changes nothing (log 1). -/
def Obligations.WriteGrantsStoreOrWithdraw : Prop :=
  ∀ s : State, ((∀ r, s.waiting r = false) → exec .storeGrant s = .next s) ∧
    ∀ (r : Fin 21) (q : WriteReq), s.nextGrant = some r →
      let current := ((s.slot q.slot).gen q.gen).state = .filling ∧ ((s.slot q.slot).gen q.gen).fill = q.fill
      (r.val = 20 → s.feed.req = some q →
        (∀ a, current → s.wordAddress q.slot q.gen q.pos = some a → ∃ t, exec .storeGrant s = .next t ∧
          s.writesWord t r q a ∧ t = { s with
            store := t.store, slots := t.slots, lastGranted := r
            feed := { s.feed with req := none, wordIndex := min (s.feed.wordIndex + 1) 65535 } }) ∧
        (¬ current → exec .storeGrant s = exec .storeGrant { s with feed := { s.feed with req := none } } ∧
          ((∀ x : Fin 21, x ≠ r → s.waiting x = false) →
            exec .storeGrant s = .next { s with feed := { s.feed with req := none } }))) ∧
      ∀ p : PortId, r.val = p.val → (s.port p).req = some q →
        let goesOn := fun v t : State =>
          (∀ m rest e l, (s.port p).due = m :: rest → (s.port p).fifo = e :: l →
            t.port p = { s.port p with due := rest, req := some (s.writeFor p e m) } ∧
            (∀ x, x ≠ p → t.port x = s.port x) ∧ t = { v with ports := t.ports }) ∧
          (∀ e l, (s.port p).due = [] → (s.port p).writing = true → (s.port p).state = .inBlock →
            (s.port p).fifo = e :: l → v.blockReady (s.port p).fill → v.finishesWord t p e l) ∧
          ((s.port p).due = [] → (s.port p).writing = false → t = v)
        let freed := fun v : State => v.port p = { s.port p with req := none } ∧ ∀ x, x ≠ p → v.port x = s.port x
        (∀ a, current → s.wordAddress q.slot q.gen q.pos = some a → ∃ v t, exec .storeGrant s = .next t ∧
          s.writesWord v r q a ∧ freed v ∧
          v = { s with store := v.store, slots := v.slots, ports := v.ports, lastGranted := r } ∧ goesOn v t) ∧
        (¬ current → ∃ v t, exec .storeGrant s = exec .storeGrant t ∧ freed v ∧ v = { s with ports := v.ports } ∧
          goesOn v t ∧ t.store = s.store ∧ t.lastGranted = s.lastGranted ∧
          ((∀ x : Fin 21, t.waiting x = false) → exec .storeGrant s = .next t))

/-! ### Schedule memory and the program check -/

/-- A host write to a protected entry is discarded and recorded once; any other takes effect on the stored bits of the word
written and on nothing else (R71, R79, §11.7). -/
def Obligations.ScheduleWritesRespectProtection : Prop :=
  ∀ (s : State) (e : EntryId) (second : Bool) (v : Word), s.hostFree → s.memoriesWf = true →
    let lies := fun q : Program => q.base ≤ e.val ∧ e.val < q.base + q.len
    let protectedBy := (∃ k, (s.link k).state ≠ .off ∧
        (lies (s.link k).active ∨ ((s.link k).pendingValid = true ∧ lies (s.link k).pending))) ∨
      ∃ c, s.check = some c ∧ lies c.prog
    (protectedBy → s.protectedWrite = true → exec (.scheduleWrite e second v) s = .next s) ∧
    (protectedBy → s.protectedWrite = false →
      exec (.scheduleWrite e second v) s = .next { s with protectedWrite := true, protectedEntry := e }) ∧
    (¬ protectedBy → ∃ t, exec (.scheduleWrite e second v) s = .next t ∧
      (∀ a, t.scheduleWord a = if a = 2 * e.val + (if second then 1 else 0)
        then v &&& (if second then 0xFFFF07FF#32 else 0x03FF01F7#32) else s.scheduleWord a) ∧
      t = { s with schedule := t.schedule })

/-- CHECK_EXAMINE makes the tests of R76 and R77 in their order and fails with their reason and the entry's number: the result
is BAD_PROGRAM, COMMAND_DONE carries it, and the check, its protection and the BUSY unit end (R78, R154, R155). A check that
passes ends with OK and COMMAND_DONE: LINK_LOAD's program becomes the pending one with VALID set, and LINK_START's link
takes up its run in WAIT with its counters, cursor and last-seen table at 0 (R78, R85, R92). With no check in progress the
command changes nothing, the model's choice (log 1). -/
def Obligations.CheckExaminesOneEntry : Prop :=
  (∀ s : State, s.check = none → exec .checkExamine s = .next s) ∧
  (∀ (s : State) (c : Check), s.check = some c →
      let n := c.prog.base + c.pos
      let e := s.entry n
      let isItem := e.action = .emit ∨ e.action = .emitFresh
      let slots := if e.slot ∈ c.slots then c.slots else c.slots ++ [e.slot]
      let run := c.run + 3 + (if e.count = 0 then 1024 - e.offset else e.count)
      let fails := fun reason : Nat => exec .checkExamine s = .next { s with
        check := none
        events := s.events.take (s.record .commandDone c.link.val 7 0)
        cmd := { s.cmd with code := .badProgram, detail := field 19 16 reason ||| field 9 0 n, state := .idle,
                            running := none } }
      (e.action = .invalid → fails 2) ∧ (isItem → 1024 < e.offset + e.count → fails 3) ∧
      (isItem → e.offset + e.count ≤ 1024 → 9 ≤ slots.length → fails 5) ∧
      (isItem → e.offset + e.count ≤ 1024 → slots.length < 9 → 4096 < run → fails 6) ∧
      (isItem → e.offset + e.count ≤ 1024 → slots.length < 9 → run ≤ 4096 → c.pos + 1 = c.prog.len → fails 7) ∧
      (e.action = .frameEnd → c.items = 0 → fails 4) ∧
      (isItem → e.offset + e.count ≤ 1024 → slots.length < 9 → run ≤ 4096 → c.pos + 1 ≠ c.prog.len →
        exec .checkExamine s = .next { s with
          check := some { c with pos := c.pos + 1, slots := slots, run := run, items := c.items + 1 } }) ∧
      (e.action = .frameEnd → c.items ≠ 0 → c.pos + 1 ≠ c.prog.len →
        exec .checkExamine s = .next { s with
          check := some { c with pos := c.pos + 1, slots := [], run := 5, items := 0 } })) ∧
  (∀ (s : State) (c : Check) (r : Running), s.check = some c → s.cmd.running = some r →
      (s.entry (c.prog.base + c.pos)).action = .frameEnd → c.items ≠ 0 → c.pos + 1 = c.prog.len →
      let ticks := (s.timebase.counter - r.began).toNat
      let period := (r.args.get 3).toNat
      ∃ t, exec .checkExamine s = .next t ∧
        (c.kind = .load → t.link c.link = { s.link c.link with pending := c.prog, pendingValid := true }) ∧
        (c.kind = .start → t.link c.link = { s.link c.link with
          state := .wait, active := c.prog, period := period, sync := r.args.get 4, stallLimit := (r.args.get 5).toNat,
          frameNo := 0, cycleNo := 0, cursor := 0, slips := 0, aborts := 0, lastSeen := Vector.replicate 32 0,
          pendingValid := false, remain := if ticks < period then period - ticks else 1 }) ∧
        (∀ k, k ≠ c.link → t.link k = s.link k) ∧
        t = { s with
          check := none, links := t.links
          events := s.events.take (s.record .commandDone c.link.val 0 0)
          cmd := { s.cmd with code := .ok, detail := 0, state := .idle, running := none } })

/-! ### Link commands -/

/-- LINK_START and LINK_LOAD make their acceptance tests in order (R84, R91), and then the range test of the check: a range
that fails ends the command at once with BAD_PROGRAM, reason RANGE; otherwise the unit is BUSY with the check at its first
entry and the links as they were (R75, R154). -/
def Obligations.LinkStartAndLoadBeginTheCheck : Prop :=
  ∀ s : State, s.unitFree →
    let prog : Program := { base := bits (s.arg 1) 9 0, len := bits (s.arg 1) 26 16, tag := (s.arg 2).setWidth 16 }
    let inRange := 1 ≤ prog.len ∧ prog.len ≤ 1024 ∧ prog.base + prog.len ≤ 1024
    let begins := fun (i : Instr) (k : LinkId) (kind : LongCommand) =>
      (inRange → exec i s = .next { s with
        check := some { link := k, kind := kind, prog := prog, pos := 0, slots := [], run := 5, items := 0 }
        cmd := { s.cmd with
          state := .busy, running := some { command := kind, args := s.cmd.args, began := s.timebase.counter } } }) ∧
      (¬ inRange → exec i s = .next { s with
        check := none
        events := s.events.take (s.record .commandDone k.val 7 0)
        cmd := { s.cmd with
          code := .badProgram, detail := field 19 16 1 ||| field 9 0 prog.base, state := .idle, running := none } })
    (5 < (s.arg 0).toNat →
      exec .linkStart s = .next (s.refusedBy .badArg 1) ∧ exec .linkLoad s = .next (s.refusedBy .badArg 1)) ∧
    ∀ k : LinkId, (s.arg 0).toNat = k.val →
      ((s.link k).state ≠ .off → exec .linkStart s = .next (s.refusedBy .state 2)) ∧
      ((s.link k).state ≠ .wait → (s.link k).state ≠ .frame → exec .linkLoad s = .next (s.refusedBy .state 2)) ∧
      (65535 < (s.arg 2).toNat →
        ((s.link k).state = .off → exec .linkStart s = .next (s.refusedBy .badArg 3)) ∧
        ((s.link k).state = .wait ∨ (s.link k).state = .frame → exec .linkLoad s = .next (s.refusedBy .badArg 3))) ∧
      ((s.arg 2).toNat ≤ 65535 → (s.link k).state = .off →
        (¬ (1 ≤ (s.arg 3).toNat ∧ (s.arg 3).toNat ≤ 16777215) → exec .linkStart s = .next (s.refusedBy .badArg 4)) ∧
        (1 ≤ (s.arg 3).toNat → (s.arg 3).toNat ≤ 16777215 →
          (¬ (1 ≤ (s.arg 5).toNat ∧ (s.arg 5).toNat ≤ 65535) → exec .linkStart s = .next (s.refusedBy .badArg 5)) ∧
          (1 ≤ (s.arg 5).toNat → (s.arg 5).toNat ≤ 65535 → begins .linkStart k .start))) ∧
      ((s.arg 2).toNat ≤ 65535 → (s.link k).state = .wait ∨ (s.link k).state = .frame → begins .linkLoad k .load)

/-- LINK_CANCEL clears VALID of the pending program and says in DETAIL whether one was valid (R86). -/
def Obligations.LinkCancelClearsValid : Prop :=
  ∀ s : State, s.unitFree →
    (5 < (s.arg 0).toNat → exec .linkCancel s = .next (s.refusedBy .badArg 1)) ∧
    ∀ k : LinkId, (s.arg 0).toNat = k.val →
      ((s.link k).state = .off → exec .linkCancel s = .next (s.refusedBy .state 2)) ∧
      ((s.link k).state ≠ .off → ∃ t, exec .linkCancel s = .next t ∧ t.link k = { s.link k with pendingValid := false } ∧
        (∀ j, j ≠ k → t.link j = s.link j) ∧
        t = { s with links := t.links, cmd := s.withResult .ok (if (s.link k).pendingValid then 1 else 0) })

/-- LINK_STOP: its tests; a link in WAIT goes to OFF at once in either mode; in FRAME mode FINISH enters STOPPING, and mode
ABORT also aborts the frame in flight, with reason STOP, unless its abort word is already waiting (R106, R108 to R112). The
abort is shown here for a frame that holds no pin, and in the statement about pins for any. The mark of a give-up that is due
is the model's (log 14). -/
def Obligations.LinkStopByMode : Prop :=
  ∀ s : State, s.unitFree →
    (5 < (s.arg 0).toNat → exec .linkStop s = .next (s.refusedBy .badArg 1)) ∧
    ∀ k : LinkId, (s.arg 0).toNat = k.val →
      ((s.link k).state ≠ .wait → (s.link k).state ≠ .frame → exec .linkStop s = .next (s.refusedBy .state 2)) ∧
      ((s.link k).state = .wait ∨ (s.link k).state = .frame → 1 < (s.arg 1).toNat →
        exec .linkStop s = .next (s.refusedBy .badArg 3)) ∧
      ((s.link k).state = .wait → (s.arg 1).toNat ≤ 1 → ∃ t, exec .linkStop s = .next t ∧
        t.link k = { s.link k with
          state := .off, pendingValid := false, pinSet := [], items := [], buffer := [], frame := none } ∧
        (∀ j, j ≠ k → t.link j = s.link j) ∧
        t = { s with
          links := t.links, cmd := s.withResult .ok 0
          events := s.events.take (s.record .linkStopped k.val ((s.link k).frameNo.setWidth 32) 0) }) ∧
      ((s.link k).state = .frame → (s.arg 1 = 0 ∨ (s.arg 1 = 1 ∧ (s.link k).line = .abort)) →
        ∃ t, exec .linkStop s = .next t ∧ t.link k = { s.link k with state := .stopping } ∧
          (∀ j, j ≠ k → t.link j = s.link j) ∧ t = { s with links := t.links, cmd := s.withResult .ok 0 }) ∧
      (∀ f, (s.link k).state = .frame → s.arg 1 = 1 → (s.link k).line ≠ .abort → (s.link k).frame = some f →
        (s.link k).pinSet = [] → ∃ t, exec .linkStop s = .next t ∧
          t.link k = { s.link k with
            state := .stopping, line := .abort, abortWord := some (~~~ (s.link k).sync), buffer := [], req := none,
            stallTimer := 0, giveUpDue := false, aborts := min ((s.link k).aborts + 1) 65535 } ∧
          (∀ j, j ≠ k → t.link j = s.link j) ∧
          t = { s with
            links := t.links, cmd := s.withResult .ok 0
            events := s.events.take (s.record .frameAborted k.val (f.number.setWidth 32) 2) })

/-! ### Frames and emit lines -/

/-- PERIOD_EXPIRY in FRAME is a slip: REMAIN is reloaded, the number is consumed and reported, and the frame in flight is not
touched (R93, R95). An expiry that is not due changes nothing (log 1). -/
def Obligations.PeriodExpiryInFrameIsASlip : Prop :=
  ∀ (s : State) (k : LinkId),
    (((s.link k).state = .off ∨ (s.link k).state = .stopping ∨ (s.link k).remain ≠ 0) →
      exec (.periodExpiry k) s = .next s) ∧
    ((s.link k).state = .frame → (s.link k).remain = 0 → ∃ t, exec (.periodExpiry k) s = .next t ∧
      t.link k = { s.link k with
        remain := (s.link k).period, frameNo := (s.link k).frameNo + 1, slips := min ((s.link k).slips + 1) 65535 } ∧
      (∀ j, j ≠ k → t.link j = s.link j) ∧
      t = { s with
        links := t.links
        events := s.events.take (s.record .frameSlip k.val ((s.link k).frameNo.setWidth 32) 0) })

/-- PERIOD_EXPIRY in WAIT begins a frame: the entries up to the next FRAME_END are its items in order, each distinct slot is
pinned at its NEWEST where it grants one, in the order of its first entry, each item is classified by the pins of this claim
at the expiry's time (R97, R98), the frame takes its number, cycle, tag and time, and SYNC is placed and enters the CRC, which
starts at all ones (R93, R94, R96, R100, R116, R119). That a pin holds EPOCH is the model's reading of R69 (log 30). -/
def Obligations.PeriodExpiryInWaitBeginsAFrame : Prop :=
  ∀ (s : State) (k : LinkId) (n : Nat), (s.link k).state = .wait → (s.link k).remain = 0 → State.linkAtRest (s.link k) →
    let l := s.link k
    let entry := fun j => s.entry (l.active.base + l.cursor + j)
    l.cursor + n < l.active.len → (∀ j, j < n → (entry j).action ≠ .frameEnd) → (entry n).action = .frameEnd →
    let named := fun i : SlotId => ∃ j, j < n ∧ (entry j).slot = i
    let offers := fun i : SlotId => (s.slot i).state = .active ∨ (s.slot i).state = .frozen
    ∃ t f, exec (.periodExpiry k) s = .next t ∧ (t.link k).frame = some f ∧ f.number = l.frameNo ∧ f.cycle = l.cycleNo ∧
      f.tag = l.active.tag ∧ f.begun = s.timebase.counter ∧ f.next = l.cursor + n + 1 ∧ f.placed = 1 ∧ f.taken = 0 ∧
      f.crc = crcWord 0xFFFFFFFF#32 l.sync ∧
      (t.link k).items.map Item.entry = (List.range n).map (l.active.base + l.cursor + ·) ∧
      (t.link k).items.map Item.slot = (List.range n).map (fun j => (entry j).slot) ∧
      (t.link k).items = (List.range n).map (fun j =>
        classify { l with pinSet := (t.link k).pinSet } s.timebase.counter (l.active.base + l.cursor + j, entry j)) ∧
      t.link k = { l with
        state := .frame, remain := l.period, frameNo := l.frameNo + 1, frame := some f, items := (t.link k).items,
        pinSet := (t.link k).pinSet, buffer := [l.sync], line := .drive } ∧
      (∀ p, p ∈ (t.link k).pinSet ↔ named p.slot ∧ offers p.slot ∧ (s.slot p.slot).newest = some p.gen ∧
        p.seq = ((s.slot p.slot).gen p.gen).seq ∧ p.stamp = ((s.slot p.slot).gen p.gen).stamp ∧
        p.words = ((s.slot p.slot).gen p.gen).words ∧ p.isShort = ((s.slot p.slot).gen p.gen).isShort ∧
        p.isPartial = ((s.slot p.slot).gen p.gen).isPartial ∧ p.epoch = ((s.slot p.slot).gen p.gen).epoch) ∧
      (t.link k).pinSet.Pairwise (fun p q =>
        ∃ j, j < n ∧ (entry j).slot = p.slot ∧ ∀ m, m ≤ j → (entry m).slot ≠ q.slot) ∧
      (∀ i g, named i → offers i → (s.slot i).newest = some g →
        (t.slot i).gen g = { (s.slot i).gen g with pins := ((s.slot i).gen g).pins + 1 } ∧
        ∀ h, h ≠ g → (t.slot i).gen h = (s.slot i).gen h) ∧
      (∀ i, t.slot i = { s.slot i with gens := (t.slot i).gens }) ∧
      (∀ i, (¬ named i ∨ ¬ offers i ∨ (s.slot i).newest = none) → t.slot i = s.slot i) ∧
      (∀ j, j ≠ k → t.link j = s.link j) ∧ t = { s with slots := t.slots, links := t.links }

/-- An entry's item by the tests of R97 and R98, in order: ABSENT without a pin, STALE past MAX_AGE, REPEAT when EMIT_FRESH
finds the SEQ last seen, else DATA with its count of words and its SHORT flag. -/
def Obligations.ItemsAreClassifiedInOrder : Prop :=
  ∀ (l : Link) (t : Tick) (n : Nat) (e : SchedEntry),
    let it := classify l t (n, e)
    ((∀ p ∈ l.pinSet, p.slot ≠ e.slot) → it =
      { entry := n, kind := .absent, slot := e.slot, seq := 0, stamp := 0, isShort := false, isPartial := false, n := 0,
        first := e.offset }) ∧
    ∀ p ∈ l.pinSet, p.slot = e.slot → (∀ q ∈ l.pinSet, q.slot = e.slot → q = p) →
      let age := (t - p.stamp).toNat
      let count := min (if e.count = 0 then 1024 else e.count) (p.words - e.offset)
      it.entry = n ∧ it.slot = e.slot ∧ it.seq = p.seq ∧ it.stamp = p.stamp ∧ it.isPartial = p.isPartial ∧
      it.first = e.offset ∧
      (e.maxAge ≠ 0 → e.maxAge < age → it.kind = .stale ∧ it.n = 0 ∧ it.isShort = p.isShort) ∧
      ((e.maxAge = 0 ∨ age ≤ e.maxAge) →
        (e.action = .emitFresh → p.seq = l.lastSeen.get e.slot →
          it.kind = .repeated ∧ it.n = 0 ∧ it.isShort = p.isShort) ∧
        ((e.action ≠ .emitFresh ∨ p.seq ≠ l.lastSeen.get e.slot) → it.kind = .data ∧
          (p.words ≤ 1024 → it.n = count ∧
            (it.isShort = true ↔ p.isShort = true ∨ (e.count ≠ 0 ∧ count < e.count) ∨ (e.count = 0 ∧ count = 0)))))

/-- A frame's words: four header words, then each item's three header words and data words, and one trailer, and no more; the
fields stand where §11.8 puts them, unused bits 0 (R99, R118). Word j of an item's data is record word first + j (R100). The
CRC register takes a word bit by bit, the most significant first: it is shifted left, and exclusive-ORed with 0x04C11DB7 where
the bit shifted out differs from the bit fed (R119). -/
def Obligations.FrameWordsFollowTheLayout : Prop :=
  (∀ (k : LinkId) (l : Link) (f : Frame) (j : Nat),
    (∃ w1 w2, frameWord k l f 0 = some (.plain l.sync) ∧ frameWord k l f 1 = some (.plain w1) ∧
      frameWord k l f 2 = some (.plain w2) ∧ frameWord k l f 3 = some (.plain f.begun) ∧
      hasFields w1 [(31, 16, f.number.toNat), (15, 12, k.val), (10, 0, l.items.length)] ∧
      hasFields w2 [(31, 16, f.cycle.toNat), (15, 0, f.tag.toNat)]) ∧
    (frameWord k l f j = some .trailer ↔ j + 1 = frameLength l.items) ∧
    (frameWord k l f j = none ↔ frameLength l.items ≤ j) ∧
    frameLength l.items = 4 + (l.items.map fun i => 3 + i.n).sum + 1 ∧
    ∀ (it : Item) (before after : List Item), l.items = before ++ it :: after →
      let at' := 4 + (before.map fun i => 3 + i.n).sum
      (∃ w, frameWord k l f at' = some (.plain w) ∧
        hasFields w [(31, 30, it.kind.value), (28, 24, it.slot.val), (17, 17, it.isShort.toNat), (16, 16, it.isPartial.toNat),
          (10, 0, it.n)]) ∧
      frameWord k l f (at' + 1) = some (.plain it.seq) ∧ frameWord k l f (at' + 2) = some (.plain it.stamp) ∧
      (j < it.n → frameWord k l f (at' + 3 + j) = some (.data it.slot (it.first + j)))) ∧
  [ItemKind.data, .stale, .repeated, .absent].map ItemKind.value = [0, 1, 2, 3] ∧
  ∀ r w : Word, crcWord r w = (List.range 32).foldl (fun (c : Word) n =>
    if c.getLsbD 31 ≠ w.getLsbD (31 - n) then (c <<< 1) ^^^ 0x04C11DB7#32 else c <<< 1) r

/-- LINK_PLACE_WORD places the next header word, item header word or trailer of the frame in flight while the buffer holds
fewer than 64 words; the trailer is the inverted CRC of the words before it (R100, R116, R119). Where the word after it is a
data word, the link presents the read of the pinned generation's record word, in the same act (R33, R100; log 13). Where the
next word is a data word, or there is no room or nothing left, it changes nothing (log 1). -/
def Obligations.LinkPlacesItsNextWord : Prop :=
  ∀ (s : State) (k : LinkId) (f : Frame), (s.link k).frame = some f →
    let next := frameWord k (s.link k) f f.placed
    (((s.link k).line = .abort ∨ 64 ≤ (s.link k).buffer.length ∨ next = none ∨ ∃ i pos, next = some (.data i pos)) →
      exec (.linkPlaceWord k) s = .next s) ∧
    ((s.link k).line ≠ .abort → (s.link k).buffer.length < 64 →
      (∀ w, next = some (.plain w) → ∃ t, exec (.linkPlaceWord k) s = .next t ∧
        t.link k = { s.link k with
          buffer := (s.link k).buffer ++ [w], line := .drive, req := (t.link k).req
          frame := some { f with placed := f.placed + 1, crc := crcWord f.crc w } } ∧
        State.presentsRead k (s.link k).req (t.link k) ∧
        (∀ j, j ≠ k → t.link j = s.link j) ∧ t = { s with links := t.links }) ∧
      (next = some .trailer → ∃ t, exec (.linkPlaceWord k) s = .next t ∧
        t.link k = { s.link k with
          buffer := (s.link k).buffer ++ [~~~ f.crc], line := .drive, frame := some { f with placed := f.placed + 1 } } ∧
        (∀ j, j ≠ k → t.link j = s.link j) ∧ t = { s with links := t.links }))

/-- WORD_TAKEN inside a frame: the word leaves the buffer, the stall timer is 0, the line is in GAP when the buffer is empty,
and the link presents its next read where the room lets it (R100; log 13); the last word of an item, which is its third header
word or its last data word (§6.6), updates the last-seen entry of a DATA or REPEAT item and queues the ITEM_MARK of a marked
one (R102, R103, R115 to R117, R120). With VALID low nothing is taken. -/
def Obligations.WordTakenInsideAFrame : Prop :=
  ∀ (s : State) (k : LinkId) (f : Frame) (w : Word) (rest : List Word),
    (((s.link k).line = .quiet ∨ (s.link k).line = .gap) → exec (.wordTaken k) s = .next s) ∧
    ((s.link k).line = .drive → (s.link k).buffer = w :: rest → (s.link k).frame = some f →
      frameWord k (s.link k) f f.taken ≠ some .trailer →
      ∃ t, exec (.wordTaken k) s = .next t ∧
        t.link k = { s.link k with
          buffer := rest, frame := some { f with taken := f.taken + 1 }, stallTimer := 0,
          line := if rest.isEmpty then .gap else .drive, req := (t.link k).req, lastSeen := (t.link k).lastSeen } ∧
        State.presentsRead k (s.link k).req (t.link k) ∧
        (∀ it, s.itemEnding k f.taken = some it ↔ ∃ before after, (s.link k).items = before ++ it :: after ∧
          f.taken + 1 = 4 + (before.map fun i => 3 + i.n).sum + (3 + it.n)) ∧
        (s.itemEnding k f.taken = none → t.events = s.events ∧ (t.link k).lastSeen = (s.link k).lastSeen) ∧
        (∀ it, s.itemEnding k f.taken = some it →
          ((it.kind = .data ∨ it.kind = .repeated) →
            (t.link k).lastSeen = Table.put (s.link k).lastSeen it.slot it.seq) ∧
          ((it.kind = .stale ∨ it.kind = .absent) → (t.link k).lastSeen = (s.link k).lastSeen) ∧
          ((s.entry it.entry).mark = true →
            t.events = s.events.take (s.record .itemMark (k.val * 4096 + it.entry % 1024) it.seq 0)) ∧
          ((s.entry it.entry).mark = false → t.events = s.events)) ∧
        (∀ j, j ≠ k → t.link j = s.link j) ∧ t = { s with links := t.links, events := t.events })

/-- The end of a frame, sent whole (the trailer is taken) or aborted (the abort word is taken, its pins released before). A
frame sent whole first releases its pins, drains that end with them being reported first, in the pin set's order, the model's
choice (log 28). Then the cursor moves past its FRAME_END, the end of the program ends the cycle, and in FRAME it makes the
swap and the link returns to WAIT, while in STOPPING the link goes to OFF (R11, R20, R87, R104, R107, R110, R112, R122). The
mark of a give-up that is due is the model's (log 14). -/
def Obligations.FrameEndMovesTheCursor : Prop :=
  ∀ (s : State) (k : LinkId) (f : Frame) (w : Word), (s.link k).frame = some f →
    ((s.link k).pinSet.map PinEntry.slot).Nodup →
    (((s.link k).line = .drive ∧ (s.link k).buffer = [w] ∧ frameWord k (s.link k) f f.taken = some .trailer) ∨
      ((s.link k).line = .abort ∧ (s.link k).buffer = [] ∧ (s.link k).pinSet = [])) →
    let l := s.link k
    let ended := l.active.len ≤ f.next
    ∃ t, exec (.wordTaken k) s = .next t ∧ s.releasesPins t k ∧
      (let released := s.events.takeAll (s.releaseRecords (s.drained t l.pinSet))
        let ends := if ended then released.take (s.record .cycleDone k.val (l.cycleNo.setWidth 32) 0) else released
        let done : Link := { l with
          line := .quiet, buffer := [], items := [], frame := none, stallTimer := 0, pinSet := [],
          lastSeen := (t.link k).lastSeen,
          abortWord := if l.line = .abort then none else l.abortWord,
          giveUpDue := if l.line = .abort then false else l.giveUpDue,
          cursor := if ended then 0 else f.next, cycleNo := if ended then l.cycleNo + 1 else l.cycleNo }
        (l.state = .frame → t.link k = { done with
            state := .wait, active := if ended ∧ l.pendingValid = true then l.pending else l.active,
            pendingValid := if ended then false else l.pendingValid } ∧
          t.events = if ended ∧ l.pendingValid = true
            then ends.take (s.record .programSwapped k.val (l.pending.tag.setWidth 32) 0) else ends) ∧
        (l.state = .stopping → t.link k = { done with state := .off, pendingValid := false } ∧
          t.events = ends.take (s.record .linkStopped k.val (l.frameNo.setWidth 32) 0))) ∧
      t = { s with slots := t.slots, pool := t.pool, links := t.links, events := t.events }

/-- A stall that has reached STALL_LIMIT and LINK_STOP in mode ABORT abort the frame: its words are dropped, the abort word is
presented, its pins are released and FRAME_ABORTED is queued; the trailer's take releases the same pins (R11, R104, R106,
R109, R120, R121). A DRAINING slot becomes UNUSED with its last pin, its chains joining the free list and SLOT_RELEASED being
offered (R20, R30), before FRAME_ABORTED, and for two such slots in the pin set's order, the model's choice (log 28). A stall
that is not due changes nothing (log 1). The mark of a give-up that is due is the model's (log 14). -/
def Obligations.FramesReleaseTheirPins : Prop :=
  ∀ (s : State) (k : LinkId), ((s.link k).line ≠ .drive ∨ (s.link k).stallTimer ≠ (s.link k).stallLimit →
      exec (.stallAbort k) s = .next s) ∧
    ∀ (f : Frame), (s.link k).frame = some f → ((s.link k).pinSet.map PinEntry.slot).Nodup →
      let released := fun t : State => s.releasesPins t k ∧ (t.link k).pinSet = [] ∧
        t = { s with slots := t.slots, pool := t.pool, links := t.links, events := t.events, cmd := t.cmd }
      let aborted := fun (t : State) (st : LinkState) (why : BitVec 4) =>
        t.link k = { s.link k with
          state := st, line := .abort, abortWord := some (~~~ (s.link k).sync), buffer := [], req := none,
          stallTimer := 0, giveUpDue := false, pinSet := [], aborts := min ((s.link k).aborts + 1) 65535,
          lastSeen := (t.link k).lastSeen } ∧
        t.events = (s.events.takeAll (s.releaseRecords (s.drained t (s.link k).pinSet))).take
          (s.record .frameAborted k.val (f.number.setWidth 32) why)
      ((s.link k).line = .drive → (s.link k).stallTimer = (s.link k).stallLimit →
        ∃ t, exec (.stallAbort k) s = .next t ∧ released t ∧ aborted t (s.link k).state 1 ∧ t.cmd = s.cmd) ∧
      (s.unitFree → (s.arg 0).toNat = k.val → s.arg 1 = 1 → (s.link k).state = .frame → (s.link k).line ≠ .abort →
        ∃ t, exec .linkStop s = .next t ∧ released t ∧ aborted t .stopping 2 ∧ t.cmd = s.withResult .ok 0) ∧
      (∀ w rest, (s.link k).line = .drive → (s.link k).buffer = w :: rest →
        frameWord k (s.link k) f f.taken = some .trailer →
        ∃ t, exec (.wordTaken k) s = .next t ∧ released t ∧ t.cmd = s.cmd)

/-- An abort word given up in STOPPING takes the link to OFF with UNFLUSHED: the cursor moves, a cycle may end, no swap is
made, and the pending program is cleared (R111, R112, R122). A give-up that is not due changes nothing (log 1); the mark that
says it is due is the model's (log 14). -/
def Obligations.GiveUpTakesTheLinkOff : Prop :=
  ∀ (s : State) (k : LinkId),
    (((s.link k).line ≠ .abort ∨ (s.link k).state ≠ .stopping ∨ (s.link k).giveUpDue = false) →
      exec (.abortWordGiveUp k) s = .next s) ∧
    ∀ f, (s.link k).line = .abort → (s.link k).state = .stopping → (s.link k).giveUpDue = true →
      (s.link k).frame = some f →
      let l := s.link k
      let ended := l.active.len ≤ f.next
      let done := s.events.take (s.record .cycleDone k.val (l.cycleNo.setWidth 32) 0)
      let stopped := s.record .linkStopped k.val (l.frameNo.setWidth 32) 1
      ∃ t, exec (.abortWordGiveUp k) s = .next t ∧
        t.link k = { l with
          state := .off, line := .quiet, buffer := [], items := [], pinSet := [], frame := none, stallTimer := 0,
          abortWord := none, giveUpDue := false, pendingValid := false, cursor := if ended then 0 else f.next,
          cycleNo := if ended then l.cycleNo + 1 else l.cycleNo } ∧
        (∀ j, j ≠ k → t.link j = s.link j) ∧ t.events = (if ended then done.take stopped else s.events.take stopped) ∧
        t = { s with links := t.links, events := t.events }

/-! ### Handles and the feed -/

/-- HANDLE_PIN and HANDLE_RELEASE: their tests, the pin on NEWEST with the values given at the grant, the slot table's refusals,
and the release of a pin or of a revoked handle (R10, R11, R126, R128); in a DRAINING slot the last pin's release ends the
drain, its chains joining the free list in generation order (R20, R30). -/
def Obligations.HandlePinAndRelease : Prop :=
  ∀ s : State, s.unitFree →
    (1 < (s.arg 0).toNat →
      exec .handlePin s = .next (s.refusedBy .badArg 1) ∧ exec .handleRelease s = .next (s.refusedBy .badArg 1)) ∧
    ∀ h : HandleId, (s.arg 0).toNat = h.val →
      ((s.handle h).state ≠ .free → exec .handlePin s = .next (s.refusedBy .inUse 2)) ∧
      ((s.handle h).state = .free → 31 < (s.arg 1).toNat → exec .handlePin s = .next (s.refusedBy .badArg 3)) ∧
      ((s.handle h).state = .free → exec .handleRelease s = .next (s.refusedBy .state 2)) ∧
      (∀ i : SlotId, (s.handle h).state = .free → (s.arg 1).toNat = i.val →
        ((s.slot i).state ≠ .active → (s.slot i).state ≠ .frozen →
          exec .handlePin s = .next { s with cmd := s.withResult .state 0 }) ∧
        ((s.slot i).state = .active ∨ (s.slot i).state = .frozen →
          ((s.slot i).newest = none → exec .handlePin s = .next { s with cmd := s.withResult .notReady 0 }) ∧
          ∀ g, (s.slot i).newest = some g → ∃ t, exec .handlePin s = .next t ∧
            t.handle h = { s.handle h with
              state := .held, slot := i, gen := g, seq := ((s.slot i).gen g).seq, stamp := ((s.slot i).gen g).stamp,
              tag := ((s.slot i).gen g).tag, words := ((s.slot i).gen g).words, isShort := ((s.slot i).gen g).isShort,
              isPartial := ((s.slot i).gen g).isPartial, epoch := ((s.slot i).gen g).epoch, addr := 0,
              overread := false } ∧
            (t.slot i).gen g = { (s.slot i).gen g with pins := ((s.slot i).gen g).pins + 1 } ∧
            (∀ g', g' ≠ g → (t.slot i).gen g' = (s.slot i).gen g') ∧
            t.slot i = { s.slot i with gens := (t.slot i).gens } ∧ (∀ j, j ≠ i → t.slot j = s.slot j) ∧
            (∀ h', h' ≠ h → t.handle h' = s.handle h') ∧
            t = { s with
              slots := t.slots, handles := t.handles, cmd := s.withResult .ok (BitVec.ofNat 32 g.val) })) ∧
      ((s.handle h).state = .revoked → ∃ t, exec .handleRelease s = .next t ∧
        t.handle h = { s.handle h with state := .free } ∧ (∀ h', h' ≠ h → t.handle h' = s.handle h') ∧
        t = { s with handles := t.handles, cmd := s.withResult .ok 1 }) ∧
      (∀ i g, (s.handle h).state = .held → (s.handle h).slot = i → (s.handle h).gen = g → (s.slot i).state ≠ .draining →
        ∃ t, exec .handleRelease s = .next t ∧ t.handle h = { s.handle h with state := .free } ∧
          (t.slot i).gen g = { (s.slot i).gen g with pins := ((s.slot i).gen g).pins - 1 } ∧
          (∀ g', g' ≠ g → (t.slot i).gen g' = (s.slot i).gen g') ∧
          t.slot i = { s.slot i with gens := (t.slot i).gens } ∧ (∀ j, j ≠ i → t.slot j = s.slot j) ∧
          (∀ h', h' ≠ h → t.handle h' = s.handle h') ∧
          t = { s with slots := t.slots, handles := t.handles, cmd := s.withResult .ok 0 }) ∧
      (∀ i g, (s.handle h).state = .held → (s.handle h).slot = i → (s.handle h).gen = g → (s.slot i).state = .draining →
        ∃ t, exec .handleRelease s = .next t ∧ t.handle h = { s.handle h with state := .free } ∧
          ((t.slot i).gen g).pins = ((s.slot i).gen g).pins - 1 ∧
          (∀ g', g' ≠ g → ((t.slot i).gen g').pins = ((s.slot i).gen g').pins) ∧
          (∀ g', (t.slot i).gen g' = { (s.slot i).gen g' with
            pins := ((t.slot i).gen g').pins
            head := if (t.slot i).state = .unused ∧ g'.val < (s.slot i).depth then none else ((s.slot i).gen g').head }) ∧
          ((∃ g', 0 < ((t.slot i).gen g').pins) → t.slot i = { s.slot i with gens := (t.slot i).gens } ∧
            t = { s with slots := t.slots, handles := t.handles, cmd := s.withResult .ok 0 }) ∧
          ((∀ g', ((t.slot i).gen g').pins = 0) →
            t.slot i = { s.slot i with state := .unused, gens := (t.slot i).gens } ∧ s.returnsChains t [i] ∧
            t.pool.alloc = s.pool.alloc ∧
            (∀ k, t.link k = { s.link k with lastSeen := Table.put (s.link k).lastSeen i 0 }) ∧
            t.events = s.events.take
              (s.record .slotReleased i.val (BitVec.ofNat 32 ((s.slot i).depth * (s.slot i).ppg)) 0)) ∧
          (∀ j, j ≠ i → t.slot j = s.slot j) ∧ (∀ h', h' ≠ h → t.handle h' = s.handle h') ∧
          t = { s with
            slots := t.slots, pool := t.pool, links := t.links, handles := t.handles, events := t.events
            cmd := s.withResult .ok 0 })

/-- A read of a handle's data register: HELD below WORDS it presents a store read and is held by the wait line; HELD at or past
WORDS it returns 0, sets OVERREAD and advances ADDR; otherwise it returns 0 and changes nothing (R127, R160). While the RESET
pin is asserted it returns 0 whatever the handle holds (R159). Every step keeps: during a reset every handle is FREE, the feed
is IDLE and the wait line holds no access; so such a read returns 0 and holds nothing (R158). That the returned value stands in
busRead is the model's (log 18). -/
def Obligations.HandleDataReads : Prop :=
  (∀ (s : State) (h : HandleId),
    let y := s.handle h
    (s.resetPhase = .held → exec (.handleDataRead h) s = .next { s with busRead := 0 }) ∧
    (s.resetPhase ≠ .held → s.waitLine = false → y.state ≠ .held →
      exec (.handleDataRead h) s = .next { s with busRead := 0 }) ∧
    (s.resetPhase ≠ .held → s.waitLine = false → y.state = .held →
      ∃ t, exec (.handleDataRead h) s = .next t ∧ (∀ g, g ≠ h → t.handle g = s.handle g) ∧
      (y.addr.toNat < y.words → t.waitLine = true ∧
        t.handle h = { y with req := some { slot := y.slot, gen := y.gen, pos := y.addr.toNat } } ∧
        t = { s with handles := t.handles }) ∧
      (y.words ≤ y.addr.toNat →
        t.handle h = { y with overread := true, addr := BitVec.ofNat 10 ((y.addr.toNat + 1) % 1024) } ∧
        t = { s with handles := t.handles, busRead := 0 }))) ∧
  ∀ s : State, s.resetIsQuiet →
    (∀ h, s.resetPhase ≠ .none → exec (.handleDataRead h) s = .next { s with busRead := 0 } ∧ s.waitLine = false) ∧
    ∀ t, step s = .next t → t.resetIsQuiet

/-- FEED_OPEN makes its tests in order; the slot then gives its writer target or counts an overrun (R4, R5, R131). The number
of the fill that begins, in the generation's record and in the feed, is the model's (log 9). -/
def Obligations.FeedOpenAsksForAGeneration : Prop :=
  ∀ s : State, s.unitFree →
    (31 < (s.arg 0).toNat → exec .feedOpen s = .next (s.refusedBy .badArg 1)) ∧
    ∀ i : SlotId, (s.arg 0).toNat = i.val →
      (s.feed.state = .opened → exec .feedOpen s = .next (s.refusedBy .inUse 2)) ∧
      (s.feed.state = .idle → 255 < (s.arg 1).toNat → exec .feedOpen s = .next (s.refusedBy .badArg 3)) ∧
      (s.feed.state = .idle → (s.arg 1).toNat ≤ 255 →
        (¬ (1 ≤ (s.arg 2).toNat ∧ (s.arg 2).toNat ≤ 1048575) → exec .feedOpen s = .next (s.refusedBy .badArg 4)) ∧
        (1 ≤ (s.arg 2).toNat → (s.arg 2).toNat ≤ 1048575 →
          ((s.slot i).state ≠ .active → exec .feedOpen s = .next (s.refusedBy .state 5)) ∧
          ((s.slot i).state = .active → (s.slot i).source ≠ .feed → exec .feedOpen s = .next (s.refusedBy .badArg 6)) ∧
          ((s.slot i).state = .active → (s.slot i).source = .feed → ∃ t, exec .feedOpen s = .next t ∧
            (∀ j, j ≠ i → t.slot j = s.slot j) ∧
            ((s.slot i).target = none →
              t.slot i = { s.slot i with overruns := min ((s.slot i).overruns + 1) 65535 } ∧
              t = { s with
                slots := t.slots, cmd := s.withResult .noGeneration 0
                events := s.events.take (s.record .slotOverrun i.val
                  (match (s.slot i).newest with | some g => ((s.slot i).gen g).seq | none => 0) 0) }) ∧
            ∀ g, (s.slot i).target = some g →
              (t.slot i).gen g = { (s.slot i).gen g with
                state := .filling, words := 0, isShort := false, isPartial := false, epoch := 0,
                stamp := s.timebase.counter, tag := BitVec.ofNat 8 (s.arg 1).toNat,
                fill := ((s.slot i).gen g).fill + 1 } ∧
              (∀ g', g' ≠ g → (t.slot i).gen g' = (s.slot i).gen g') ∧
              t.slot i = { s.slot i with gens := (t.slot i).gens } ∧
              t = { s with
                slots := t.slots, cmd := s.withResult .ok (BitVec.ofNat 32 g.val)
                feed := { state := .opened, slot := i, gen := g, wordIndex := 0, idleLimit := (s.arg 2).toNat,
                          idleCount := 0, overlength := false, fill := ((s.slot i).gen g).fill + 1,
                          req := s.feed.req } })))

/-- A feed session: a write presents its word, with the model's number of its fill (log 9), or is discarded past LENGTH;
FEED_CLOSE publishes in a slot without a cohort; FEED_ABORT and the idle timer abandon (R9, R132 to R135). In IDLE the write
is discarded and the commands are refused; an expiry that is not due changes nothing (log 1). -/
def Obligations.FeedSessionEnds : Prop :=
  ∀ (s : State) (v : Word) (i : SlotId) (g : GenId), s.feed.slot = i → s.feed.gen = g →
    let f := s.feed
    let y := (s.slot i).gen g
    let n := min f.wordIndex (s.slot i).length
    (s.hostFree → f.state = .idle → exec (.feedDataWrite v) s = .next s) ∧
    (s.unitFree → f.state = .idle →
      exec .feedClose s = .next (s.refusedBy .state 1) ∧ exec .feedAbort s = .next (s.refusedBy .state 1)) ∧
    ((f.state = .idle ∨ f.idleCount < f.idleLimit) → exec .feedIdleExpiry s = .next s) ∧
    (s.hostFree → f.state = .opened →
      (f.wordIndex < (s.slot i).length → exec (.feedDataWrite v) s = .next { s with feed := { f with
        idleCount := 0, req := some { slot := i, gen := g, pos := f.wordIndex, word := v, fill := f.fill } } }) ∧
      ((s.slot i).length ≤ f.wordIndex → exec (.feedDataWrite v) s = .next { s with feed := { f with
        idleCount := 0, overlength := true, wordIndex := min (f.wordIndex + 1) 65535 } })) ∧
    (f.state = .opened → y.state = .filling →
      (s.unitFree → (s.slot i).cohort = none → ∃ t, exec .feedClose s = .next t ∧
        (t.slot i).gen g = { y with
          state := .ready, seq := (s.slot i).nextSeq, words := n, isShort := decide (n < (s.slot i).length), epoch := 0,
          isPartial := false } ∧
        (∀ g', g' ≠ g → (t.slot i).gen g' = (s.slot i).gen g') ∧
        t.slot i = { s.slot i with
          newest := some g, gens := (t.slot i).gens,
          nextSeq := if (s.slot i).nextSeq.toNat = 4294967295 then 1 else (s.slot i).nextSeq + 1 } ∧
        (∀ j, j ≠ i → t.slot j = s.slot j) ∧
        t = { s with
          slots := t.slots, feed := { f with state := .idle }, cmd := s.withResult .ok (BitVec.ofNat 32 n) }) ∧
      let abandoned := fun (t : State) =>
        (t.slot i).gen g = { y with state := .empty, words := 0, isShort := false, isPartial := false, epoch := 0 } ∧
        (∀ g', g' ≠ g → (t.slot i).gen g' = (s.slot i).gen g') ∧
        t.slot i = { s.slot i with gens := (t.slot i).gens, abandons := min ((s.slot i).abandons + 1) 65535 } ∧
        (∀ j, j ≠ i → t.slot j = s.slot j)
      let report := fun why : BitVec 4 => s.record .genAbandoned i.val (BitVec.ofNat 32 y.words) why
      (s.unitFree → ∃ t, exec .feedAbort s = .next t ∧ abandoned t ∧
        t = { s with
          slots := t.slots, feed := { f with state := .idle }, events := s.events.take (report 5)
          cmd := s.withResult .ok (BitVec.ofNat 32 f.wordIndex) }) ∧
      (f.idleLimit ≤ f.idleCount → ∃ t, exec .feedIdleExpiry s = .next t ∧ abandoned t ∧
        t = { s with
          slots := t.slots, feed := { f with state := .idle }
          events := (s.events.take (report 6)).take (s.record .feedTimeout i.val (BitVec.ofNat 32 f.wordIndex) 0) }))

/-- A completion in a cohort slot, shown by FEED_CLOSE: the generation is sealed and not published, and an older seal is
superseded (R7, R59); a seal that leaves a member out starts or continues the gathering, with DEADLINE set by the first
(R57, R58); the last one publishes every seal under one epoch (R8, R57, R58, R60). -/
def Obligations.CompletionsInACohortSeal : Prop :=
  ∀ (s : State) (i : SlotId) (g : GenId) (c : CohortId), s.unitFree → s.feed.state = .opened → s.feed.slot = i →
    s.feed.gen = g → ((s.slot i).gen g).state = .filling → (s.slot i).cohort = some c →
    (∀ j x y, ((s.slot j).gen x).state = .sealed → ((s.slot j).gen y).state = .sealed → x = y) →
    let k := s.cohort c
    let n := min s.feed.wordIndex (s.slot i).length
    let whole := { (s.slot i).gen g with words := n, isShort := decide (n < (s.slot i).length) }
    let sealed := k.sealed ||| BitVec.twoPow 32 i.val
    let noSeal := ∀ o, ((s.slot i).gen o).state ≠ .sealed
    let next := fun w : Word => if w.toNat = 4294967295 then 1 else w + 1
    ∃ t, exec .feedClose s = .next t ∧ (∀ d, d ≠ c → t.cohort d = s.cohort d) ∧
      (∀ o, k.state = .gathering → ((s.slot i).gen o).state = .sealed →
        (t.slot i).gen g = { whole with state := .sealed } ∧
        (t.slot i).gen o = { (s.slot i).gen o with
          state := .empty, words := 0, isShort := false, isPartial := false, epoch := 0 } ∧
        (∀ x, x ≠ g → x ≠ o → (t.slot i).gen x = (s.slot i).gen x) ∧
        t.slot i = { s.slot i with gens := (t.slot i).gens } ∧ (∀ j, j ≠ i → t.slot j = s.slot j) ∧ t.cohort c = k ∧
        t.events = s.events.take (s.record .cohortSuperseded i.val (BitVec.ofNat 32 c.val) 0)) ∧
      (noSeal → sealed ≠ k.members →
        (t.slot i).gen g = { whole with state := .sealed } ∧
        (∀ x, x ≠ g → (t.slot i).gen x = (s.slot i).gen x) ∧
        t.slot i = { s.slot i with gens := (t.slot i).gens } ∧ (∀ j, j ≠ i → t.slot j = s.slot j) ∧
        t.cohort c = { k with
          sealed := sealed, state := .gathering,
          deadline := if k.state = .idle ∧ k.window ≠ 0 then s.timebase.counter + BitVec.ofNat 32 k.window
                      else k.deadline } ∧
        t.events = s.events) ∧
      (noSeal → sealed = k.members →
        (t.slot i).gen g = { whole with
          state := .ready, seq := (s.slot i).nextSeq, epoch := k.epoch, isPartial := false } ∧
        (∀ x, x ≠ g → (t.slot i).gen x = (s.slot i).gen x) ∧
        t.slot i = { s.slot i with
          newest := some g, nextSeq := next (s.slot i).nextSeq, gens := (t.slot i).gens } ∧
        (∀ j x, j ≠ i → k.sealed.getLsbD j.val = true → ((s.slot j).gen x).state = .sealed →
          (t.slot j).gen x = { (s.slot j).gen x with
            state := .ready, seq := (s.slot j).nextSeq, epoch := k.epoch, isPartial := false } ∧
          (∀ y, y ≠ x → (t.slot j).gen y = (s.slot j).gen y) ∧
          t.slot j = { s.slot j with newest := some x, nextSeq := next (s.slot j).nextSeq, gens := (t.slot j).gens }) ∧
        (∀ j, j ≠ i → k.sealed.getLsbD j.val = false → t.slot j = s.slot j) ∧
        t.cohort c = { k with
          state := .idle, sealed := 0, epoch := if k.epoch.toNat = 65535 then 1 else k.epoch + 1 } ∧
        t.events = s.events.take (s.record .cohortPublished c.val (k.epoch.setWidth 32) 0)) ∧
      t = { s with
        slots := t.slots, cohorts := t.cohorts, feed := { s.feed with state := .idle }, events := t.events
        cmd := s.withResult .ok (BitVec.ofNat 32 n) }

/-! ### Time and events -/

/-- A TICK is the expiries that an earlier tick made due and no command has taken, in a fixed order, and then the tick. The
order is the model's choice (log 2): for each link, ascending, stall abort, give-up, period expiry; then each cohort's window,
ascending; then the feed's idle expiry. Each has the effect of its own command, which changes nothing where the expiry is not
due; u is the state after them, and it is s where none is due. The tick advances COUNTER, ends the interval, brings the
PRESCALE written last into force, reaches every running timer and changes nothing else (R93, R120, R122, R135, R139, R141).
The model's, not the spec's, too: what TICK does to READY (log 3), that it ends the interval with DIVIDER 0 whatever DIVIDER
was (log 4), and when the give-up of an abort word comes due (log 14). While the RESET pin is asserted the timebase is held
(R140). -/
def Obligations.TickReachesTheTimers : Prop :=
  ∀ (s : State) (ready : BitVec 6),
    (s.resetPhase = .held → exec (.tick ready) s = .next s) ∧
    (s.resetPhase ≠ .held → ∃ u t,
      s.afterExpiries = .next u ∧ exec (.tick ready) s = .next t ∧ (s.nothingDue → u = s) ∧
      t.timebase = { counter := s.timebase.counter + 1, prescale := s.timebase.prescale,
                     inForce := s.timebase.prescale, divider := 0 } ∧
      (∀ k, let l := u.link k
        t.link k = { l with
          remain := if l.state = .wait ∨ l.state = .frame then l.remain - 1 else l.remain
          stallTimer := if ready.getLsbD k.val = true then l.stallTimer
            else if l.line = .drive then l.stallTimer + 1
            else if l.line = .abort then min (l.stallTimer + 1) l.stallLimit else l.stallTimer
          giveUpDue := l.giveUpDue || (decide (ready.getLsbD k.val = false ∧ l.line = .abort ∧ l.state = .stopping ∧
            l.stallLimit ≤ l.stallTimer + 1)) }) ∧
      t = { u with
        timebase := t.timebase, links := t.links, readyPins := ready
        feed := { u.feed with
          idleCount := if u.feed.state = .opened then u.feed.idleCount + 1 else u.feed.idleCount } })

/-- The queue drops a masked record, counts one it has no room for and appends any other; POP removes the oldest and does
nothing on an empty queue; a read of LOST returns and clears it, and returns 0 while the RESET pin is asserted; the line
follows LEVEL and IRQ_ENABLE (R144, R145, R148, R149, R159). That the returned value stands in busRead is the model's
(log 18). -/
def Obligations.EventQueueAccesses : Prop :=
  ∀ (s : State) (k : EventKind) (o : Nat) (a : Word) (why : BitVec 4),
    let q := s.events
    let r : EventRecord := { kind := k, object := BitVec.ofNat 16 o, arg := a, reason := why, stamp := s.timebase.counter }
    (q.mask.getLsbD k.value = false → s.offer k o a why = s) ∧
    (q.mask.getLsbD k.value = true → q.records.length < 64 →
      s.offer k o a why = { s with events := { q with records := q.records ++ [r] } }) ∧
    (q.mask.getLsbD k.value = true → 64 ≤ q.records.length →
      s.offer k o a why = { s with events := { q with lost := min (q.lost + 1) 255 } }) ∧
    (s.hostFree → exec .eventPop s = .next { s with events := { q with records := q.records.tail } }) ∧
    (s.waitLine = false → s.resetPhase ≠ .held →
      exec .eventLost s = .next { s with events := { q with lost := 0 }, busRead := BitVec.ofNat 32 q.lost }) ∧
    (s.resetPhase = .held → exec .eventLost s = .next { s with busRead := 0 }) ∧
    (q.irqLine = true ↔ q.records ≠ [] ∧ q.irqEnable = true)

/-! ### Invariants -/

/-- The state after a power-on reset satisfies every invariant. -/
def Obligations.InvariantsHoldAtReset : Prop :=
  State.reset.memoriesWf = true ∧ State.reset.queueInv ∧ State.reset.unitInv ∧ State.reset.cohortInv ∧
  State.reset.slotInv ∧ State.reset.fillInv ∧ State.reset.memberInv ∧ State.reset.sealInv ∧ State.reset.linkInv ∧
  State.reset.rebuildInv ∧ State.reset.pinInv ∧ State.reset.pagesInv ∧ State.reset.resetIsQuiet

/-- Every step keeps the three memories in canonical form, and the queues and counters within their sizes (R25, R40, R144). -/
def Obligations.MemoriesAndQueuesKeepTheirForm : Prop :=
  ∀ s t : State, step s = .next t →
    (s.memoriesWf = true → t.memoriesWf = true) ∧ (s.queueInv → t.queueInv)

/-- Every step keeps the unit BUSY exactly while an allocation, a check or a reset is in progress, one at a time (R152, R154,
R157). -/
def Obligations.UnitIsBusyWhileWorkIsInProgress : Prop :=
  ∀ s t : State, s.unitInv → step s = .next t → t.unitInv

/-- Every step keeps: a cohort is GATHERING exactly while SEALED is not empty (R56), no EPOCH or NEXT_SEQ is 0 (R3, R60), a
pinned generation and a NEWEST one are READY (R2, R4). -/
def Obligations.CohortsAndSlotsStayConsistent : Prop :=
  ∀ s t : State, step s = .next t → (s.cohortInv → t.cohortInv) ∧ (s.slotInv → t.slotInv)

/-- Every step keeps: the FILLING generations are exactly those with a writer, so a slot never has two (R4, R130). -/
def Obligations.EveryFillingGenerationHasItsWriter : Prop :=
  ∀ s t : State, s.fillInv → step s = .next t → t.fillInv

/-- Every step keeps: MEMBERS and SEALED name exactly the slots they should (R55, R57), and a slot holds at most one SEALED
generation (R4). -/
def Obligations.MembersAndSealsAreNamedExactly : Prop :=
  ∀ s t : State, s.cohortInv → s.fillInv → s.memberInv → s.sealInv → step s = .next t → t.memberInv ∧ t.sealInv

/-- Every step keeps each link and its line in agreement: no frame in flight in OFF and WAIT, one in FRAME and STOPPING, at most
64 words in the buffer, and nothing but the abort word after an abort (R90, R96, R100, R106, R116, R117). -/
def Obligations.LinksAndLinesAgree : Prop :=
  ∀ s t : State, s.unitInv → s.linkInv → step s = .next t → t.linkInv

/-- Every step keeps: PINS of every generation is the number of links and handles that hold it, and a link's pins are on
different slots (R10, R11, R96), so PINS is at most 8. -/
def Obligations.PinsCountTheirHolders : Prop :=
  (∀ s t : State, s.slotInv → s.unitInv → s.linkInv → s.pinInv → step s = .next t → t.pinInv) ∧
    ∀ s : State, s.pinInv → ∀ i g, ((s.slot i).gen g).pins ≤ 8

/-- A generation that a reader has pinned keeps, through every step that leaves no reset in progress, its record: SEQ, STAMP,
TAG, WORDS, flags and EPOCH, and stays READY (R4, R10, R101); and its stored words: each word position of its chain, those
below WORDS among them, stays at its store address, unless the step returned the chain by ending the drain of its slot, and
reads as before (R4, R36, R101). -/
def Obligations.PinnedGenerationsKeepTheirRecordAndWords : Prop :=
  (∀ s t : State, s.slotInv → step s = .next t → t.resetPhase = .none → ∀ i g, 0 < ((s.slot i).gen g).pins →
    ((t.slot i).gen g).seq = ((s.slot i).gen g).seq ∧ ((t.slot i).gen g).stamp = ((s.slot i).gen g).stamp ∧
    ((t.slot i).gen g).tag = ((s.slot i).gen g).tag ∧ ((t.slot i).gen g).words = ((s.slot i).gen g).words ∧
    ((t.slot i).gen g).isShort = ((s.slot i).gen g).isShort ∧
    ((t.slot i).gen g).isPartial = ((s.slot i).gen g).isPartial ∧ ((t.slot i).gen g).epoch = ((s.slot i).gen g).epoch ∧
    ((t.slot i).gen g).state = .ready) ∧
  ∀ s t : State, s.slotInv → s.pagesInv → s.memoriesWf = true → step s = .next t → t.resetPhase = .none →
    ∀ i g, 0 < ((s.slot i).gen g).pins → ∀ w a, s.wordAddress i g w = some a →
      ((t.slot i).state ≠ .unused → t.wordAddress i g w = some a) ∧ t.readStore a = s.readStore a

/-- Every step keeps the free list as far as the rebuild has come, and the step that ends a reset leaves page 0 at HEAD, page
2047 at TAIL, COUNT 2048 and NEXT of every page the next page (R27). -/
def Obligations.RebuildRestoresTheFreeList : Prop :=
  ∀ s t : State, s.memoriesWf = true → s.rebuildInv → step s = .next t → t.rebuildInv ∧
    ((∃ n b, s.resetPhase = .running n b) → t.resetPhase = .none → State.linkedUpTo t.pool 2048)

/-- Every step keeps: outside a reset each page is at exactly one place, on the free list from HEAD to TAIL with COUNT its
number of pages, on the chain of one generation, PPG pages long, or on the chain that the allocation in progress builds
(R25, R26, R28 to R30). -/
def Obligations.FreeListAndChainsHoldEveryPage : Prop :=
  ∀ s t : State, s.memoriesWf = true → s.unitInv → s.rebuildInv → s.pagesInv → step s = .next t → t.pagesInv
end

