-- ==== Sys2Proof/Laws/State.lean ====
section
/-! SUPPORT. What each update of one piece of the state leaves of every field: one lemma per field and update, by rfl. -/

namespace Sys2Proof

/-- Reading a table after one entry is put in it. -/
theorem Table.get_put {n : Nat} {α : Type} (t : Table n α) (i j : Fin n) (x : α) :
    (Table.put t i x).get j = if j = i then x else t.get j := by
  rcases i with ⟨i, hi⟩; rcases j with ⟨j, hj⟩
  simp only [Table.put, Vector.get_eq_getElem, Vector.getElem_set, Fin.mk.injEq]
  by_cases h : i = j <;> simp [h, eq_comm]

/-- The entry just put. -/
@[simp] theorem Table.get_put_self {n : Nat} {α : Type} (t : Table n α) (i : Fin n) (x : α) :
    (Table.put t i x).get i = x := by simp [Table.get_put]

/-- Another entry. -/
theorem Table.get_put_ne {n : Nat} {α : Type} (t : Table n α) {i j : Fin n} (x : α) (h : j ≠ i) :
    (Table.put t i x).get j = t.get j := by simp [Table.get_put, h]

namespace Machine

/-- Reading a generation record after one is replaced. -/
theorem Slot.gen_setGen (x : Slot) (g h : GenId) (y : Gen) : (x.setGen g y).gen h = if h = g then y else x.gen h :=
  Table.get_put x.gens g h y

namespace State

@[simp] theorem pending_setSlot (s : State) (j : SlotId) (x : Slot) : (s.setSlot j x).pending = s.pending := rfl
@[simp] theorem slots_setSlot (s : State) (j : SlotId) (x : Slot) : (s.setSlot j x).slots = Table.put s.slots j x := rfl
@[simp] theorem store_setSlot (s : State) (j : SlotId) (x : Slot) : (s.setSlot j x).store = s.store := rfl
@[simp] theorem pool_setSlot (s : State) (j : SlotId) (x : Slot) : (s.setSlot j x).pool = s.pool := rfl
@[simp] theorem lastGranted_setSlot (s : State) (j : SlotId) (x : Slot) : (s.setSlot j x).lastGranted = s.lastGranted := rfl
@[simp] theorem ports_setSlot (s : State) (j : SlotId) (x : Slot) : (s.setSlot j x).ports = s.ports := rfl
@[simp] theorem cohorts_setSlot (s : State) (j : SlotId) (x : Slot) : (s.setSlot j x).cohorts = s.cohorts := rfl
@[simp] theorem schedule_setSlot (s : State) (j : SlotId) (x : Slot) : (s.setSlot j x).schedule = s.schedule := rfl
@[simp] theorem protectedWrite_setSlot (s : State) (j : SlotId) (x : Slot) : (s.setSlot j x).protectedWrite = s.protectedWrite := rfl
@[simp] theorem protectedEntry_setSlot (s : State) (j : SlotId) (x : Slot) : (s.setSlot j x).protectedEntry = s.protectedEntry := rfl
@[simp] theorem check_setSlot (s : State) (j : SlotId) (x : Slot) : (s.setSlot j x).check = s.check := rfl
@[simp] theorem links_setSlot (s : State) (j : SlotId) (x : Slot) : (s.setSlot j x).links = s.links := rfl
@[simp] theorem handles_setSlot (s : State) (j : SlotId) (x : Slot) : (s.setSlot j x).handles = s.handles := rfl
@[simp] theorem feed_setSlot (s : State) (j : SlotId) (x : Slot) : (s.setSlot j x).feed = s.feed := rfl
@[simp] theorem timebase_setSlot (s : State) (j : SlotId) (x : Slot) : (s.setSlot j x).timebase = s.timebase := rfl
@[simp] theorem events_setSlot (s : State) (j : SlotId) (x : Slot) : (s.setSlot j x).events = s.events := rfl
@[simp] theorem cmd_setSlot (s : State) (j : SlotId) (x : Slot) : (s.setSlot j x).cmd = s.cmd := rfl
@[simp] theorem slotSelect_setSlot (s : State) (j : SlotId) (x : Slot) : (s.setSlot j x).slotSelect = s.slotSelect := rfl
@[simp] theorem resetPhase_setSlot (s : State) (j : SlotId) (x : Slot) : (s.setSlot j x).resetPhase = s.resetPhase := rfl
@[simp] theorem readyPins_setSlot (s : State) (j : SlotId) (x : Slot) : (s.setSlot j x).readyPins = s.readyPins := rfl
@[simp] theorem busRead_setSlot (s : State) (j : SlotId) (x : Slot) : (s.setSlot j x).busRead = s.busRead := rfl
@[simp] theorem port_setSlot (s : State) (j : SlotId) (x : Slot) (i : PortId) : (s.setSlot j x).port i = s.port i := rfl
@[simp] theorem cohort_setSlot (s : State) (j : SlotId) (x : Slot) (i : CohortId) : (s.setSlot j x).cohort i = s.cohort i := rfl
@[simp] theorem link_setSlot (s : State) (j : SlotId) (x : Slot) (i : LinkId) : (s.setSlot j x).link i = s.link i := rfl
@[simp] theorem handle_setSlot (s : State) (j : SlotId) (x : Slot) (i : HandleId) : (s.setSlot j x).handle i = s.handle i := rfl
@[simp] theorem now_setSlot (s : State) (j : SlotId) (x : Slot) : (s.setSlot j x).now = s.now := rfl

@[simp] theorem pending_setPort (s : State) (j : PortId) (x : Port) : (s.setPort j x).pending = s.pending := rfl
@[simp] theorem slots_setPort (s : State) (j : PortId) (x : Port) : (s.setPort j x).slots = s.slots := rfl
@[simp] theorem store_setPort (s : State) (j : PortId) (x : Port) : (s.setPort j x).store = s.store := rfl
@[simp] theorem pool_setPort (s : State) (j : PortId) (x : Port) : (s.setPort j x).pool = s.pool := rfl
@[simp] theorem lastGranted_setPort (s : State) (j : PortId) (x : Port) : (s.setPort j x).lastGranted = s.lastGranted := rfl
@[simp] theorem ports_setPort (s : State) (j : PortId) (x : Port) : (s.setPort j x).ports = Table.put s.ports j x := rfl
@[simp] theorem cohorts_setPort (s : State) (j : PortId) (x : Port) : (s.setPort j x).cohorts = s.cohorts := rfl
@[simp] theorem schedule_setPort (s : State) (j : PortId) (x : Port) : (s.setPort j x).schedule = s.schedule := rfl
@[simp] theorem protectedWrite_setPort (s : State) (j : PortId) (x : Port) : (s.setPort j x).protectedWrite = s.protectedWrite := rfl
@[simp] theorem protectedEntry_setPort (s : State) (j : PortId) (x : Port) : (s.setPort j x).protectedEntry = s.protectedEntry := rfl
@[simp] theorem check_setPort (s : State) (j : PortId) (x : Port) : (s.setPort j x).check = s.check := rfl
@[simp] theorem links_setPort (s : State) (j : PortId) (x : Port) : (s.setPort j x).links = s.links := rfl
@[simp] theorem handles_setPort (s : State) (j : PortId) (x : Port) : (s.setPort j x).handles = s.handles := rfl
@[simp] theorem feed_setPort (s : State) (j : PortId) (x : Port) : (s.setPort j x).feed = s.feed := rfl
@[simp] theorem timebase_setPort (s : State) (j : PortId) (x : Port) : (s.setPort j x).timebase = s.timebase := rfl
@[simp] theorem events_setPort (s : State) (j : PortId) (x : Port) : (s.setPort j x).events = s.events := rfl
@[simp] theorem cmd_setPort (s : State) (j : PortId) (x : Port) : (s.setPort j x).cmd = s.cmd := rfl
@[simp] theorem slotSelect_setPort (s : State) (j : PortId) (x : Port) : (s.setPort j x).slotSelect = s.slotSelect := rfl
@[simp] theorem resetPhase_setPort (s : State) (j : PortId) (x : Port) : (s.setPort j x).resetPhase = s.resetPhase := rfl
@[simp] theorem readyPins_setPort (s : State) (j : PortId) (x : Port) : (s.setPort j x).readyPins = s.readyPins := rfl
@[simp] theorem busRead_setPort (s : State) (j : PortId) (x : Port) : (s.setPort j x).busRead = s.busRead := rfl
@[simp] theorem slot_setPort (s : State) (j : PortId) (x : Port) (i : SlotId) : (s.setPort j x).slot i = s.slot i := rfl
@[simp] theorem cohort_setPort (s : State) (j : PortId) (x : Port) (i : CohortId) : (s.setPort j x).cohort i = s.cohort i := rfl
@[simp] theorem link_setPort (s : State) (j : PortId) (x : Port) (i : LinkId) : (s.setPort j x).link i = s.link i := rfl
@[simp] theorem handle_setPort (s : State) (j : PortId) (x : Port) (i : HandleId) : (s.setPort j x).handle i = s.handle i := rfl
@[simp] theorem now_setPort (s : State) (j : PortId) (x : Port) : (s.setPort j x).now = s.now := rfl

@[simp] theorem pending_setCohort (s : State) (j : CohortId) (x : Cohort) : (s.setCohort j x).pending = s.pending := rfl
@[simp] theorem slots_setCohort (s : State) (j : CohortId) (x : Cohort) : (s.setCohort j x).slots = s.slots := rfl
@[simp] theorem store_setCohort (s : State) (j : CohortId) (x : Cohort) : (s.setCohort j x).store = s.store := rfl
@[simp] theorem pool_setCohort (s : State) (j : CohortId) (x : Cohort) : (s.setCohort j x).pool = s.pool := rfl
@[simp] theorem lastGranted_setCohort (s : State) (j : CohortId) (x : Cohort) : (s.setCohort j x).lastGranted = s.lastGranted := rfl
@[simp] theorem ports_setCohort (s : State) (j : CohortId) (x : Cohort) : (s.setCohort j x).ports = s.ports := rfl
@[simp] theorem cohorts_setCohort (s : State) (j : CohortId) (x : Cohort) : (s.setCohort j x).cohorts = Table.put s.cohorts j x := rfl
@[simp] theorem schedule_setCohort (s : State) (j : CohortId) (x : Cohort) : (s.setCohort j x).schedule = s.schedule := rfl
@[simp] theorem protectedWrite_setCohort (s : State) (j : CohortId) (x : Cohort) : (s.setCohort j x).protectedWrite = s.protectedWrite := rfl
@[simp] theorem protectedEntry_setCohort (s : State) (j : CohortId) (x : Cohort) : (s.setCohort j x).protectedEntry = s.protectedEntry := rfl
@[simp] theorem check_setCohort (s : State) (j : CohortId) (x : Cohort) : (s.setCohort j x).check = s.check := rfl
@[simp] theorem links_setCohort (s : State) (j : CohortId) (x : Cohort) : (s.setCohort j x).links = s.links := rfl
@[simp] theorem handles_setCohort (s : State) (j : CohortId) (x : Cohort) : (s.setCohort j x).handles = s.handles := rfl
@[simp] theorem feed_setCohort (s : State) (j : CohortId) (x : Cohort) : (s.setCohort j x).feed = s.feed := rfl
@[simp] theorem timebase_setCohort (s : State) (j : CohortId) (x : Cohort) : (s.setCohort j x).timebase = s.timebase := rfl
@[simp] theorem events_setCohort (s : State) (j : CohortId) (x : Cohort) : (s.setCohort j x).events = s.events := rfl
@[simp] theorem cmd_setCohort (s : State) (j : CohortId) (x : Cohort) : (s.setCohort j x).cmd = s.cmd := rfl
@[simp] theorem slotSelect_setCohort (s : State) (j : CohortId) (x : Cohort) : (s.setCohort j x).slotSelect = s.slotSelect := rfl
@[simp] theorem resetPhase_setCohort (s : State) (j : CohortId) (x : Cohort) : (s.setCohort j x).resetPhase = s.resetPhase := rfl
@[simp] theorem readyPins_setCohort (s : State) (j : CohortId) (x : Cohort) : (s.setCohort j x).readyPins = s.readyPins := rfl
@[simp] theorem busRead_setCohort (s : State) (j : CohortId) (x : Cohort) : (s.setCohort j x).busRead = s.busRead := rfl
@[simp] theorem slot_setCohort (s : State) (j : CohortId) (x : Cohort) (i : SlotId) : (s.setCohort j x).slot i = s.slot i := rfl
@[simp] theorem port_setCohort (s : State) (j : CohortId) (x : Cohort) (i : PortId) : (s.setCohort j x).port i = s.port i := rfl
@[simp] theorem link_setCohort (s : State) (j : CohortId) (x : Cohort) (i : LinkId) : (s.setCohort j x).link i = s.link i := rfl
@[simp] theorem handle_setCohort (s : State) (j : CohortId) (x : Cohort) (i : HandleId) : (s.setCohort j x).handle i = s.handle i := rfl
@[simp] theorem now_setCohort (s : State) (j : CohortId) (x : Cohort) : (s.setCohort j x).now = s.now := rfl

@[simp] theorem pending_setLink (s : State) (j : LinkId) (x : Link) : (s.setLink j x).pending = s.pending := rfl
@[simp] theorem slots_setLink (s : State) (j : LinkId) (x : Link) : (s.setLink j x).slots = s.slots := rfl
@[simp] theorem store_setLink (s : State) (j : LinkId) (x : Link) : (s.setLink j x).store = s.store := rfl
@[simp] theorem pool_setLink (s : State) (j : LinkId) (x : Link) : (s.setLink j x).pool = s.pool := rfl
@[simp] theorem lastGranted_setLink (s : State) (j : LinkId) (x : Link) : (s.setLink j x).lastGranted = s.lastGranted := rfl
@[simp] theorem ports_setLink (s : State) (j : LinkId) (x : Link) : (s.setLink j x).ports = s.ports := rfl
@[simp] theorem cohorts_setLink (s : State) (j : LinkId) (x : Link) : (s.setLink j x).cohorts = s.cohorts := rfl
@[simp] theorem schedule_setLink (s : State) (j : LinkId) (x : Link) : (s.setLink j x).schedule = s.schedule := rfl
@[simp] theorem protectedWrite_setLink (s : State) (j : LinkId) (x : Link) : (s.setLink j x).protectedWrite = s.protectedWrite := rfl
@[simp] theorem protectedEntry_setLink (s : State) (j : LinkId) (x : Link) : (s.setLink j x).protectedEntry = s.protectedEntry := rfl
@[simp] theorem check_setLink (s : State) (j : LinkId) (x : Link) : (s.setLink j x).check = s.check := rfl
@[simp] theorem links_setLink (s : State) (j : LinkId) (x : Link) : (s.setLink j x).links = Table.put s.links j x := rfl
@[simp] theorem handles_setLink (s : State) (j : LinkId) (x : Link) : (s.setLink j x).handles = s.handles := rfl
@[simp] theorem feed_setLink (s : State) (j : LinkId) (x : Link) : (s.setLink j x).feed = s.feed := rfl
@[simp] theorem timebase_setLink (s : State) (j : LinkId) (x : Link) : (s.setLink j x).timebase = s.timebase := rfl
@[simp] theorem events_setLink (s : State) (j : LinkId) (x : Link) : (s.setLink j x).events = s.events := rfl
@[simp] theorem cmd_setLink (s : State) (j : LinkId) (x : Link) : (s.setLink j x).cmd = s.cmd := rfl
@[simp] theorem slotSelect_setLink (s : State) (j : LinkId) (x : Link) : (s.setLink j x).slotSelect = s.slotSelect := rfl
@[simp] theorem resetPhase_setLink (s : State) (j : LinkId) (x : Link) : (s.setLink j x).resetPhase = s.resetPhase := rfl
@[simp] theorem readyPins_setLink (s : State) (j : LinkId) (x : Link) : (s.setLink j x).readyPins = s.readyPins := rfl
@[simp] theorem busRead_setLink (s : State) (j : LinkId) (x : Link) : (s.setLink j x).busRead = s.busRead := rfl
@[simp] theorem slot_setLink (s : State) (j : LinkId) (x : Link) (i : SlotId) : (s.setLink j x).slot i = s.slot i := rfl
@[simp] theorem port_setLink (s : State) (j : LinkId) (x : Link) (i : PortId) : (s.setLink j x).port i = s.port i := rfl
@[simp] theorem cohort_setLink (s : State) (j : LinkId) (x : Link) (i : CohortId) : (s.setLink j x).cohort i = s.cohort i := rfl
@[simp] theorem handle_setLink (s : State) (j : LinkId) (x : Link) (i : HandleId) : (s.setLink j x).handle i = s.handle i := rfl
@[simp] theorem now_setLink (s : State) (j : LinkId) (x : Link) : (s.setLink j x).now = s.now := rfl

@[simp] theorem pending_setHandle (s : State) (j : HandleId) (x : Handle) : (s.setHandle j x).pending = s.pending := rfl
@[simp] theorem slots_setHandle (s : State) (j : HandleId) (x : Handle) : (s.setHandle j x).slots = s.slots := rfl
@[simp] theorem store_setHandle (s : State) (j : HandleId) (x : Handle) : (s.setHandle j x).store = s.store := rfl
@[simp] theorem pool_setHandle (s : State) (j : HandleId) (x : Handle) : (s.setHandle j x).pool = s.pool := rfl
@[simp] theorem lastGranted_setHandle (s : State) (j : HandleId) (x : Handle) : (s.setHandle j x).lastGranted = s.lastGranted := rfl
@[simp] theorem ports_setHandle (s : State) (j : HandleId) (x : Handle) : (s.setHandle j x).ports = s.ports := rfl
@[simp] theorem cohorts_setHandle (s : State) (j : HandleId) (x : Handle) : (s.setHandle j x).cohorts = s.cohorts := rfl
@[simp] theorem schedule_setHandle (s : State) (j : HandleId) (x : Handle) : (s.setHandle j x).schedule = s.schedule := rfl
@[simp] theorem protectedWrite_setHandle (s : State) (j : HandleId) (x : Handle) : (s.setHandle j x).protectedWrite = s.protectedWrite := rfl
@[simp] theorem protectedEntry_setHandle (s : State) (j : HandleId) (x : Handle) : (s.setHandle j x).protectedEntry = s.protectedEntry := rfl
@[simp] theorem check_setHandle (s : State) (j : HandleId) (x : Handle) : (s.setHandle j x).check = s.check := rfl
@[simp] theorem links_setHandle (s : State) (j : HandleId) (x : Handle) : (s.setHandle j x).links = s.links := rfl
@[simp] theorem handles_setHandle (s : State) (j : HandleId) (x : Handle) : (s.setHandle j x).handles = Table.put s.handles j x := rfl
@[simp] theorem feed_setHandle (s : State) (j : HandleId) (x : Handle) : (s.setHandle j x).feed = s.feed := rfl
@[simp] theorem timebase_setHandle (s : State) (j : HandleId) (x : Handle) : (s.setHandle j x).timebase = s.timebase := rfl
@[simp] theorem events_setHandle (s : State) (j : HandleId) (x : Handle) : (s.setHandle j x).events = s.events := rfl
@[simp] theorem cmd_setHandle (s : State) (j : HandleId) (x : Handle) : (s.setHandle j x).cmd = s.cmd := rfl
@[simp] theorem slotSelect_setHandle (s : State) (j : HandleId) (x : Handle) : (s.setHandle j x).slotSelect = s.slotSelect := rfl
@[simp] theorem resetPhase_setHandle (s : State) (j : HandleId) (x : Handle) : (s.setHandle j x).resetPhase = s.resetPhase := rfl
@[simp] theorem readyPins_setHandle (s : State) (j : HandleId) (x : Handle) : (s.setHandle j x).readyPins = s.readyPins := rfl
@[simp] theorem busRead_setHandle (s : State) (j : HandleId) (x : Handle) : (s.setHandle j x).busRead = s.busRead := rfl
@[simp] theorem slot_setHandle (s : State) (j : HandleId) (x : Handle) (i : SlotId) : (s.setHandle j x).slot i = s.slot i := rfl
@[simp] theorem port_setHandle (s : State) (j : HandleId) (x : Handle) (i : PortId) : (s.setHandle j x).port i = s.port i := rfl
@[simp] theorem cohort_setHandle (s : State) (j : HandleId) (x : Handle) (i : CohortId) : (s.setHandle j x).cohort i = s.cohort i := rfl
@[simp] theorem link_setHandle (s : State) (j : HandleId) (x : Handle) (i : LinkId) : (s.setHandle j x).link i = s.link i := rfl
@[simp] theorem now_setHandle (s : State) (j : HandleId) (x : Handle) : (s.setHandle j x).now = s.now := rfl

@[simp] theorem pending_setFeed (s : State) (x : Feed) : (s.setFeed x).pending = s.pending := rfl
@[simp] theorem slots_setFeed (s : State) (x : Feed) : (s.setFeed x).slots = s.slots := rfl
@[simp] theorem store_setFeed (s : State) (x : Feed) : (s.setFeed x).store = s.store := rfl
@[simp] theorem pool_setFeed (s : State) (x : Feed) : (s.setFeed x).pool = s.pool := rfl
@[simp] theorem lastGranted_setFeed (s : State) (x : Feed) : (s.setFeed x).lastGranted = s.lastGranted := rfl
@[simp] theorem ports_setFeed (s : State) (x : Feed) : (s.setFeed x).ports = s.ports := rfl
@[simp] theorem cohorts_setFeed (s : State) (x : Feed) : (s.setFeed x).cohorts = s.cohorts := rfl
@[simp] theorem schedule_setFeed (s : State) (x : Feed) : (s.setFeed x).schedule = s.schedule := rfl
@[simp] theorem protectedWrite_setFeed (s : State) (x : Feed) : (s.setFeed x).protectedWrite = s.protectedWrite := rfl
@[simp] theorem protectedEntry_setFeed (s : State) (x : Feed) : (s.setFeed x).protectedEntry = s.protectedEntry := rfl
@[simp] theorem check_setFeed (s : State) (x : Feed) : (s.setFeed x).check = s.check := rfl
@[simp] theorem links_setFeed (s : State) (x : Feed) : (s.setFeed x).links = s.links := rfl
@[simp] theorem handles_setFeed (s : State) (x : Feed) : (s.setFeed x).handles = s.handles := rfl
@[simp] theorem feed_setFeed (s : State) (x : Feed) : (s.setFeed x).feed = x := rfl
@[simp] theorem timebase_setFeed (s : State) (x : Feed) : (s.setFeed x).timebase = s.timebase := rfl
@[simp] theorem events_setFeed (s : State) (x : Feed) : (s.setFeed x).events = s.events := rfl
@[simp] theorem cmd_setFeed (s : State) (x : Feed) : (s.setFeed x).cmd = s.cmd := rfl
@[simp] theorem slotSelect_setFeed (s : State) (x : Feed) : (s.setFeed x).slotSelect = s.slotSelect := rfl
@[simp] theorem resetPhase_setFeed (s : State) (x : Feed) : (s.setFeed x).resetPhase = s.resetPhase := rfl
@[simp] theorem readyPins_setFeed (s : State) (x : Feed) : (s.setFeed x).readyPins = s.readyPins := rfl
@[simp] theorem busRead_setFeed (s : State) (x : Feed) : (s.setFeed x).busRead = s.busRead := rfl
@[simp] theorem slot_setFeed (s : State) (x : Feed) (i : SlotId) : (s.setFeed x).slot i = s.slot i := rfl
@[simp] theorem port_setFeed (s : State) (x : Feed) (i : PortId) : (s.setFeed x).port i = s.port i := rfl
@[simp] theorem cohort_setFeed (s : State) (x : Feed) (i : CohortId) : (s.setFeed x).cohort i = s.cohort i := rfl
@[simp] theorem link_setFeed (s : State) (x : Feed) (i : LinkId) : (s.setFeed x).link i = s.link i := rfl
@[simp] theorem handle_setFeed (s : State) (x : Feed) (i : HandleId) : (s.setFeed x).handle i = s.handle i := rfl
@[simp] theorem now_setFeed (s : State) (x : Feed) : (s.setFeed x).now = s.now := rfl

@[simp] theorem pending_setPool (s : State) (x : Pool) : (s.setPool x).pending = s.pending := rfl
@[simp] theorem slots_setPool (s : State) (x : Pool) : (s.setPool x).slots = s.slots := rfl
@[simp] theorem store_setPool (s : State) (x : Pool) : (s.setPool x).store = s.store := rfl
@[simp] theorem pool_setPool (s : State) (x : Pool) : (s.setPool x).pool = x := rfl
@[simp] theorem lastGranted_setPool (s : State) (x : Pool) : (s.setPool x).lastGranted = s.lastGranted := rfl
@[simp] theorem ports_setPool (s : State) (x : Pool) : (s.setPool x).ports = s.ports := rfl
@[simp] theorem cohorts_setPool (s : State) (x : Pool) : (s.setPool x).cohorts = s.cohorts := rfl
@[simp] theorem schedule_setPool (s : State) (x : Pool) : (s.setPool x).schedule = s.schedule := rfl
@[simp] theorem protectedWrite_setPool (s : State) (x : Pool) : (s.setPool x).protectedWrite = s.protectedWrite := rfl
@[simp] theorem protectedEntry_setPool (s : State) (x : Pool) : (s.setPool x).protectedEntry = s.protectedEntry := rfl
@[simp] theorem check_setPool (s : State) (x : Pool) : (s.setPool x).check = s.check := rfl
@[simp] theorem links_setPool (s : State) (x : Pool) : (s.setPool x).links = s.links := rfl
@[simp] theorem handles_setPool (s : State) (x : Pool) : (s.setPool x).handles = s.handles := rfl
@[simp] theorem feed_setPool (s : State) (x : Pool) : (s.setPool x).feed = s.feed := rfl
@[simp] theorem timebase_setPool (s : State) (x : Pool) : (s.setPool x).timebase = s.timebase := rfl
@[simp] theorem events_setPool (s : State) (x : Pool) : (s.setPool x).events = s.events := rfl
@[simp] theorem cmd_setPool (s : State) (x : Pool) : (s.setPool x).cmd = s.cmd := rfl
@[simp] theorem slotSelect_setPool (s : State) (x : Pool) : (s.setPool x).slotSelect = s.slotSelect := rfl
@[simp] theorem resetPhase_setPool (s : State) (x : Pool) : (s.setPool x).resetPhase = s.resetPhase := rfl
@[simp] theorem readyPins_setPool (s : State) (x : Pool) : (s.setPool x).readyPins = s.readyPins := rfl
@[simp] theorem busRead_setPool (s : State) (x : Pool) : (s.setPool x).busRead = s.busRead := rfl
@[simp] theorem slot_setPool (s : State) (x : Pool) (i : SlotId) : (s.setPool x).slot i = s.slot i := rfl
@[simp] theorem port_setPool (s : State) (x : Pool) (i : PortId) : (s.setPool x).port i = s.port i := rfl
@[simp] theorem cohort_setPool (s : State) (x : Pool) (i : CohortId) : (s.setPool x).cohort i = s.cohort i := rfl
@[simp] theorem link_setPool (s : State) (x : Pool) (i : LinkId) : (s.setPool x).link i = s.link i := rfl
@[simp] theorem handle_setPool (s : State) (x : Pool) (i : HandleId) : (s.setPool x).handle i = s.handle i := rfl
@[simp] theorem now_setPool (s : State) (x : Pool) : (s.setPool x).now = s.now := rfl

@[simp] theorem pending_offer (s : State) (k : EventKind) (o : Nat) (a : Word) (r : BitVec 4) : (s.offer k o a r).pending = s.pending := rfl
@[simp] theorem slots_offer (s : State) (k : EventKind) (o : Nat) (a : Word) (r : BitVec 4) : (s.offer k o a r).slots = s.slots := rfl
@[simp] theorem store_offer (s : State) (k : EventKind) (o : Nat) (a : Word) (r : BitVec 4) : (s.offer k o a r).store = s.store := rfl
@[simp] theorem pool_offer (s : State) (k : EventKind) (o : Nat) (a : Word) (r : BitVec 4) : (s.offer k o a r).pool = s.pool := rfl
@[simp] theorem lastGranted_offer (s : State) (k : EventKind) (o : Nat) (a : Word) (r : BitVec 4) : (s.offer k o a r).lastGranted = s.lastGranted := rfl
@[simp] theorem ports_offer (s : State) (k : EventKind) (o : Nat) (a : Word) (r : BitVec 4) : (s.offer k o a r).ports = s.ports := rfl
@[simp] theorem cohorts_offer (s : State) (k : EventKind) (o : Nat) (a : Word) (r : BitVec 4) : (s.offer k o a r).cohorts = s.cohorts := rfl
@[simp] theorem schedule_offer (s : State) (k : EventKind) (o : Nat) (a : Word) (r : BitVec 4) : (s.offer k o a r).schedule = s.schedule := rfl
@[simp] theorem protectedWrite_offer (s : State) (k : EventKind) (o : Nat) (a : Word) (r : BitVec 4) : (s.offer k o a r).protectedWrite = s.protectedWrite := rfl
@[simp] theorem protectedEntry_offer (s : State) (k : EventKind) (o : Nat) (a : Word) (r : BitVec 4) : (s.offer k o a r).protectedEntry = s.protectedEntry := rfl
@[simp] theorem check_offer (s : State) (k : EventKind) (o : Nat) (a : Word) (r : BitVec 4) : (s.offer k o a r).check = s.check := rfl
@[simp] theorem links_offer (s : State) (k : EventKind) (o : Nat) (a : Word) (r : BitVec 4) : (s.offer k o a r).links = s.links := rfl
@[simp] theorem handles_offer (s : State) (k : EventKind) (o : Nat) (a : Word) (r : BitVec 4) : (s.offer k o a r).handles = s.handles := rfl
@[simp] theorem feed_offer (s : State) (k : EventKind) (o : Nat) (a : Word) (r : BitVec 4) : (s.offer k o a r).feed = s.feed := rfl
@[simp] theorem timebase_offer (s : State) (k : EventKind) (o : Nat) (a : Word) (r : BitVec 4) : (s.offer k o a r).timebase = s.timebase := rfl
@[simp] theorem cmd_offer (s : State) (k : EventKind) (o : Nat) (a : Word) (r : BitVec 4) : (s.offer k o a r).cmd = s.cmd := rfl
@[simp] theorem slotSelect_offer (s : State) (k : EventKind) (o : Nat) (a : Word) (r : BitVec 4) : (s.offer k o a r).slotSelect = s.slotSelect := rfl
@[simp] theorem resetPhase_offer (s : State) (k : EventKind) (o : Nat) (a : Word) (r : BitVec 4) : (s.offer k o a r).resetPhase = s.resetPhase := rfl
@[simp] theorem readyPins_offer (s : State) (k : EventKind) (o : Nat) (a : Word) (r : BitVec 4) : (s.offer k o a r).readyPins = s.readyPins := rfl
@[simp] theorem busRead_offer (s : State) (k : EventKind) (o : Nat) (a : Word) (r : BitVec 4) : (s.offer k o a r).busRead = s.busRead := rfl
@[simp] theorem slot_offer (s : State) (k : EventKind) (o : Nat) (a : Word) (r : BitVec 4) (i : SlotId) : (s.offer k o a r).slot i = s.slot i := rfl
@[simp] theorem port_offer (s : State) (k : EventKind) (o : Nat) (a : Word) (r : BitVec 4) (i : PortId) : (s.offer k o a r).port i = s.port i := rfl
@[simp] theorem cohort_offer (s : State) (k : EventKind) (o : Nat) (a : Word) (r : BitVec 4) (i : CohortId) : (s.offer k o a r).cohort i = s.cohort i := rfl
@[simp] theorem link_offer (s : State) (k : EventKind) (o : Nat) (a : Word) (r : BitVec 4) (i : LinkId) : (s.offer k o a r).link i = s.link i := rfl
@[simp] theorem handle_offer (s : State) (k : EventKind) (o : Nat) (a : Word) (r : BitVec 4) (i : HandleId) : (s.offer k o a r).handle i = s.handle i := rfl
@[simp] theorem now_offer (s : State) (k : EventKind) (o : Nat) (a : Word) (r : BitVec 4) : (s.offer k o a r).now = s.now := rfl

@[simp] theorem pending_result (s : State) (c : ResultCode) (d : Word) : (s.result c d).pending = s.pending := rfl
@[simp] theorem slots_result (s : State) (c : ResultCode) (d : Word) : (s.result c d).slots = s.slots := rfl
@[simp] theorem store_result (s : State) (c : ResultCode) (d : Word) : (s.result c d).store = s.store := rfl
@[simp] theorem pool_result (s : State) (c : ResultCode) (d : Word) : (s.result c d).pool = s.pool := rfl
@[simp] theorem lastGranted_result (s : State) (c : ResultCode) (d : Word) : (s.result c d).lastGranted = s.lastGranted := rfl
@[simp] theorem ports_result (s : State) (c : ResultCode) (d : Word) : (s.result c d).ports = s.ports := rfl
@[simp] theorem cohorts_result (s : State) (c : ResultCode) (d : Word) : (s.result c d).cohorts = s.cohorts := rfl
@[simp] theorem schedule_result (s : State) (c : ResultCode) (d : Word) : (s.result c d).schedule = s.schedule := rfl
@[simp] theorem protectedWrite_result (s : State) (c : ResultCode) (d : Word) : (s.result c d).protectedWrite = s.protectedWrite := rfl
@[simp] theorem protectedEntry_result (s : State) (c : ResultCode) (d : Word) : (s.result c d).protectedEntry = s.protectedEntry := rfl
@[simp] theorem check_result (s : State) (c : ResultCode) (d : Word) : (s.result c d).check = s.check := rfl
@[simp] theorem links_result (s : State) (c : ResultCode) (d : Word) : (s.result c d).links = s.links := rfl
@[simp] theorem handles_result (s : State) (c : ResultCode) (d : Word) : (s.result c d).handles = s.handles := rfl
@[simp] theorem feed_result (s : State) (c : ResultCode) (d : Word) : (s.result c d).feed = s.feed := rfl
@[simp] theorem timebase_result (s : State) (c : ResultCode) (d : Word) : (s.result c d).timebase = s.timebase := rfl
@[simp] theorem events_result (s : State) (c : ResultCode) (d : Word) : (s.result c d).events = s.events := rfl
@[simp] theorem cmd_result (s : State) (c : ResultCode) (d : Word) : (s.result c d).cmd = { s.cmd with code := c, detail := d } := rfl
@[simp] theorem slotSelect_result (s : State) (c : ResultCode) (d : Word) : (s.result c d).slotSelect = s.slotSelect := rfl
@[simp] theorem resetPhase_result (s : State) (c : ResultCode) (d : Word) : (s.result c d).resetPhase = s.resetPhase := rfl
@[simp] theorem readyPins_result (s : State) (c : ResultCode) (d : Word) : (s.result c d).readyPins = s.readyPins := rfl
@[simp] theorem busRead_result (s : State) (c : ResultCode) (d : Word) : (s.result c d).busRead = s.busRead := rfl
@[simp] theorem slot_result (s : State) (c : ResultCode) (d : Word) (i : SlotId) : (s.result c d).slot i = s.slot i := rfl
@[simp] theorem port_result (s : State) (c : ResultCode) (d : Word) (i : PortId) : (s.result c d).port i = s.port i := rfl
@[simp] theorem cohort_result (s : State) (c : ResultCode) (d : Word) (i : CohortId) : (s.result c d).cohort i = s.cohort i := rfl
@[simp] theorem link_result (s : State) (c : ResultCode) (d : Word) (i : LinkId) : (s.result c d).link i = s.link i := rfl
@[simp] theorem handle_result (s : State) (c : ResultCode) (d : Word) (i : HandleId) : (s.result c d).handle i = s.handle i := rfl
@[simp] theorem now_result (s : State) (c : ResultCode) (d : Word) : (s.result c d).now = s.now := rfl

@[simp] theorem pending_storeWord (s : State) (a : Nat) (w : Word) : (s.storeWord a w).pending = s.pending := rfl
@[simp] theorem slots_storeWord (s : State) (a : Nat) (w : Word) : (s.storeWord a w).slots = s.slots := rfl
@[simp] theorem store_storeWord (s : State) (a : Nat) (w : Word) : (s.storeWord a w).store = Cells.write unknownWord s.store a w := rfl
@[simp] theorem pool_storeWord (s : State) (a : Nat) (w : Word) : (s.storeWord a w).pool = s.pool := rfl
@[simp] theorem lastGranted_storeWord (s : State) (a : Nat) (w : Word) : (s.storeWord a w).lastGranted = s.lastGranted := rfl
@[simp] theorem ports_storeWord (s : State) (a : Nat) (w : Word) : (s.storeWord a w).ports = s.ports := rfl
@[simp] theorem cohorts_storeWord (s : State) (a : Nat) (w : Word) : (s.storeWord a w).cohorts = s.cohorts := rfl
@[simp] theorem schedule_storeWord (s : State) (a : Nat) (w : Word) : (s.storeWord a w).schedule = s.schedule := rfl
@[simp] theorem protectedWrite_storeWord (s : State) (a : Nat) (w : Word) : (s.storeWord a w).protectedWrite = s.protectedWrite := rfl
@[simp] theorem protectedEntry_storeWord (s : State) (a : Nat) (w : Word) : (s.storeWord a w).protectedEntry = s.protectedEntry := rfl
@[simp] theorem check_storeWord (s : State) (a : Nat) (w : Word) : (s.storeWord a w).check = s.check := rfl
@[simp] theorem links_storeWord (s : State) (a : Nat) (w : Word) : (s.storeWord a w).links = s.links := rfl
@[simp] theorem handles_storeWord (s : State) (a : Nat) (w : Word) : (s.storeWord a w).handles = s.handles := rfl
@[simp] theorem feed_storeWord (s : State) (a : Nat) (w : Word) : (s.storeWord a w).feed = s.feed := rfl
@[simp] theorem timebase_storeWord (s : State) (a : Nat) (w : Word) : (s.storeWord a w).timebase = s.timebase := rfl
@[simp] theorem events_storeWord (s : State) (a : Nat) (w : Word) : (s.storeWord a w).events = s.events := rfl
@[simp] theorem cmd_storeWord (s : State) (a : Nat) (w : Word) : (s.storeWord a w).cmd = s.cmd := rfl
@[simp] theorem slotSelect_storeWord (s : State) (a : Nat) (w : Word) : (s.storeWord a w).slotSelect = s.slotSelect := rfl
@[simp] theorem resetPhase_storeWord (s : State) (a : Nat) (w : Word) : (s.storeWord a w).resetPhase = s.resetPhase := rfl
@[simp] theorem readyPins_storeWord (s : State) (a : Nat) (w : Word) : (s.storeWord a w).readyPins = s.readyPins := rfl
@[simp] theorem busRead_storeWord (s : State) (a : Nat) (w : Word) : (s.storeWord a w).busRead = s.busRead := rfl
@[simp] theorem slot_storeWord (s : State) (a : Nat) (w : Word) (i : SlotId) : (s.storeWord a w).slot i = s.slot i := rfl
@[simp] theorem port_storeWord (s : State) (a : Nat) (w : Word) (i : PortId) : (s.storeWord a w).port i = s.port i := rfl
@[simp] theorem cohort_storeWord (s : State) (a : Nat) (w : Word) (i : CohortId) : (s.storeWord a w).cohort i = s.cohort i := rfl
@[simp] theorem link_storeWord (s : State) (a : Nat) (w : Word) (i : LinkId) : (s.storeWord a w).link i = s.link i := rfl
@[simp] theorem handle_storeWord (s : State) (a : Nat) (w : Word) (i : HandleId) : (s.storeWord a w).handle i = s.handle i := rfl
@[simp] theorem now_storeWord (s : State) (a : Nat) (w : Word) : (s.storeWord a w).now = s.now := rfl

@[simp] theorem pending_granted (s : State) (r : Fin 21) : (s.granted r).pending = s.pending := rfl
@[simp] theorem slots_granted (s : State) (r : Fin 21) : (s.granted r).slots = s.slots := rfl
@[simp] theorem store_granted (s : State) (r : Fin 21) : (s.granted r).store = s.store := rfl
@[simp] theorem pool_granted (s : State) (r : Fin 21) : (s.granted r).pool = s.pool := rfl
@[simp] theorem lastGranted_granted (s : State) (r : Fin 21) : (s.granted r).lastGranted = r := rfl
@[simp] theorem ports_granted (s : State) (r : Fin 21) : (s.granted r).ports = s.ports := rfl
@[simp] theorem cohorts_granted (s : State) (r : Fin 21) : (s.granted r).cohorts = s.cohorts := rfl
@[simp] theorem schedule_granted (s : State) (r : Fin 21) : (s.granted r).schedule = s.schedule := rfl
@[simp] theorem protectedWrite_granted (s : State) (r : Fin 21) : (s.granted r).protectedWrite = s.protectedWrite := rfl
@[simp] theorem protectedEntry_granted (s : State) (r : Fin 21) : (s.granted r).protectedEntry = s.protectedEntry := rfl
@[simp] theorem check_granted (s : State) (r : Fin 21) : (s.granted r).check = s.check := rfl
@[simp] theorem links_granted (s : State) (r : Fin 21) : (s.granted r).links = s.links := rfl
@[simp] theorem handles_granted (s : State) (r : Fin 21) : (s.granted r).handles = s.handles := rfl
@[simp] theorem feed_granted (s : State) (r : Fin 21) : (s.granted r).feed = s.feed := rfl
@[simp] theorem timebase_granted (s : State) (r : Fin 21) : (s.granted r).timebase = s.timebase := rfl
@[simp] theorem events_granted (s : State) (r : Fin 21) : (s.granted r).events = s.events := rfl
@[simp] theorem cmd_granted (s : State) (r : Fin 21) : (s.granted r).cmd = s.cmd := rfl
@[simp] theorem slotSelect_granted (s : State) (r : Fin 21) : (s.granted r).slotSelect = s.slotSelect := rfl
@[simp] theorem resetPhase_granted (s : State) (r : Fin 21) : (s.granted r).resetPhase = s.resetPhase := rfl
@[simp] theorem readyPins_granted (s : State) (r : Fin 21) : (s.granted r).readyPins = s.readyPins := rfl
@[simp] theorem busRead_granted (s : State) (r : Fin 21) : (s.granted r).busRead = s.busRead := rfl
@[simp] theorem slot_granted (s : State) (r : Fin 21) (i : SlotId) : (s.granted r).slot i = s.slot i := rfl
@[simp] theorem port_granted (s : State) (r : Fin 21) (i : PortId) : (s.granted r).port i = s.port i := rfl
@[simp] theorem cohort_granted (s : State) (r : Fin 21) (i : CohortId) : (s.granted r).cohort i = s.cohort i := rfl
@[simp] theorem link_granted (s : State) (r : Fin 21) (i : LinkId) : (s.granted r).link i = s.link i := rfl
@[simp] theorem handle_granted (s : State) (r : Fin 21) (i : HandleId) : (s.granted r).handle i = s.handle i := rfl
@[simp] theorem now_granted (s : State) (r : Fin 21) : (s.granted r).now = s.now := rfl

@[simp] theorem pending_startCommand (s : State) (l : LongCommand) : (s.startCommand l).pending = s.pending := rfl
@[simp] theorem slots_startCommand (s : State) (l : LongCommand) : (s.startCommand l).slots = s.slots := rfl
@[simp] theorem store_startCommand (s : State) (l : LongCommand) : (s.startCommand l).store = s.store := rfl
@[simp] theorem pool_startCommand (s : State) (l : LongCommand) : (s.startCommand l).pool = s.pool := rfl
@[simp] theorem lastGranted_startCommand (s : State) (l : LongCommand) : (s.startCommand l).lastGranted = s.lastGranted := rfl
@[simp] theorem ports_startCommand (s : State) (l : LongCommand) : (s.startCommand l).ports = s.ports := rfl
@[simp] theorem cohorts_startCommand (s : State) (l : LongCommand) : (s.startCommand l).cohorts = s.cohorts := rfl
@[simp] theorem schedule_startCommand (s : State) (l : LongCommand) : (s.startCommand l).schedule = s.schedule := rfl
@[simp] theorem protectedWrite_startCommand (s : State) (l : LongCommand) : (s.startCommand l).protectedWrite = s.protectedWrite := rfl
@[simp] theorem protectedEntry_startCommand (s : State) (l : LongCommand) : (s.startCommand l).protectedEntry = s.protectedEntry := rfl
@[simp] theorem check_startCommand (s : State) (l : LongCommand) : (s.startCommand l).check = s.check := rfl
@[simp] theorem links_startCommand (s : State) (l : LongCommand) : (s.startCommand l).links = s.links := rfl
@[simp] theorem handles_startCommand (s : State) (l : LongCommand) : (s.startCommand l).handles = s.handles := rfl
@[simp] theorem feed_startCommand (s : State) (l : LongCommand) : (s.startCommand l).feed = s.feed := rfl
@[simp] theorem timebase_startCommand (s : State) (l : LongCommand) : (s.startCommand l).timebase = s.timebase := rfl
@[simp] theorem events_startCommand (s : State) (l : LongCommand) : (s.startCommand l).events = s.events := rfl
@[simp] theorem slotSelect_startCommand (s : State) (l : LongCommand) : (s.startCommand l).slotSelect = s.slotSelect := rfl
@[simp] theorem resetPhase_startCommand (s : State) (l : LongCommand) : (s.startCommand l).resetPhase = s.resetPhase := rfl
@[simp] theorem readyPins_startCommand (s : State) (l : LongCommand) : (s.startCommand l).readyPins = s.readyPins := rfl
@[simp] theorem busRead_startCommand (s : State) (l : LongCommand) : (s.startCommand l).busRead = s.busRead := rfl
@[simp] theorem slot_startCommand (s : State) (l : LongCommand) (i : SlotId) : (s.startCommand l).slot i = s.slot i := rfl
@[simp] theorem port_startCommand (s : State) (l : LongCommand) (i : PortId) : (s.startCommand l).port i = s.port i := rfl
@[simp] theorem cohort_startCommand (s : State) (l : LongCommand) (i : CohortId) : (s.startCommand l).cohort i = s.cohort i := rfl
@[simp] theorem link_startCommand (s : State) (l : LongCommand) (i : LinkId) : (s.startCommand l).link i = s.link i := rfl
@[simp] theorem handle_startCommand (s : State) (l : LongCommand) (i : HandleId) : (s.startCommand l).handle i = s.handle i := rfl
@[simp] theorem now_startCommand (s : State) (l : LongCommand) : (s.startCommand l).now = s.now := rfl

/-- Reading a record of slots after one is replaced. -/
theorem slot_setSlot (s : State) (j : SlotId) (x : Slot) (i : SlotId) :
    (s.setSlot j x).slot i = if i = j then x else s.slot i := Table.get_put s.slots j i x

@[simp] theorem slot_setSlot_self (s : State) (j : SlotId) (x : Slot) : (s.setSlot j x).slot j = x := by
  simp [slot_setSlot]

/-- Reading a record of ports after one is replaced. -/
theorem port_setPort (s : State) (j : PortId) (x : Port) (i : PortId) :
    (s.setPort j x).port i = if i = j then x else s.port i := Table.get_put s.ports j i x

@[simp] theorem port_setPort_self (s : State) (j : PortId) (x : Port) : (s.setPort j x).port j = x := by
  simp [port_setPort]

/-- Reading a record of cohorts after one is replaced. -/
theorem cohort_setCohort (s : State) (j : CohortId) (x : Cohort) (i : CohortId) :
    (s.setCohort j x).cohort i = if i = j then x else s.cohort i := Table.get_put s.cohorts j i x

@[simp] theorem cohort_setCohort_self (s : State) (j : CohortId) (x : Cohort) : (s.setCohort j x).cohort j = x := by
  simp [cohort_setCohort]

/-- Reading a record of links after one is replaced. -/
theorem link_setLink (s : State) (j : LinkId) (x : Link) (i : LinkId) :
    (s.setLink j x).link i = if i = j then x else s.link i := Table.get_put s.links j i x

@[simp] theorem link_setLink_self (s : State) (j : LinkId) (x : Link) : (s.setLink j x).link j = x := by
  simp [link_setLink]

/-- Reading a record of handles after one is replaced. -/
theorem handle_setHandle (s : State) (j : HandleId) (x : Handle) (i : HandleId) :
    (s.setHandle j x).handle i = if i = j then x else s.handle i := Table.get_put s.handles j i x

@[simp] theorem handle_setHandle_self (s : State) (j : HandleId) (x : Handle) : (s.setHandle j x).handle j = x := by
  simp [handle_setHandle]

/-- What an offer does to the queue (R144). -/
theorem events_offer (s : State) (k : EventKind) (o : Nat) (a : Word) (r : BitVec 4) :
    (s.offer k o a r).events =
      s.events.take { kind := k, object := BitVec.ofNat 16 o, arg := a, reason := r, stamp := s.now } := rfl

/-- What the acceptance of a command that takes time does to the unit (R154). -/
theorem cmd_startCommand (s : State) (l : LongCommand) :
    (s.startCommand l).cmd =
      { s.cmd with state := .busy, running := some { command := l, args := s.cmd.args, began := s.now } } := rfl

end State
end Machine
end Sys2Proof
end

