-- ==== Sys2Proof/Laws/Bus.lean ====
section
/-! SUPPORT. What a host access is when it is taken at once, and when it is discarded (R158 to R160). -/

namespace Sys2Proof.Machine
namespace State

/-- Nothing held: no grant is needed before the access. -/
theorem endHeld_free (s : State) (n : Nat) (h : s.waitLine = false) : endHeld n s = .next s := by
  cases n <;> simp [endHeld, h]

theorem hostAccess_free (s : State) (act : State → State) (h : s.waitLine = false) : s.hostAccess act = .next (act s) := by
  simp [hostAccess, endHeld_free s _ h, Result.andThen]

/-- A host write out of reset with nothing held is its own act. -/
theorem hostWrite_free (s : State) (act : State → State) (h : s.hostFree) : s.hostWrite act = .next (act s) := by
  simp [hostWrite, h.1, hostAccess_free s act h.2]

/-- A host write during a reset is discarded (R158). -/
theorem hostWrite_reset (s : State) (act : State → State) (h : s.resetPhase ≠ .none) : s.hostWrite act = .next s := by
  unfold hostWrite; cases hp : s.resetPhase <;> simp_all

/-- A write of GLOBAL_CONTROL or EVENT_MASK with nothing held is its own act, during a reset too (R158). -/
theorem controlWrite_free (s : State) (act : State → State) (h : s.resetPhase ≠ .held) (hw : s.waitLine = false) :
    s.controlWrite act = .next (act s) := by
  unfold controlWrite; cases hp : s.resetPhase <;> simp_all [hostAccess_free]

theorem controlWrite_held (s : State) (act : State → State) (h : s.resetPhase = .held) : s.controlWrite act = .next s := by
  simp [controlWrite, h]

theorem hostRead_free (s : State) (act : State → State) (h : s.resetPhase ≠ .held) (hw : s.waitLine = false) :
    s.hostRead act = .next (act s) := by
  unfold hostRead; cases hp : s.resetPhase <;> simp_all [hostAccess_free]

/-- A trigger write to a unit that is IDLE (R152). -/
theorem trigger_idle (act : State → State) (s : State) (h : s.cmd.state = .idle) : trigger act s = act s := by
  simp [trigger, h]

/-- A trigger write to a unit that is BUSY (R152, R156). -/
theorem trigger_busy (act : State → State) (s : State) (h : s.cmd.state = .busy) :
    trigger act s = { s with cmd := { s.cmd with rejected := true } } := by
  simp [trigger, h]

/-- A trigger write out of reset, with nothing held and the unit IDLE, is its command's act. -/
theorem hostWrite_trigger (s : State) (act : State → State) (h : s.unitFree) :
    s.hostWrite (trigger act) = .next (act s) := by
  rw [hostWrite_free s _ h.1, trigger_idle act s h.2]

/-- An object number in its range is the object. -/
theorem objectArg_eq {n : Nat} (w : Word) (i : Fin n) (h : w.toNat = i.val) :
    objectArg n w = some i := by
  simp [objectArg, h]

end State
end Sys2Proof.Machine
end

