-- ==== Sys2Proof/Laws/Memory.lean ====
section
/-! SUPPORT. What a memory reads after a write, and that a write keeps the canonical form (Machine/Memory.lean), with the
three memories of the part. -/

namespace Sys2Proof
namespace Cells

variable {α : Type}

/-- A list that is rising above a bound is rising above a lower one. -/
theorem rising_lower {lo : Option Nat} {l : Nat} {m : Cells α} (h : rising (some l) m = true)
    (hl : ∀ k, lo = some k → k ≤ l) : rising lo m = true := by
  cases m with
  | nil => rfl
  | cons c m =>
    cases lo with
    | none => simp_all [rising]
    | some k => have := hl k rfl; simp_all [rising]; omega

/-- Nothing is listed at or below the bound of a rising list. -/
theorem listed_below {l a : Nat} {m : Cells α} (h : rising (some l) m = true) (ha : a ≤ l) : listed m a = none := by
  induction m generalizing l with
  | nil => rfl
  | cons c m ih =>
    obtain ⟨k, w⟩ := c
    simp only [rising, Bool.and_eq_true, decide_eq_true_eq] at h
    simp only [listed, if_neg (show a ≠ k by omega)]
    exact ih h.2 (by omega)

/-- What is listed after a placing. -/
theorem listed_place (m : Cells α) (a b : Nat) (v : α) : listed (place m a v) b = if b = a then some v else listed m b := by
  induction m with
  | nil => simp [place, listed]
  | cons c m ih =>
    obtain ⟨k, w⟩ := c
    simp only [place]
    split
    · simp [listed]
    · split
      · rename_i h; subst h; simp only [listed]; split <;> simp_all
      · simp only [listed, ih]; split <;> split <;> simp_all

/-- What is listed after a removal from a rising list. -/
theorem listed_remove {lo : Option Nat} (m : Cells α) (a b : Nat) (h : rising lo m = true) :
    listed (remove m a) b = if b = a then none else listed m b := by
  induction m generalizing lo with
  | nil => simp [remove, listed]
  | cons c m ih =>
    obtain ⟨k, w⟩ := c
    simp only [rising, Bool.and_eq_true] at h
    simp only [remove]
    split
    · rename_i hk; subst hk
      by_cases hb : b = a
      · subst hb; simp [listed_below h.2 (Nat.le_refl b)]
      · simp [listed, hb]
    · simp only [listed, ih h.2]; split <;> split <;> simp_all

/-- A read after a write: the written address has the value, every other reads as before. -/
theorem read_write [DecidableEq α] {lo : Option Nat} (d : Nat → Option α) (m : Cells α) (a b : Nat) (v : α)
    (h : rising lo m = true) : read d (write d m a v) b = if b = a then some v else read d m b := by
  by_cases hd : d a = some v
  · simp only [write, if_pos hd, read, listed_remove m a b h]
    by_cases hb : b = a
    · subst hb; simp [hd]
    · simp [hb]
  · simp only [write, if_neg hd, read, listed_place]
    by_cases hb : b = a <;> simp [hb]

/-- A placing keeps the list rising. -/
theorem rising_place {lo : Option Nat} (m : Cells α) (a : Nat) (v : α) (h : rising lo m = true)
    (ha : ∀ l, lo = some l → l < a) : rising lo (place m a v) = true := by
  induction m generalizing lo with
  | nil => cases lo <;> simp_all [place, rising]
  | cons c m ih =>
    obtain ⟨k, w⟩ := c
    simp only [rising, Bool.and_eq_true] at h
    simp only [place]
    split
    · cases lo <;> simp_all [rising]
    · split
      · rename_i hk; subst hk; simp_all [rising]
      · simp only [rising, Bool.and_eq_true]
        refine ⟨h.1, ih h.2 (fun l hl => ?_)⟩
        cases hl; omega

/-- A removal keeps the list rising. -/
theorem rising_remove {lo : Option Nat} (m : Cells α) (a : Nat) (h : rising lo m = true) : rising lo (remove m a) = true := by
  induction m generalizing lo with
  | nil => rfl
  | cons c m ih =>
    obtain ⟨k, w⟩ := c
    have h' := h
    simp only [rising, Bool.and_eq_true] at h
    simp only [remove]
    split
    · exact rising_lower h.2 (fun l hl => by subst hl; have := h.1; simp only [decide_eq_true_eq] at this; omega)
    · simp only [rising, Bool.and_eq_true]; exact ⟨h.1, ih h.2⟩

/-- A pair of a list after a placing is the placed one or was there. -/
theorem mem_place {m : Cells α} {a : Nat} {v : α} {c : Nat × α} (h : c ∈ place m a v) : c = (a, v) ∨ c ∈ m := by
  induction m with
  | nil => simpa [place] using h
  | cons x m ih =>
    obtain ⟨k, w⟩ := x
    simp only [place] at h
    split at h
    · simpa using h
    · split at h
      · rcases List.mem_cons.mp h with h | h
        · exact .inl h
        · exact .inr (List.mem_cons_of_mem _ h)
      · rcases List.mem_cons.mp h with h | h
        · exact .inr (h ▸ List.mem_cons_self ..)
        · exact (ih h).imp_right (List.mem_cons_of_mem _)

/-- A pair of a list after a removal was there. -/
theorem mem_remove {m : Cells α} {a : Nat} {c : Nat × α} (h : c ∈ remove m a) : c ∈ m := by
  induction m with
  | nil => exact h
  | cons x m ih =>
    obtain ⟨k, w⟩ := x
    simp only [remove] at h
    split at h
    · exact List.mem_cons_of_mem _ h
    · rcases List.mem_cons.mp h with h | h
      · exact h ▸ List.mem_cons_self ..
      · exact List.mem_cons_of_mem _ (ih h)

/-- A write keeps the canonical form. -/
theorem wf_write [DecidableEq α] {size : Nat} {d : Nat → Option α} {m : Cells α} {a : Nat} {v : α}
    (h : wf size d m = true) (ha : a < size) : wf size d (write d m a v) = true := by
  simp only [wf, Bool.and_eq_true, List.all_eq_true] at h ⊢
  unfold write
  split
  · exact ⟨rising_remove m a h.1, fun c hc => h.2 c (mem_remove hc)⟩
  · rename_i hd
    refine ⟨rising_place m a v h.1 (by simp), fun c hc => ?_⟩
    rcases mem_place hc with rfl | hc
    · simp [ha, hd]
    · exact h.2 c hc

/-- A memory in canonical form is rising. -/
theorem rising_of_wf [DecidableEq α] {size : Nat} {d : Nat → Option α} {m : Cells α} (h : wf size d m = true) :
    rising none m = true := by
  simp only [wf, Bool.and_eq_true] at h; exact h.1

/-- Two memories in canonical form that read alike everywhere list the same. -/
theorem listed_eq_of_read_eq [DecidableEq α] {size : Nat} {d : Nat → Option α} {m n : Cells α} (hm : wf size d m = true)
    (hn : wf size d n = true) (h : ∀ a, read d m a = read d n a) (a : Nat) : listed m a = listed n a := by
  have key : ∀ {l : Cells α} {b : Nat} {v : α}, wf size d l = true → listed l b = some v → d b ≠ some v := by
    intro l b v hl hb
    simp only [wf, Bool.and_eq_true, List.all_eq_true] at hl
    have hmem : (b, v) ∈ l := by
      clear hl
      induction l with
      | nil => simp [listed] at hb
      | cons c l ih =>
        obtain ⟨k, w⟩ := c
        simp only [listed] at hb
        split at hb
        · rename_i hk; cases hb; subst hk; exact List.mem_cons_self ..
        · exact List.mem_cons_of_mem _ (ih hb)
    have := hl.2 _ hmem
    simp only [decide_eq_true_eq] at this
    exact this.2
  have ha := h a
  simp only [read] at ha
  rcases h1 : listed m a with _ | v <;> rcases h2 : listed n a with _ | w <;> rw [h1, h2] at ha
  · exact absurd ha (key hn h2)
  · exact absurd ha.symm (key hm h1)
  · exact ha

end Cells

namespace Machine

/-- NEXT of a page after NEXT of one page is written. -/
theorem Pool.nextOf_setNext (q : Pool) (p r : PageId) (n : Option PageId) (h : Cells.rising none q.next = true) :
    (q.setNext p n).nextOf r = if r = p then n else q.nextOf r := by
  unfold Pool.nextOf Pool.setNext
  rw [Cells.read_write _ _ _ _ _ h]
  by_cases hr : r = p
  · subst hr; simp
  · have : r.val ≠ p.val := fun e => hr (Fin.ext e)
    simp [hr, this]

/-- A write of NEXT keeps the page link table in canonical form. -/
theorem Pool.wf_setNext (q : Pool) (p : PageId) (n : Option PageId) (h : Cells.wf Config.pages rebuiltNext q.next = true) :
    Cells.wf Config.pages rebuiltNext (q.setNext p n).next = true :=
  Cells.wf_write h p.isLt

/-- A linked page keeps the page link table in canonical form. -/
theorem Pool.wf_linkPage (q : Pool) (p : PageId) (h : Cells.wf Config.pages rebuiltNext q.next = true) :
    Cells.wf Config.pages rebuiltNext (q.linkPage p).next = true := by
  unfold Pool.linkPage
  cases q.tail with
  | none => exact Pool.wf_setNext _ p none h
  | some t => exact Pool.wf_setNext _ p none (Pool.wf_setNext q t (some p) h)

/-- An appended chain keeps the page link table in canonical form. -/
theorem Pool.wf_appendChain (q : Pool) (f : PageId) (n : Nat) (h : Cells.wf Config.pages rebuiltNext q.next = true) :
    Cells.wf Config.pages rebuiltNext (q.appendChain f n).next = true := by
  unfold Pool.appendChain
  cases q.tail with
  | none => exact h
  | some t => exact Pool.wf_setNext q t (some f) h

/-- A store address is below the size of the store (R25, R32). -/
theorem State.wordAddress_lt (s : State) (i : SlotId) (g : GenId) (w a : Nat) (h : s.wordAddress i g w = some a) :
    a < Config.storeWords := by
  unfold State.wordAddress at h
  split at h
  · simp at h
  · split at h
    · simp at h
    · rename_i p _
      simp only [Option.some.injEq] at h
      have := p.isLt
      simp only [Config.pageWords, Config.storeWords] at *
      omega

/-- The store after a word is written: that address has it, every other reads as before. -/
theorem State.read_storeWord (s : State) (a b : Nat) (w : Word) (h : Cells.rising none s.store = true) :
    Cells.read unknownWord (s.storeWord a w).store b = if b = a then some w else Cells.read unknownWord s.store b :=
  Cells.read_write _ _ _ _ _ h

/-- The store after a word is written: that address reads as the word, every other as before. -/
theorem State.readStore_storeWord (s : State) (a b : Nat) (w : Word) :
    (s.storeWord a w).readStore b = if b = a then w else s.readStore b := by
  have h : Cells.read unknownWord (s.storeWord a w).store b = if b = a then some w else Cells.read unknownWord s.store b := by
    show Cells.read unknownWord (Cells.place s.store a w) b = _
    simp only [Cells.read, Cells.listed_place]
    by_cases hb : b = a <;> simp [hb]
  unfold State.readStore
  rw [h]; split <;> rfl

/-- A written store word keeps the store in canonical form. -/
theorem State.wf_storeWord (s : State) (a : Nat) (w : Word) (h : Cells.wf Config.storeWords unknownWord s.store = true)
    (ha : a < Config.storeWords) : Cells.wf Config.storeWords unknownWord (s.storeWord a w).store = true :=
  Cells.wf_write h ha

/-- A schedule write keeps the schedule memory in canonical form. -/
theorem wf_scheduleWrite (m : Cells Word) (e : EntryId) (second : Bool) (v : Word)
    (h : Cells.wf 2048 clearedWord m = true) :
    Cells.wf 2048 clearedWord (Cells.write clearedWord m (2 * e.val + second.toNat) v) = true :=
  Cells.wf_write h (by have := e.isLt; cases second <;> simp <;> omega)

/-- The three memories of the reset state list nothing. -/
theorem memoriesWf_reset : State.reset.memoriesWf = true := rfl

/-! ### The free list and the chains (chapter 2) -/

/-- A chain is the same in two pools that agree on NEXT of its pages. -/
theorem linkedList_congr {q r : Pool} : ∀ {h : Option PageId} {l : List PageId}, (∀ p ∈ l, r.nextOf p = q.nextOf p) →
    linkedList q h l → linkedList r h l
  | _, [], _, hl => hl
  | _, p :: l, e, hl => ⟨hl.1, by
      rw [e p List.mem_cons_self]
      exact linkedList_congr (fun x hx => e x (List.mem_cons_of_mem _ hx)) hl.2⟩

/-- The pages that follow a start are determined by it. -/
theorem linkedList_unique {q : Pool} : ∀ {h : Option PageId} {l m : List PageId}, linkedList q h l → linkedList q h m → l = m
  | _, [], [], _, _ => rfl
  | _, [], p :: m, hl, hm => by simp_all [linkedList]
  | _, p :: l, [], hl, hm => by simp_all [linkedList]
  | h, p :: l, p' :: m, hl, hm => by
    have e : p = p' := Option.some.inj (hl.1.symm.trans hm.1)
    subst e; rw [linkedList_unique hl.2 hm.2]

/-- The last page of a chain is where the walk ends. -/
theorem linkedList_lastPage {q : Pool} : ∀ {p : PageId} {l : List PageId} {fuel : Nat}, linkedList q (some p) (p :: l) →
    l.length ≤ fuel → (p :: l).getLast? = some (q.lastPage p fuel)
  | p, [], 0, _, _ => rfl
  | p, [], fuel + 1, h, _ => by
    have : q.nextOf p = none := h.2
    simp [Pool.lastPage, this]
  | p, r :: l, 0, _, hf => by simp at hf
  | p, r :: l, fuel + 1, h, hf => by
    have hr : q.nextOf p = some r := h.2.1
    have ih := linkedList_lastPage (q := q) (p := r) (l := l) (fuel := fuel) (hr ▸ h.2) (by simpa using hf)
    simp only [Pool.lastPage, hr]
    rw [List.getLast?_cons_cons]; exact ih

/-- A chain joined behind another: NEXT of the first one's last page leads to the second. -/
theorem linkedList_join {q r : Pool} {c : List PageId} {f : Option PageId} (hc : linkedList r f c) :
    ∀ {h : Option PageId} {l : List PageId} {t : PageId}, linkedList q h l → l.getLast? = some t → l.Nodup →
      r.nextOf t = f → (∀ p ∈ l, p ≠ t → r.nextOf p = q.nextOf p) → linkedList r h (l ++ c)
  | _, [], _, _, ht, _, _, _ => by simp at ht
  | _, [p], t, hl, ht, _, hf, _ => by
    have : p = t := by simpa using ht
    subst this
    exact ⟨hl.1, by rw [hf]; exact hc⟩
  | _, p :: p' :: l, t, hl, ht, hd, hf, e => by
    have hne : p ≠ t := by
      rintro rfl
      rw [List.getLast?_cons_cons] at ht
      exact (List.nodup_cons.mp hd).1 (List.mem_of_getLast? ht)
    refine ⟨hl.1, ?_⟩
    rw [e p List.mem_cons_self hne]
    exact linkedList_join hc (l := p' :: l) hl.2 (by rwa [List.getLast?_cons_cons] at ht) (List.nodup_cons.mp hd).2 hf
      (fun x hx => e x (List.mem_cons_of_mem _ hx))

/-- A chain that joins the free list stands behind the pages it held (R30). -/
theorem Pool.freeList_appendChain {q : Pool} {l c : List PageId} {f : PageId} (hw : Cells.rising none q.next = true)
    (hl : freeList q l) (hc : linkedList q (some f) c) (hd : (l ++ c).Nodup) :
    freeList (q.appendChain f c.length) (l ++ c) := by
  obtain ⟨hh, ht, hn⟩ := hl
  have hlen : c.length ≤ 2048 := by
    simpa [PageId] using (List.nodup_append.mp hd).2.1.length_le_card
  match c, hc with
  | [], hc => exact absurd hc (by simp [linkedList])
  | p :: c, hc =>
    have hp : p = f := Option.some.inj hc.1.symm
    subst hp
    have hlast := linkedList_lastPage (fuel := Config.pages) hc (by simp [Config.pages] at hlen ⊢; omega)
    match hq : q.tail with
    | none =>
      have hl' : l = [] := by rw [hq] at ht; exact List.getLast?_eq_none_iff.mp ht.symm
      subst hl'
      refine ⟨?_, ?_, ?_⟩
      · rw [List.nil_append, show (q.appendChain p (p :: c).length).head = some p by simp [Pool.appendChain, hq]]
        exact linkedList_congr (q := q) (fun r _ => by simp [Pool.appendChain, hq, Pool.nextOf]) hc
      · simp only [Pool.appendChain, List.nil_append]; exact hlast.symm
      · simp [Pool.appendChain, hq, hn]
    | some t =>
      rw [hq] at ht
      have hmem : t ∈ l := List.mem_of_getLast? ht.symm
      have hnext : ∀ r, (q.appendChain p (p :: c).length).nextOf r = if r = t then some p else q.nextOf r := by
        intro r
        have := Pool.nextOf_setNext q t r (some p) hw
        simpa [Pool.appendChain, hq, Pool.nextOf] using this
      have hc' : linkedList (q.appendChain p (p :: c).length) (some p) (p :: c) := by
        refine linkedList_congr (fun r hr => ?_) hc
        have : r ≠ t := fun e => (List.nodup_append.mp hd).2.2 t hmem r hr e.symm
        rw [hnext, if_neg this]
      have hhead : (q.appendChain p (p :: c).length).head = q.head := by simp [Pool.appendChain, hq, Pool.setNext]
      refine ⟨?_, ?_, ?_⟩
      · rw [hhead]
        exact linkedList_join hc' hh ht.symm (List.nodup_append.mp hd).1 (by rw [hnext, if_pos rfl])
          (fun x _ hx => by rw [hnext, if_neg hx])
      · rw [List.getLast?_append, hlast]; rfl
      · simp [Pool.appendChain, hq, Pool.setNext, hn]

/-- Pages in ascending order from a page to the last one, where each one's NEXT is the next page and the last one's is END. -/
theorem linkedList_ascending {q : Pool} (b : Nat)
    (hn : ∀ p p' : PageId, b ≤ p.val → p.val + 1 = p'.val → q.nextOf p = some p')
    (he : ∀ p : PageId, p.val = 2047 → q.nextOf p = none) : ∀ (l : List PageId) (k : PageId), b ≤ k.val →
      l.length = 2047 - k.val → (∀ n (h : n < l.length), l[n].val = k.val + 1 + n) → linkedList q (some k) (k :: l)
  | [], k, _, hl, _ => ⟨rfl, he k (by have := k.isLt; simp at hl; omega)⟩
  | p :: l, k, hb, hl, h => by
    have hp : p.val = k.val + 1 := h 0 (by simp)
    refine ⟨rfl, ?_⟩
    rw [hn k p hb hp.symm]
    refine linkedList_ascending b hn he l p (by omega) (by simp at hl; omega) (fun n hn' => ?_)
    have := h (n + 1) (by simpa using hn')
    simp only [List.getElem_cons_succ] at this
    omega

/-- A pool whose NEXT runs in ascending order from HEAD to the last page has those pages on its free list. -/
theorem freeList_drop {q : Pool} (k : PageId) (hh : q.head = some k) (ht : q.tail = some ⟨2047, by decide⟩)
    (hc : q.count = 2048 - k.val) (hn : ∀ p p' : PageId, k.val ≤ p.val → p.val + 1 = p'.val → q.nextOf p = some p')
    (he : ∀ p : PageId, p.val = 2047 → q.nextOf p = none) : freeList q ((List.finRange 2048).drop k.val) := by
  have hk := k.isLt
  have hlen : ((List.finRange 2048).drop k.val).length = 2048 - k.val := by rw [List.length_drop, List.length_finRange]
  have hget : ∀ n (h : n < ((List.finRange 2048).drop k.val).length),
      (((List.finRange 2048).drop k.val)[n] : PageId).val = k.val + n := fun n h => by
    rw [List.getElem_drop, List.getElem_finRange]; rfl
  have hlast : ((List.finRange 2048).drop k.val).getLast? = some ⟨2047, by decide⟩ := by
    rw [List.getLast?_eq_getElem?, List.getElem?_eq_getElem (by omega)]
    exact congrArg some (Fin.ext (by rw [hget]; show _ = 2047; omega))
  refine ⟨?_, ht.trans hlast.symm, hc.trans hlen.symm⟩
  rw [hh]
  generalize ((List.finRange 2048).drop k.val : List PageId) = l at hlen hget
  match l with
  | [] => simp at hlen; omega
  | p :: l =>
    obtain rfl : p = k := Fin.ext (hget 0 (by simp))
    refine linkedList_ascending p.val hn he l p (Nat.le_refl _) (by simp at hlen; omega) (fun n hn' => ?_)
    have := hget (n + 1) (by simpa using hn')
    simp only [List.getElem_cons_succ] at this
    omega

/-- A rebuilt pool's free list holds every page in ascending order (R27). -/
theorem freeList_of_linkedUpTo {q : Pool} (h : State.linkedUpTo q 2048) : freeList q (List.finRange 2048) := by
  have := freeList_drop (q := q) ⟨0, by decide⟩ ((h.2.2 ⟨0, by decide⟩).1 rfl (by decide))
    ((h.2.2 ⟨2047, by decide⟩).2.1 rfl).1 h.1 (fun p p' _ e => (h.2.2 p).2.2 p' e p'.isLt)
    (fun p e => ((h.2.2 p).2.1 (by omega)).2)
  rwa [List.drop_zero] at this

end Machine
end Sys2Proof
end

