-- ==== Sys2Proof/Laws/Ops.lean ====
section
/-! SUPPORT. What the shared operations of Machine/Ops.lean, Capture.lean, Frames.lean and Slots.lean can change: for each,
the state after it is the state before with the named fields alone replaced (op_only), and what it does to the records it
does not name. -/

namespace Sys2Proof.Machine

/-- A relation that holds of each step of a fold, and of no step and two steps, holds of the fold. -/
theorem foldl_rel {α β : Type} (R : β → β → Prop) (f : β → α → β) (refl : ∀ s, R s s)
    (trans : ∀ s t u, R s t → R t u → R s u) (hf : ∀ t x, R t (f t x)) (l : List α) (s : β) : R s (l.foldl f s) := by
  induction l generalizing s with
  | nil => exact refl s
  | cons x l ih => exact trans _ _ _ (hf s x) (ih _)

/-- A property that each step of a fold keeps holds after the fold. -/
theorem foldl_keeps {α β : Type} (P : β → Prop) (f : β → α → β) (l : List α) (hf : ∀ t, ∀ x ∈ l, P t → P (f t x)) (s : β)
    (h : P s) : P (l.foldl f s) := by
  induction l generalizing s with
  | nil => exact h
  | cons x l ih =>
    exact ih (fun t y hy => hf t y (List.mem_cons_of_mem _ hy)) _ (hf s x (List.mem_cons_self ..) h)

/-- A fold that writes each table entry at most from itself leaves an entry its list does not name. -/
theorem foldl_get {α β γ : Type} (get : β → γ) (f : β → α → β) (l : List α) (hf : ∀ t, ∀ x ∈ l, get (f t x) = get t)
    (s : β) : get (l.foldl f s) = get s :=
  foldl_keeps (fun t => get t = get s) f l (fun t x hx h => (hf t x hx).trans h) s rfl

/-- A fold of acts that each change one slot, by what that slot holds: the slot of an element of the list, whose slots are
distinct, is as that element's act alone leaves it. -/
theorem foldl_slot {α : Type} (key : α → SlotId) (f : State → α → State)
    (other : ∀ t x j, j ≠ key x → (f t x).slot j = t.slot j)
    (here : ∀ t u x, t.slot (key x) = u.slot (key x) → (f t x).slot (key x) = (f u x).slot (key x))
    (l : List α) (hn : (l.map key).Nodup) (x : α) (hx : x ∈ l) (s : State) :
    (l.foldl f s).slot (key x) = (f s x).slot (key x) := by
  induction l generalizing s with
  | nil => simp at hx
  | cons a l ih =>
    rw [List.map_cons, List.nodup_cons] at hn
    rw [List.foldl_cons]
    rcases List.mem_cons.mp hx with rfl | hx
    · exact foldl_get (fun u : State => u.slot (key x)) f l
        (fun u y hy => other u y _ (fun e => hn.1 (e ▸ List.mem_map_of_mem hy))) _
    · rw [ih hn.2 hx]
      exact here _ _ _ (other s a _ (fun e => hn.1 (e ▸ List.mem_map_of_mem hx)))

/-! ### The event queue -/

/-- The queue after a taken record holds at most its places and at most 255 in LOST, if it did before (R144, R145). -/
theorem EventQueue.take_bounds (q : EventQueue) (r : EventRecord) (h : q.records.length ≤ Config.queueDepth)
    (hl : q.lost ≤ 255) : (q.take r).records.length ≤ Config.queueDepth ∧ (q.take r).lost ≤ 255 := by
  unfold EventQueue.take
  split
  · split
    · simp only [List.length_append, List.length_cons, List.length_nil]; omega
    · simp only [saturate]; omega
  · exact ⟨h, hl⟩

/-- A taken record leaves MASK and IRQ_ENABLE. -/
theorem EventQueue.take_keeps (q : EventQueue) (r : EventRecord) :
    (q.take r).mask = q.mask ∧ (q.take r).irqEnable = q.irqEnable := by
  unfold EventQueue.take; split <;> (try split) <;> exact ⟨rfl, rfl⟩

/-- A masked record leaves the queue as it is (R144). -/
theorem EventQueue.take_masked (q : EventQueue) (r : EventRecord) (h : q.enables r.kind = false) : q.take r = q := by
  simp [EventQueue.take, h]

theorem EventQueue.takeAll_nil (q : EventQueue) : q.takeAll [] = q := rfl

theorem EventQueue.takeAll_cons (q : EventQueue) (r : EventRecord) (l : List EventRecord) :
    q.takeAll (r :: l) = (q.take r).takeAll l := rfl

theorem EventQueue.takeAll_append (q : EventQueue) (l m : List EventRecord) :
    q.takeAll (l ++ m) = (q.takeAll l).takeAll m := List.foldl_append

namespace State

/-- An offer changes the queue alone (R144). -/
theorem offer_only (s : State) (k : EventKind) (o : Nat) (a : Word) (r : BitVec 4) :
    s.offer k o a r = { s with events := s.events.take (s.record k o a r) } := rfl

/-- A result changes the unit alone (R153). -/
theorem result_only (s : State) (c : ResultCode) (d : Word) : s.result c d = { s with cmd := s.withResult c d } := rfl

/-! ### The slot table and the cohorts -/

/-- Where a generation is SEALED and no other is, it is the slot's SEALED generation. -/
theorem sealedGen_some (x : Slot) (o : GenId) (ho : (x.gen o).state = .sealed)
    (hu : ∀ a b, (x.gen a).state = .sealed → (x.gen b).state = .sealed → a = b) : x.sealedGen = some o := by
  unfold Slot.sealedGen
  cases h : List.find? (fun g => decide ((x.gen g).state = .sealed)) allGens with
  | none =>
    rw [List.find?_eq_none] at h
    exact absurd (by simpa using ho) (h o (by fin_cases o <;> simp [allGens]))
  | some g =>
    have := List.find?_some h
    rw [hu g o (by simpa using this) ho]

/-- A slot without a SEALED generation. -/
theorem sealedGen_none (x : Slot) (h : ∀ o, (x.gen o).state ≠ .sealed) : x.sealedGen = none := by
  unfold Slot.sealedGen
  rw [List.find?_eq_none]
  exact fun g _ => by simpa using h g

/-- The SEALED generation that a slot names is one. -/
theorem sealedGen_spec (x : Slot) (o : GenId) (h : x.sealedGen = some o) : (x.gen o).state = .sealed := by
  simpa using List.find?_some h

/-- The same of the FILLING generation. -/
theorem fillingGen_spec (x : Slot) (o : GenId) (h : x.fillingGen = some o) : (x.gen o).state = .filling := by
  simpa using List.find?_some h

/-- A slot is unpinned when no generation of it has a pin (R20). -/
theorem unpinned_iff (x : Slot) : x.unpinned = true ↔ ∀ g, (x.gen g).pins = 0 := by
  simp only [Slot.unpinned, List.all_eq_true, decide_eq_true_eq]
  exact ⟨fun h g => h g (by fin_cases g <;> simp [allGens]), fun h g _ => h g⟩

/-- An abandon changes one slot and the queue (R9). -/
theorem abandon_only (s : State) (i : SlotId) (g : GenId) (w : AbandonReason) :
    s.abandon i g w = { s with slots := (s.abandon i g w).slots, events := (s.abandon i g w).events } := by
  unfold abandon; split <;> rfl

theorem abandon_other (s : State) (i j : SlotId) (g : GenId) (w : AbandonReason) (h : j ≠ i) :
    (s.abandon i g w).slot j = s.slot j := by
  unfold abandon; split
  · show (s.setSlot i _).slot j = _; rw [slot_setSlot, if_neg h]
  · rfl

/-- An abandon of a FILLING generation (R9). -/
theorem abandon_filling (s : State) (i : SlotId) (g : GenId) (w : AbandonReason)
    (h : ((s.slot i).gen g).state = .filling) :
    s.abandon i g w = (s.setSlot i ((s.slot i).abandoned g)).offer .genAbandoned i.val
      (BitVec.ofNat 32 ((s.slot i).gen g).words) w.value := if_pos h

/-- A dropped seal changes one slot and the queue (R8, R18). -/
theorem dropSeal_only (s : State) (i : SlotId) (w : AbandonReason) :
    s.dropSeal i w = { s with slots := (s.dropSeal i w).slots, events := (s.dropSeal i w).events } := by
  unfold dropSeal; split <;> rfl

theorem dropSeal_other (s : State) (i j : SlotId) (w : AbandonReason) (h : j ≠ i) :
    (s.dropSeal i w).slot j = s.slot j := by
  unfold dropSeal; split
  · rfl
  · show (s.setSlot i _).slot j = _; rw [slot_setSlot, if_neg h]

/-- A published seal changes one slot (R8). -/
theorem publishSeal_only (s : State) (i : SlotId) (e : BitVec 16) (b : Bool) :
    s.publishSeal i e b = { s with slots := (s.publishSeal i e b).slots } := by
  unfold publishSeal; split <;> rfl

theorem publishSeal_other (s : State) (i j : SlotId) (e : BitVec 16) (b : Bool) (h : j ≠ i) :
    (s.publishSeal i e b).slot j = s.slot j := by
  unfold publishSeal; split
  · rfl
  · rw [slot_setSlot, if_neg h]

/-- The publish of a set of seals changes slots alone (R60, R62). -/
theorem publishSeals_only (s : State) (set : BitVec 32) (e : BitVec 16) (b : Bool) :
    s.publishSeals set e b = { s with slots := (s.publishSeals set e b).slots } := by
  refine foldl_rel (fun s t : State => t = { s with slots := t.slots }) _ (fun _ => rfl)
    (fun s t u h1 h2 => ?_) (fun t i => ?_) allSlots s
  · rw [h2, h1]
  · split
    · exact publishSeal_only ..
    · rfl

/-- A slot outside the set is left as it is. -/
theorem publishSeals_other (s : State) (set : BitVec 32) (e : BitVec 16) (b : Bool) (j : SlotId)
    (h : set.getLsbD j.val = false) : (s.publishSeals set e b).slot j = s.slot j := by
  refine foldl_get (fun t : State => t.slot j) _ allSlots (fun t i _ => ?_) s
  by_cases hi : set.getLsbD i.val = true
  · rw [if_pos hi]
    exact publishSeal_other _ _ _ _ _ (fun e => by subst e; exact absurd hi (by rw [h]; decide))
  · rw [if_neg hi]

/-- A slot of the set is as its own publish leaves it. -/
theorem publishSeals_slot (s : State) (set : BitVec 32) (e : BitVec 16) (b : Bool) (j : SlotId)
    (h : set.getLsbD j.val = true) : (s.publishSeals set e b).slot j = (s.publishSeal j e b).slot j := by
  have key := foldl_slot (fun i : SlotId => i)
    (fun t i => if set.getLsbD i.val then t.publishSeal i e b else t)
    (fun t i j hj => by
      show (if set.getLsbD i.val then t.publishSeal i e b else t).slot j = t.slot j
      split
      · exact publishSeal_other _ _ _ _ _ hj
      · rfl)
    (fun t u i hi => by
      show (if set.getLsbD i.val then t.publishSeal i e b else t).slot i =
        (if set.getLsbD i.val then u.publishSeal i e b else u).slot i
      change t.slot i = u.slot i at hi
      split
      · unfold publishSeal; rw [hi]; cases (u.slot i).sealedGen <;> simp [hi]
      · exact hi)
    allSlots (by rw [List.map_id']; exact List.nodup_finRange 32) j (List.mem_finRange j) s
  rw [if_pos h] at key
  exact key

/-- The discard of a set of seals changes slots and the queue (R63). -/
theorem discardSeals_only (s : State) (set : BitVec 32) :
    s.discardSeals set = { s with slots := (s.discardSeals set).slots, events := (s.discardSeals set).events } := by
  refine foldl_rel (fun s t : State => t = { s with slots := t.slots, events := t.events }) _ (fun _ => rfl)
    (fun s t u h1 h2 => ?_) (fun t i => ?_) allSlots s
  · rw [h2, h1]
  · split
    · exact dropSeal_only ..
    · rfl

/-- A slot outside the set is left as it is. -/
theorem discardSeals_other (s : State) (set : BitVec 32) (j : SlotId) (h : set.getLsbD j.val = false) :
    (s.discardSeals set).slot j = s.slot j := by
  refine foldl_get (fun t : State => t.slot j) _ allSlots (fun t i _ => ?_) s
  by_cases hi : set.getLsbD i.val = true
  · rw [if_pos hi]
    exact dropSeal_other _ _ _ _ (fun e => by subst e; exact absurd hi (by rw [h]; decide))
  · rw [if_neg hi]

/-- A full publish changes slots, its cohort and the queue (R60). -/
theorem fullPublish_only (s : State) (c : CohortId) :
    s.fullPublish c = { s with
      slots := (s.fullPublish c).slots, cohorts := (s.fullPublish c).cohorts, events := (s.fullPublish c).events } := by
  unfold fullPublish
  simp only []
  rw [publishSeals_only]
  rfl

/-- A full publish leaves its cohort OPEN, with no seal and the next epoch (R60). -/
theorem fullPublish_cohort (s : State) (c d : CohortId) :
    (s.fullPublish c).cohort d = if d = c then
      { s.cohort c with sealed := 0, epoch := nextEpochAfter (s.cohort c).epoch, state := .idle } else s.cohort d := by
  unfold fullPublish
  simp only []
  rw [publishSeals_only]
  simp only [cohort_offer, cohort_setCohort]
  rfl

/-- The report of a seal changes slots, its cohort and the queue (R57 to R59). -/
theorem sealReport_only (s : State) (c : CohortId) (i : SlotId) (b : Bool) :
    s.sealReport c i b = { s with
      slots := (s.sealReport c i b).slots, cohorts := (s.sealReport c i b).cohorts,
      events := (s.sealReport c i b).events } := by
  unfold sealReport
  simp only []
  split
  · split
    · rw [fullPublish_only]; rfl
    · rfl
  · split
    · rfl
    · split
      · rw [fullPublish_only]; rfl
      · rfl

/-- Another cohort is left as it is. -/
theorem sealReport_other (s : State) (c d : CohortId) (i : SlotId) (b : Bool) (h : d ≠ c) :
    (s.sealReport c i b).cohort d = s.cohort d := by
  unfold sealReport
  simp only []
  split
  · split
    · rw [fullPublish_cohort, if_neg h, cohort_setCohort, if_neg h]
    · rw [cohort_setCohort, if_neg h]
  · split
    · rfl
    · split
      · rw [fullPublish_cohort, if_neg h, cohort_setCohort, if_neg h]
      · rw [cohort_setCohort, if_neg h]

/-- A departure changes slots, its cohort and the queue (R64). -/
theorem depart_only (s : State) (c : CohortId) (i : SlotId) :
    s.depart c i = { s with
      slots := (s.depart c i).slots, cohorts := (s.depart c i).cohorts, events := (s.depart c i).events } := by
  unfold depart
  simp only []
  split
  · rfl
  · split
    · rfl
    · split
      · rw [fullPublish_only]; rfl
      · rfl

/-- A completion changes slots, cohorts and the queue (R6, R7). -/
theorem complete_only (s : State) (i : SlotId) (g : GenId) (n : Nat) :
    s.complete i g n = { s with
      slots := (s.complete i g n).slots, cohorts := (s.complete i g n).cohorts, events := (s.complete i g n).events } := by
  unfold complete
  simp only []
  split
  · split
    · rfl
    · unfold sealGen
      simp only []
      split <;> rw [sealReport_only] <;> rfl
  · rfl

/-- A completion in a slot without a cohort changes that slot alone (R6). -/
theorem complete_publish (s : State) (i : SlotId) (g : GenId) (n : Nat) (h : ((s.slot i).gen g).state = .filling)
    (hc : (s.slot i).cohort = none) :
    s.complete i g n =
      s.setSlot i ((s.slot i).published g ((s.slot i).completed ((s.slot i).gen g) n) 0 false) := by
  simp [complete, h, hc]

/-- A writer-target request changes one slot and the queue (R4, R5). -/
theorem requestTarget_only (s : State) (i : SlotId) (t : Tick) (b : BitVec 8) :
    s.requestTarget i t b = { s with slots := (s.requestTarget i t b).slots, events := (s.requestTarget i t b).events } := by
  unfold requestTarget; simp only []; split <;> rfl

theorem requestTarget_other (s : State) (i j : SlotId) (t : Tick) (b : BitVec 8) (h : j ≠ i) :
    (s.requestTarget i t b).slot j = s.slot j := by
  unfold requestTarget; simp only []; split
  · rw [slot_setSlot, if_neg h]
  · show (s.setSlot i _).slot j = _; rw [slot_setSlot, if_neg h]

/-- A granted pin changes one slot (R10). -/
theorem addPin_only (s : State) (i : SlotId) (g : GenId) : s.addPin i g = { s with slots := (s.addPin i g).slots } := rfl

/-! ### Drains and releases -/

/-- The forgetting of a slot changes the links alone (R20). -/
theorem forgetSlot_only (s : State) (i : SlotId) : s.forgetSlot i = { s with links := (s.forgetSlot i).links } := by
  refine foldl_rel (fun s t : State => t = { s with links := t.links }) _ (fun _ => rfl)
    (fun s t u h1 h2 => ?_) (fun _ _ => rfl) allLinks s
  rw [h2, h1]

/-- The return of one chain changes its slot and the pool (R30). -/
theorem returnChain_only (s : State) (i : SlotId) (g : GenId) :
    s.returnChain i g = { s with slots := (s.returnChain i g).slots, pool := (s.returnChain i g).pool } := by
  unfold returnChain; simp only []; split <;> rfl

theorem returnChain_other (s : State) (i j : SlotId) (g : GenId) (h : j ≠ i) : (s.returnChain i g).slot j = s.slot j := by
  unfold returnChain; simp only []; split
  · rfl
  · rw [slot_setSlot, if_neg h, slot_setPool]

/-- The return of a slot's chains changes that slot and the pool (R30). -/
theorem returnChains_only (s : State) (i : SlotId) :
    s.returnChains i = { s with slots := (s.returnChains i).slots, pool := (s.returnChains i).pool } := by
  refine foldl_rel (fun s t : State => t = { s with slots := t.slots, pool := t.pool }) _ (fun _ => rfl)
    (fun s t u h1 h2 => ?_) (fun t g => ?_) allGens s
  · rw [h2, h1]
  · split
    · exact returnChain_only ..
    · rfl

theorem returnChains_other (s : State) (i j : SlotId) (h : j ≠ i) : (s.returnChains i).slot j = s.slot j := by
  refine foldl_get (fun t : State => t.slot j) _ allGens (fun t g _ => ?_) s
  split
  · exact returnChain_other _ _ _ _ h
  · rfl

/-- The end of a drain changes its slot, the pool, the links and the queue (R20). -/
theorem drainEnd_only (s : State) (i : SlotId) :
    s.drainEnd i = { s with
      slots := (s.drainEnd i).slots, pool := (s.drainEnd i).pool, links := (s.drainEnd i).links,
      events := (s.drainEnd i).events } := by
  unfold drainEnd
  simp only []
  rw [forgetSlot_only, returnChains_only]
  rfl

theorem drainEnd_other (s : State) (i j : SlotId) (h : j ≠ i) : (s.drainEnd i).slot j = s.slot j := by
  unfold drainEnd
  simp only [slot_offer, slot_setSlot, if_neg h]
  have hs : ((s.returnChains i).forgetSlot i).slots = (s.returnChains i).slots := by rw [forgetSlot_only]
  show ((s.returnChains i).forgetSlot i).slots.get j = s.slot j
  rw [hs]
  exact returnChains_other s i j h

/-- The test for the end of a drain, likewise (R20). -/
theorem drainCheck_only (s : State) (i : SlotId) :
    s.drainCheck i = { s with
      slots := (s.drainCheck i).slots, pool := (s.drainCheck i).pool, links := (s.drainCheck i).links,
      events := (s.drainCheck i).events } := by
  unfold drainCheck
  split
  · exact drainEnd_only s i
  · rfl

theorem drainCheck_other (s : State) (i j : SlotId) (h : j ≠ i) : (s.drainCheck i).slot j = s.slot j := by
  unfold drainCheck
  split
  · exact drainEnd_other s i j h
  · rfl

/-- A slot that is not DRAINING does not end a drain. -/
theorem drainCheck_not_draining (s : State) (i : SlotId) (h : (s.slot i).state ≠ .draining) : s.drainCheck i = s := by
  simp [drainCheck, h]

/-- A release changes its slot, the pool, the links and the queue (R11, R20). -/
theorem release_only (s : State) (i : SlotId) (g : GenId) :
    s.release i g = { s with
      slots := (s.release i g).slots, pool := (s.release i g).pool, links := (s.release i g).links,
      events := (s.release i g).events } :=
  drainCheck_only (s.setSlot i _) i

theorem release_other (s : State) (i j : SlotId) (g : GenId) (h : j ≠ i) : (s.release i g).slot j = s.slot j := by
  unfold release
  rw [drainCheck_other _ _ _ h, slot_setSlot, if_neg h]

/-- A release in a slot that is not DRAINING takes one from PINS and nothing else (R11). -/
theorem release_plain (s : State) (i : SlotId) (g : GenId) (h : (s.slot i).state ≠ .draining) :
    s.release i g = s.setSlot i ((s.slot i).setPins g (((s.slot i).gen g).pins - 1)) := by
  unfold release
  exact drainCheck_not_draining _ _ (by simpa [Slot.setPins, Slot.setGen] using h)

/-! ### Capture ports -/

/-- The abandon of a list of members changes slots and the queue (R9). -/
theorem abandonMembers_only (s : State) (l : List FillMember) (w : AbandonReason) :
    s.abandonMembers l w = { s with slots := (s.abandonMembers l w).slots, events := (s.abandonMembers l w).events } := by
  refine foldl_rel (fun s t : State => t = { s with slots := t.slots, events := t.events }) _ (fun _ => rfl)
    (fun s t u h1 h2 => ?_) (fun _ _ => abandon_only ..) l s
  rw [h2, h1]

/-- A member's slot is as its own abandon leaves it. -/
theorem abandonMembers_slot (s : State) (l : List FillMember) (w : AbandonReason) (hn : (l.map FillMember.slot).Nodup)
    (m : FillMember) (hm : m ∈ l) : (s.abandonMembers l w).slot m.slot = (s.abandon m.slot m.gen w).slot m.slot :=
  foldl_slot FillMember.slot (fun t m => t.abandon m.slot m.gen w) (fun _ _ _ hj => abandon_other _ _ _ _ _ hj)
    (fun t u m h => by
      show (t.abandon m.slot m.gen w).slot m.slot = (u.abandon m.slot m.gen w).slot m.slot
      unfold abandon; rw [h]; split
      · simp
      · exact h) l hn m hm s

theorem abandonMembers_other (s : State) (l : List FillMember) (w : AbandonReason) (j : SlotId)
    (h : j ∉ l.map FillMember.slot) : (s.abandonMembers l w).slot j = s.slot j :=
  foldl_get (fun t : State => t.slot j) _ l
    (fun _ _ hm => abandon_other _ _ _ _ _ (fun e => h (e ▸ List.mem_map_of_mem hm))) s

/-- The completion of a list of members changes slots, cohorts and the queue (R45). -/
theorem completeMembers_only (s : State) (l : List FillMember) :
    s.completeMembers l = { s with
      slots := (s.completeMembers l).slots, cohorts := (s.completeMembers l).cohorts,
      events := (s.completeMembers l).events } := by
  refine foldl_rel (fun s t : State => t = { s with slots := t.slots, cohorts := t.cohorts, events := t.events }) _
    (fun _ => rfl) (fun s t u h1 h2 => ?_) (fun _ _ => complete_only ..) l s
  rw [h2, h1]

/-- A block given up changes slots, its port and the queue (R46 to R49). -/
theorem giveUpBlock_only (s : State) (p : PortId) (w : AbandonReason) :
    s.giveUpBlock p w = { s with
      slots := (s.giveUpBlock p w).slots, ports := (s.giveUpBlock p w).ports, events := (s.giveUpBlock p w).events } := by
  unfold giveUpBlock
  rw [abandonMembers_only]
  rfl

/-- What a block given up does to the ports. -/
theorem giveUpBlock_port (s : State) (p r : PortId) (w : AbandonReason) :
    (s.giveUpBlock p w).port r = if r = p then { s.port p with fill := [], due := [] } else s.port r := by
  unfold giveUpBlock
  rw [abandonMembers_only, port_setPort]
  rfl

/-- A presented write changes its port alone (R33, R43). -/
theorem presentWrite_only (s : State) (p : PortId) : s.presentWrite p = { s with ports := (s.presentWrite p).ports } := by
  unfold presentWrite; simp only []; split <;> rfl

/-- An entry that leaves the FIFO changes slots, its port and the queue (R48). -/
theorem leaveEntry_only (s : State) (p : PortId) :
    s.leaveEntry p = { s with
      slots := (s.leaveEntry p).slots, ports := (s.leaveEntry p).ports, events := (s.leaveEntry p).events } := by
  unfold leaveEntry
  split
  · rfl
  · split
    · simp only []
      split
      · rw [giveUpBlock_only]; rfl
      · rfl
    · rfl

/-- An entry without a BREAK mark leaves the FIFO with its port alone changed. -/
theorem leaveEntry_plain (s : State) (p : PortId) (e : FifoEntry) (l : List FifoEntry) (h : (s.port p).fifo = e :: l)
    (hb : e.brk = false) : s.leaveEntry p = s.setPort p { s.port p with fifo := l, begun := false } := by
  simp [leaveEntry, h, hb]

/-- The end of a block changes slots, cohorts, its port and the queue (R45). -/
theorem endBlock_only (s : State) (p : PortId) :
    s.endBlock p = { s with
      slots := (s.endBlock p).slots, cohorts := (s.endBlock p).cohorts, ports := (s.endBlock p).ports,
      events := (s.endBlock p).events } := by
  unfold endBlock
  rw [completeMembers_only]
  rfl

/-- A finished word changes slots, cohorts, its port and the queue (R43, R45, R48). -/
theorem finishWord_only (s : State) (p : PortId) :
    s.finishWord p = { s with
      slots := (s.finishWord p).slots, cohorts := (s.finishWord p).cohorts, ports := (s.finishWord p).ports,
      events := (s.finishWord p).events } := by
  unfold finishWord
  split
  · rfl
  · simp only []
    split
    · rw [leaveEntry_only, endBlock_only]; rfl
    · rw [leaveEntry_only]; rfl

/-- A word taken at the head, likewise (R43, R44). -/
theorem takeWord_only (s : State) (p : PortId) :
    s.takeWord p = { s with
      slots := (s.takeWord p).slots, cohorts := (s.takeWord p).cohorts, ports := (s.takeWord p).ports,
      events := (s.takeWord p).events } := by
  unfold takeWord
  simp only []
  split
  · exact finishWord_only s p
  · rw [presentWrite_only]; rfl

/-- What follows a request, likewise (R43). -/
theorem afterRequest_only (s : State) (p : PortId) :
    s.afterRequest p = { s with
      slots := (s.afterRequest p).slots, cohorts := (s.afterRequest p).cohorts, ports := (s.afterRequest p).ports,
      events := (s.afterRequest p).events } := by
  unfold afterRequest
  split
  · rw [presentWrite_only]
  · split
    · exact finishWord_only s p
    · rfl

/-- What a block's end does to the ports (R45). -/
theorem endBlock_port (s : State) (p r : PortId) :
    (s.endBlock p).port r = if r = p then { s.port p with fill := [], due := [], state := .idle } else s.port r := by
  unfold endBlock
  rw [completeMembers_only, port_setPort]
  rfl

/-- An entry that leaves the FIFO leaves the port's requests as they are, and the other ports. -/
theorem leaveEntry_port (s : State) (p : PortId) :
    (∀ r, r ≠ p → (s.leaveEntry p).port r = s.port r) ∧ ((s.leaveEntry p).port p).req = (s.port p).req ∧
      ((s.port p).due = [] → ((s.leaveEntry p).port p).due = []) := by
  unfold leaveEntry
  split
  · exact ⟨fun _ _ => rfl, rfl, id⟩
  · split
    · simp only []
      split <;> refine ⟨fun r hr => ?_, ?_, fun hd => ?_⟩ <;> simp_all [giveUpBlock_port, port_setPort]
    · refine ⟨fun r hr => ?_, ?_, fun hd => ?_⟩ <;> simp_all [port_setPort]

/-- A finished word leaves the port's waiting request as it is, and the other ports (R43). -/
theorem finishWord_port (s : State) (p : PortId) :
    (∀ r, r ≠ p → (s.finishWord p).port r = s.port r) ∧ ((s.finishWord p).port p).req = (s.port p).req ∧
      ((s.port p).due = [] → ((s.finishWord p).port p).due = []) := by
  unfold finishWord
  split
  · exact ⟨fun _ _ => rfl, rfl, id⟩
  · simp only []
    split
    · obtain ⟨h1, h2, h3⟩ := leaveEntry_port ((s.setPort p { s.port p with
        wordIndex := saturate16 (s.port p).wordIndex, writing := false, due := [] }).endBlock p) p
      refine ⟨fun r hr => ?_, ?_, fun _ => h3 ?_⟩
      · rw [h1 r hr, endBlock_port, if_neg hr, port_setPort, if_neg hr]
      · rw [h2, endBlock_port, if_pos rfl, port_setPort, if_pos rfl]
      · rw [endBlock_port, if_pos rfl]
    · obtain ⟨h1, h2, h3⟩ := leaveEntry_port (s.setPort p { s.port p with
        wordIndex := saturate16 (s.port p).wordIndex, writing := false, due := [] }) p
      refine ⟨fun r hr => ?_, ?_, fun _ => h3 ?_⟩
      · rw [h1 r hr, port_setPort, if_neg hr]
      · rw [h2, port_setPort, if_pos rfl]
      · rw [port_setPort, if_pos rfl]

/-- The write requests of one port: those still to be presented and the one waiting. -/
theorem afterRequest_requests (s : State) (p : PortId) (h : (s.port p).req = none) :
    (∀ r, r ≠ p → (s.afterRequest p).port r = s.port r) ∧
      ((s.afterRequest p).port p).due.length + ((s.afterRequest p).port p).req.isSome.toNat = (s.port p).due.length := by
  unfold afterRequest
  split
  · rename_i m l hd
    unfold presentWrite
    simp only [h, hd]
    split
    · rename_i e1 e2 e3
      refine ⟨fun r hr => ?_, ?_⟩ <;> simp_all [port_setPort]
    · refine ⟨fun _ _ => rfl, ?_⟩; simp [h, hd]
  · rename_i hd
    split
    · obtain ⟨h1, h2, h3⟩ := finishWord_port s p
      refine ⟨h1, ?_⟩
      rw [h2, h3 hd, h, hd]; rfl
    · refine ⟨fun _ _ => rfl, ?_⟩; rw [h, hd]; rfl

/-- A block offered to a slot changes that slot, the port and the queue (R42). -/
theorem offerBlock_only (s : State) (p : PortId) (e : FifoEntry) (i : SlotId) :
    s.offerBlock p e i = { s with
      slots := (s.offerBlock p e i).slots, ports := (s.offerBlock p e i).ports, events := (s.offerBlock p e i).events } := by
  unfold offerBlock
  simp only []
  split
  · split
    · unfold keepBlock
      split
      · unfold addMember; rw [requestTarget_only]; rfl
      · rw [requestTarget_only]; rfl
    · rfl
  · rfl

/-- A block offered to every slot changes slots, the port and the queue (R41). -/
theorem offerToSlots_only (s : State) (p : PortId) (e : FifoEntry) :
    s.offerToSlots p e = { s with
      slots := (s.offerToSlots p e).slots, ports := (s.offerToSlots p e).ports, events := (s.offerToSlots p e).events } := by
  refine foldl_rel (fun s t : State => t = { s with slots := t.slots, ports := t.ports, events := t.events }) _
    (fun _ => rfl) (fun s t u h1 h2 => ?_) (fun _ _ => offerBlock_only ..) allSlots s
  rw [h2, h1]

/-! ### Links -/

/-- A placed word changes its link alone (R100). -/
theorem placeWord_only (s : State) (k : LinkId) (w : Word) (b : Bool) :
    s.placeWord k w b = { s with links := (s.placeWord k w b).links } := by
  unfold placeWord; simp only []; split <;> rfl

theorem placeWord_other (s : State) (k j : LinkId) (w : Word) (b : Bool) (h : j ≠ k) :
    (s.placeWord k w b).link j = s.link j := by
  unfold placeWord; simp only []; split
  · rfl
  · rw [link_setLink, if_neg h]

/-- A placed word of a frame in flight. -/
theorem placeWord_frame (s : State) (k : LinkId) (w : Word) (b : Bool) (f : Frame) (h : (s.link k).frame = some f) :
    s.placeWord k w b = s.setLink k { s.link k with
      buffer := (s.link k).buffer ++ [w]
      frame := some { f with placed := f.placed + 1, crc := if b then f.crc else crcWord f.crc w }
      line := if (s.link k).line = .abort then .abort else .drive } := by
  simp [placeWord, h]

/-- The presenting of a read changes the request of its link and nothing else (R33). -/
theorem presentRead_req (s : State) (k : LinkId) :
    ∃ q, s.presentRead k = s.setLink k { s.link k with req := q } := by
  have same : s = s.setLink k { s.link k with req := (s.link k).req } := by
    show s = s.setLink k (s.link k)
    unfold setLink link Table.put
    rw [show s.links.set k.val (s.links.get k) k.isLt = s.links from by
      ext j hj; simp only [Vector.getElem_set, Vector.get_eq_getElem]; split <;> simp_all]
  unfold presentRead
  simp only []
  split
  · exact ⟨_, same⟩
  · split
    · split
      · split
        · exact ⟨_, rfl⟩
        · exact ⟨_, same⟩
      all_goals exact ⟨_, same⟩
    · exact ⟨_, same⟩

/-- The claim of one pin changes a slot and its link (R96). -/
theorem claimPin_only (s : State) (k : LinkId) (i : SlotId) :
    s.claimPin k i = { s with slots := (s.claimPin k i).slots, links := (s.claimPin k i).links } := by
  unfold claimPin; split <;> rfl

/-- The claim of a frame begin changes slots and its link (R96). -/
theorem claimPins_only (s : State) (k : LinkId) (l : List SlotId) :
    s.claimPins k l = { s with slots := (s.claimPins k l).slots, links := (s.claimPins k l).links } := by
  refine foldl_rel (fun s t : State => t = { s with slots := t.slots, links := t.links }) _ (fun _ => rfl)
    (fun s t u h1 h2 => ?_) (fun _ _ => claimPin_only ..) l s
  rw [h2, h1]

/-- The release of a link's pins changes slots, the pool, links and the queue (R104, R106). -/
theorem releasePins_only (s : State) (k : LinkId) :
    s.releasePins k = { s with
      slots := (s.releasePins k).slots, pool := (s.releasePins k).pool, links := (s.releasePins k).links,
      events := (s.releasePins k).events } := by
  have h := foldl_rel
    (fun s t : State => t = { s with slots := t.slots, pool := t.pool, links := t.links, events := t.events })
    (fun t (p : PinEntry) => t.release p.slot p.gen) (fun _ => rfl) (fun s t u h1 h2 => by rw [h2, h1])
    (fun t p => release_only t p.slot p.gen) (s.link k).pinSet s
  unfold releasePins
  generalize List.foldl _ s _ = u at h ⊢
  rw [h]
  rfl

/-- Steps 2 to 5 of a frame's end change its link and the queue (R104). -/
theorem frameDone_only (s : State) (k : LinkId) (r : BitVec 4) :
    s.frameDone k r = { s with links := (s.frameDone k r).links, events := (s.frameDone k r).events } := by
  have hc : ∀ (t : State) (n : Nat), t.advanceCursor k n =
      { t with links := (t.advanceCursor k n).links, events := (t.advanceCursor k n).events } := by
    intro t n; unfold advanceCursor; simp only []; split <;> rfl
  unfold frameDone
  simp only []
  split
  · rfl
  · rename_i f _
    have h := hc s f.next
    generalize s.advanceCursor k f.next = u at h ⊢
    split
    · rw [h]; rfl
    · split <;> (rw [h]; rfl)

/-- A whole frame's end changes slots, the pool, links and the queue (R104). -/
theorem frameEnd_only (s : State) (k : LinkId) :
    s.frameEnd k = { s with
      slots := (s.frameEnd k).slots, pool := (s.frameEnd k).pool, links := (s.frameEnd k).links,
      events := (s.frameEnd k).events } := by
  unfold frameEnd
  rw [frameDone_only, releasePins_only]

/-- An abort changes slots, the pool, links and the queue (R106). -/
theorem abortFrame_only (s : State) (k : LinkId) (w : AbortReason) :
    s.abortFrame k w = { s with
      slots := (s.abortFrame k w).slots, pool := (s.abortFrame k w).pool, links := (s.abortFrame k w).links,
      events := (s.abortFrame k w).events } := by
  unfold abortFrame
  simp only []
  split
  · rfl
  · rw [releasePins_only]; rfl

end State
end Sys2Proof.Machine
end

