-- ==== Sys2Proof/Laws/Steps.lean ====
section
/-! SUPPORT. Properties that a grant and the act of a host access keep are kept by every command made of them, and what a
step and a grant can answer. -/

namespace Sys2Proof.Machine
namespace State

/-- What grants keep, the arbiter keeps (R33, R35). -/
theorem arbitrate_keeps (P : State → Prop)
    (hg : ∀ s r t, P s → s.grantAt r = .done t ∨ s.grantAt r = .withdrawn t → P t) (n : Nat) (s t : State) (h : P s)
    (e : arbitrate n s = .next t) : P t := by
  induction n generalizing s with
  | zero => simp only [arbitrate, Host.Outcome.next.injEq] at e; exact e ▸ h
  | succ n ih =>
    simp only [arbitrate] at e
    split at e
    · simp only [Host.Outcome.next.injEq] at e; exact e ▸ h
    · split at e
      · rename_i hd; simp only [Host.Outcome.next.injEq] at e; exact e ▸ hg _ _ _ h (.inl hd)
      · rename_i hd; exact ih _ (hg _ _ _ h (.inr hd)) e
      · simp at e

/-- What grants keep, STORE_GRANT keeps. -/
theorem grantOne_keeps (P : State → Prop)
    (hg : ∀ s r t, P s → s.grantAt r = .done t ∨ s.grantAt r = .withdrawn t → P t) (s t : State) (h : P s)
    (e : s.grantOne = .next t) : P t := arbitrate_keeps P hg _ s t h e

/-- What grants keep, the end of a held access keeps (R160). -/
theorem endHeld_keeps (P : State → Prop)
    (hg : ∀ s r t, P s → s.grantAt r = .done t ∨ s.grantAt r = .withdrawn t → P t) (n : Nat) (s t : State) (h : P s)
    (e : endHeld n s = .next t) : P t := by
  induction n generalizing s with
  | zero =>
    simp only [endHeld] at e
    split at e
    · simp at e
    · simp only [Host.Outcome.next.injEq] at e; exact e ▸ h
  | succ n ih =>
    simp only [endHeld] at e
    split at e
    · cases hu : s.grantOne with
      | next u => simp only [hu, Result.andThen] at e; exact ih u (grantOne_keeps P hg s u h hu) e
      | fault f => simp [hu, Result.andThen] at e
      | refused f => simp [hu, Result.andThen] at e
    · simp only [Host.Outcome.next.injEq] at e; exact e ▸ h

/-- After the end of a held access none is held. -/
theorem endHeld_waitLine (n : Nat) (s t : State) (e : endHeld n s = .next t) : t.waitLine = false := by
  induction n generalizing s with
  | zero =>
    simp only [endHeld] at e
    split at e
    · simp at e
    · rename_i hw; simp only [Host.Outcome.next.injEq] at e; exact e ▸ by simpa using hw
  | succ n ih =>
    simp only [endHeld] at e
    split at e
    · cases hu : s.grantOne with
      | next u => simp only [hu, Result.andThen] at e; exact ih u e
      | fault f => simp [hu, Result.andThen] at e
      | refused f => simp [hu, Result.andThen] at e
    · rename_i hw; simp only [Host.Outcome.next.injEq] at e; exact e ▸ by simpa using hw

/-- A host access that answers next is its act after the end of a held access. -/
theorem hostAccess_next (s t : State) (act : State → State) (e : s.hostAccess act = .next t) :
    ∃ u, endHeld Config.grantBound s = .next u ∧ t = act u := by
  unfold hostAccess at e
  cases hu : endHeld Config.grantBound s with
  | next u => simp only [hu, Result.andThen, Host.Outcome.next.injEq] at e; exact ⟨u, rfl, e.symm⟩
  | fault f => simp [hu, Result.andThen] at e
  | refused f => simp [hu, Result.andThen] at e

/-- What grants and its act keep, a host access keeps. -/
theorem hostAccess_keeps (P : State → Prop)
    (hg : ∀ s r t, P s → s.grantAt r = .done t ∨ s.grantAt r = .withdrawn t → P t) (act : State → State)
    (ha : ∀ s, P s → P (act s)) (s t : State) (h : P s) (e : s.hostAccess act = .next t) : P t := by
  obtain ⟨u, hu, rfl⟩ := hostAccess_next s t act e
  exact ha u (endHeld_keeps P hg _ s u h hu)

/-- What grants and its act keep, a host write keeps. -/
theorem hostWrite_keeps (P : State → Prop)
    (hg : ∀ s r t, P s → s.grantAt r = .done t ∨ s.grantAt r = .withdrawn t → P t) (act : State → State)
    (ha : ∀ s, P s → P (act s)) (s t : State) (h : P s) (e : s.hostWrite act = .next t) : P t := by
  unfold hostWrite at e
  split at e
  · exact hostAccess_keeps P hg act ha s t h e
  all_goals simp only [Host.Outcome.next.injEq] at e; exact e ▸ h

/-- What grants and its act keep, a write of GLOBAL_CONTROL or EVENT_MASK keeps. -/
theorem controlWrite_keeps (P : State → Prop)
    (hg : ∀ s r t, P s → s.grantAt r = .done t ∨ s.grantAt r = .withdrawn t → P t) (act : State → State)
    (ha : ∀ s, P s → P (act s)) (s t : State) (h : P s) (e : s.controlWrite act = .next t) : P t := by
  unfold controlWrite at e
  split at e
  · exact hostAccess_keeps P hg act ha s t h e
  · exact hostAccess_keeps P hg act ha s t h e
  · simp only [Host.Outcome.next.injEq] at e; exact e ▸ h

/-- What grants, its act and the value on the data lines keep, a host read keeps. -/
theorem hostRead_keeps (P : State → Prop)
    (hg : ∀ s r t, P s → s.grantAt r = .done t ∨ s.grantAt r = .withdrawn t → P t) (act : State → State)
    (ha : ∀ s, P s → P (act s)) (hb : ∀ s, P s → P { s with busRead := 0 }) (s t : State) (h : P s)
    (e : s.hostRead act = .next t) : P t := by
  unfold hostRead at e
  split at e
  · exact hostAccess_keeps P hg act ha s t h e
  · exact hostAccess_keeps P hg act ha s t h e
  · simp only [Host.Outcome.next.injEq] at e; exact e ▸ hb s h

/-- What an act keeps, its trigger keeps, if setting COMMAND_REJECTED keeps it (R156). -/
theorem trigger_keeps (P : State → Prop) (act : State → State) (ha : ∀ s, P s → P (act s))
    (hr : ∀ s, P s → P { s with cmd := { s.cmd with rejected := true } }) (s : State) (h : P s) : P (trigger act s) := by
  unfold trigger; split
  · exact ha s h
  · exact hr s h

/-- A granted link changes its link and LAST_GRANTED (R100). -/
theorem grantLink_done (s t : State) (r : Fin 21) (k : LinkId) (q : ReadReq) (h : s.grantLink r k q = .done t) :
    ∃ w, s.readFor q = .ok w ∧
      t = (((s.setLink k { s.link k with req := none }).placeWord k w false).presentRead k).granted r := by
  unfold grantLink at h
  split at h
  · simp at h
  · rename_i w hw; simp only [Grant.done.injEq] at h; exact ⟨w, hw, h.symm⟩

/-- A granted handle returns the word, and ADDR advances (R127). -/
theorem grantHandle_done (s t : State) (r : Fin 21) (n : HandleId) (q : ReadReq) (h : s.grantHandle r n q = .done t) :
    ∃ w, s.readFor q = .ok w ∧
      t = { (s.setHandle n { s.handle n with req := none, addr := (s.handle n).addr + 1 }) with
        busRead := w, lastGranted := r } := by
  unfold grantHandle at h
  split at h
  · simp at h
  · rename_i w hw; simp only [Grant.done.injEq] at h; exact ⟨w, hw, h.symm⟩

/-- A read or a request of a link or a handle is never withdrawn at its grant (R35). -/
theorem grantLink_not_withdrawn (s t : State) (r : Fin 21) (k : LinkId) (q : ReadReq) :
    s.grantLink r k q ≠ .withdrawn t := by
  unfold grantLink; split <;> simp

theorem grantHandle_not_withdrawn (s t : State) (r : Fin 21) (n : HandleId) (q : ReadReq) :
    s.grantHandle r n q ≠ .withdrawn t := by
  unfold grantHandle; split <;> simp

/-- A sum in which one summand falls by one falls by one. -/
theorem sum_map_pred {α : Type} [DecidableEq α] (f g : α → Nat) (p : α) (hp : f p = g p + 1) : ∀ (l : List α), l.Nodup → p ∈ l →
    (∀ r, r ≠ p → f r = g r) → (l.map f).sum = (l.map g).sum + 1
  | [], _, hm, _ => by simp at hm
  | x :: l, hn, hm, h => by
    simp only [List.map_cons, List.sum_cons]
    by_cases hx : x = p
    · subst hx
      have : l.map f = l.map g := List.map_congr_left fun r hr => h r fun e => (List.nodup_cons.mp hn).1 (e ▸ hr)
      rw [this, hp]; omega
    · have := sum_map_pred f g p hp l (List.nodup_cons.mp hn).2 ((List.mem_cons.mp hm).resolve_left fun e => hx e.symm) h
      rw [this, h x hx]; omega

/-- Every capture port is in the list of them. -/
theorem mem_allPorts : ∀ p : PortId, p ∈ allPorts := by decide

/-- A withdrawal at a grant leaves one write request fewer (R35). -/
theorem grantAt_withdrawn (s t : State) (r : Fin 21) (h : s.grantAt r = .withdrawn t) :
    s.writeRequests = t.writeRequests + 1 := by
  unfold grantAt at h
  split at h
  · rename_i p _
    split at h
    · rename_i q hq
      unfold grantPort at h
      simp only [] at h
      split at h
      · split at h <;> simp at h
      · have ht := Grant.withdrawn.inj h
        have hr := afterRequest_requests (s.setPort p { s.port p with req := none }) p (by simp)
        have hf := afterRequest_only (s.setPort p { s.port p with req := none }) p
        rw [ht] at hr hf
        simp only [port_setPort, if_true] at hr
        have hs := sum_map_pred (fun x => (s.port x).due.length + (s.port x).req.isSome.toNat)
          (fun x => (t.port x).due.length + (t.port x).req.isSome.toNat) p
          (by rw [hr.2, hq]; rfl) allPorts (by decide) (mem_allPorts p)
          (fun x hx => by simp only [hr.1 x hx, if_neg hx])
        have hfeed : t.feed = s.feed := by rw [hf]; rfl
        unfold writeRequests
        rw [hfeed]; omega
    · simp at h
  · split at h
    · exact (grantLink_not_withdrawn _ _ _ _ _ h).elim
    · simp at h
  · split at h
    · exact (grantHandle_not_withdrawn _ _ _ _ _ h).elim
    · simp at h
  · split at h
    · rename_i q hq
      unfold grantFeed at h
      simp only [] at h
      split at h
      · split at h <;> simp at h
      · cases h
        unfold writeRequests
        simp [hq, State.setFeed, State.port]
    · simp at h

/-- With no request waiting the arbiter changes nothing. -/
theorem grantOne_none (s : State) (h : s.nextGrant = none) : s.grantOne = .next s := by
  simp [grantOne, arbitrate, h]

/-- A grant that is carried out ends the arbiter's act (R33). -/
theorem grantOne_done (s t : State) (r : Fin 21) (h : s.nextGrant = some r) (ht : s.grantAt r = .done t) :
    s.grantOne = .next t := by
  simp [grantOne, arbitrate, h, ht]

/-- After a withdrawal the arbiter grants again (R35). -/
theorem grantOne_withdrawn (s t : State) (r : Fin 21) (h : s.nextGrant = some r) (ht : s.grantAt r = .withdrawn t) :
    s.grantOne = t.grantOne := by
  unfold grantOne
  rw [grantAt_withdrawn s t r ht]
  conv_lhs => unfold arbitrate
  simp [h, ht]

/-- A held access ends after the grants it waits for (R160). -/
theorem endHeld_grants : ∀ (n k : Nat) (s t : State), s.grants n t → t.waitLine = false → n ≤ k → endHeld k s = .next t
  | 0, k, s, t, h, hw, _ => by
    have : t = s := h
    subst this; exact endHeld_free t k hw
  | n + 1, 0, _, _, _, _, hk => by omega
  | n + 1, k + 1, s, t, ⟨hs, u, hu, ht⟩, hw, hk => by
    have hu' : s.grantOne = .next u := hu
    simp only [endHeld, hs, if_true, hu', Result.andThen]
    exact endHeld_grants n k u t ht hw (by omega)

/-- A host access taken while another is held is the access on the state that the grants leave (R160). -/
theorem hostAccess_grants (n : Nat) (s t : State) (act : State → State) (h : s.grants n t) (hw : t.waitLine = false)
    (hn : n ≤ Config.grantBound) : s.hostAccess act = t.hostAccess act := by
  rw [hostAccess_free t act hw, hostAccess, endHeld_grants n _ s t h hw hn]; rfl

/-- A grant leaves the progress of a reset, the unit, the free list and the queue of commands as they are. -/
theorem grantAt_frame (s t : State) (r : Fin 21) (h : s.grantAt r = .done t ∨ s.grantAt r = .withdrawn t) :
    t.resetPhase = s.resetPhase ∧ t.cmd = s.cmd ∧ t.pool = s.pool ∧ t.pending = s.pending := by
  unfold grantAt at h
  split at h
  · split at h
    · unfold grantPort at h
      simp only [] at h
      split at h
      · split at h
        · simp at h
        · simp only [Grant.done.injEq, reduceCtorEq, or_false] at h
          rw [← h, afterRequest_only]; exact ⟨rfl, rfl, rfl, rfl⟩
      · simp only [Grant.withdrawn.injEq, reduceCtorEq, false_or] at h
        rw [← h, afterRequest_only]; exact ⟨rfl, rfl, rfl, rfl⟩
    · simp only [Grant.done.injEq, reduceCtorEq, or_false] at h
      subst h; exact ⟨rfl, rfl, rfl, rfl⟩
  · split at h
    · rename_i k _ _ q _
      rcases h with h | h
      · obtain ⟨w, -, rfl⟩ := grantLink_done _ _ _ _ _ h
        obtain ⟨l, hl⟩ := presentRead_req ((s.setLink k { s.link k with req := none }).placeWord k w false) k
        rw [hl, placeWord_only]; exact ⟨rfl, rfl, rfl, rfl⟩
      · exact (grantLink_not_withdrawn _ _ _ _ _ h).elim
    · simp only [Grant.done.injEq, reduceCtorEq, or_false] at h
      subst h; exact ⟨rfl, rfl, rfl, rfl⟩
  · split at h
    · rcases h with h | h
      · obtain ⟨w, -, rfl⟩ := grantHandle_done _ _ _ _ _ h
        exact ⟨rfl, rfl, rfl, rfl⟩
      · exact (grantHandle_not_withdrawn _ _ _ _ _ h).elim
    · simp only [Grant.done.injEq, reduceCtorEq, or_false] at h
      subst h; exact ⟨rfl, rfl, rfl, rfl⟩
  · split at h
    · unfold grantFeed at h
      simp only [] at h
      split at h
      · split at h
        · simp at h
        · simp only [Grant.done.injEq, reduceCtorEq, or_false] at h
          subst h; exact ⟨rfl, rfl, rfl, rfl⟩
      · simp only [Grant.withdrawn.injEq, reduceCtorEq, false_or] at h
        subst h; exact ⟨rfl, rfl, rfl, rfl⟩
    · simp only [Grant.done.injEq, reduceCtorEq, or_false] at h
      subst h; exact ⟨rfl, rfl, rfl, rfl⟩

/-- The grants that a held access waits for leave the same (R160). -/
theorem grants_frame : ∀ (n : Nat) (s t : State), s.grants n t →
    t.resetPhase = s.resetPhase ∧ t.cmd = s.cmd ∧ t.pool = s.pool ∧ t.pending = s.pending
  | 0, s, t, h => by
    have : t = s := h
    subst this; exact ⟨rfl, rfl, rfl, rfl⟩
  | n + 1, s, t, ⟨_, u, hu, ht⟩ => by
    obtain ⟨a, b, c, d⟩ := grants_frame n u t ht
    have hu' : s.grantOne = .next u := hu
    have := grantOne_keeps (fun x => x.resetPhase = s.resetPhase ∧ x.cmd = s.cmd ∧ x.pool = s.pool ∧ x.pending = s.pending)
      (fun x r y hx hy => by
        obtain ⟨a, b, c, d⟩ := grantAt_frame x y r hy
        exact ⟨a.trans hx.1, b.trans hx.2.1, c.trans hx.2.2.1, d.trans hx.2.2.2⟩) s u ⟨rfl, rfl, rfl, rfl⟩ hu'
    exact ⟨a.trans this.1, b.trans this.2.1, c.trans this.2.2.1, d.trans this.2.2.2⟩
/-! ### Invariants on given states -/

/-- A writer, with the number of the fill left open: a form that can be decided. -/
theorem hasWriter_iff (s : State) (i : SlotId) (g : GenId) : s.hasWriter i g ↔
    (∃ p, (s.slot i).source = .port p ∧ (i, g) ∈ (s.port p).fill.map fun m => (m.slot, m.gen)) ∨
      ((s.slot i).source = .feed ∧ s.feed.state = .opened ∧ s.feed.slot = i ∧ s.feed.gen = g) := by
  unfold hasWriter
  refine or_congr_left ⟨fun ⟨p, n, hs, hm⟩ => ⟨p, hs, List.mem_map.mpr ⟨_, hm, rfl⟩⟩, fun ⟨p, hs, hm⟩ => ?_⟩
  obtain ⟨m, hin, e⟩ := List.mem_map.mp hm
  cases e
  exact ⟨p, m.fill, hs, hin⟩

/-- A link as after reset is at rest. -/
theorem linkAtRest_reset : linkAtRest Link.reset := ⟨rfl, rfl, rfl, rfl, rfl, rfl, rfl⟩

/-- A free list as the rebuild leaves it is linked up to its last page (R27). -/
theorem linkedUpTo_reset : linkedUpTo Pool.reset 2048 := by
  refine ⟨rfl, by decide, fun p => ⟨fun h _ => ?_, fun h => ⟨?_, ?_⟩, fun p' h _ => ?_⟩⟩
  · exact congrArg some (Fin.ext h.symm)
  · exact congrArg some (Fin.ext (by show (2047 : Nat) = _; omega))
  · simp [Pool.nextOf, Pool.reset, Cells.read, Cells.listed, rebuiltNext, h]
  · have := p'.isLt
    simp [Pool.nextOf, Pool.reset, Cells.read, Cells.listed, rebuiltNext, h]

/-- After reset the free list holds every page in ascending order (R27). -/
theorem freeList_reset : freeList Pool.reset (List.finRange 2048) := freeList_of_linkedUpTo linkedUpTo_reset

end State

/-- A step on an empty queue is one core clock cycle (R139). -/
theorem step_nil (s : State) (h : s.pending = []) : step s = .next s.clockCycle := by simp [step, h]

/-- A property that every command and a clock cycle keep, and that does not speak of the queue, is kept by every step. -/
theorem step_keeps (P : State → Prop) (hq : ∀ s l, P s → P { s with pending := l })
    (hc : ∀ s, P s → P s.clockCycle) (he : ∀ c s t, P s → exec c s = .next t → P t) (s t : State) (h : P s)
    (e : step s = .next t) : P t := by
  unfold step at e
  split at e
  · simp only [Host.Outcome.next.injEq] at e; exact e ▸ hc s h
  · rename_i c rest _; exact he c _ t (hq s rest h) e

end Sys2Proof.Machine
end

