-- ==== Sys2Proof/Laws/Ticks.lean ====
section
/-! SUPPORT. What a tick and the expiries it causes can do: the expiries as commands, what each leaves of every link, what
is still due after all of them, and the tick itself (R141). -/

namespace Sys2Proof.Machine

/-- A link without its pins and its last-seen table, which the release of any pin may change (R11, R20). -/
def Link.bare (l : Link) : Link := { l with pinSet := [], lastSeen := Vector.replicate 32 0 }

/-- What two links that agree without these have in common. -/
theorem Link.bare_fields {x y : Link} (e : x.bare = y.bare) : x.state = y.state ∧ x.line = y.line ∧
    x.giveUpDue = y.giveUpDue ∧ x.remain = y.remain ∧ x.stallTimer = y.stallTimer ∧ x.stallLimit = y.stallLimit ∧
    x.period = y.period ∧ x.frame = y.frame := by
  simp only [Link.bare, Link.mk.injEq] at e
  simp only [e, and_self]

namespace State

theorem mem_allLinks : ∀ k : LinkId, k ∈ allLinks := by decide
theorem mem_allCohorts : ∀ c : CohortId, c ∈ allCohorts := by decide

/-- What is due at a link depends on the link without its pins and its last-seen table. -/
theorem due_bare {s t : State} {k : LinkId} (e : (t.link k).bare = (s.link k).bare) : t.giveUpDue k = s.giveUpDue k ∧
    t.periodDue k = s.periodDue k ∧ t.stallDue k = s.stallDue k := by
  obtain ⟨e1, e2, e3, e4, e5, e6, _⟩ := Link.bare_fields e
  unfold State.giveUpDue periodDue stallDue
  rw [e1, e2, e3, e4, e5, e6]
  exact ⟨rfl, rfl, rfl⟩

/-- The parts that the expiries of links leave alone. -/
def restOf (s : State) : Timebase × Table 4 Cohort × Feed := (s.timebase, s.cohorts, s.feed)

/-! ### Releases -/

theorem forgetSlot_bare (s : State) (i : SlotId) (k : LinkId) : ((s.forgetSlot i).link k).bare = (s.link k).bare := by
  refine foldl_get (fun t : State => (t.link k).bare) _ allLinks (fun t j _ => ?_) s
  show ((t.setLink j _).link k).bare = _
  rw [link_setLink]; split
  · rename_i e; subst e; rfl
  · rfl

theorem release_bare (s : State) (i : SlotId) (g : GenId) (k : LinkId) : ((s.release i g).link k).bare = (s.link k).bare := by
  unfold release drainCheck
  split
  · unfold drainEnd
    simp only [link_offer, link_setSlot]
    rw [forgetSlot_bare, returnChains_only]; rfl
  · rfl

/-- The release of a link's pins changes no link but for pins and last-seen entries (R104, R106). -/
theorem releasePins_bare (s : State) (k j : LinkId) : ((s.releasePins k).link j).bare = (s.link j).bare := by
  have h := foldl_get (fun t : State => (t.link j).bare) (fun t (p : PinEntry) => t.release p.slot p.gen) (s.link k).pinSet
    (fun t p _ => release_bare t p.slot p.gen j) s
  unfold releasePins
  simp only [link_setLink]
  split
  · rename_i e; subst e; exact h
  · exact h

/-! ### The expiries of a link -/

/-- An abort leaves the abort word on the line and no give-up due, and keeps PERIOD and the other links (R106). -/
theorem abortFrame_link (s : State) (k j : LinkId) (w : AbortReason) (f : Frame) (h : (s.link k).frame = some f) :
    (j ≠ k → ((s.abortFrame k w).link j).bare = (s.link j).bare) ∧
    (let l := (s.abortFrame k w).link k;
      l.line = .abort ∧ l.giveUpDue = false ∧ l.period = (s.link k).period) := by
  unfold abortFrame
  simp only [h, link_offer, link_setLink_self]
  generalize hv : ({ s.link k with
      frame := some f, req := none, buffer := [], abortWord := some (~~~ (s.link k).sync), line := .abort, stallTimer := 0,
      giveUpDue := false } : Link) = v
  refine ⟨fun e => ?_, ?_⟩
  · rw [link_setLink, if_neg e, releasePins_bare, link_setLink, if_neg e]
  · have hb := releasePins_bare (s.setLink k v) k k
    rw [link_setLink_self] at hb
    exact ⟨(congrArg Link.line hb :).trans (by rw [← hv]; rfl), (congrArg Link.giveUpDue hb :).trans (by rw [← hv]; rfl),
      (congrArg Link.period hb :).trans (by rw [← hv]; rfl)⟩

/-- A frame's end changes its link alone, whose line and timers it keeps (R104). -/
theorem frameDone_link (s : State) (k j : LinkId) (r : BitVec 4) :
    (j ≠ k → (s.frameDone k r).link j = s.link j) ∧
    (let l := (s.frameDone k r).link k;
      l.line = (s.link k).line ∧ l.period = (s.link k).period ∧ l.remain = (s.link k).remain ∧
        l.stallTimer = (s.link k).stallTimer ∧ l.stallLimit = (s.link k).stallLimit ∧
        l.giveUpDue = (s.link k).giveUpDue) := by
  have ha : ∀ n, (j ≠ k → (s.advanceCursor k n).link j = s.link j) ∧
      (let l := (s.advanceCursor k n).link k;
        l.line = (s.link k).line ∧ l.period = (s.link k).period ∧ l.remain = (s.link k).remain ∧
          l.stallTimer = (s.link k).stallTimer ∧ l.stallLimit = (s.link k).stallLimit ∧
          l.giveUpDue = (s.link k).giveUpDue) := by
    intro n; unfold advanceCursor cycleEnd
    simp only []
    split <;> exact ⟨fun e => by simp [link_setLink, e], by simp⟩
  unfold frameDone
  simp only []
  split
  · exact ⟨fun _ => rfl, rfl, rfl, rfl, rfl, rfl, rfl⟩
  · rename_i f _
    obtain ⟨h1, h2⟩ := ha f.next
    simp only [] at h2
    split
    · unfold linkOff
      exact ⟨fun e => by simp [link_setLink, e, h1], by simpa using h2⟩
    · unfold swapProgram
      split <;> exact ⟨fun e => by simp [link_setLink, e, h1], by simpa using h2⟩

/-- A frame begin changes its link alone: FRAME, with the timers as they were, and an abort word left alone (R94). -/
theorem frameBegin_link (s : State) (k j : LinkId) :
    (j ≠ k → (s.frameBegin k).link j = s.link j) ∧
    (let l := (s.frameBegin k).link k;
      l.state = .frame ∧ l.period = (s.link k).period ∧ l.remain = (s.link k).remain ∧
        ((s.link k).line = .abort → l.line = .abort)) := by
  have claim : ∀ (l : List SlotId) (t : State), (j ≠ k → (t.claimPins k l).link j = t.link j) ∧
      ((t.claimPins k l).link k).bare = (t.link k).bare := fun l t =>
    ⟨fun e => foldl_get (fun u : State => u.link j) _ l (fun u i _ => by
        show (u.claimPin k i).link j = _
        unfold claimPin; split
        · rw [link_setLink, if_neg e]; rfl
        · rfl
        · rfl) t,
      foldl_get (fun u : State => (u.link k).bare) _ l (fun u i _ => by
        show ((u.claimPin k i).link k).bare = _
        unfold claimPin; split
        · simp only [link_setLink_self]; rfl
        · rfl
        · rfl) t⟩
  unfold frameBegin
  simp only []
  generalize distinctSlots _ = slots
  obtain ⟨h1, h2⟩ := claim slots s
  have p := congrArg Link.period h2
  have r := congrArg Link.remain h2
  have ln := congrArg Link.line h2
  simp only [Link.bare] at p r ln
  refine ⟨fun e => ?_, ?_⟩
  · rw [placeWord_other _ _ _ _ _ e, link_setLink, if_neg e, h1 e]
  · rw [placeWord_frame _ k _ _ _ (by rw [link_setLink_self])]
    simp only [link_setLink_self]
    exact ⟨trivial, p, r, fun h => by rw [ln, h]; rfl⟩

/-- The expiries of one link change, of the other links, pins and last-seen entries only, and leave nothing of their own
due: no give-up, no period expiry with PERIOD above 0, no stall of a frame in flight (R93, R120, R122). -/
theorem takeLinkExpiries_link (s : State) (k j : LinkId) :
    (j ≠ k → ((s.takeLinkExpiries k).link j).bare = (s.link j).bare) ∧
    (s.takeLinkExpiries k).restOf = s.restOf ∧
    (s.takeLinkExpiries k).giveUpDue k = false ∧
    ((s.link k).period ≠ 0 → (s.takeLinkExpiries k).periodDue k = false) ∧
    (s.stallDue k = true → (s.link k).frame ≠ none → (s.takeLinkExpiries k).stallDue k = false) := by
  -- the stall
  have stall : (j ≠ k → ((s.stallAbort k).link j).bare = (s.link j).bare) ∧ (s.stallAbort k).restOf = s.restOf ∧
      ((s.stallAbort k).link k).period = (s.link k).period ∧
      (s.stallDue k = true → (s.link k).frame ≠ none →
        ((s.stallAbort k).link k).line = .abort ∧ ((s.stallAbort k).link k).giveUpDue = false) := by
    unfold stallAbort
    split
    · cases hf : (s.link k).frame with
      | none =>
        have : s.abortFrame k .stall = s := by simp [abortFrame, hf]
        rw [this]; exact ⟨fun _ => rfl, rfl, rfl, fun _ h => absurd rfl h⟩
      | some f =>
        obtain ⟨h1, h2, h3, h4⟩ := abortFrame_link s k j .stall f hf
        exact ⟨h1, by rw [abortFrame_only]; rfl, h4, fun _ _ => ⟨h2, h3⟩⟩
    · rename_i h; exact ⟨fun _ => rfl, rfl, rfl, fun e => absurd e h⟩
  -- the give-up
  have give : ∀ t : State, (j ≠ k → (t.giveUp k).link j = t.link j) ∧ (t.giveUp k).restOf = t.restOf ∧
      ((t.giveUp k).link k).period = (t.link k).period ∧ (t.giveUp k).giveUpDue k = false ∧
      ((t.link k).giveUpDue = false → t.giveUp k = t) := by
    intro t
    unfold giveUp
    split
    · rename_i hd
      obtain ⟨h1, _, h2, _, _, _, h3⟩ := frameDone_link (t.clearAbortWord k) k j 1
      refine ⟨fun e => ?_, ?_, ?_, ?_, fun e => ?_⟩
      · rw [h1 e]; unfold clearAbortWord; rw [link_setLink, if_neg e]
      · rw [frameDone_only]; rfl
      · rw [h2]; unfold clearAbortWord; rw [link_setLink_self]
      · have : ((t.clearAbortWord k).link k).giveUpDue = false := by unfold clearAbortWord; rw [link_setLink_self]
        unfold State.giveUpDue
        rw [h3, this, Bool.and_false]
      · simp [State.giveUpDue, e] at hd
    · rename_i hd; exact ⟨fun _ => rfl, rfl, rfl, by simpa using hd, fun _ => rfl⟩
  -- the period expiry
  have period : ∀ t : State, (j ≠ k → (t.periodExpiry k).link j = t.link j) ∧ (t.periodExpiry k).restOf = t.restOf ∧
      ((t.link k).period ≠ 0 → (t.periodExpiry k).periodDue k = false) ∧
      (t.giveUpDue k = false → (t.periodExpiry k).giveUpDue k = false) ∧
      ((t.link k).line = .abort → ((t.periodExpiry k).link k).line = .abort) := by
    intro t
    unfold periodExpiry
    simp only []
    split
    · rename_i hd
      split
      · obtain ⟨h1, h2, h3, h4, h5⟩ := frameBegin_link (t.setLink k { t.link k with remain := (t.link k).period }) k j
        simp only [link_setLink_self] at h3 h4 h5
        refine ⟨fun e => ?_, ?_, fun e => ?_, fun _ => ?_, h5⟩
        · rw [h1 e, link_setLink, if_neg e]
        · unfold frameBegin; simp only []; rw [placeWord_only, claimPins_only]; rfl
        · simp [periodDue, h4, e]
        · simp [State.giveUpDue, h2]
      · rename_i hw
        have hs : (t.link k).state = .frame := by
          simp only [periodDue, Bool.and_eq_true, Bool.or_eq_true, decide_eq_true_eq] at hd
          exact hd.1.resolve_left hw
        unfold slip
        refine ⟨fun e => ?_, rfl, fun e => ?_, fun _ => ?_, fun e => ?_⟩
        · simp [link_setLink, e]
        · simp [periodDue, e]
        · simp [State.giveUpDue, hs]
        · simpa using e
    · rename_i hd; exact ⟨fun _ => rfl, rfl, fun _ => by simpa using hd, id, id⟩
  obtain ⟨a1, a2, a3, a4⟩ := stall
  obtain ⟨b1, b2, b3, b4, b5⟩ := give (s.stallAbort k)
  obtain ⟨c1, c2, c3, c4, c5⟩ := period ((s.stallAbort k).giveUp k)
  unfold takeLinkExpiries
  refine ⟨fun e => by rw [c1 e, b1 e, a1 e], c2.trans (b2.trans a2), c4 b4, fun h => c3 (by rw [b3, a3]; exact h), fun h hf => ?_⟩
  obtain ⟨hl, hg⟩ := a4 h hf
  have : ((s.stallAbort k).giveUp k).link k = (s.stallAbort k).link k := by rw [b5 hg]
  simp [stallDue, c5 (by rw [this]; exact hl)]

/-- The expiries of all links leave of each nothing due, on the same conditions, and nothing but links, slots, the pool and
the queue changed (R141). -/
theorem takeLinks_link (l : List LinkId) (s : State) (hn : l.Nodup) :
    (l.foldl takeLinkExpiries s).restOf = s.restOf ∧ ∀ k,
      (k ∉ l → ((l.foldl takeLinkExpiries s).link k).bare = (s.link k).bare) ∧
      (k ∈ l → (l.foldl takeLinkExpiries s).giveUpDue k = false ∧
        ((s.link k).period ≠ 0 → (l.foldl takeLinkExpiries s).periodDue k = false) ∧
        (s.stallDue k = true → (s.link k).frame ≠ none → (l.foldl takeLinkExpiries s).stallDue k = false)) := by
  induction l generalizing s with
  | nil => exact ⟨rfl, fun _ => ⟨fun _ => rfl, fun h => (nomatch h)⟩⟩
  | cons j l ih =>
    obtain ⟨hj, hn⟩ := List.nodup_cons.mp hn
    obtain ⟨hr, hk⟩ := ih (s.takeLinkExpiries j) hn
    have hs := takeLinkExpiries_link s j
    rw [List.foldl_cons]
    generalize s.takeLinkExpiries j = u at hr hk hs ⊢
    generalize l.foldl takeLinkExpiries u = v at hr hk ⊢
    refine ⟨hr.trans (hs j).2.1, fun k => ⟨fun h => ?_, fun h => ?_⟩⟩
    · obtain ⟨e, h⟩ := not_or.mp (fun c => h (List.mem_cons.mpr c))
      exact ((hk k).1 h).trans ((hs k).1 e)
    · by_cases e : k = j
      · subst e
        obtain ⟨g, p, st⟩ := due_bare ((hk k).1 hj)
        obtain ⟨_, _, h1, h2, h3⟩ := hs k
        exact ⟨g.trans h1, fun hp => p.trans (h2 hp), fun hs hf => st.trans (h3 hs hf)⟩
      · have hb := (hs k).1 e
        obtain ⟨_, _, st⟩ := due_bare hb
        obtain ⟨_, _, _, _, _, _, p, fr⟩ := Link.bare_fields hb
        obtain ⟨h1, h2, h3⟩ := (hk k).2 ((List.mem_cons.mp h).resolve_left e)
        exact ⟨h1, fun hp => h2 (p ▸ hp), fun hs hf => h3 (st ▸ hs) (fr ▸ hf)⟩

/-! ### The expiries of cohorts and of the feed -/

/-- The expiry of one cohort's window changes slots, that cohort and the queue, and leaves the cohort OPEN (R62, R63). -/
theorem windowExpiry_spec (s : State) (c : CohortId) :
    s.windowExpiry c = { s with
      slots := (s.windowExpiry c).slots, cohorts := (s.windowExpiry c).cohorts, events := (s.windowExpiry c).events } ∧
    (s.windowExpiry c).windowDue c = false ∧ ∀ d, d ≠ c → (s.windowExpiry c).cohort d = s.cohort d := by
  unfold windowExpiry
  split
  · split
    · unfold partialPublish; simp only []; rw [publishSeals_only]
      exact ⟨rfl, by simp [windowDue], fun d e => by simp [cohort_setCohort, e]; rfl⟩
    · unfold cohortDiscard; simp only []; rw [discardSeals_only]
      exact ⟨rfl, by simp [windowDue], fun d e => by simp [cohort_setCohort, e]; rfl⟩
  · rename_i h; exact ⟨rfl, by simpa using h, fun _ _ => rfl⟩

/-- The expiries of a list of cohorts leave none of their windows due (R62). -/
theorem windows_spec (l : List CohortId) (s : State) (hn : l.Nodup) :
    l.foldl windowExpiry s = { s with
      slots := (l.foldl windowExpiry s).slots, cohorts := (l.foldl windowExpiry s).cohorts
      events := (l.foldl windowExpiry s).events } ∧
    ∀ c, (c ∉ l → (l.foldl windowExpiry s).cohort c = s.cohort c) ∧ (c ∈ l → (l.foldl windowExpiry s).windowDue c = false) := by
  induction l generalizing s with
  | nil => exact ⟨rfl, fun _ => ⟨fun _ => rfl, fun h => (nomatch h)⟩⟩
  | cons d l ih =>
    obtain ⟨hd, hn⟩ := List.nodup_cons.mp hn
    obtain ⟨h1, h2⟩ := ih (s.windowExpiry d) hn
    obtain ⟨g1, g2, g3⟩ := windowExpiry_spec s d
    rw [List.foldl_cons]
    generalize s.windowExpiry d = u at h1 h2 g1 g2 g3 ⊢
    generalize l.foldl windowExpiry u = v at h1 h2 ⊢
    refine ⟨h1.trans (by rw [g1]), fun c => ⟨fun h => ?_, fun h => ?_⟩⟩
    · obtain ⟨e, h⟩ := not_or.mp (fun x => h (List.mem_cons.mpr x))
      exact ((h2 c).1 h).trans (g3 c e)
    · by_cases e : c = d
      · subst e
        have hnow : v.now = u.now := by rw [h1]; rfl
        unfold windowDue at g2 ⊢
        rw [(h2 c).1 hd, hnow]; exact g2
      · exact (h2 c).2 ((List.mem_cons.mp h).resolve_left e)

/-- The idle timer's expiry changes slots, the feed and the queue, and leaves it not due (R135). -/
theorem feedExpiry_spec (s : State) :
    s.feedExpiry = { s with slots := s.feedExpiry.slots, feed := s.feedExpiry.feed, events := s.feedExpiry.events } ∧
    s.feedExpiry.feedDue = false := by
  unfold feedExpiry
  split
  · rw [abandon_only]; exact ⟨rfl, by simp [feedDue, setFeed]⟩
  · rename_i h; exact ⟨rfl, by simpa using h⟩

/-! ### All expiries -/

/-- The expiries that are taken are the commands of the expiries, one after the other (log 2). -/
theorem afterExpiries_eq (s : State) : s.afterExpiries = .next s.takeExpiries := by
  have hlinks : List.finRange 6 = allLinks := by decide
  have hcohorts : List.finRange 4 = allCohorts := by decide
  unfold afterExpiries expiryCommands
  rw [hlinks, hcohorts]
  simp only [allLinks, allCohorts, List.flatMap_cons, List.flatMap_nil, List.map_cons, List.map_nil, List.cons_append,
    List.nil_append, List.foldl_cons, List.foldl_nil, Result.andThen, exec, execStallAbort, execAbortWordGiveUp,
    execPeriodExpiry, execWindowExpiry, execFeedIdleExpiry, takeExpiries, takeLinkExpiries]

/-- With nothing due no expiry is taken. -/
theorem takeExpiries_none (s : State) (h : s.nothingDue) : s.takeExpiries = s := by
  obtain ⟨hl, hc, hf⟩ := h
  have links : allLinks.foldl takeLinkExpiries s = s :=
    foldl_keeps (· = s) _ allLinks (fun t k _ e => by
      subst e; simp [takeLinkExpiries, stallAbort, giveUp, periodExpiry, hl k]) s rfl
  have cohorts : allCohorts.foldl windowExpiry s = s :=
    foldl_keeps (· = s) _ allCohorts (fun t c _ e => by subst e; simp [windowExpiry, hc c]) s rfl
  simp [takeExpiries, links, cohorts, feedExpiry, hf]

/-- No expiry outlives the moment at which the expiries are taken, which leaves the timebase as it is (R141). -/
theorem takeExpiries_spec (s : State) :
    s.takeExpiries.timebase = s.timebase ∧ (∀ c, s.takeExpiries.windowDue c = false) ∧ s.takeExpiries.feedDue = false ∧
    ∀ k, s.takeExpiries.giveUpDue k = false ∧ ((s.link k).period ≠ 0 → s.takeExpiries.periodDue k = false) ∧
      (s.stallDue k = true → (s.link k).frame ≠ none → s.takeExpiries.stallDue k = false) := by
  obtain ⟨hr, hk⟩ := takeLinks_link allLinks s (by decide)
  unfold takeExpiries
  generalize allLinks.foldl takeLinkExpiries s = a at hr hk ⊢
  obtain ⟨hw, hc⟩ := windows_spec allCohorts a (by decide)
  generalize allCohorts.foldl windowExpiry a = b at hw hc ⊢
  obtain ⟨hf, hd⟩ := feedExpiry_spec b
  have hlinks : b.feedExpiry.links = a.links := by rw [hf, hw]
  have hcohorts : b.feedExpiry.cohorts = b.cohorts := by rw [hf]
  have htime : b.feedExpiry.timebase = b.timebase := by rw [hf]
  have htime' : b.timebase = s.timebase := by rw [hw]; exact congrArg Prod.fst hr
  refine ⟨htime.trans htime', fun c => ?_, hd, fun k => ?_⟩
  · have e : b.feedExpiry.windowDue c = b.windowDue c := by unfold windowDue cohort now; rw [hcohorts, htime]
    exact e.trans ((hc c).2 (mem_allCohorts c))
  · have e : b.feedExpiry.link k = a.link k := by unfold link; rw [hlinks]
    obtain ⟨e1, e2, e3⟩ := due_bare (congrArg Link.bare e)
    obtain ⟨h1, h2, h3⟩ := (hk k).2 (mem_allLinks k)
    exact ⟨e1.trans h1, fun h => e2.trans (h2 h), fun h hf => e3.trans (h3 h hf)⟩

end State

/-- A tick at the links of a list changes those links, each once, and nothing else (R93, R120, R122). -/
theorem foldl_tickLink (ready : BitVec 6) : ∀ (l : List LinkId) (s : State), l.Nodup →
    (∀ k, (l.foldl (State.tickLink ready) s).link k =
      if k ∈ l then (s.link k).tickPeriod.tickStall (ready.getLsbD k.val) else s.link k) ∧
    l.foldl (State.tickLink ready) s = { s with links := (l.foldl (State.tickLink ready) s).links }
  | [], _, _ => ⟨fun k => by simp, rfl⟩
  | j :: l, s, hn => by
    obtain ⟨hj, hn⟩ := List.nodup_cons.mp hn
    obtain ⟨hk, ht⟩ := foldl_tickLink ready l (s.tickLink ready j) hn
    refine ⟨fun k => ?_, ht⟩
    rw [List.foldl_cons, hk k]
    by_cases e : k = j
    · subst e; simp [hj, State.tickLink]
    · simp [e, State.tickLink, State.link_setLink]

/-- The tick after the expiries reaches every link once, and changes the timebase, the READY pins, the links and the feed
only (R139, R141). -/
theorem advanceTime_spec (ready : BitVec 6) (s : State) :
    (∀ k, (s.advanceTime ready).link k = (s.link k).tickPeriod.tickStall (ready.getLsbD k.val)) ∧
    s.advanceTime ready = { s with
      timebase := { s.timebase with counter := s.timebase.counter + 1, inForce := s.timebase.prescale, divider := 0 }
      links := (s.advanceTime ready).links, readyPins := ready
      feed := { s.feed with
        idleCount := if s.feed.state = .opened then s.feed.idleCount + 1 else s.feed.idleCount } } := by
  have hfeed : ∀ t : State, t.tickFeed = { t with
      feed := { t.feed with
        idleCount := if t.feed.state = .opened then t.feed.idleCount + 1 else t.feed.idleCount } } := fun t => by
    unfold State.tickFeed; split <;> rename_i h
    · simp only [h, if_true]; rfl
    · rw [if_neg (by rw [h]; decide)]
  obtain ⟨hk, ht⟩ := foldl_tickLink ready allLinks { s with
    timebase := { s.timebase with counter := s.timebase.counter + 1, inForce := s.timebase.prescale, divider := 0 }
    readyPins := ready } (by decide)
  constructor
  · intro k
    have hm : k ∈ allLinks := by revert k; decide
    unfold State.advanceTime
    rw [hfeed]
    exact (hk k).trans (if_pos hm)
  · unfold State.advanceTime
    rw [hfeed, ht]

end Sys2Proof.Machine
end

