-- ==== Sys2Proof/WellFormed.lean ====
section
/-! DEFINITION. One spelling for each host write: REGISTER_WRITE spells the writes that no other row spells. A command
that is not well formed still has its meaning, the one the register has (log 10). -/

namespace Sys2Proof

/-- Words with a row of their own for every write to them: GLOBAL_CONTROL, GLOBAL_STATUS, EVENT_MASK, EVENT_POP, RESULT,
the trigger registers, SLOT_SELECT, the feed's STATUS and DATA, and the schedule memory (§11.2 to §11.7). -/
def hasRow (a : BitVec 12) : Bool :=
  let n := a.toNat
  n = 0x001 || n = 0x002 || n = 0x006 || n = 0x009 || n = 0x108 || (0x110 ≤ n && n ≤ 0x11D) || n = 0x140 || n = 0x220 ||
    n = 0x224 || 0x800 ≤ n

/-- The elements of an array of groups have a row of their own at one place each: PORT_STATUS0 of the capture ports, STATUS
and ADDR of the handles (§11.2, §11.6). -/
def hasGroupRow (a : BitVec 12) : Bool :=
  let n := a.toNat
  (0x010 ≤ n && n < 0x040 && n % 4 = 0) || (0x200 ≤ n && n < 0x220 && (n % 16 = 0 || n % 16 = 5))

/-- A command is spelt by its own row. -/
def Instr.wf : Instr → Bool
  | .registerWrite a _ => !hasRow a && !hasGroupRow a
  | _ => true

end Sys2Proof
end

