-- ==== Sys2Proof/Tests/Slice0.lean ====
section
/-! SUPPORT. Tests: the well-formedness check, worked examples of the spec, and for every statement with hypotheses a state
that meets all of them together (theorems test_meets_<statement>), with the outcome where it is short. -/

set_option Elab.async false

namespace Sys2Proof.Machine.Tests

/-! ### Small states -/

/-- The state a command answers; the reset state where it stops. -/
def after (r : Result) : State := match r with
  | .next t => t
  | .fault _ | .refused _ => State.reset

/-- A result that is a next state is the one that `after` gives. -/
theorem after_eq (r : Result) (h : ∀ t, r ≠ .fault t) (h' : ∀ t, r ≠ .refused t) : r = .next (after r) := by
  cases r with
  | next t => rfl
  | fault f => exact absurd rfl (h f)
  | refused f => exact absurd rfl (h' f)

/-- A command answers a next state with a property. -/
def holds (r : Result) (p : State → Bool) : Bool := match r with
  | .next t => p t
  | .fault _ | .refused _ => false

/-- A command changes nothing. -/
def idle (c : Instr) (s : State) : Bool := holds (exec c s) (fun t => t = s)

/-- Argument registers given. -/
def args (s : State) (a b c d e f : Word) : State :=
  { s with cmd := { s.cmd with args := ⟨#[a, b, c, d, e, f], rfl⟩ } }

/-- A generation record. -/
def gen (st : GenState) (seq : Word) (pins words : Nat) : Gen :=
  { Gen.blank 0 with state := st, seq := seq, pins := pins, words := words, head := some 7 }

/-- An ACTIVE slot of three generations with a window of four words. -/
def slot (src : Source) (a b c : Gen) (newest : Option GenId) : Slot :=
  { Slot.reset with
    state := .active, source := src, length := 4, depth := 3, decimate := 1, ppg := 1, nextSeq := 8, newest := newest,
    gens := ⟨#[a, b, c, Gen.blank 0, Gen.blank 0], rfl⟩ }

/-- READY generations 5, 6 and 7, the last of them NEWEST, bound to port 2. -/
def ready : Slot := slot (.port 2) (gen .ready 5 0 4) (gen .ready 6 0 4) (gen .ready 7 0 4) (some 2)
/-- The same with generation 0 FILLING, two words written. -/
def filling (src : Source) : Slot := slot src (gen .filling 5 0 2) (gen .ready 6 0 4) (gen .ready 7 0 4) (some 2)

/-- Slot 5 is the slot given. -/
def with5 (x : Slot) : State := State.reset.setSlot 5 x

/-- A FIFO entry. -/
def entry (w : Word) (start last error brk : Bool) : FifoEntry :=
  { word := w, tag := 0x31, start := start, last := last, error := error, arrived := 9, brk := brk }

/-- Port 2 with a FIFO, a framing state and the FILL set of slot 5's generation 0. -/
def port2 (s : State) (st : PortState) (fifo : List FifoEntry) (index : Nat) (member : Bool) : State :=
  s.setPort 2 { Port.reset with
    enable := true, awaitStart := false, state := st, fifo := fifo, wordIndex := index,
    fill := if member then [{ slot := 5, gen := 0, fill := 0 }] else [] }

/-- A cohort 1 that gathers with slot 5 sealed. -/
def gathering (pol : Policy) : State :=
  let x := { slot (.port 2) (gen .sealed 5 0 3) (gen .ready 6 0 4) (gen .ready 7 0 4) (some 2) with cohort := some 1 }
  (with5 x).setCohort 1 { Cohort.reset with
    state := .gathering, window := 500, policy := pol, epoch := 7, members := 0x60, sealed := 0x20 }

/-- Schedule entries 0 to 2: EMIT of slot 5, EMIT_FRESH of slot 6, FRAME_END. -/
def scheduled (s : State) : State :=
  { s with schedule := [(0, 0x50#32), (1, 0x2#32), (2, 0x61#32), (4, 0x2#32)] }

/-- The program of those entries. -/
def prog : Program := { base := 0, len := 3, tag := 0x201 }

/-- Link 1 in a state, running that program. -/
def linkIn (st : LinkState) : Link :=
  { Link.reset with state := st, active := prog, period := 100, remain := 0, sync := 0x5A5A0F0F, stallLimit := 40 }

/-- The item of slot 5 with no data word. -/
def item : Item :=
  { entry := 0, kind := .data, slot := 5, seq := 7, stamp := 0, isShort := true, isPartial := false, n := 0, first := 0 }

/-- The frame in flight of that item, with `placed` and `taken` words; 8 words in all. -/
def frame (placed taken : Nat) : Frame :=
  { number := 20, cycle := 3, tag := 0x201, begun := 0, next := 3, placed := placed, taken := taken, crc := crcStart }

/-- Link 1 with that frame on the line. -/
def driving (placed taken : Nat) (buffer : List Word) : Link :=
  { linkIn .frame with frame := some (frame placed taken), items := [item], buffer := buffer, line := .drive }

/-- Link 1 with the abort word waiting. -/
def aborted (st : LinkState) : Link :=
  { linkIn st with frame := some (frame 8 7), items := [item], line := .abort, abortWord := some 0xA5A5F0F0 }

/-- A state with link 1 given. -/
def with1 (l : Link) : State := State.reset.setLink 1 l

/-- An open feed on slot 5, generation 0. -/
def feeding (x : Slot) (index count : Nat) : State :=
  (with5 x).setFeed { Feed.reset with
    state := .opened, slot := 5, gen := 0, wordIndex := index, idleLimit := 50, idleCount := count }

/-- The unit BUSY with a check of that program at a position. -/
def checking (kind : LongCommand) (pos items : Nat) : State :=
  let s := scheduled State.reset
  { s with
    check := some { link := 1, kind := kind, prog := prog, pos := pos, slots := [], run := 5, items := items }
    cmd := { s.cmd with
      state := .busy
      running := some { command := kind, args := ⟨#[1, 0x30000, 0x201, 1000, 0x5A5A0F0F, 40], rfl⟩, began := 0 } } }

/-- Pages 0 and 1 on the free list, and pages 7, 8 and 9 as the chains of slot 5's three generations. -/
def chained (x : Slot) : State :=
  let y := (x.setGen 1 { x.gen 1 with head := some 8 }).setGen 2 { x.gen 2 with head := some 9 }
  (with5 y).setPool
    { head := some 0, tail := some 1, count := 2, next := [(1, none), (7, none), (8, none), (9, none)], alloc := none }

/-- Those chains. -/
def threeChains (_ : SlotId) (g : GenId) : List PageId := if g = 0 then [7] else if g = 1 then [8] else if g = 2 then [9] else []

/-- The three chains of `chained` meet what the return of chains asks for, and page 9 comes to stand at TAIL. -/
theorem test_chained_lists (x : Slot) (hd : x.depth = 3) (hp : x.ppg = 1) (h0 : (x.gen 0).head = some 7) :
    freeList (chained x).pool [0, 1] ∧
    (∀ g : GenId, g.val < ((chained x).slot 5).depth → threeChains 5 g ≠ [] ∧
      (threeChains 5 g).length = ((chained x).slot 5).ppg ∧
      linkedList (chained x).pool (((chained x).slot 5).gen g).head (threeChains 5 g)) ∧
    (chained x).memoriesWf = true := by
  have hs : (chained x).slot 5 = (x.setGen 1 { x.gen 1 with head := some 8 }).setGen 2 { x.gen 2 with head := some 9 } := rfl
  refine ⟨⟨⟨rfl, rfl, rfl⟩, rfl, rfl⟩, fun g hg => ?_, rfl⟩
  rw [hs] at hg ⊢
  have hg' : g.val < 3 := lt_of_lt_of_eq hg hd
  rw [show ((x.setGen 1 { x.gen 1 with head := some 8 }).setGen 2 { x.gen 2 with head := some 9 }).ppg = 1 from hp]
  have hg'' : g = 0 ∨ g = 1 ∨ g = 2 := (show ∀ g : GenId, g.val < 3 → g = 0 ∨ g = 1 ∨ g = 2 by decide) g hg'
  rcases hg'' with rfl | rfl | rfl <;> simp only [Slot.gen_setGen]
  · exact ⟨by decide, rfl, h0, rfl⟩
  · exact ⟨by decide, rfl, rfl, rfl⟩
  · exact ⟨by decide, rfl, rfl, rfl⟩

/-- Page 7 holds four words. -/
def stored (s : State) : State := { s with store := [(224, 11#32), (225, 12#32), (226, 13#32), (227, 14#32)] }

/-! ### Well-formedness -/

theorem test_wf_trigger_written_as_a_register_is_ill_formed : (Instr.registerWrite 0x110 1).wf = false := by decide
theorem test_wf_port_status_written_as_a_register_is_ill_formed : (Instr.registerWrite 0x018 8).wf = false := by decide
theorem test_wf_handle_address_written_as_a_register_is_ill_formed : (Instr.registerWrite 0x215 3).wf = false := by decide
theorem test_wf_argument_register : (Instr.registerWrite 0x100 1).wf = true := by decide
theorem test_wf_capture_enable : (Instr.registerWrite 0x005 0xFFF).wf = true := by decide

/-! ### Worked examples of the spec -/

/-- §11.10: an ITEM_MARK of link 3 for entry 102, SEQ 41, queued at tick 0x0001F3A0. -/
theorem test_event_head_words :
    (let r : EventRecord := { kind := .itemMark, object := BitVec.ofNat 16 (markObject 3 102), arg := 41, reason := 0,
                              stamp := 0x0001F3A0 }
     (r.headWord 0, r.headWord 1, r.headWord 2)) = (0x0001000A#32, 0xF3A03066#32, 0x29#32) := by decide +kernel

/-- §2.6: word 70 of the chain 12, 9, 301 is at store address 9638 (R32). -/
theorem test_word_address :
    (let s := (with5 { ready with ppg := 3 }).setPool
        { Pool.reset with next := [(9, some 301), (12, some 9), (301, none)] }
     (s.setSlot 5 ((s.slot 5).setGen 0 { (s.slot 5).gen 0 with head := some 12 })).wordAddress 5 0 70) = some 9638 := by
  decide +kernel

/-- §1.9 step 10: with every other generation pinned, a request is an overrun with ARG = SEQ of NEWEST. -/
theorem test_overrun_with_every_candidate_pinned :
    (let s := (with5 (slot (.port 2) (gen .ready 1 1 4) (gen .ready 2 1 4) (gen .ready 3 0 4) (some 2))).requestTarget 5 0 0
     ((s.slot 5).overruns, s.events.records.map EventRecord.arg)) = (1, [3#32]) := by decide +kernel

/-- §1.9 step 12: the one unpinned READY generation that is not NEWEST is taken and keeps its SEQ. -/
theorem test_target_is_the_free_candidate :
    (let x := slot (.port 2) (gen .ready 1 0 4) (gen .ready 2 1 4) (gen .ready 3 0 4) (some 2)
     (x.target, ((with5 x).requestTarget 5 0 0 |>.slot 5 |>.gen 0).seq)) = (some 0, 1#32) := by decide +kernel

/-- §5.6: after a power-on reset a program of six entries fails FRAME_TOO_LONG at its fourth. -/
theorem test_zero_program_is_too_long :
    (let s := { State.reset with check := some { link := 0, kind := .load, prog := { base := 200, len := 6, tag := 0 },
                                                 pos := 0, slots := [], run := 5, items := 0 } }
     (s.checkExamine.checkExamine.checkExamine.checkExamine).cmd.detail) = 0x000600CB#32 := by decide +kernel

/-- The CRC of one zero word from the start value, bits fed most significant first (R119). -/
theorem test_crc_of_a_zero_word : crcWord crcStart 0 = 0xC704DD7B#32 := by decide +kernel

/-- §9.9: a group of records that meets a nearly full queue loses its last ones. -/
theorem test_full_queue_counts_lost :
    (let q : EventQueue := { records := List.replicate 63 ⟨.frameSlip, 0, 0, 0, 0⟩, mask := Config.maskBits, lost := 0,
                             irqEnable := true }
     let r : EventRecord := ⟨.genAbandoned, 4, 0, 8, 9000⟩
     ((q.takeAll [r, r, r]).records.length, (q.takeAll [r, r, r]).lost)) = (64, 2) := by decide +kernel

/-- §3.11: the loss of a transfer marks the tail entry and sets OVERFLOWED. -/
theorem test_full_fifo_marks_its_tail :
    (let s := port2 State.reset .inBlock (List.replicate 32 (entry 0 false false false false)) 0 false
     let t := s.intake 2 { word := 1, tag := 0, start := false, last := false, error := false }
     ((t.port 2).overflowed, (t.port 2).fifo.length, ((t.port 2).fifo.getLast?.map FifoEntry.brk))) =
      (true, 32, some true) := by decide +kernel

/-- No row of the table gives bits: no word spells a command (log 25). -/
theorem test_no_word_spells_a_command : decodeTableWord 32 0x12345678 = none := rfl

/-! ### States that meet the statements' hypotheses -/

/-- A queue with a command at its front. -/
theorem test_meets_StepRunsTheFrontCommand :
    (({ State.reset with pending := [.eventPop, .pageTake] } : State).pending = .eventPop :: [.pageTake]) ∧
    holds (step { State.reset with pending := [.eventPop, .pageTake] }) (fun t => t.pending = [.pageTake]) = true := by decide +kernel

/-- An empty queue, with the interval going on, at its end, and with the pin asserted; the tick that ends an interval begins
the frame whose period it ends; a period expiry and a stall that a TICK has left are taken before a cycle is counted. -/
theorem test_meets_EmptyQueueIsOneClockCycle :
    State.reset.pending = [] ∧ State.reset.resetPhase ≠ .held ∧ State.reset.timebase.divider + 1 < cyclesOf State.reset.timebase.inForce ∧
    (let s : State := { State.reset with timebase := { counter := 4, prescale := 3, inForce := 7, divider := 6 } }
     s.pending = [] ∧ cyclesOf s.timebase.inForce ≤ s.timebase.divider + 1 ∧
       holds (step s) (fun t => t.timebase = { counter := 5, prescale := 3, inForce := 3, divider := 0 }) = true) ∧
    ({ State.reset with resetPhase := .held } : State).pending = [] ∧
    holds (step { with1 { linkIn .wait with remain := 1 } with timebase := { State.reset.timebase with divider := 99 } }) (fun t =>
      (t.link 1).state = .frame && (t.link 1).remain = 100 && (t.link 1).frame.map Frame.begun = some 1 &&
        t.timebase.divider = 0 && !t.periodDue 1) = true ∧
    (let s := with1 (linkIn .wait)
     s.periodDue 1 = true ∧ (s.link 1).period ≠ 0 ∧
       holds (step s) (fun t => (t.link 1).state = .frame && (t.link 1).remain = 100 && t.now = 0 && t.timebase.divider = 1) = true) ∧
    (let s := with1 { driving 3 1 [8, 9] with stallTimer := 40, remain := 5 }
     s.stallDue 1 = true ∧ (s.link 1).frame ≠ none ∧
       holds (step s) (fun t => (t.link 1).line = .abort && t.timebase.divider = 1) = true) := by decide +kernel

/-- A device reset starts; the bit clear; a reset in progress; the pin asserted. -/
theorem test_meets_GlobalControlWrites :
    ((State.reset).resetPhase = .none ∧ (State.reset).waitLine = false) ∧ (0x00640001#32).getLsbD 0 = true ∧ (0x00640002#32).getLsbD 0 = false ∧
    ({ State.reset with resetPhase := .running 4 false } : State).waitLine = false ∧
    holds (exec (.resetDevice 0x00050003) (feeding ready 2 0)) (fun t => t.feed = Feed.reset && t.timebase.prescale = 5 && t.events.irqEnable && t.pool.count = 0) = true := by decide +kernel

/-- A held handle read, and a pin that is asserted. -/
theorem test_meets_PowerOnResetStartsAndIsReleased :
    ((State.reset.setHandle 0 { Handle.reset with req := some { slot := 5, gen := 0, pos := 0 } }).handle 0).req ≠ none ∧
    holds (exec .resetRelease { State.reset with resetPhase := .held }) (fun t => t.resetPhase = .running 0 true) = true := by decide +kernel

/-- A reset in progress and a discarded write. -/
theorem test_meets_DroppedAndDiscardedWrites :
    ((checking .load 0 0).resetPhase = .none ∧ (checking .load 0 0).waitLine = false ∧ (checking .load 0 0).cmd.state = .busy ∧
      isTrigger .handlePin = true) ∧
    ({ State.reset with resetPhase := .running 4 false } : State).resetPhase ≠ .none ∧ isDiscardedInReset .eventPop = true ∧
    isDiscardedInReset .slotConfigure = true ∧ isDiscardedInReset (.registerWrite 0x100 1) = true ∧
    isDiscardedInReset (.registerWrite 0x006 1) = false := by decide +kernel

/-- The first page, a page in the middle and the last page of a rebuild, and the clearing before and after it. -/
theorem test_meets_ResetWorkStepByStep :
    (let s : State := { State.reset with
       resetPhase := .running 0 false, pool := { Pool.reset with head := none, tail := none, count := 0 } }
     s.memoriesWf = true ∧ s.pool.tail ≠ some ⟨0, by decide⟩ ∧
       holds (exec .rebuildLinkPage s) (fun t => t.pool.head = some 0 && t.pool.tail = some 0 && t.pool.count = 1) = true) ∧
    (let s : State := { State.reset with
       resetPhase := .running 2047 false, pool := { Pool.reset with tail := some 2046, count := 2047 } }
     s.memoriesWf = true ∧ s.pool.tail ≠ some ⟨2047, by decide⟩ ∧
       holds (exec .rebuildLinkPage s) (fun t => t.resetPhase = .none && t.pool = Pool.reset) = true) ∧
    holds (exec .scheduleClear { scheduled State.reset with resetPhase := .running 2048 true })
      (fun t => t.resetPhase = .none && t.schedule = []) = true ∧
    holds (exec .scheduleClear { scheduled State.reset with resetPhase := .running 7 true })
      (fun t => t.resetPhase = .running 7 false) = true ∧
    idle .rebuildLinkPage State.reset = true ∧ idle .scheduleClear State.reset = true ∧
    idle .rebuildLinkPage { scheduled State.reset with resetPhase := .running 2048 true } = true ∧
    idle .scheduleClear { scheduled State.reset with resetPhase := .running 2047 false } = true := by decide +kernel

/-- Nothing held, out of reset and during one. -/
theorem test_meets_FlagAndFieldWrites :
    ((State.reset).resetPhase = .none ∧ (State.reset).waitLine = false) ∧ ({ State.reset with resetPhase := .running 4 false } : State).waitLine = false ∧
    holds (exec (.handleAddrWrite 1 0x43E) State.reset) (fun t => (t.handle 1).addr = 62) = true ∧
    holds (exec (.overflowedClear 2 true) (State.reset.setPort 2 { Port.reset with overflowed := true })) (fun t => (t.port 2).overflowed = false) = true := by decide +kernel

/-- The enables of two ports and the disable of a third, an argument register, and a location of each kind. -/
theorem test_meets_WindowWrites :
    ((State.reset).resetPhase = .none ∧ (State.reset).waitLine = false) ∧
    holds (exec (.registerWrite 0x005 0x804) (State.reset.setPort 3 { Port.reset with enable := true }))
      (fun t => (t.port 2).enable && (t.port 11).enable && !(t.port 3).enable) = true ∧
    holds (exec (.registerWrite 0x105 9) (checking .load 0 0)) (fun t => t.arg 5 = 9) = true ∧
    holds (exec (.registerWrite 0x038 8) (State.reset.setPort 10 { Port.reset with overflowed := true })) (fun t => !(t.port 10).overflowed) = true ∧
    holds (exec (.registerWrite 0x03B 8) State.reset) (fun t => t = State.reset) = true ∧
    holds (exec (.registerWrite 0xFFF 0xFFFFFFFF) State.reset) (fun t => t.schedule = [(2047, 0xFFFF07FF)]) = true := by decide +kernel

/-- A feed write held by the wait line, and the FEED_CLOSE after it: the one grant it waits for stores the word, and the close
counts it. -/
def heldWrite : State :=
  (feeding (filling .feed) 2 7).setFeed
    { (feeding (filling .feed) 2 7).feed with req := some { slot := 5, gen := 0, pos := 2, word := 99, fill := 0 } }

/-- The held write, the grant that ends it, and what a close taken meanwhile answers. -/
theorem test_meets_WindowWrites_held :
    (heldWrite.resetPhase = .none ∧ isHostAccess .feedClose = true ∧ heldWrite.grants 1 (after (exec .storeGrant heldWrite)) ∧
      (after (exec .storeGrant heldWrite)).waitLine = false) ∧
    holds (exec .feedClose heldWrite) (fun t => t.cmd.detail = 3 && ((t.slot 5).gen 0).words = 3 && t.store = [(226, 99#32)]) = true := by
  refine ⟨⟨rfl, rfl, ⟨by decide +kernel, _, ?_, rfl⟩, by decide +kernel⟩, by decide +kernel⟩
  have h : holds (exec .storeGrant heldWrite) (fun _ => true) = true := by decide +kernel
  exact after_eq _ (fun f e => by rw [e] at h; exact nomatch h) (fun f e => by rw [e] at h; exact nomatch h)

/-- A state out of reset whose view shows a slot with one record past DEPTH, the number past the last slot, and the pin
asserted. -/
theorem test_meets_WindowReadsAfterPowerOnReset :
    (let s := { with5 { ready with cohort := some 3 } with slotSelect := 5 }
     s.resetPhase ≠ .held ∧ s.readWord 0x141 = 0x02020332 ∧ s.readWord 0x150 = 3 ∧ s.readWord 0x164 = 7 ∧
       s.readWord 0x168 = 0 ∧ s.readWord 0x16C = 0xFFF) ∧
    ({ with5 ready with slotSelect := 32 } : State).readWord 0x141 = 0 ∧
    ({ with5 ready with slotSelect := 32 } : State).readWord 0x140 = 32 ∧
    ({ with5 ready with resetPhase := .held } : State).readWord 0x145 = 0 ∧
    hasFields ((gathering .publish).readWord 0x048) [(0, 0, 1), (1, 1, 0), (13, 8, 2), (31, 16, 7)] := by
  refine ⟨by decide +kernel, by decide +kernel, by decide +kernel, ?_⟩
  unfold hasFields; decide +kernel

/-- One set of arguments for each check that fails. -/
theorem test_meets_ConfigureChecksInOrder :
    ((State.reset).resetPhase = .none ∧ (State.reset).waitLine = false ∧ (State.reset).cmd.state = .idle) ∧
    holds (exec .slotConfigure (args State.reset 32 0 0 0 0 0)) (fun t => t.cmd.code = .badArg && t.cmd.detail = 1) = true ∧
    holds (exec .slotConfigure (args (with5 ready) 5 0 0 0 0 0)) (fun t => t.cmd.code = .state && t.cmd.detail = 2) = true ∧
    holds (exec .slotConfigure (args State.reset 5 12 0 0 0 0)) (fun t => t.cmd.code = .badArg && t.cmd.detail = 3) = true ∧
    holds (exec .slotConfigure (args State.reset 5 16 0x04010000 0 0 0)) (fun t => t.cmd.code = .badArg && t.cmd.detail = 4) = true ∧
    holds (exec .slotConfigure (args State.reset 5 16 0x04000001 0 0 0)) (fun t => t.cmd.code = .badArg && t.cmd.detail = 4) = true ∧
    holds (exec .slotConfigure (args State.reset 5 16 0x00200000 1 0 0)) (fun t => t.cmd.code = .badArg && t.cmd.detail = 5) = true ∧
    holds (exec .slotConfigure (args State.reset 5 16 0x00200000 6 0 0)) (fun t => t.cmd.code = .badArg && t.cmd.detail = 5) = true ∧
    holds (exec .slotConfigure (args State.reset 5 16 0x00200000 3 0 0)) (fun t => t.cmd.code = .badArg && t.cmd.detail = 6) = true ∧
    holds (exec .slotConfigure (args State.reset 5 16 0x00200000 0x04000103 0 0)) (fun t => t.cmd.code = .badArg && t.cmd.detail = 7) = true ∧
    holds (exec .slotConfigure (args State.reset 5 16 0x00200000 0x00000102 0 0)) (fun t => t.cmd.code = .badArg && t.cmd.detail = 8) = true ∧
    holds (exec .slotConfigure ({ args State.reset 5 11 0x00210000 0x07000102 0 0 with pool := { Pool.reset with count := 3 } })) (fun t => t.cmd.code = .noPages && t.cmd.detail = 9) = true := by decide +kernel

/-- Arguments that pass every check, with a cohort. -/
theorem test_meets_ConfigureOpensTheAllocation :
    (let s := args State.reset 5 2 0x04000000 0x03010005 0 0
     s.resetPhase = .none ∧ s.waitLine = false ∧ s.cmd.state = .idle ∧ (s.arg 0).toNat = 5 ∧ (s.slot 5).state = .unused ∧
       configureArgs (s.arg 1) (s.arg 2) (s.arg 3) =
         .ok { source := .port 2, offset := 0, length := 1024, depth := 5, decimate := 256, cohort := some 3 } ∧
       160 ≤ s.pool.count) ∧
    holds (exec .slotConfigure (args State.reset 5 2 0x04000000 0x03010005 0 0))
      (fun t => (t.slot 5).ppg = 32 && (t.cohort 3).members = 0x20 && t.cmd.state = .busy) = true := by decide +kernel

/-- A take in the middle of a chain, one that completes a chain, the last of a slot, and none in progress. -/
theorem test_meets_PageTakeMovesTheHeadPage :
    (let s (taken remaining : Nat) : State := (with5 { ready with state := .configuring, ppg := 2 }).setPool
       { Pool.reset with
         alloc := some { slot := 5, gen := 1, taken := taken, first := some 300, last := some 301, remaining := remaining } }
     (s 0 4).memoriesWf = true ∧ (s 0 4).pool.head = some 0 ∧
       holds (exec .pageTake (s 0 4)) (fun t => t.pool.head = some 1 && t.pool.nextOf 301 = some 0 && t.pool.count = 2047) = true ∧
       holds (exec .pageTake (s 1 3)) (fun t => (t.slot 5).gen 1 = { ready.gen 1 with head := some 300 } &&
         t.pool.alloc.map Alloc.gen = some 2 && (t.slot 5).state = .configuring) = true ∧
       holds (exec .pageTake (s 1 1)) (fun t => t.slot 5 = { ready with ppg := 2, gens := (t.slot 5).gens } &&
         t.pool.alloc = none) = true) ∧
    idle .pageTake State.reset = true := by decide +kernel

/-- An ACTIVE slot, a FROZEN one, and a number out of range. -/
theorem test_meets_FreezeAndThaw :
    holds (exec .slotFreeze (args (with5 ready) 5 0 0 0 0 0)) (fun t => (t.slot 5).state = .frozen && t.cmd.code = .ok) = true ∧
    holds (exec .slotThaw (args (with5 { ready with state := .frozen }) 5 0 0 0 0 0)) (fun t => (t.slot 5).state = .active) = true ∧
    holds (exec .slotThaw (args State.reset 31 0 0 0 0 0)) (fun t => t.cmd.code = .state) = true ∧
    holds (exec .slotFreeze (args State.reset 32 0 0 0 0 0)) (fun t => t.cmd.code = .badArg) = true := by decide +kernel

/-- A slot with a pin, and one with none, whose chains join the free list. -/
theorem test_meets_TeardownDrainsOrReleases :
    (∀ g, ((with5 ready).slot 5).cohort = none ∧ (((with5 ready).slot 5).gen g).pins = 0 ∧
      (((with5 ready).slot 5).gen g).state ≠ .filling ∧ (((with5 ready).slot 5).gen g).state ≠ .sealed ∧
      (g.val < ((with5 ready).slot 5).depth → (((with5 ready).slot 5).gen g).head ≠ none)) ∧
    holds (exec .slotTeardown (args (chained ready) 5 0 0 0 0 0)) (fun t => (t.slot 5).state = .unused && t.pool.count = 5 &&
      t.pool.tail = some 9 && t.pool.nextOf 1 = some 7 && t.pool.nextOf 7 = some 8 && t.pool.nextOf 9 = none) = true ∧
    holds (exec .slotTeardown (args (with5 (slot (.port 2) (gen .ready 5 1 4) (gen .ready 6 0 4) (gen .ready 7 0 4) (some 2))) 5 0 0 0 0 0))
      (fun t => (t.slot 5).state = .draining) = true := by decide +kernel

/-- A slot with a seal, torn down by force with a handle on it: its cohort has no seal left. A slot with a FILLING generation
of a port and one of the feed. A slot without a seal: the two members left are sealed and published. -/
theorem test_meets_TeardownEndsWritersAndSeals :
    (let s := (args (gathering .publish) 5 1 0 0 0 0).setHandle 0 { Handle.reset with state := .held, slot := 5, gen := 2, seq := 7 }
     ((s.slot 5).state = .active ∧ s.oneSeal ∧ (∀ g, ((s.slot 5).gen g).state = .filling ↔ none = some g) ∧
       ∀ g, ((s.slot 5).gen g).state = .sealed ↔ some 0 = some g) ∧
     holds (exec .slotTeardown s) (fun t => (t.handle 0).state = .revoked && (t.slot 5).abandons = 1 && (t.slot 5).state = .unused &&
       (t.cohort 1).state = .idle && (t.cohort 1).members = 0x40 &&
       t.events.records.map (fun r => (r.kind.value, r.arg, r.reason)) = [(3, 3#32, 7#4), (14, 7#32, 0), (4, 3#32, 0)]) = true) ∧
    holds (exec .slotTeardown (args (port2 (with5 (filling (.port 2))) .inBlock [entry 3 false false false false] 2 true) 5 0 0 0 0 0))
      (fun t => (t.port 2).fill = [] && (t.port 2).state = .inBlock && ((t.slot 5).gen 0).state = .empty) = true ∧
    holds (exec .slotTeardown (args (feeding (filling .feed) 2 0) 5 0 0 0 0 0)) (fun t => t.feed.state = .idle &&
      t.events.records.map (fun r => (r.kind.value, r.arg)) = [(3, 2#32), (16, 2#32), (4, 3#32)]) = true ∧
    (let s := ((gathering .publish).setSlot 6 { ready with cohort := some 1 }).setCohort 1 { (gathering .publish).cohort 1 with members := 0x60 }
     holds (exec .slotTeardown (args s 6 0 0 0 0 0)) (fun t => (t.slot 5).newest = some 0 && ((t.slot 5).gen 0).epoch = 7 &&
       (t.cohort 1).epoch = 8 && (t.cohort 1).members = 0x20 && (t.cohort 1).state = .idle &&
       t.events.records.map (fun r => (r.kind.value, r.arg)) = [(4, 3#32), (5, 7#32)]) = true) := by
  unfold State.oneSeal; decide +kernel

/-- Each check that fails, and a command that passes at the ends of its ranges. -/
theorem test_meets_CohortSetSetsWindowAndPolicy :
    holds (exec .cohortSet (args State.reset 3 1048575 1 0 0 0)) (fun t => (t.cohort 3).window = 1048575 && (t.cohort 3).policy = .discard) = true ∧
    holds (exec .cohortSet (args State.reset 4 0 0 0 0 0)) (fun t => t.cmd.detail = 1) = true ∧
    holds (exec .cohortSet (args (gathering .publish) 1 0 0 0 0 0)) (fun t => t.cmd.detail = 2) = true ∧
    holds (exec .cohortSet (args State.reset 3 1048576 0 0 0 0)) (fun t => t.cmd.detail = 3) = true ∧
    holds (exec .cohortSet (args State.reset 3 0 2 0 0 0)) (fun t => t.cmd.detail = 4) = true := by decide +kernel

/-- An expiry that is due under each policy. -/
theorem test_meets_WindowExpiryPublishesOrDiscards :
    (∀ g h, (((gathering .publish).slot 5).gen g).state = .sealed → (((gathering .publish).slot 5).gen h).state = .sealed → g = h) ∧
    (gathering .publish).timebase.counter = ((gathering .publish).cohort 1).deadline ∧
    holds (exec (.windowExpiry 1) (gathering .publish)) (fun t => ((t.slot 5).gen 0).seq = 8 && ((t.slot 5).gen 0).epoch = 7 &&
      ((t.slot 5).gen 0).isPartial && (t.cohort 1).epoch = 8 && (t.slot 5).newest = some 0) = true := by decide +kernel

/-- A discard of one seal. -/
theorem test_meets_DiscardReportsEverySeal :
    ((∀ g, (((gathering .discard).slot 5).gen g).state = .sealed ↔ g = 0) ∧ ((gathering .discard).cohort 1).sealed = 0x20) ∧
    holds (exec (.windowExpiry 1) (gathering .discard)) (fun t => t.events.records.map (fun r => (r.kind.value, r.arg)) = [(3, 3#32), (6, 0#32)] &&
      (t.cohort 1).epoch = 7) = true := by decide +kernel

/-- A port that takes its line, and one that awaits a START. -/
theorem test_meets_IntakeQueuesOrLosesATransfer :
    ((port2 State.reset .idle [] 0 false).port 2).enable = true ∧ ((port2 State.reset .idle [] 0 false).port 2).awaitStart = false ∧
    holds (exec (.captureTransfer 2 { word := 1, tag := 2, start := false, last := false, error := true }) (port2 State.reset .idle [] 0 false))
      (fun t => (t.port 2).fifo.map (fun e => (e.tag, e.error)) = [(0, false)]) = true := by decide +kernel

/-- A START at the head of a port with a bound slot; the same with an END, with a word 0 due to no member, and with a slot that
has no candidate. -/
theorem test_meets_BlockStartOffersTheBlock :
    (let s (x : Slot) (last : Bool) := port2 (with5 x) .idle [entry 3 true last false false] 9 false
     (((s ready false).port 2).fifo = entry 3 true false false false :: [] ∧ ((s ready false).port 2).begun = false ∧
       ((s ready false).port 2).writing = false ∧ ((s ready false).port 2).state ≠ .inBlock ∧ ((s ready false).port 2).fill = []) ∧
     holds (exec (.headTakeStart 2) (s ready false)) (fun t => ((t.slot 5).gen 0).stamp = 9 && ((t.slot 5).gen 0).tag = 0x31 &&
       (t.port 2).blocksSeen = 1 && ((t.port 2).req.map WriteReq.pos) = some 0) = true ∧
     holds (exec (.headTakeStart 2) (s ready true)) (fun t => (t.port 2).begun && (t.port 2).req = none && (t.port 2).fifo.length = 1) = true ∧
     holds (exec (.headTakeStart 2) (s { ready with offset := 1 } false)) (fun t => (t.port 2).wordIndex = 1 && (t.port 2).fifo = [] &&
       (t.port 2).fill.length = 1) = true ∧
     holds (exec (.headTakeStart 2) (s (slot (.port 2) (gen .ready 5 1 4) (gen .ready 6 1 4) (gen .ready 7 0 4) (some 2)) false))
       (fun t => (t.port 2).fill = [] && t.events.records.map (fun r => (r.kind.value, r.arg)) = [(2, 7#32)]) = true) ∧
    (let s (x : Slot) := port2 (with5 x) .discard [entry 3 true false false true] 9 false
     holds (exec (.headTakeStart 2) (s { ready with offset := 1 })) (fun t => (t.port 2).state = .discard && (t.port 2).fill = [] &&
       (t.port 2).fifo = [] && (t.port 2).wordIndex = 1 && ((t.slot 5).gen 0).state = .empty && (t.slot 5).abandons = 1 &&
       t.events.records.map (fun r => (r.kind.value, r.reason)) = [(3, 3)]) = true ∧
     holds (exec (.headTakeStart 2) (s ready)) (fun t => (t.port 2).state = .inBlock && (t.port 2).writing &&
       (t.port 2).fifo.length = 1) = true) ∧
    idle (.headTakeStart 2) (with5 ready) = true ∧
    idle (.headTakeStart 2) (port2 (with5 ready) .idle [entry 3 false false false false] 9 false) = true := by decide +kernel

/-- A word past the window, a word in it with a write of an ended block still waiting and without, and an entry outside a
block. -/
theorem test_meets_HeadWordsOutsideAndInsideWindows :
    (let s (i : Nat) := port2 (with5 (filling (.port 2))) .inBlock [entry 3 false false false false] i true
     holds (exec (.headTakeWord 2) (s 4)) (fun t => (t.port 2).wordIndex = 5 && (t.port 2).fifo = []) = true ∧
     holds (exec (.headTakeWord 2) (s 3)) (fun t => ((t.port 2).req.map WriteReq.pos) = some 3 && (t.port 2).writing) = true ∧
     holds (exec (.headTakeWord 2) ((s 3).setPort 2 { (s 3).port 2 with req := some ⟨4, 0, 0, 9, 0⟩ }))
       (fun t => (t.port 2).due.length = 1 && (t.port 2).writing) = true) ∧
    (let s (st : PortState) (brk : Bool) := port2 State.reset st [entry 3 false true true brk] 4 false
     holds (exec (.headDropEntry 2) (s .discard false)) (fun t => (t.port 2).fifo = [] && (t.port 2).state = .discard) = true ∧
     holds (exec (.headDropEntry 2) (s .idle false)) (fun t => (t.port 2).fifo = [] && (t.port 2).state = .idle) = true ∧
     holds (exec (.headDropEntry 2) (s .idle true)) (fun t => (t.port 2).fifo = [] && (t.port 2).state = .discard) = true ∧
     holds (exec (.headDropEntry 2) (s .discard true)) (fun t => (t.port 2).fifo = [] && (t.port 2).state = .discard) = true ∧
     idle (.headTakeWord 2) (s .discard false) = true ∧ idle (.headDropEntry 2) (s .inBlock false) = true ∧
     idle (.headTakeWord 2) State.reset = true ∧ idle (.headDropEntry 2) State.reset = true) := by
  decide +kernel

/-- An END past the window of its one member, in a slot without a cohort and in one of a cohort, with a BREAK mark and without;
an END whose word is due, alone, on the entry of its START, and behind a write of an ended block; and an END with ERROR. -/
theorem test_meets_BlockEndPublishes :
    (let s (x : Slot) (i : Nat) (brk : Bool) := port2 (with5 x) .inBlock [entry 3 false true false brk] i true
     let c := { filling (.port 2) with cohort := some 1 }
     (let s := s (filling (.port 2)) 4 false
      ((s.port 2).fill.map FillMember.slot).Nodup ∧ ∀ m ∈ (s.port 2).fill,
       ¬ ((s.slot m.slot).offset ≤ (s.port 2).wordIndex ∧ (s.port 2).wordIndex < (s.slot m.slot).offset + (s.slot m.slot).length) ∧
       ((s.slot m.slot).gen m.gen).state = .filling ∧ (s.slot m.slot).cohort = none) ∧
     (s c 4 false).blockReady ((s c 4 false).port 2).fill ∧
     (s c 4 false).dueMembers ((s c 4 false).port 2).fill 4 = [] ∧ (s c 4 false).dueMembers ((s c 4 false).port 2).fill 3 ≠ [] ∧
     holds (exec (.headTakeEnd 2) (s (filling (.port 2)) 4 false)) (fun t => ((t.slot 5).gen 0).seq = 8 && ((t.slot 5).gen 0).isShort &&
       (t.slot 5).newest = some 0 && (t.slot 5).nextSeq = 9 && (t.port 2).state = .idle) = true ∧
     holds (exec (.headTakeEnd 2) (s c 4 true)) (fun t => ((t.slot 5).gen 0).state = .sealed && (t.cohort 1).sealed = 0x20 &&
       (t.port 2).state = .discard && (t.port 2).fill = []) = true ∧
     holds (exec (.headTakeEnd 2) (s c 3 false)) (fun t => ((t.port 2).req.map WriteReq.pos) = some 3 && (t.port 2).state = .inBlock) = true ∧
     holds (exec (.headTakeEnd 2) ((s c 3 false).setPort 2 { (s c 3 false).port 2 with req := some ⟨4, 0, 0, 9, 0⟩ }))
       (fun t => (t.port 2).due.length = 1 && (t.port 2).writing && ((t.port 2).req.map WriteReq.slot) = some 4) = true ∧
     holds (exec (.headTakeEnd 2) ((s c 0 false).setPort 2 { (s c 0 false).port 2 with fifo := [entry 3 true true false false], begun := true }))
       (fun t => ((t.port 2).req.map WriteReq.pos) = some 0) = true ∧
     idle (.headTakeEnd 2) (port2 (with5 ready) .inBlock [entry 3 false true true false] 4 true) = true) := by
  unfold State.blockReady State.oneSeal; decide +kernel

/-- Each of the four causes, and an END without ERROR. -/
theorem test_meets_BadBlocksAreAbandoned :
    (let s (e : FifoEntry) := port2 (with5 (filling (.port 2))) .inBlock [e] 4 true
     (((s (entry 3 true false false false)).port 2).fill.map FillMember.slot).Nodup ∧
     holds (exec (.sourceError 2) (s (entry 3 false true true false))) (fun t => t.events.records.map EventRecord.reason = [1] &&
       (t.port 2).state = .idle) = true ∧
     holds (exec (.sourceError 2) (s (entry 3 false true true true))) (fun t => t.events.records.map EventRecord.reason = [1] &&
       (t.port 2).state = .discard && (t.port 2).fifo = []) = true ∧
     holds (exec (.headTakeStart 2) (s (entry 3 true false false false))) (fun t => t.events.records.map (fun r => (r.reason, r.arg)) = [(2, 2#32)] &&
       ((t.slot 5).gen 0).state = .filling && (t.slot 5).abandons = 1) = true ∧
     holds (exec (.portDisable 2) (s (entry 3 false false false false))) (fun t => t.events.records.map EventRecord.reason = [4]) = true ∧
     holds (exec (.headTakeWord 2) (s (entry 3 false false false true))) (fun t => t.events.records.map EventRecord.reason = [3] &&
       (t.port 2).state = .discard && ((t.slot 5).gen 0).seq = 5) = true ∧
     idle (.sourceError 2) (s (entry 3 false true false false)) = true) := by decide +kernel

/-- A port enabled, and one disabled outside a block. -/
theorem test_meets_PortEnableAndDisable :
    holds (exec (.portEnable 2) State.reset) (fun t => (t.port 2).enable && (t.port 2).awaitStart) = true ∧
    holds (exec (.portDisable 2) (port2 State.reset .discard [entry 3 false false false false] 4 false))
      (fun t => (t.port 2).fifo = [] && (t.port 2).state = .idle && (t.port 2).wordIndex = 0) = true := by decide +kernel

/-- The feed and handle 1 wait behind LAST_GRANTED 19: the feed is next. -/
theorem test_meets_ArbiterFollowsTheRing :
    (let q : ReadReq := { slot := 5, gen := 2, pos := 0 }
     let s := ((feeding (filling .feed) 2 0).setHandle 1 { Handle.reset with req := some q }).setFeed
       { (feeding (filling .feed) 2 0).feed with req := some { slot := 5, gen := 0, pos := 2, word := 9, fill := 0 } }
     ({ s with lastGranted := 19 } : State).nextGrant = some 20 ∧ ({ s with lastGranted := 18 } : State).nextGrant = some 19) := by decide +kernel

/-- A handle read and a link read of a stored word; the link then presents the read of its next data word. -/
theorem test_meets_GrantedReadsReturnTheStoredWord :
    (let q : ReadReq := { slot := 5, gen := 2, pos := 2 }
     let h := (stored (with5 ready)).setHandle 0 { Handle.reset with state := .held, req := some q, addr := 1023 }
     let p : PinEntry := { slot := 5, gen := 2, seq := 7, stamp := 0, words := 4, isShort := false, isPartial := false, epoch := 0 }
     let l := (stored (with5 ready)).setLink 1
       { driving 7 6 [1] with items := [{ item with n := 2, first := 2 }], pinSet := [p], req := some q }
     h.nextGrant = some 18 ∧ h.wordAddress 5 2 2 = some 226 ∧ h.readStore 226 = 13#32 ∧ l.nextGrant = some 13 ∧
       holds (exec .storeGrant h) (fun t => t.busRead = 13 && (t.handle 0).addr = 0 && t.lastGranted = 18) = true ∧
       holds (exec .storeGrant l) (fun t => (t.link 1).buffer = [1, 13] && t.lastGranted = 13 &&
         (t.link 1).req = some { slot := 5, gen := 2, pos := 3 }) = true) := by decide +kernel

/-- A word that nothing has written since power-on is the free value of its address (R25, log 7). -/
theorem test_unwritten_word_is_the_free_value (h : (with5 ready).wordAddress 5 2 9 = some 233) :
    (with5 ready).readFor { slot := 5, gen := 2, pos := 9 } = .ok (Config.unknownStoreWord 233) := by
  unfold State.readFor; rw [h]; rfl

/-- A feed write; a capture write with another still due, and the last of a word, in the middle of a block, at its END, and with
a BREAK mark; a feed write and a capture write whose fill has ended, the latter with the write after it granted at once. -/
theorem test_meets_WriteGrantsStoreOrWithdraw :
    (let q : WriteReq := { slot := 5, gen := 0, pos := 2, word := 99, fill := 0 }
     let f (x : Slot) := (feeding x 2 0).setFeed { (feeding x 2 0).feed with req := some q }
     let m : FillMember := { slot := 5, gen := 0, fill := 0 }
     let p (last brk : Bool) (q : WriteReq) (due : List FillMember) :=
       let s := port2 (with5 (filling (.port 2))) .inBlock [entry 99 false last false brk] 2 true
       s.setPort 2 { s.port 2 with req := some q, writing := true, due := due }
     ((f (filling .feed)).nextGrant = some 20 ∧ (f (filling .feed)).wordAddress 5 0 2 = some 226 ∧
       (p false false q []).nextGrant = some 2 ∧ (p false false q []).blockReady ((p false false q []).port 2).fill) ∧
     holds (exec .storeGrant (f (filling .feed))) (fun t => t.store = [(226, 99)] && t.feed.wordIndex = 3 && ((t.slot 5).gen 0).words = 3) = true ∧
     holds (exec .storeGrant (f ready)) (fun t => t.feed.req = none && t.store = [] && t.lastGranted = 20) = true ∧
     holds (exec .storeGrant (p false false q [m])) (fun t => t.store = [(226, 99)] && ((t.port 2).req.map WriteReq.pos) = some 2) = true ∧
     holds (exec .storeGrant (p false false q [])) (fun t => (t.port 2).wordIndex = 3 && (t.port 2).fifo = [] && ((t.slot 5).gen 0).words = 3) = true ∧
     holds (exec .storeGrant (p true false q [])) (fun t => (t.slot 5).newest = some 0 && ((t.slot 5).gen 0).words = 3 && (t.port 2).state = .idle) = true ∧
     holds (exec .storeGrant (p false true q [])) (fun t => (t.port 2).state = .discard && t.events.records.map (fun r => (r.reason, r.arg)) = [(3, 3#32)]) = true ∧
     holds (exec .storeGrant (p false false { q with fill := 8, word := 98 } [m])) (fun t => t.store = [(226, 99)] && t.lastGranted = 2 &&
       (t.port 2).wordIndex = 3 && (t.port 2).req = none) = true) := by
  unfold State.blockReady State.oneSeal; decide +kernel

/-- A protected entry with the flag clear and set, and the entry after the program. -/
theorem test_meets_ScheduleWritesRespectProtection :
    (let s := scheduled (with1 (linkIn .wait))
     s.memoriesWf = true ∧ s.isProtected 2 = true ∧ s.isProtected 3 = false ∧
       holds (exec (.scheduleWrite 2 false 7) s) (fun t => t.protectedWrite && t.protectedEntry = 2 && t.schedule = s.schedule) = true ∧
       holds (exec (.scheduleWrite 2 false 7) { s with protectedWrite := true }) (fun t => t.protectedEntry = 0) = true ∧
       holds (exec (.scheduleWrite 3 true 0xFFFFFFFF) s) (fun t => t.scheduleWord 7 = 0xFFFF07FF) = true) := by decide +kernel

/-- An item, a FRAME_END in the wrong place, an all-zero last entry, and a check that passes. -/
theorem test_meets_CheckExaminesOneEntry :
    idle .checkExamine State.reset = true ∧ (checking .start 2 2).check ≠ none ∧ ((checking .start 2 2).entry 2).action = .frameEnd ∧
    holds (exec .checkExamine (checking .start 0 0)) (fun t => t.check.map (fun c => (c.run, c.items, c.pos)) = some (10, 1, 1)) = true ∧
    holds (exec .checkExamine (checking .start 2 0)) (fun t => t.cmd.detail = 0x00040002 && t.cmd.state = .idle) = true ∧
    holds (exec .checkExamine (checking .start 2 2)) (fun t => (t.link 1).state = .wait && (t.link 1).remain = 1000 && t.check = none) = true ∧
    holds (exec .checkExamine (checking .load 2 2)) (fun t => (t.link 1).pendingValid && (t.link 1).pending = prog) = true := by decide +kernel

/-- Each test that fails, a range that fails and one that passes. -/
theorem test_meets_LinkStartAndLoadBeginTheCheck :
    (let a (w0 w1 w2 w3 w5 : Word) := args State.reset w0 w1 w2 w3 0 w5
     holds (exec .linkStart (a 6 0 0 1 1)) (fun t => t.cmd.detail = 1) = true ∧
     holds (exec .linkStart (a 5 0 65536 1 1)) (fun t => t.cmd.detail = 3) = true ∧
     holds (exec .linkStart (a 5 0 65535 0 1)) (fun t => t.cmd.detail = 4) = true ∧
     holds (exec .linkStart (a 5 0 65535 0x1000000 1)) (fun t => t.cmd.detail = 4) = true ∧
     holds (exec .linkStart (a 5 0 65535 0xFFFFFF 0)) (fun t => t.cmd.detail = 5) = true ∧
     holds (exec .linkStart (a 5 0x3FF 65535 0xFFFFFF 65535)) (fun t => t.cmd.detail = 0x000103FF && t.cmd.state = .idle) = true ∧
     holds (exec .linkStart (a 5 0x100FF 0 1 1)) (fun t => t.check.map Check.pos = some 0 && t.cmd.state = .busy) = true ∧
     holds (exec .linkLoad (a 5 0 0 0 0)) (fun t => t.cmd.detail = 2) = true ∧
     holds (exec .linkLoad (args (with1 (linkIn .wait)) 1 0x20000 7 0 0 0)) (fun t => t.check.map Check.link = some 1) = true) := by decide +kernel

/-- A pending program that is valid, and a link in OFF. -/
theorem test_meets_LinkCancelClearsValid :
    holds (exec .linkCancel (args (with1 { linkIn .wait with pendingValid := true }) 1 0 0 0 0 0)) (fun t => t.cmd.detail = 1 && !(t.link 1).pendingValid) = true ∧
    holds (exec .linkCancel (args State.reset 5 0 0 0 0 0)) (fun t => t.cmd.code = .state) = true ∧
    holds (exec .linkCancel (args State.reset 6 0 0 0 0 0)) (fun t => t.cmd.code = .badArg) = true := by decide +kernel

/-- A link in WAIT, one that finishes, one that aborts and one whose abort word waits. -/
theorem test_meets_LinkStopByMode :
    holds (exec .linkStop (args (with1 (linkIn .wait)) 1 1 0 0 0 0)) (fun t => (t.link 1).state = .off && t.events.records.map (fun r => r.kind.value) = [13]) = true ∧
    holds (exec .linkStop (args (with1 (linkIn .wait)) 1 2 0 0 0 0)) (fun t => t.cmd.detail = 3) = true ∧
    holds (exec .linkStop (args (with1 (driving 3 1 [8, 9])) 1 0 0 0 0 0)) (fun t => (t.link 1).state = .stopping && (t.link 1).buffer = [8, 9]) = true ∧
    holds (exec .linkStop (args (with1 (driving 3 1 [8, 9])) 1 1 0 0 0 0)) (fun t => (t.link 1).abortWord = some 0xA5A5F0F0 && (t.link 1).aborts = 1) = true ∧
    holds (exec .linkStop (args (with1 (aborted .frame)) 1 1 0 0 0 0)) (fun t => (t.link 1).state = .stopping && t.events.records = []) = true := by decide +kernel

/-- An expiry in FRAME, and one that is not due. -/
theorem test_meets_PeriodExpiryInFrameIsASlip :
    holds (exec (.periodExpiry 1) (with1 (driving 3 1 [8, 9]))) (fun t => (t.link 1).slips = 1 && (t.link 1).remain = 100 && (t.link 1).frameNo = 1) = true ∧
    holds (exec (.periodExpiry 1) (with1 { linkIn .wait with remain := 1 })) (fun t => (t.link 1).state = .wait) = true := by decide +kernel

/-- A frame of two entries, one slot with a NEWEST and one without. -/
theorem test_meets_PeriodExpiryInWaitBeginsAFrame :
    (let s := (scheduled (with5 ready)).setLink 1 (linkIn .wait)
     ((s.link 1).state = .wait ∧ (s.link 1).remain = 0 ∧ (s.link 1).line = .quiet ∧ (s.link 1).cursor + 2 < (s.link 1).active.len ∧
       (∀ j, j < 2 → (s.entry j).action ≠ .frameEnd) ∧ (s.entry 2).action = .frameEnd) ∧
     holds (exec (.periodExpiry 1) s) (fun t => (t.link 1).items.map (fun i => (i.kind.value, i.seq, i.n)) = [(0, 7#32, 2), (3, 0#32, 0)] &&
       (t.link 1).pinSet.map PinEntry.gen = [2] && ((t.slot 5).gen 2).pins = 1 && (t.link 1).buffer = [0x5A5A0F0F] &&
       (t.link 1).frame.map Frame.crc = some (crcWord crcStart 0x5A5A0F0F) &&
       (t.link 1).line = .drive && (t.link 1).frameNo = 1) = true) := by decide +kernel

/-- A pinned slot past its age limit, at the limit and seen before (§6.11). -/
theorem test_meets_ItemsAreClassifiedInOrder :
    (let p : PinEntry := { slot := 4, gen := 0, seq := 17, stamp := 4700, words := 150, isShort := true, isPartial := false, epoch := 0 }
     let l := { linkIn .wait with pinSet := [p] }
     let e : SchedEntry := { action := .emitFresh, mark := false, slot := 4, offset := 16, count := 0, maxAge := 500 }
     ((classify l 5000 (101, e)).kind = .data ∧ (classify l 5000 (101, e)).n = 134 ∧ (classify l 5000 (101, e)).isShort = true) ∧
     (classify l 5200 (101, e)).kind = .data ∧ (classify l 5201 (101, e)).kind = .stale ∧
     (classify { l with lastSeen := Table.put l.lastSeen 4 17 } 5000 (101, e)).kind = .repeated) := by decide +kernel

/-- A frame of one item of two data words. -/
theorem test_meets_FrameWordsFollowTheLayout :
    (let l := { driving 3 1 [] with items := [{ item with n := 2, first := 6 }] }
     frameLength l.items = 10 ∧ (List.range 11).map (frameWord 1 l (frame 0 0)) =
       [some (.plain 0x5A5A0F0F), some (.plain 0x00141001), some (.plain 0x00030201), some (.plain 0), some (.plain 0x05020002),
        some (.plain 7), some (.plain 0), some (.data 5 6), some (.data 5 7), some .trailer, none]) := by decide +kernel

/-- A header word, the trailer, a full buffer. -/
theorem test_meets_LinkPlacesItsNextWord :
    (driving 3 1 [8, 9]).frame = some (frame 3 1) ∧
    holds (exec (.linkPlaceWord 1) (with1 (driving 1 1 []))) (fun t => (t.link 1).buffer = [0x00141001]) = true ∧
    holds (exec (.linkPlaceWord 1) (with1 (driving 7 6 [9]))) (fun t => (t.link 1).buffer = [9, 0]) = true ∧
    holds (exec (.linkPlaceWord 1) (with1 (driving 3 1 (List.replicate 64 0)))) (fun t => (t.link 1).buffer.length = 64) = true := by decide +kernel

/-- A header word, and the last word of an item whose slot is seen. -/
theorem test_meets_WordTakenInsideAFrame :
    holds (exec (.wordTaken 1) (with1 (driving 3 1 [8, 9]))) (fun t => (t.link 1).buffer = [9] && (t.link 1).line = .drive) = true ∧
    frameWord 1 (driving 7 6 [9]) (frame 7 6) 6 ≠ some .trailer ∧
    holds (exec (.wordTaken 1) (with1 (driving 7 6 [9]))) (fun t => (t.link 1).line = .gap && (t.link 1).lastSeen.get 5 = 7) = true := by decide +kernel

/-- The trailer taken, with a pin and without, and an abort word taken, each with a program pending. -/
theorem test_meets_FrameEndMovesTheCursor :
    frameWord 1 (driving 8 7 [9]) (frame 8 7) 7 = some .trailer ∧
    holds (exec (.wordTaken 1) (with1 { driving 8 7 [9] with pendingValid := true })) (fun t => (t.link 1).state = .wait &&
      (t.link 1).cursor = 0 && t.events.records.map (fun r => r.kind.value) = [11, 12]) = true ∧
    (let p : PinEntry := { slot := 5, gen := 2, seq := 7, stamp := 0, words := 4, isShort := false, isPartial := false, epoch := 0 }
     let d := { slot (.port 2) (gen .ready 5 0 4) (gen .ready 6 0 4) (gen .ready 7 1 4) (some 2) with state := .draining }
     let l := { driving 8 7 [9] with pinSet := [p], lastSeen := Vector.replicate 32 3 }
     (l.pinSet.map PinEntry.slot).Nodup ∧
     holds (exec (.wordTaken 1) ((chained d).setLink 1 l)) (fun t => (t.link 1).state = .wait && (t.link 1).pinSet = [] &&
       (t.slot 5).state = .unused && t.pool.tail = some 9 && (t.link 1).lastSeen.get 5 = 0 && (t.link 1).lastSeen.get 4 = 3 &&
       t.events.records.map (fun r => r.kind.value) = [4, 11]) = true) ∧
    holds (exec (.wordTaken 1) (with1 (aborted .frame))) (fun t => (t.link 1).state = .wait && (t.link 1).line = .quiet &&
      (t.link 1).cycleNo = 1) = true ∧
    holds (exec (.wordTaken 1) (with1 (aborted .stopping))) (fun t => (t.link 1).state = .off && (t.link 1).line = .quiet &&
      t.events.records.map (fun r => (r.kind.value, r.reason)) = [(11, 0), (13, 0)]) = true := by decide +kernel

/-- A stall at its limit and a trailer taken, each with a pin. -/
theorem test_meets_FramesReleaseTheirPins :
    (let p : PinEntry := { slot := 5, gen := 2, seq := 7, stamp := 0, words := 4, isShort := false, isPartial := false, epoch := 0 }
     let s (l : Link) := (with5 (slot (.port 2) (gen .ready 5 0 4) (gen .ready 6 0 4) (gen .ready 7 2 4) (some 2))).setLink 1 { l with pinSet := [p] }
     holds (exec (.stallAbort 1) (s { driving 3 1 [8, 9] with stallTimer := 40 })) (fun t => ((t.slot 5).gen 2).pins = 1 &&
       (t.link 1).line = .abort && (t.link 1).pinSet = [] && t.events.records.map (fun r => (r.arg, r.reason)) = [(20#32, 1)]) = true ∧
     holds (exec (.wordTaken 1) (s (driving 8 7 [9]))) (fun t => ((t.slot 5).gen 2).pins = 1 && (t.link 1).pinSet = []) = true ∧
     holds (exec .linkStop (args (s (driving 3 1 [8, 9])) 1 1 0 0 0 0)) (fun t => (t.link 1).state = .stopping &&
       ((t.slot 5).gen 2).pins = 1) = true ∧
     (let d := slot (.port 2) (gen .ready 5 0 4) (gen .ready 6 0 4) (gen .ready 7 1 4) (some 2)
      holds (exec (.wordTaken 1) ((with5 { d with state := .draining }).setLink 1 { driving 8 7 [9] with pinSet := [p] }))
        (fun t => (t.slot 5).state = .unused && t.pool.count = 2051) = true)) := by decide +kernel

/-- An abort word whose give-up is due in STOPPING. -/
theorem test_meets_GiveUpTakesTheLinkOff :
    holds (exec (.abortWordGiveUp 1) (with1 { aborted .stopping with giveUpDue := true })) (fun t => (t.link 1).state = .off &&
      (t.link 1).line = .quiet && t.events.records.map (fun r => (r.kind.value, r.reason)) = [(11, 0), (13, 1)]) = true := by decide +kernel

/-- A grant, a refusal, and the release of a held and of a revoked handle. -/
theorem test_meets_HandlePinAndRelease :
    holds (exec .handlePin (args (with5 ready) 1 5 0 0 0 0)) (fun t => (t.handle 1).seq = 7 && ((t.slot 5).gen 2).pins = 1 && t.cmd.detail = 2) = true ∧
    holds (exec .handlePin (args (with5 { ready with newest := none }) 1 5 0 0 0 0)) (fun t => t.cmd.code = .notReady) = true ∧
    holds (exec .handlePin (args State.reset 1 31 0 0 0 0)) (fun t => t.cmd.code = .state && t.cmd.detail = 0) = true ∧
    holds (exec .handlePin (args State.reset 1 32 0 0 0 0)) (fun t => t.cmd.detail = 3) = true ∧
    holds (exec .handleRelease (args ((with5 (slot (.port 2) (gen .ready 5 0 4) (gen .ready 6 0 4) (gen .ready 7 2 4) (some 2))).setHandle 1
      { Handle.reset with state := .held, slot := 5, gen := 2 }) 1 0 0 0 0 0)) (fun t => ((t.slot 5).gen 2).pins = 1 && (t.handle 1).state = .free) = true ∧
    (let d (n : Nat) := { slot (.port 2) (gen .ready 5 0 4) (gen .ready 6 0 4) (gen .ready 7 n 4) (some 2) with state := .draining }
     let s (n : Nat) := args ((with5 (d n)).setHandle 1 { Handle.reset with state := .held, slot := 5, gen := 2 }) 1 0 0 0 0 0
     holds (exec .handleRelease (s 1)) (fun t => (t.slot 5).state = .unused && t.events.records.map (fun r => r.kind.value) = [4]) = true ∧
     holds (exec .handleRelease (s 2)) (fun t => (t.slot 5).state = .draining && t.events.records = []) = true) ∧
    holds (exec .handleRelease (args (State.reset.setHandle 1 { Handle.reset with state := .revoked }) 1 0 0 0 0 0)) (fun t => t.cmd.detail = 1) = true := by decide +kernel

/-- A read below WORDS and one at WORDS (§8.11). -/
theorem test_meets_HandleDataReads :
    (let s (a : BitVec 10) := (with5 ready).setHandle 0 { Handle.reset with state := .held, slot := 5, gen := 2, words := 64, addr := a }
     holds (exec (.handleDataRead 0) (s 63)) (fun t => t.waitLine && (t.handle 0).addr = 63) = true ∧
     holds (exec (.handleDataRead 0) (s 64)) (fun t => (t.handle 0).overread && (t.handle 0).addr = 65 && t.busRead = 0) = true ∧
     holds (exec (.handleDataRead 0) { s 63 with resetPhase := .held, busRead := 7 }) (fun t => !t.waitLine && t.busRead = 0) = true ∧
     holds (exec (.handleDataRead 0) { s 63 with resetPhase := .running 5 true }) (fun t => t.waitLine) = true) ∧
    (let s := { State.reset with resetPhase := .running 5 false, busRead := 7, pending := [.handleDataRead 1] }
     s.resetIsQuiet ∧ s.resetPhase ≠ .none ∧ holds (step s) (fun t => !t.waitLine && t.busRead = 0) = true) := by
  unfold State.resetIsQuiet; decide +kernel

/-- A grant at the ends of the ranges, a refusal, and each test that fails. -/
theorem test_meets_FeedOpenAsksForAGeneration :
    (let x := { ready with source := .feed }
     holds (exec .feedOpen (args (with5 x) 5 255 1048575 0 0 0)) (fun t => t.feed.state = .opened && t.feed.gen = 0 && ((t.slot 5).gen 0).tag = 255) = true ∧
     holds (exec .feedOpen (args (with5 (slot .feed (gen .ready 5 1 4) (gen .ready 6 1 4) (gen .ready 7 0 4) (some 2))) 5 0 1 0 0 0))
       (fun t => t.cmd.code = .noGeneration && (t.slot 5).overruns = 1 && t.feed.state = .idle) = true ∧
     holds (exec .feedOpen (args (with5 x) 5 256 1 0 0 0)) (fun t => t.cmd.detail = 3) = true ∧
     holds (exec .feedOpen (args (with5 x) 5 0 0 0 0 0)) (fun t => t.cmd.detail = 4) = true ∧
     holds (exec .feedOpen (args (with5 { x with state := .frozen }) 5 0 1 0 0 0)) (fun t => t.cmd.detail = 5) = true ∧
     holds (exec .feedOpen (args (with5 ready) 5 0 1 0 0 0)) (fun t => t.cmd.detail = 6) = true) := by decide +kernel

/-- A write, an overlength write, a close, an abort and an expiry. -/
theorem test_meets_FeedSessionEnds :
    holds (exec (.feedDataWrite 9) (feeding (filling .feed) 3 7)) (fun t => (t.feed.req.map WriteReq.pos) = some 3 && t.feed.idleCount = 0) = true ∧
    holds (exec (.feedDataWrite 9) (feeding (filling .feed) 4 7)) (fun t => t.feed.overlength && t.feed.wordIndex = 5 && t.feed.req = none) = true ∧
    holds (exec .feedClose (feeding (filling .feed) 6 0)) (fun t => ((t.slot 5).gen 0).words = 4 && !((t.slot 5).gen 0).isShort && t.cmd.detail = 4) = true ∧
    holds (exec .feedAbort (feeding (filling .feed) 2 0)) (fun t => ((t.slot 5).gen 0).state = .empty && t.cmd.detail = 2) = true ∧
    holds (exec .feedIdleExpiry (feeding (filling .feed) 2 50)) (fun t => t.events.records.map (fun r => (r.kind.value, r.arg)) = [(3, 2#32), (15, 2#32)]) = true := by decide +kernel

/-- A close that starts a gathering, one that completes it, and one that supersedes an older seal. -/
theorem test_meets_CompletionsInACohortSeal :
    (let x (a : GenState) := { slot .feed (gen .filling 5 0 2) (gen a 6 0 4) (gen .ready 7 0 4) (some 2) with cohort := some 1 }
     let other := { slot (.port 2) (gen .sealed 5 0 3) (gen .ready 6 0 4) (gen .ready 7 0 4) (some 2) with cohort := some 1 }
     let s (a : GenState) (k : Cohort) := ((feeding (x a) 2 0).setSlot 6 other).setCohort 1 k
     let k := { Cohort.reset with window := 500, epoch := 7, members := 0x60 }
     holds (exec .feedClose ((feeding (x .empty) 2 0).setCohort 1 k)) (fun t => ((t.slot 5).gen 0).state = .sealed &&
       (t.cohort 1).state = .gathering && (t.cohort 1).sealed = 0x20 && (t.cohort 1).deadline = 500) = true ∧
     holds (exec .feedClose (s .empty { k with state := .gathering, sealed := 0x40 })) (fun t => ((t.slot 5).gen 0).epoch = 7 &&
       (t.slot 6).newest = some 0 && (t.cohort 1).epoch = 8 && t.events.records.map (fun r => (r.kind.value, r.arg)) = [(5, 7#32)]) = true ∧
     holds (exec .feedClose (s .sealed { k with state := .gathering, members := 0x70, sealed := 0x60 })) (fun t =>
       ((t.slot 5).gen 0).state = .sealed && ((t.slot 5).gen 1).state = .empty && (t.cohort 1).sealed = 0x60 &&
       t.events.records.map (fun r => (r.kind.value, r.arg)) = [(7, 1#32)]) = true) := by decide +kernel

/-- An abort word of link 0 to give up, links 1 and 3 with a period expiry outstanding in their frames, link 3 with a stall as
well, cohort 1's window at its end, and the feed's idle limit reached. -/
def outstanding : State :=
  let k := { Cohort.reset with state := .gathering, window := 500, epoch := 7, members := 0x60, sealed := 0x40 }
  let other := { slot (.port 2) (gen .sealed 5 0 3) (gen .ready 6 0 4) (gen .ready 7 0 4) (some 2) with cohort := some 1 }
  ((((feeding (filling .feed) 2 50).setSlot 6 other).setCohort 1 k).setLink 0
    { aborted .stopping with giveUpDue := true }).setLink 1 (driving 3 1 [8, 9]) |>.setLink 3
    { driving 3 1 [8, 9] with stallTimer := 40 }

/-- A tick with nothing outstanding, at a link that stalls and an open feed; and one that meets the expiries above: its
records are the two of link 0's end, the slip of link 1, the abort and the slip of link 3, the publish, and the two of the feed. -/
theorem test_meets_TickReachesTheTimers :
    (let s := (feeding (filling .feed) 2 7).setLink 1 { driving 3 1 [8, 9] with remain := 5, stallTimer := 39 }
     s.nothingDue ∧
     holds (exec (.tick 0) s) (fun t => (t.link 1).remain = 4 && (t.link 1).stallTimer = 40 && t.stallDue 1 && t.feed.idleCount = 8 && t.now = 1) = true ∧
     holds (exec (.tick 2) s) (fun t => (t.link 1).stallTimer = 39) = true) ∧
    (outstanding.giveUpDue 0 = true ∧ outstanding.periodDue 1 = true ∧ outstanding.periodDue 3 = true ∧ outstanding.stallDue 3 = true ∧
      outstanding.windowDue 1 = true ∧ outstanding.feedDue = true) ∧
    holds (exec (.tick 0) outstanding) (fun t => t.events.records.map (fun r => (r.kind.value, r.object)) =
      [(11, 0), (13, 0), (8, 1), (9, 3), (8, 3), (6, 1), (3, 5), (15, 5)] && t.now = 1 && (t.link 1).remain = 99) = true := by
  unfold State.nothingDue; decide +kernel

/-- A POP of one record and a read of LOST. -/
theorem test_meets_EventQueueAccesses :
    (let q : EventQueue := { records := [⟨.frameSlip, 0, 0, 0, 0⟩], mask := 0x100, lost := 2, irqEnable := true }
     q.mask.getLsbD EventKind.frameSlip.value = true ∧ q.mask.getLsbD EventKind.itemMark.value = false ∧ q.irqLine = true ∧
     holds (exec .eventPop { State.reset with events := q }) (fun t => t.events.records = [] && !t.events.irqLine) = true ∧
     holds (exec .eventLost { State.reset with events := q }) (fun t => t.busRead = 2 && t.events.lost = 0) = true) := by decide +kernel

/-! ### Invariants: a state that satisfies them, and a step of it -/

/-- The state with a command at the front of its queue. -/
def front (c : Instr) (s : State) : State := { s with pending := [c] }

/-- A grant of the feed's request. -/
theorem test_meets_MemoriesAndQueuesKeepTheirForm :
    (let s := front .storeGrant ((stored (feeding { filling .feed with gens := (filling .feed).gens } 2 7)).setFeed
       { (feeding (filling .feed) 2 7).feed with req := some { slot := 5, gen := 0, pos := 2, word := 99, fill := 0 } })
     (s.memoriesWf = true ∧ s.queueInv) ∧
     holds (step s) (fun t => t.store = [(224, 11#32), (225, 12#32), (226, 99#32), (227, 14#32)] && t.feed.wordIndex = 3) = true) := by
  unfold State.queueInv; decide +kernel

/-- The last examination of a check. -/
theorem test_meets_UnitIsBusyWhileWorkIsInProgress :
    (let s := front .checkExamine (checking .load 2 1)
     s.unitInv ∧ holds (step s) (fun t => t.cmd.state = .idle && t.check = none && t.cmd.code = .ok) = true) :=
  ⟨⟨rfl, by decide, _, rfl, rfl⟩, by decide +kernel⟩

/-- A cohort that gathers: slots 5 and 6 are its members and slot 5 has sealed. -/
def gatheringPair : State :=
  front (.windowExpiry 1) ((gathering .publish).setSlot 6 { ready with cohort := some 1 })

/-- The expiry of that cohort's window. -/
theorem test_meets_CohortsAndSlotsStayConsistent :
    (gatheringPair.cohortInv ∧ gatheringPair.slotInv) ∧
    holds (step gatheringPair) (fun t => (t.slot 5).newest = some 0 && (t.cohort 1).epoch = 8) = true := by
  unfold State.cohortInv State.slotInv; decide +kernel

/-- The END of an open block. -/
theorem test_meets_EveryFillingGenerationHasItsWriter :
    (let s := front (.headTakeEnd 2) (port2 (with5 (filling (.port 2))) .inBlock [entry 7 false true false false] 9 true)
     s.fillInv ∧ holds (step s) (fun t => (t.slot 5).newest = some 0 && (t.port 2).fill = []) = true) := by
  simp only [State.fillInv, State.hasWriter_iff]; decide +kernel

/-- The expiry of the cohort's window once more. -/
theorem test_meets_MembersAndSealsAreNamedExactly :
    (gatheringPair.cohortInv ∧ gatheringPair.fillInv ∧ gatheringPair.memberInv ∧ gatheringPair.sealInv) ∧
    holds (step gatheringPair) (fun t => (t.cohort 1).sealed = 0 && (t.cohort 1).members = 0x60) = true := by
  refine ⟨⟨?_, ?_, ⟨fun a h => (nomatch h), ?_⟩, ?_⟩, by decide +kernel⟩
  · unfold State.cohortInv; decide +kernel
  · simp only [State.fillInv, State.hasWriter_iff]; decide +kernel
  · decide +kernel
  · unfold State.sealInv; decide +kernel

/-- A take of a word inside a frame. -/
theorem test_meets_LinksAndLinesAgree :
    (let s := front (.wordTaken 1) (with1 (driving 3 1 [8, 9]))
     (s.unitInv ∧ s.linkInv) ∧ holds (step s) (fun t => (t.link 1).buffer = [9]) = true) := by
  refine ⟨⟨⟨rfl, rfl⟩, fun c h => (nomatch h), fun k => ?_⟩, by decide +kernel⟩
  by_cases hk : k = 1
  · subst hk
    exact ⟨frame 3 1, rfl, .inl ⟨rfl, rfl, by decide, by decide, .inl ⟨rfl, by decide⟩, fun h => absurd rfl h⟩⟩
  · have h : (front (.wordTaken 1) (with1 (driving 3 1 [8, 9]))).link k = Link.reset := by revert k; decide +kernel
    rw [h]; exact State.linkAtRest_reset

/-- A block start that takes the one free generation of a slot with two pinned. -/
theorem test_meets_PinnedGenerationsKeepTheirRecordAndWords :
    (let s := front (.headTakeStart 2) (port2 (with5 (slot (.port 2) (gen .ready 5 1 4) (gen .ready 6 0 4) (gen .ready 7 2 4) (some 2)))
       .idle [entry 7 true false false false] 0 false)
     (s.slotInv ∧ 0 < ((s.slot 5).gen 0).pins ∧ 0 < ((s.slot 5).gen 2).pins) ∧
     holds (step s) (fun t => t.resetPhase = .none && ((t.slot 5).gen 1).state = .filling && ((t.slot 5).gen 0).seq = 5) = true) := by
  unfold State.slotInv; decide +kernel

/-- Page 0 and page 1 are the chains of slot 5's two generations, the first FILLING by the feed and the second pinned; every
other page is on the free list. -/
def twoPages : State :=
  let x := { slot .feed (gen .filling 5 0 2) (gen .ready 6 1 4) (Gen.blank 0) (some 1) with depth := 2 }
  let y := (x.setGen 0 { x.gen 0 with head := some 0 }).setGen 1 { x.gen 1 with head := some 1 }
  let s := (feeding y 2 7).setFeed
    { (feeding y 2 7).feed with req := some { slot := 5, gen := 0, pos := 2, word := 99, fill := 0 } }
  { (s.setPool { head := some 2, tail := some 2047, count := 2046, next := [(0, none), (1, none)], alloc := none }) with
    store := [(32, 5#32)], pending := [.storeGrant] }

/-- Those two chains. -/
def pageChains (i : SlotId) (g : GenId) : List PageId := if i = 5 then (if g = 0 then [0] else if g = 1 then [1] else []) else []

/-- Every page of that state is at one place. -/
theorem twoPages_pagesInv : twoPages.pagesInv := by
  have hnext : ∀ p : PageId, 2 ≤ p.val → twoPages.pool.nextOf p = (rebuiltNext p.val).join := fun p hp => by
    show (Cells.read rebuiltNext [(0, none), (1, none)] p.val).join = _
    simp [Cells.read, Cells.listed, show p.val ≠ 0 by omega, show p.val ≠ 1 by omega]
  have hfree : freeList twoPages.pool ((List.finRange 2048).drop 2) :=
    freeList_drop 2 rfl rfl rfl (fun p p' h e => by
        rw [hnext p h]; have := p'.isLt; simp [rebuiltNext, e])
      (fun p e => by rw [hnext p (by omega)]; simp [rebuiltNext, e])
  have hall : ((List.finRange 32).flatMap fun i => (List.finRange 5).flatMap (pageChains i)) = [0, 1] := by decide +kernel
  have hperm : ((List.finRange 2048).drop 2 ++ [] ++ ([0, 1] : List PageId)).Perm (List.finRange 2048) := by
    have h2 : (List.finRange 2048).take 2 = ([0, 1] : List PageId) := by
      refine List.ext_getElem (by rw [List.length_take, List.length_finRange]; rfl) fun n h _ => ?_
      have : n = 0 ∨ n = 1 := by rw [List.length_take] at h; omega
      rw [List.getElem_take, List.getElem_finRange]
      rcases this with rfl | rfl <;> rfl
    rw [List.append_nil, ← h2]
    exact List.perm_append_comm.trans (by rw [List.take_append_drop])
  refine ⟨by decide +kernel, (List.finRange 2048).drop 2, [], pageChains, hfree, ?_, fun _ => rfl, fun a e => (nomatch e), ?_, ?_⟩
  · have h5 : ∀ i, i ≠ 5 → twoPages.slot i = Slot.reset := by decide +kernel
    intro i g
    by_cases hi : i = 5
    · subst hi
      have h0 : ∀ g : GenId, g = 0 ∨ g = 1 ∨ 2 ≤ g.val := by decide
      rcases h0 g with rfl | rfl | hg
      · exact ⟨⟨rfl, rfl⟩, fun _ => rfl, fun h => absurd (show (0 : Nat) < 2 by decide) h⟩
      · exact ⟨⟨rfl, rfl⟩, fun _ => rfl, fun h => absurd (show (1 : Nat) < 2 by decide) h⟩
      · have hc : pageChains 5 g = [] := (show ∀ g : GenId, 2 ≤ g.val → pageChains 5 g = [] by decide) g hg
        have hh : ((twoPages.slot 5).gen g).head = none :=
          (show ∀ g : GenId, 2 ≤ g.val → ((twoPages.slot 5).gen g).head = none by decide +kernel) g hg
        rw [hc]
        exact ⟨hh, fun (h : g.val < 2) => by omega, fun _ => rfl⟩
    · unfold State.hasChain
      rw [h5 i hi, show pageChains i g = [] from if_neg hi]
      exact ⟨(show ∀ g, (Slot.reset.gen g).head = none by decide +kernel) g, fun e => e.elim, fun _ => rfl⟩
  · rw [hall]; exact hperm.nodup_iff.mpr (List.nodup_finRange 2048)
  · rw [hall]; exact hperm.length_eq.trans List.length_finRange

/-- A grant of the feed's word on page 0 beside the pinned words of page 1. -/
theorem test_meets_PinnedGenerationsKeepTheirRecordAndWords_words :
    (twoPages.slotInv ∧ twoPages.pagesInv ∧ twoPages.memoriesWf = true ∧ 0 < ((twoPages.slot 5).gen 1).pins ∧
      twoPages.wordAddress 5 1 0 = some 32) ∧
    holds (step twoPages) (fun t => t.resetPhase = .none && t.store = [(2, 99#32), (32, 5#32)] &&
      t.wordAddress 5 1 0 = some 32) = true := by
  refine ⟨⟨?_, twoPages_pagesInv, ?_⟩, by decide +kernel⟩
  · unfold State.slotInv; decide +kernel
  · decide +kernel

/-- Link 1 and handle 1 hold NEWEST of slot 5, and the handle's release is at the front. -/
def pinnedTwice : State :=
  let p : PinEntry := { slot := 5, gen := 2, seq := 7, stamp := 0, words := 4, isShort := false, isPartial := false, epoch := 0 }
  let x := slot (.port 2) (gen .ready 5 0 4) (gen .ready 6 0 4) (gen .ready 7 2 4) (some 2)
  front .handleRelease ((args ((with5 x).setLink 1 { driving 3 1 [8, 9] with pinSet := [p] }) 1 0 0 0 0 0).setHandle 1
    { Handle.reset with state := .held, slot := 5, gen := 2 })

/-- That release. -/
theorem test_meets_PinsCountTheirHolders :
    (pinnedTwice.slotInv ∧ pinnedTwice.unitInv ∧ pinnedTwice.linkInv ∧ pinnedTwice.pinInv) ∧
    holds (step pinnedTwice) (fun t => ((t.slot 5).gen 2).pins = 1) = true := by
  refine ⟨⟨by unfold State.slotInv; decide +kernel, ⟨rfl, rfl⟩, ⟨fun c h => (nomatch h), fun k => ?_⟩,
    by unfold State.pinInv; decide +kernel⟩, by decide +kernel⟩
  by_cases hk : k = 1
  · subst hk
    exact ⟨frame 3 1, rfl, .inl ⟨rfl, rfl, by decide, by decide, .inl ⟨rfl, by decide⟩, fun h => absurd rfl h⟩⟩
  · have h : ∀ k : LinkId, k ≠ 1 → (pinnedTwice.link k) = Link.reset := by decide +kernel
    rw [h k hk]; exact State.linkAtRest_reset

/-- No chain holds a page. -/
theorem noChains : ((List.finRange 32).flatMap fun _ => (List.finRange 5).flatMap fun _ => ([] : List PageId)) = [] := by decide

/-- A configure from the reset state, every page on the free list. -/
theorem test_meets_FreeListAndChainsHoldEveryPage :
    (let s := front .slotConfigure (args State.reset 5 2 0x04000000 0x03010005 0 0)
     (s.memoriesWf = true ∧ s.unitInv ∧ s.rebuildInv ∧ s.pagesInv) ∧
     holds (step s) (fun t => t.pool.alloc.map Alloc.remaining = some 160 && (t.slot 5).state = .configuring) = true) := by
  refine ⟨⟨by decide +kernel, ⟨rfl, rfl⟩, trivial, ?_⟩, by decide +kernel⟩
  have h : ∀ i, State.reset.slot i = Slot.reset := by decide +kernel
  have hg : ∀ g, Slot.reset.gen g = Gen.blank 0 := by decide +kernel
  refine ⟨fun i => ⟨⟨fun e => ?_, fun e => ?_⟩, fun e => ?_⟩, List.finRange 2048, [], fun _ _ => [], State.freeList_reset, ?_,
    fun _ => rfl, fun a e => (nomatch e), ?_, ?_⟩
  · exact absurd ((congrArg Slot.state (h i)).symm.trans e) (by decide)
  · obtain ⟨a, e, _⟩ := e; exact nomatch e
  · exact absurd (congrArg Slot.state (h i)) e
  · intro i g
    have hs : (front .slotConfigure (args State.reset 5 2 0x04000000 0x03010005 0 0)).slot i = Slot.reset := h i
    refine ⟨?_, fun e => ?_, fun _ => rfl⟩
    · show ((_ : Slot).gen g).head = none
      rw [hs, hg]; rfl
    · unfold State.hasChain at e; rw [hs] at e; exact e.elim
  · rw [List.append_nil, noChains, List.append_nil]; exact List.nodup_finRange 2048
  · rw [List.append_nil, noChains, List.append_nil]; exact List.length_finRange

/-- The second link of a rebuild, and the clearing that ends a power-on reset. -/
theorem test_meets_RebuildRestoresTheFreeList :
    (let s := front .rebuildLinkPage { State.reset with
       resetPhase := .running 1 false
       pool := { head := some 0, tail := some 0, count := 1, next := [(0, none)], alloc := none } }
     (s.memoriesWf = true ∧ s.rebuildInv) ∧ holds (step s) (fun t => t.pool.count = 2 && t.resetPhase = .running 2 false) = true) ∧
    (let s := front .scheduleClear { State.reset with resetPhase := .running 2048 true }
     (s.memoriesWf = true ∧ s.rebuildInv) ∧ holds (step s) (fun t => t.resetPhase = .none) = true) := by
  refine ⟨⟨⟨by decide +kernel, by decide, by decide, ⟨rfl, by decide, fun p => ⟨fun h _ => ?_, fun h => ⟨?_, ?_⟩, ?_⟩⟩, rfl, ?_⟩,
    by decide +kernel⟩, ⟨rfl, by decide, by decide, State.linkedUpTo_reset, rfl, by decide +kernel⟩, by decide +kernel⟩
  · exact congrArg some (Fin.ext h.symm)
  · exact congrArg some (Fin.ext (by show (0 : Nat) = _; omega))
  · have : p = 0 := Fin.ext (by show _ = (0 : Nat); omega)
    subst this; rfl
  · intro p' h h'; omega
  · decide +kernel

end Sys2Proof.Machine.Tests
end

/-! SUPPORT. What a step is made of: grants of the store port and then one act of the part, or a run of expiries and a tick
(R33, R141, R160). An invariant is then a statement about each grant and each act. -/

namespace Sys2Proof.Machine

/-- One grant of the store port: the write of a port or of the feed, carried out or withdrawn, or the read of a link or of a
handle (R33, R35). -/
inductive GrantAct (s : State) : State → Prop
  | idle : GrantAct s s
  | portWrite (r : Fin 21) (p : PortId) (q : WriteReq) (a : Nat) (hq : (s.port p).req = some q) (hf : s.sameFill q = true)
      (ha : s.wordAddress q.slot q.gen q.pos = some a) :
      GrantAct s ((((s.setPort p { s.port p with req := none }).writeInto a q).granted r).afterRequest p)
  | portWithdraw (p : PortId) (q : WriteReq) (hq : (s.port p).req = some q) (hf : s.sameFill q = false) :
      GrantAct s ((s.setPort p { s.port p with req := none }).afterRequest p)
  | feedWrite (r : Fin 21) (q : WriteReq) (a : Nat) (hq : s.feed.req = some q) (hf : s.sameFill q = true)
      (ha : s.wordAddress q.slot q.gen q.pos = some a) :
      GrantAct s ((((s.setFeed { s.feed with req := none }).writeInto a q).setFeed
        { s.feed with req := none, wordIndex := saturate16 s.feed.wordIndex }).granted r)
  | feedWithdraw (q : WriteReq) (hq : s.feed.req = some q) (hf : s.sameFill q = false) :
      GrantAct s (s.setFeed { s.feed with req := none })
  | linkRead (r : Fin 21) (k : LinkId) (q : ReadReq) (w : Word) (hq : (s.link k).req = some q) (hw : s.readFor q = .ok w) :
      GrantAct s ((((s.setLink k { s.link k with req := none }).placeWord k w false).presentRead k).granted r)
  | handleRead (r : Fin 21) (h : HandleId) (q : ReadReq) (w : Word) (hq : (s.handle h).req = some q)
      (hw : s.readFor q = .ok w) :
      GrantAct s { (s.setHandle h { s.handle h with req := none, addr := (s.handle h).addr + 1 }) with
        busRead := w, lastGranted := r }

/-- Any number of grants. -/
def GrantRun : State → State → Prop := Relation.ReflTransGen GrantAct

/-- The acts of a step that touch none of the part's blocks: the host's plain accesses, a trigger that is dropped, and the
count of a core clock cycle (R148 to R161). -/
inductive PlainAct (s : State) : State → Prop
  | nothing : PlainAct s s
  | dataLines : PlainAct s { s with busRead := 0 }
  | reject : PlainAct s { s with cmd := { s.cmd with rejected := true } }
  | popEvent : PlainAct s s.popEvent
  | readLost : PlainAct s s.readLost
  | writeMask (v : Word) : PlainAct s (s.writeMask v)
  | writeIrqEnable (b : Bool) : PlainAct s (s.writeIrqEnable b)
  | clearRejected (b : Bool) : PlainAct s (s.clearRejected b)
  | clearProtected (b : Bool) : PlainAct s (s.clearProtected b)
  | writeSchedule (e : EntryId) (second : Bool) (v : Word) : PlainAct s (s.writeSchedule e second v)
  | selectSlot (v : Word) : PlainAct s (s.selectSlot v)
  | writeArg (n : Fin 6) (v : Word) : PlainAct s (s.writeArg n v)
  | writePrescale (v : BitVec 16) : PlainAct s (s.writePrescale v)
  | countCycle : PlainAct s { s with timebase := { s.timebase with divider := s.timebase.divider + 1 } }

/-- The expiries, and what a tick and a core clock cycle are beside them (R141). -/
inductive TimeAct (s : State) : State → Prop
  | stallAbort (k : LinkId) : TimeAct s (s.stallAbort k)
  | giveUp (k : LinkId) : TimeAct s (s.giveUp k)
  | periodExpiry (k : LinkId) : TimeAct s (s.periodExpiry k)
  | windowExpiry (c : CohortId) : TimeAct s (s.windowExpiry c)
  | feedExpiry : TimeAct s s.feedExpiry
  | advanceTime (ready : BitVec 6) : TimeAct s (s.advanceTime ready)
  | countCycle : TimeAct s { s with timebase := { s.timebase with divider := s.timebase.divider + 1 } }

/-- Any number of expiries and ticks. -/
def TimeRun : State → State → Prop := Relation.ReflTransGen TimeAct

/-- One act of the part: a command of the host that the idle unit accepts (R152), another access of the host, an event of a
line or pin, or an act of one of the part's blocks. -/
inductive Act (s : State) : State → Prop
  | plain {t : State} (h : PlainAct s t) : Act s t
  | time {t : State} (h : TimeAct s t) : Act s t
  | slotConfigure (h : s.cmd.state = .idle) : Act s s.slotConfigure
  | slotFreeze (h : s.cmd.state = .idle) : Act s s.slotFreeze
  | slotThaw (h : s.cmd.state = .idle) : Act s s.slotThaw
  | slotTeardown (h : s.cmd.state = .idle) : Act s s.slotTeardown
  | cohortSet (h : s.cmd.state = .idle) : Act s s.cohortSet
  | linkStart (h : s.cmd.state = .idle) : Act s s.linkStart
  | linkLoad (h : s.cmd.state = .idle) : Act s s.linkLoad
  | linkCancel (h : s.cmd.state = .idle) : Act s s.linkCancel
  | linkStop (h : s.cmd.state = .idle) : Act s s.linkStop
  | handlePin (h : s.cmd.state = .idle) : Act s s.handlePin
  | handleRelease (h : s.cmd.state = .idle) : Act s s.handleRelease
  | feedOpen (h : s.cmd.state = .idle) : Act s s.feedOpen
  | feedClose (h : s.cmd.state = .idle) : Act s s.feedClose
  | feedAbort (h : s.cmd.state = .idle) : Act s s.feedAbort
  | pageTake : Act s s.pageTake
  | checkExamine : Act s s.checkExamine
  | intake (p : PortId) (x : Transfer) : Act s (s.intake p x)
  | headStart (p : PortId) : Act s (s.headStart p)
  | headWord (p : PortId) : Act s (s.headWord p)
  | headDrop (p : PortId) : Act s (s.headDrop p)
  | headEnd (p : PortId) : Act s (s.headEnd p)
  | headError (p : PortId) : Act s (s.headError p)
  | enablePort (p : PortId) : Act s (s.enablePort p)
  | disablePort (p : PortId) : Act s (s.disablePort p)
  | writeEnables (v : Word) : Act s (s.writeEnables v)
  | clearOverflowed (p : PortId) (b : Bool) : Act s (s.clearOverflowed p b)
  | placeNext (k : LinkId) : Act s (s.placeNext k)
  | wordTaken (k : LinkId) : Act s (s.wordTaken k)
  | readHandle (h : HandleId) : Act s (s.readHandle h)
  | writeHandleAddr (h : HandleId) (v : Word) : Act s (s.writeHandleAddr h v)
  | clearOverread (h : HandleId) (b : Bool) : Act s (s.clearOverread h b)
  | writeFeed (v : Word) : Act s (s.writeFeed v)
  | clearOverlength (b : Bool) : Act s (s.clearOverlength b)
  | writeControl (v : Word) : Act s (s.writeControl v)
  | assertReset : Act s s.assertReset
  | releaseReset : Act s s.releaseReset
  | rebuildPage : Act s s.rebuildPage
  | clearSchedule : Act s s.clearSchedule

namespace State

/-- A plain act leaves every block of the part as it is. -/
theorem plainAct_only {s t : State} (h : PlainAct s t) :
    t = { s with
      schedule := t.schedule, protectedWrite := t.protectedWrite, protectedEntry := t.protectedEntry, timebase := t.timebase
      events := t.events, cmd := t.cmd, slotSelect := t.slotSelect, busRead := t.busRead } := by
  cases h with
  | writeSchedule e second v => unfold writeSchedule; split <;> [split; skip] <;> rfl
  | _ => rfl

/-- A grant is one of the cases above. -/
theorem grantAt_act {s t : State} {r : Fin 21} (h : s.grantAt r = .done t ∨ s.grantAt r = .withdrawn t) : GrantAct s t := by
  unfold grantAt at h
  have idle : Grant.done s = .done t ∨ Grant.done s = .withdrawn t → GrantAct s t := fun h => by
    simp only [Grant.done.injEq, reduceCtorEq, or_false] at h
    exact h ▸ .idle
  split at h
  · rename_i p _
    split at h
    · rename_i q hq
      unfold grantPort at h
      simp only [] at h
      split at h
      · rename_i hf
        split at h
        · simp at h
        · rename_i a ha
          simp only [Grant.done.injEq, reduceCtorEq, or_false] at h
          exact h ▸ .portWrite r p q a hq hf ha
      · rename_i hf
        simp only [Grant.withdrawn.injEq, reduceCtorEq, false_or] at h
        exact h ▸ .portWithdraw p q hq (by simpa using hf)
    · exact idle h
  · rename_i k _
    split at h
    · rename_i q hq
      obtain h | h := h
      · obtain ⟨w, hw, rfl⟩ := grantLink_done _ _ _ _ _ h
        exact .linkRead r k q w hq hw
      · exact (grantLink_not_withdrawn _ _ _ _ _ h).elim
    · exact idle h
  · rename_i n _
    split at h
    · rename_i q hq
      obtain h | h := h
      · obtain ⟨w, hw, rfl⟩ := grantHandle_done _ _ _ _ _ h
        exact .handleRead r n q w hq hw
      · exact (grantHandle_not_withdrawn _ _ _ _ _ h).elim
    · exact idle h
  · split at h
    · rename_i q hq
      unfold grantFeed at h
      simp only [] at h
      split at h
      · rename_i hf
        split at h
        · simp at h
        · rename_i a ha
          simp only [Grant.done.injEq, reduceCtorEq, or_false] at h
          exact h ▸ .feedWrite r q a hq hf ha
      · rename_i hf
        simp only [Grant.withdrawn.injEq, reduceCtorEq, false_or] at h
        exact h ▸ .feedWithdraw q hq (by simpa using hf)
    · exact idle h

/-- One more grant after a run of them. -/
theorem grantRun_tail {s u t : State} {r : Fin 21} (h : GrantRun s u)
    (e : u.grantAt r = .done t ∨ u.grantAt r = .withdrawn t) : GrantRun s t := h.tail (grantAt_act e)

/-- STORE_GRANT is a run of grants. -/
theorem grantOne_run {s t : State} (h : s.grantOne = .next t) : GrantRun s t :=
  grantOne_keeps (GrantRun s) (fun _ _ _ => grantRun_tail) s t .refl h

/-- The end of a held access is a run of grants (R160). -/
theorem endHeld_run {n : Nat} {s t : State} (h : endHeld n s = .next t) : GrantRun s t :=
  endHeld_keeps (GrantRun s) (fun _ _ _ => grantRun_tail) n s t .refl h

/-- Grants and then one act. -/
def GrantsThenAct (s t : State) : Prop := ∃ u, GrantRun s u ∧ Act u t

theorem grantsThenAct_self (s : State) : GrantsThenAct s s := ⟨s, .refl, .plain .nothing⟩

/-- A host access that is taken is grants and then its act. -/
theorem hostAccess_run {s t : State} {act : State → State} (ha : ∀ u, Act u (act u)) (e : s.hostAccess act = .next t) :
    GrantsThenAct s t := by
  obtain ⟨u, hu, rfl⟩ := hostAccess_next s t act e
  exact ⟨u, endHeld_run hu, ha u⟩

theorem hostWrite_run {s t : State} {act : State → State} (ha : ∀ u, Act u (act u)) (e : s.hostWrite act = .next t) :
    GrantsThenAct s t := by
  unfold hostWrite at e
  split at e
  · exact hostAccess_run ha e
  all_goals cases e; exact grantsThenAct_self s

theorem controlWrite_run {s t : State} {act : State → State} (ha : ∀ u, Act u (act u)) (e : s.controlWrite act = .next t) :
    GrantsThenAct s t := by
  unfold controlWrite at e
  split at e
  · exact hostAccess_run ha e
  · exact hostAccess_run ha e
  · cases e; exact grantsThenAct_self s

theorem hostRead_run {s t : State} {act : State → State} (ha : ∀ u, Act u (act u)) (e : s.hostRead act = .next t) :
    GrantsThenAct s t := by
  unfold hostRead at e
  split at e
  · exact hostAccess_run ha e
  · exact hostAccess_run ha e
  · cases e; exact ⟨s, .refl, .plain .dataLines⟩

/-- A trigger is its command, or is dropped (R152, R156). -/
theorem trigger_act {act : State → State} (ha : ∀ u : State, u.cmd.state = .idle → Act u (act u)) (u : State) :
    Act u (trigger act u) := by
  unfold trigger
  split
  · rename_i h; exact ha u h
  · exact .plain .reject

/-- The commands of the trigger registers (R152). -/
theorem triggered_act (n : Fin 14) (u : State) (h : u.cmd.state = .idle) : Act u (triggered n u) := by
  unfold triggered
  split
  · exact .slotConfigure h
  · exact .slotFreeze h
  · exact .slotThaw h
  · exact .slotTeardown h
  · exact .cohortSet h
  · exact .linkStart h
  · exact .linkLoad h
  · exact .linkCancel h
  · exact .linkStop h
  · exact .handlePin h
  · exact .handleRelease h
  · exact .feedOpen h
  · exact .feedClose h
  · exact .feedAbort h

/-- A host write of a window word is one of the acts (R160). -/
theorem writeLocation_act (v : Word) (l : Location) (u : State) : Act u (u.writeLocation v l) := by
  cases l with
  | globalStatus => exact .plain (.clearProtected _)
  | captureEnable => exact .writeEnables v
  | eventPop => exact .plain .popEvent
  | portWord p n => show Act u (if n = 0 then _ else _); split <;> [exact .clearOverflowed p _; exact .plain .nothing]
  | arg n => exact .plain (.writeArg n v)
  | result => exact .plain (.clearRejected _)
  | trigger n => exact trigger_act (triggered_act n) u
  | slotSelect => exact .plain (.selectSlot v)
  | handleWord h n =>
    show Act u (if n = 0 then _ else if n = 5 then _ else _)
    split
    · exact .clearOverread h _
    · split <;> [exact .writeHandleAddr h v; exact .plain .nothing]
  | feedWord n =>
    show Act u (if n = 0 then _ else if n = 4 then _ else _)
    split
    · exact .clearOverlength _
    · split <;> [exact .writeFeed v; exact .plain .nothing]
  | schedule e second => exact .plain (.writeSchedule e second v)
  | _ => exact .plain .nothing

theorem writeWord_run {s t : State} {a : BitVec 12} {v : Word} (e : s.writeWord a v = .next t) : GrantsThenAct s t := by
  unfold writeWord at e
  split at e
  · exact controlWrite_run (fun _ => .writeControl v) e
  · exact controlWrite_run (fun _ => .plain (.writeMask v)) e
  · exact hostWrite_run (writeLocation_act v _) e

/-- A fold of acts is a run of them. -/
theorem foldl_run {α β : Type} {R : β → β → Prop} {f : β → α → β} (hf : ∀ t x, Relation.ReflTransGen R t (f t x))
    (l : List α) (s : β) : Relation.ReflTransGen R s (l.foldl f s) :=
  foldl_rel _ f (fun _ => .refl) (fun _ _ _ => .trans) hf l s

/-- The expiries that are outstanding are a run (R141). -/
theorem takeExpiries_run (s : State) : TimeRun s s.takeExpiries := by
  have links : TimeRun s (allLinks.foldl takeLinkExpiries s) := foldl_run (fun t k =>
    ((Relation.ReflTransGen.single (TimeAct.stallAbort k)).tail (.giveUp k)).tail (.periodExpiry k)) _ _
  exact (links.trans (foldl_run (fun t c => .single (.windowExpiry c)) _ _)).tail .feedExpiry

theorem tick_run (s : State) (ready : BitVec 6) : TimeRun s (s.tick ready) := by
  unfold tick
  split
  · exact .refl
  all_goals exact (takeExpiries_run s).tail (.advanceTime ready)

theorem clockCycle_run (s : State) : TimeRun s s.clockCycle := by
  unfold clockCycle
  split
  · exact .refl
  all_goals
    split
    · exact (takeExpiries_run s).tail .countCycle
    · exact (tick_run s _).trans (takeExpiries_run _)

end State

/-- A command that answers next is grants and then one act, or a run of expiries and ticks. -/
theorem exec_shape {c : Instr} {s t : State} (e : exec c s = .next t) : s.GrantsThenAct t ∨ TimeRun s t := by
  have own : ∀ {u : State}, Act s u → (Host.Outcome.next u : Result) = .next t → s.GrantsThenAct t ∨ TimeRun s t :=
    fun h e => by cases e; exact .inl ⟨s, .refl, h⟩
  cases c with
  | slotConfigure => exact .inl (State.hostWrite_run (State.trigger_act fun _ => .slotConfigure) e)
  | slotFreeze => exact .inl (State.hostWrite_run (State.trigger_act fun _ => .slotFreeze) e)
  | slotThaw => exact .inl (State.hostWrite_run (State.trigger_act fun _ => .slotThaw) e)
  | slotTeardown => exact .inl (State.hostWrite_run (State.trigger_act fun _ => .slotTeardown) e)
  | cohortSet => exact .inl (State.hostWrite_run (State.trigger_act fun _ => .cohortSet) e)
  | linkStart => exact .inl (State.hostWrite_run (State.trigger_act fun _ => .linkStart) e)
  | linkLoad => exact .inl (State.hostWrite_run (State.trigger_act fun _ => .linkLoad) e)
  | linkCancel => exact .inl (State.hostWrite_run (State.trigger_act fun _ => .linkCancel) e)
  | linkStop => exact .inl (State.hostWrite_run (State.trigger_act fun _ => .linkStop) e)
  | handlePin => exact .inl (State.hostWrite_run (State.trigger_act fun _ => .handlePin) e)
  | handleRelease => exact .inl (State.hostWrite_run (State.trigger_act fun _ => .handleRelease) e)
  | feedOpen => exact .inl (State.hostWrite_run (State.trigger_act fun _ => .feedOpen) e)
  | feedClose => exact .inl (State.hostWrite_run (State.trigger_act fun _ => .feedClose) e)
  | feedAbort => exact .inl (State.hostWrite_run (State.trigger_act fun _ => .feedAbort) e)
  | pageTake => exact own .pageTake e
  | checkExamine => exact own .checkExamine e
  | captureTransfer p x => exact own (.intake p x) e
  | headTakeStart p => exact own (.headStart p) e
  | headTakeWord p => exact own (.headWord p) e
  | headDropEntry p => exact own (.headDrop p) e
  | headTakeEnd p => exact own (.headEnd p) e
  | sourceError p => exact own (.headError p) e
  | portEnable p => exact .inl (State.hostWrite_run (fun _ => .enablePort p) e)
  | portDisable p => exact .inl (State.hostWrite_run (fun _ => .disablePort p) e)
  | overflowedClear p bit => exact .inl (State.hostWrite_run (fun _ => .clearOverflowed p bit) e)
  | storeGrant => exact .inl ⟨t, State.grantOne_run e, .plain .nothing⟩
  | tick ready => cases e; exact .inr (State.tick_run s ready)
  | periodExpiry k => exact own (.time (.periodExpiry k)) e
  | linkPlaceWord k => exact own (.placeNext k) e
  | wordTaken k => exact own (.wordTaken k) e
  | stallAbort k => exact own (.time (.stallAbort k)) e
  | abortWordGiveUp k => exact own (.time (.giveUp k)) e
  | windowExpiry c => exact own (.time (.windowExpiry c)) e
  | feedIdleExpiry => exact own (.time .feedExpiry) e
  | handleDataRead h => exact .inl (State.hostRead_run (fun _ => .readHandle h) e)
  | handleAddrWrite h v => exact .inl (State.hostWrite_run (fun _ => .writeHandleAddr h v) e)
  | overreadClear h bit => exact .inl (State.hostWrite_run (fun _ => .clearOverread h bit) e)
  | feedDataWrite v => exact .inl (State.hostWrite_run (fun _ => .writeFeed v) e)
  | overlengthClear bit => exact .inl (State.hostWrite_run (fun _ => .clearOverlength bit) e)
  | scheduleWrite i second v => exact .inl (State.hostWrite_run (fun _ => .plain (.writeSchedule i second v)) e)
  | protectedWriteClear bit => exact .inl (State.hostWrite_run (fun _ => .plain (.clearProtected bit)) e)
  | commandRejectedClear bit => exact .inl (State.hostWrite_run (fun _ => .plain (.clearRejected bit)) e)
  | slotSelect v => exact .inl (State.hostWrite_run (fun _ => .plain (.selectSlot v)) e)
  | eventPop => exact .inl (State.hostWrite_run (fun _ => .plain .popEvent) e)
  | eventLost => exact .inl (State.hostRead_run (fun _ => .plain .readLost) e)
  | eventMask v => exact .inl (State.controlWrite_run (fun _ => .plain (.writeMask v)) e)
  | prescale v => exact .inl (State.controlWrite_run (fun _ => .plain (.writePrescale v)) e)
  | irqEnable bit => exact .inl (State.controlWrite_run (fun _ => .plain (.writeIrqEnable bit)) e)
  | resetDevice v => exact .inl (State.controlWrite_run (fun _ => .writeControl v) e)
  | powerOnReset => exact own .assertReset e
  | resetRelease => exact own .releaseReset e
  | rebuildLinkPage => exact own .rebuildPage e
  | scheduleClear => exact own .clearSchedule e
  | registerWrite a v => exact .inl (State.writeWord_run e)

/-- A step takes a command from the queue and is then grants and one act, or a run of expiries and ticks. -/
theorem step_shape {s t : State} (e : step s = .next t) :
    ∃ l, State.GrantsThenAct { s with pending := l } t ∨ TimeRun { s with pending := l } t := by
  unfold step at e
  split at e
  · cases e; exact ⟨s.pending, .inr (State.clockCycle_run s)⟩
  · rename_i rest _; exact ⟨rest, exec_shape e⟩

/-- What a run of moves keeps when each move keeps it. -/
theorem run_keeps {R : State → State → Prop} (P : State → Prop) (h : ∀ s t, P s → R s t → P t) {s t : State} (hs : P s)
    (e : Relation.ReflTransGen R s t) : P t := by
  induction e with
  | refl => exact hs
  | tail _ e ih => exact h _ _ ih e

/-- A property that does not speak of the queue and that every grant and every act keeps is kept by every step. -/
theorem step_keeps_of_acts (P : State → Prop) (hq : ∀ s l, P s → P { s with pending := l })
    (hg : ∀ s t, P s → GrantAct s t → P t) (ha : ∀ s t, P s → Act s t → P t) {s t : State} (h : P s)
    (e : step s = .next t) : P t := by
  obtain ⟨l, ⟨u, hu, act⟩ | run⟩ := step_shape e
  · exact ha u t (run_keeps P hg (hq s l h) hu) act
  · exact run_keeps P (fun s t hs ht => ha s t hs (.time ht)) (hq s l h) run

end Sys2Proof.Machine

/-! SUPPORT. What each act of the part can change: the state after it is the state before with the named fields alone
replaced (op_only, as in the laws of the shared operations). -/

namespace Sys2Proof.Machine
namespace State

theorem presentRead_only (s : State) (k : LinkId) : s.presentRead k = { s with links := (s.presentRead k).links } := by
  obtain ⟨q, h⟩ := presentRead_req s k
  rw [h]; rfl

theorem placeNext_only (s : State) (k : LinkId) : s.placeNext k = { s with links := (s.placeNext k).links } := by
  unfold placeNext
  simp only []
  split
  · rfl
  · split
    · split
      · rw [presentRead_only, placeWord_only]
      · rw [placeWord_only]
      all_goals rfl
    · rfl

theorem frameBegin_only (s : State) (k : LinkId) :
    s.frameBegin k = { s with slots := (s.frameBegin k).slots, links := (s.frameBegin k).links } := by
  unfold frameBegin
  simp only []
  rw [placeWord_only, claimPins_only]
  rfl

theorem stallAbort_only (s : State) (k : LinkId) :
    s.stallAbort k = { s with
      slots := (s.stallAbort k).slots, pool := (s.stallAbort k).pool, links := (s.stallAbort k).links,
      events := (s.stallAbort k).events } := by
  unfold stallAbort
  split
  · exact abortFrame_only ..
  · rfl

theorem giveUp_only (s : State) (k : LinkId) :
    s.giveUp k = { s with links := (s.giveUp k).links, events := (s.giveUp k).events } := by
  unfold giveUp
  split
  · rw [frameDone_only]; rfl
  · rfl

theorem periodExpiry_only (s : State) (k : LinkId) :
    s.periodExpiry k = { s with
      slots := (s.periodExpiry k).slots, links := (s.periodExpiry k).links, events := (s.periodExpiry k).events } := by
  unfold periodExpiry
  simp only []
  split
  · split
    · rw [frameBegin_only]; rfl
    · rfl
  · rfl

theorem itemDone_only (s : State) (k : LinkId) (it : Item) :
    s.itemDone k it = { s with links := (s.itemDone k it).links, events := (s.itemDone k it).events } := by
  unfold itemDone
  simp only []
  split <;> split <;> rfl

theorem wordTaken_only (s : State) (k : LinkId) :
    s.wordTaken k = { s with
      slots := (s.wordTaken k).slots, pool := (s.wordTaken k).pool, links := (s.wordTaken k).links,
      events := (s.wordTaken k).events } := by
  unfold wordTaken
  simp only []
  split
  · rfl
  · rfl
  · rw [frameDone_only]; rfl
  · split
    · split
      · rw [frameEnd_only]; rfl
      · unfold afterTake
        split
        · rw [presentRead_only, itemDone_only]; rfl
        · rw [presentRead_only]; rfl
    · rfl

theorem checkFail_only (s : State) (k : LinkId) (why : CheckFailure) (n : Nat) :
    s.checkFail k why n = { s with
      check := none, events := (s.checkFail k why n).events, cmd := (s.checkFail k why n).cmd } := rfl

theorem checkStart_only (s : State) (k : LinkId) (c : LongCommand) (p : Program) :
    s.checkStart k c p = { s with
      check := (s.checkStart k c p).check, events := (s.checkStart k c p).events, cmd := (s.checkStart k c p).cmd } := by
  unfold checkStart
  split
  · rfl
  · rw [checkFail_only]

theorem linkStart_only (s : State) :
    s.linkStart = { s with check := s.linkStart.check, events := s.linkStart.events, cmd := s.linkStart.cmd } := by
  unfold linkStart
  split <;> [rfl; skip]
  split <;> [rfl; skip]
  split <;> [rfl; skip]
  split <;> [rfl; skip]
  split <;> [rfl; skip]
  rw [checkStart_only]; rfl

theorem linkLoad_only (s : State) :
    s.linkLoad = { s with check := s.linkLoad.check, events := s.linkLoad.events, cmd := s.linkLoad.cmd } := by
  unfold linkLoad
  split <;> [rfl; skip]
  split <;> [rfl; skip]
  split <;> [rfl; skip]
  rw [checkStart_only]; rfl

theorem checkPass_only (s : State) (c : Check) :
    s.checkPass c = { s with
      check := none, links := (s.checkPass c).links, events := (s.checkPass c).events, cmd := (s.checkPass c).cmd } := by
  unfold checkPass
  simp only []
  split
  · unfold startLink; split <;> rfl
  · rfl
  · rfl

theorem checkExamine_only (s : State) :
    s.checkExamine = { s with
      check := s.checkExamine.check, links := s.checkExamine.links, events := s.checkExamine.events
      cmd := s.checkExamine.cmd } := by
  unfold checkExamine
  split <;> [rfl; skip]
  simp only []
  split
  · rfl
  · unfold examineEnd
    split <;> [rfl; skip]
    split <;> [(rw [checkPass_only]); rfl]
  all_goals
    unfold examineItem
    simp only []
    split <;> [rfl; skip]
    split <;> [rfl; skip]
    split <;> [rfl; skip]
    split <;> rfl

theorem linkCancel_only (s : State) : s.linkCancel = { s with links := s.linkCancel.links, cmd := s.linkCancel.cmd } := by
  unfold linkCancel
  split <;> [rfl; skip]
  split <;> rfl

theorem stopFrame_only (s : State) (k : LinkId) (b : Bool) :
    s.stopFrame k b = { s with
      slots := (s.stopFrame k b).slots, pool := (s.stopFrame k b).pool, links := (s.stopFrame k b).links,
      events := (s.stopFrame k b).events } := by
  unfold stopFrame
  simp only []
  split
  · rw [abortFrame_only]; rfl
  · rfl

theorem linkStop_only (s : State) :
    s.linkStop = { s with
      slots := s.linkStop.slots, pool := s.linkStop.pool, links := s.linkStop.links, events := s.linkStop.events
      cmd := s.linkStop.cmd } := by
  unfold linkStop
  split <;> [rfl; skip]
  split <;> [rfl; skip]
  split <;> [rfl; skip]
  split
  · rfl
  · rw [stopFrame_only]; rfl

theorem handlePin_only (s : State) :
    s.handlePin = { s with slots := s.handlePin.slots, handles := s.handlePin.handles, cmd := s.handlePin.cmd } := by
  unfold handlePin
  split <;> [rfl; skip]
  split <;> [rfl; skip]
  split <;> [rfl; skip]
  split <;> rfl

theorem handleRelease_only (s : State) :
    s.handleRelease = { s with
      slots := s.handleRelease.slots, pool := s.handleRelease.pool, links := s.handleRelease.links
      handles := s.handleRelease.handles, events := s.handleRelease.events, cmd := s.handleRelease.cmd } := by
  unfold handleRelease
  split <;> [rfl; skip]
  simp only []
  split
  · rw [release_only]; rfl
  · rfl
  · rfl

theorem slotConfigure_only (s : State) :
    s.slotConfigure = { s with
      slots := s.slotConfigure.slots, pool := s.slotConfigure.pool, cohorts := s.slotConfigure.cohorts
      cmd := s.slotConfigure.cmd } := by
  unfold slotConfigure
  split <;> [rfl; skip]
  split <;> [rfl; skip]
  split <;> [rfl; skip]
  split <;> [rfl; skip]
  unfold acceptConfigure joinCohort
  split <;> rfl

theorem slotFreeze_only (s : State) : s.slotFreeze = { s with slots := s.slotFreeze.slots, cmd := s.slotFreeze.cmd } := by
  unfold slotFreeze
  split <;> [rfl; skip]
  split <;> rfl

theorem slotThaw_only (s : State) : s.slotThaw = { s with slots := s.slotThaw.slots, cmd := s.slotThaw.cmd } := by
  unfold slotThaw
  split <;> [rfl; skip]
  split <;> rfl

theorem cohortSet_only (s : State) : s.cohortSet = { s with cohorts := s.cohortSet.cohorts, cmd := s.cohortSet.cmd } := by
  unfold cohortSet
  split <;> [rfl; skip]
  split <;> [rfl; skip]
  split <;> [rfl; skip]
  split <;> rfl

theorem advanceAlloc_only (s : State) (a : Alloc) (p : PageId) :
    s.advanceAlloc a p = { s with
      slots := (s.advanceAlloc a p).slots, pool := (s.advanceAlloc a p).pool, events := (s.advanceAlloc a p).events
      cmd := (s.advanceAlloc a p).cmd } := by
  unfold advanceAlloc
  simp only []
  split <;> split <;> rfl

theorem pageTake_only (s : State) :
    s.pageTake = { s with
      slots := s.pageTake.slots, pool := s.pageTake.pool, events := s.pageTake.events, cmd := s.pageTake.cmd } := by
  unfold pageTake
  split
  · rw [advanceAlloc_only]; rfl
  · rfl

theorem feedOpen_only (s : State) :
    s.feedOpen = { s with
      slots := s.feedOpen.slots, feed := s.feedOpen.feed, events := s.feedOpen.events, cmd := s.feedOpen.cmd } := by
  unfold feedOpen
  split <;> [rfl; skip]
  split <;> [rfl; skip]
  split <;> [rfl; skip]
  split <;> [rfl; skip]
  split <;> [rfl; skip]
  split <;> [rfl; skip]
  unfold openFeed
  simp only []
  rw [requestTarget_only]
  split <;> rfl

theorem feedClose_only (s : State) :
    s.feedClose = { s with
      slots := s.feedClose.slots, cohorts := s.feedClose.cohorts, feed := s.feedClose.feed, events := s.feedClose.events
      cmd := s.feedClose.cmd } := by
  unfold feedClose
  split <;> [rfl; (rw [complete_only]; rfl)]

theorem feedAbort_only (s : State) :
    s.feedAbort = { s with
      slots := s.feedAbort.slots, feed := s.feedAbort.feed, events := s.feedAbort.events, cmd := s.feedAbort.cmd } := by
  unfold feedAbort
  split <;> [rfl; (rw [abandon_only]; rfl)]

theorem readHandle_only (s : State) (h : HandleId) :
    s.readHandle h = { s with handles := (s.readHandle h).handles, busRead := (s.readHandle h).busRead } := by
  unfold readHandle
  simp only []
  split
  · split <;> rfl
  all_goals rfl

theorem writeFeed_only (s : State) (v : Word) : s.writeFeed v = { s with feed := (s.writeFeed v).feed } := by
  unfold writeFeed
  simp only []
  split
  · rfl
  · split <;> rfl

theorem intake_only (s : State) (p : PortId) (x : Transfer) : s.intake p x = { s with ports := (s.intake p x).ports } := by
  unfold intake
  simp only []
  split <;> [rfl; skip]
  split <;> rfl

theorem enablePort_only (s : State) (p : PortId) : s.enablePort p = { s with ports := (s.enablePort p).ports } := by
  unfold enablePort
  split <;> rfl

theorem disablePort_only (s : State) (p : PortId) :
    s.disablePort p = { s with
      slots := (s.disablePort p).slots, ports := (s.disablePort p).ports, events := (s.disablePort p).events } := by
  unfold disablePort
  split <;> [skip; rfl]
  simp only []
  split <;> [(rw [giveUpBlock_only]; rfl); rfl]

theorem writeEnables_only (s : State) (v : Word) :
    s.writeEnables v = { s with
      slots := (s.writeEnables v).slots, ports := (s.writeEnables v).ports, events := (s.writeEnables v).events } := by
  refine foldl_rel (fun s t : State => t = { s with slots := t.slots, ports := t.ports, events := t.events }) _
    (fun _ => rfl) (fun s t u h1 h2 => ?_) (fun t p => ?_) allPorts s
  · rw [h2, h1]
  · split
    · rw [enablePort_only]
    · exact disablePort_only t p

theorem beginBlock_only (s : State) (p : PortId) (e : FifoEntry) :
    s.beginBlock p e = { s with
      slots := (s.beginBlock p e).slots, ports := (s.beginBlock p e).ports, events := (s.beginBlock p e).events } := by
  have hu : (if (s.port p).state = .inBlock then s.giveUpBlock p .missingEnd else s) = { s with
      slots := (if (s.port p).state = .inBlock then s.giveUpBlock p .missingEnd else s).slots
      ports := (if (s.port p).state = .inBlock then s.giveUpBlock p .missingEnd else s).ports
      events := (if (s.port p).state = .inBlock then s.giveUpBlock p .missingEnd else s).events } := by
    split <;> [exact giveUpBlock_only ..; rfl]
  unfold beginBlock
  simp only []
  generalize (if (s.port p).state = .inBlock then s.giveUpBlock p .missingEnd else s) = u at hu ⊢
  have hv := offerToSlots_only (u.setPort p { u.port p with blocksSeen := (u.port p).blocksSeen + 1, wordIndex := 0 }) p e
  generalize offerToSlots _ p e = v at hv ⊢
  rw [hv, hu]; rfl

theorem headStart_only (s : State) (p : PortId) :
    s.headStart p = { s with
      slots := (s.headStart p).slots, cohorts := (s.headStart p).cohorts, ports := (s.headStart p).ports
      events := (s.headStart p).events } := by
  unfold headStart
  split <;> [rfl; skip]
  split <;> [skip; rfl]
  split
  · rw [beginBlock_only]
  · rw [takeWord_only, beginBlock_only]

theorem headError_only (s : State) (p : PortId) :
    s.headError p = { s with
      slots := (s.headError p).slots, ports := (s.headError p).ports, events := (s.headError p).events } := by
  unfold headError
  split <;> [rfl; skip]
  split <;> [skip; rfl]
  simp only []
  rw [leaveEntry_only, giveUpBlock_only]; rfl

/-- What HEAD_TAKE_WORD, HEAD_TAKE_END and HEAD_DROP_ENTRY are made of. -/
theorem headWord_eq (s : State) (p : PortId) : s.headWord p = s ∨ s.headWord p = s.takeWord p := by
  unfold headWord
  split <;> [exact .inl rfl; skip]
  split <;> [exact .inr rfl; exact .inl rfl]

theorem headEnd_eq (s : State) (p : PortId) : s.headEnd p = s ∨ s.headEnd p = s.takeWord p := by
  unfold headEnd
  split <;> [exact .inl rfl; skip]
  split <;> [exact .inr rfl; exact .inl rfl]

theorem headDrop_eq (s : State) (p : PortId) : s.headDrop p = s ∨ s.headDrop p = s.leaveEntry p := by
  unfold headDrop
  split <;> [exact .inl rfl; skip]
  split <;> [exact .inr rfl; exact .inl rfl]

theorem forgetSlot_slots (s : State) (i : SlotId) : (s.forgetSlot i).slots = s.slots := by rw [forgetSlot_only]

theorem revokeHandles_only (s : State) (i : SlotId) :
    s.revokeHandles i = { s with
      slots := (s.revokeHandles i).slots, handles := (s.revokeHandles i).handles, events := (s.revokeHandles i).events } := by
  refine foldl_rel (fun s t : State => t = { s with slots := t.slots, handles := t.handles, events := t.events }) _
    (fun _ => rfl) (fun s t u h1 h2 => ?_) (fun t h => ?_) allHandles s
  · rw [h2, h1]
  · unfold revokeHandle; simp only []; split <;> rfl

theorem leaveCohort_only (s : State) (i : SlotId) (c : Option CohortId) :
    s.leaveCohort i c = { s with
      slots := (s.leaveCohort i c).slots, cohorts := (s.leaveCohort i c).cohorts, events := (s.leaveCohort i c).events } := by
  unfold leaveCohort; split <;> [exact depart_only ..; rfl]

/-- A writer-target request by its answer (R4, R5). -/
theorem requestTarget_some {s : State} {i : SlotId} {g : GenId} (h : (s.slot i).target = some g) (stamp : Tick)
    (tag : BitVec 8) : s.requestTarget i stamp tag =
      s.setSlot i ((s.slot i).setGen g (Slot.filled ((s.slot i).gen g) stamp tag)) := by
  simp [requestTarget, h]

theorem requestTarget_none {s : State} {i : SlotId} (h : (s.slot i).target = none) (stamp : Tick) (tag : BitVec 8) :
    s.requestTarget i stamp tag =
      (s.setSlot i { s.slot i with overruns := saturate16 (s.slot i).overruns }).offer .slotOverrun i.val
        (s.slot i).newestSeq 0 := by
  simp [requestTarget, h]

/-- The record of a generation of a slot just configured (R14). -/
theorem blankGens_get (x : Slot) (g : GenId) : x.blankGens.get g = Gen.blank (x.gen g).fill := by
  unfold Slot.blankGens
  simp only [allGens, List.foldl_cons, List.foldl_nil, Table.get_put]
  fin_cases g <;> simp

theorem gen_configured (x : Slot) (a : ConfigureArgs) (g : GenId) : (x.configured a).gen g = Gen.blank (x.gen g).fill :=
  blankGens_get x g

end State
end Sys2Proof.Machine

/-! SUPPORT. FILLING generations and their writers (R4, §3.2, R130): what each operation does to the FILLING generations of
the slots, and that every grant and every act keeps fillInv. -/

namespace Sys2Proof.Machine

/-- The slot is ACTIVE or FROZEN. -/
def Slot.live (x : Slot) : Prop := x.state = .active ∨ x.state = .frozen

namespace State

/-- Between two states every slot keeps SOURCE and stays ACTIVE or FROZEN, and the FILLING generations that end are those of a
list. -/
structure FillEnds (s t : State) (gone : List (SlotId × GenId)) : Prop where
  source : ∀ i, (t.slot i).source = (s.slot i).source
  live : ∀ i, (s.slot i).live → (t.slot i).live
  filling : ∀ i g, ((t.slot i).gen g).state = .filling ↔ ((s.slot i).gen g).state = .filling ∧ (i, g) ∉ gone

/-- No generation's fill begins or ends. -/
abbrev FillSame (s t : State) : Prop := FillEnds s t []

theorem FillEnds.trans {s t u : State} {l m : List (SlotId × GenId)} (h : FillEnds s t l) (h' : FillEnds t u m) :
    FillEnds s u (l ++ m) where
  source i := (h'.source i).trans (h.source i)
  live i := h'.live i ∘ h.live i
  filling i g := by rw [h'.filling, h.filling, List.mem_append, not_or, and_assoc]

theorem FillSame.trans {s t u : State} {l : List (SlotId × GenId)} (h : FillSame s t) (h' : FillEnds t u l) :
    FillEnds s u l := FillEnds.trans h h'

theorem FillEnds.same {s t u : State} {l : List (SlotId × GenId)} (h : FillEnds s t l) (h' : FillSame t u) :
    FillEnds s u l := by simpa using h.trans h'

/-- Operations that leave the slots begin and end no fill. -/
theorem fillSame_of_slots {s t : State} (h : t.slots = s.slots) : FillSame s t := by
  have hs : ∀ i, t.slot i = s.slot i := fun i => by unfold slot; rw [h]
  exact ⟨fun i => by rw [hs], fun i => by rw [hs]; exact id, fun i g => by rw [hs]; simp⟩

/-- A record offered to the event queue, and the report of a result. -/
theorem FillEnds.offer {s t : State} {l : List (SlotId × GenId)} (h : FillEnds s t l) (k : EventKind) (o : Nat) (a : Word)
    (r : BitVec 4) : FillEnds s (t.offer k o a r) l := h.same (t := t) (u := t.offer k o a r) (fillSame_of_slots rfl)

theorem FillEnds.result {s t : State} {l : List (SlotId × GenId)} (h : FillEnds s t l) (c : ResultCode) (d : Word) :
    FillEnds s (t.result c d) l := h.same (t := t) (u := t.result c d) (fillSame_of_slots rfl)

/-- A slot replaced by one that agrees on SOURCE and on what is FILLING, but for the fills that end. -/
theorem fillEnds_setSlot (s : State) (i : SlotId) (x : Slot) {gone : List (SlotId × GenId)}
    (hsrc : x.source = (s.slot i).source) (hlive : (s.slot i).live → x.live)
    (hfill : ∀ g, (x.gen g).state = .filling ↔ ((s.slot i).gen g).state = .filling ∧ (i, g) ∉ gone)
    (hone : ∀ j g, (j, g) ∈ gone → j = i) : FillEnds s (s.setSlot i x) gone where
  source j := by rw [slot_setSlot]; split <;> [(rename_i e; subst e; exact hsrc); rfl]
  live j := by rw [slot_setSlot]; split <;> [(rename_i e; subst e; exact hlive); exact id]
  filling j g := by
    rw [slot_setSlot]
    split
    · rename_i e; subst e; exact hfill g
    · rename_i e; exact ⟨fun h => ⟨h, fun hg => e (hone j g hg)⟩, And.left⟩

/-- One generation record of a slot replaced, and other fields that do not matter here. -/
theorem fillEnds_setGen (s : State) (i : SlotId) (x : Slot) (g : GenId) (y : Gen) {gone : List (SlotId × GenId)}
    (hx : x.gens = ((s.slot i).setGen g y).gens) (hsrc : x.source = (s.slot i).source) (hlive : x.state = (s.slot i).state)
    (hy : y.state = .filling ↔ ((s.slot i).gen g).state = .filling ∧ (i, g) ∉ gone)
    (hone : ∀ j h, (j, h) ∈ gone → j = i ∧ h = g) : FillEnds s (s.setSlot i x) gone := by
  refine fillEnds_setSlot s i x hsrc (fun h => ?_) (fun h => ?_) (fun j h hm => (hone j h hm).1)
  · unfold Slot.live at h ⊢; rwa [hlive]
  · have e : x.gen h = ((s.slot i).setGen g y).gen h := by unfold Slot.gen; rw [hx]
    rw [e, Slot.gen_setGen]
    split
    · rename_i e; subst e; exact hy
    · rename_i e; exact ⟨fun hf => ⟨hf, fun hm => e (hone i h hm).2⟩, And.left⟩

/-- The same where the record's fill neither begins nor ends. -/
theorem fillSame_setGen (s : State) (i : SlotId) (x : Slot) (g : GenId) (y : Gen)
    (hx : x.gens = ((s.slot i).setGen g y).gens) (hsrc : x.source = (s.slot i).source) (hlive : x.state = (s.slot i).state)
    (hy : y.state = .filling ↔ ((s.slot i).gen g).state = .filling) : FillSame s (s.setSlot i x) :=
  fillEnds_setGen s i x g y hx hsrc hlive (by simpa using hy) (by simp)

/-! ### The operations on slots -/

/-- An abandon ends the fill of its generation (R9). -/
theorem abandon_fillEnds (s : State) (i : SlotId) (g : GenId) (w : AbandonReason) :
    FillEnds s (s.abandon i g w) [(i, g)] := by
  unfold abandon
  split
  · exact (fillEnds_setGen s i ((s.slot i).abandoned g) g (Slot.emptied ((s.slot i).gen g)) rfl rfl rfl
      (by simp [Slot.emptied]) (by simp)).offer ..
  · rename_i h
    refine ⟨fun _ => rfl, fun _ => id, fun j k => ⟨fun hf => ⟨hf, fun hm => h ?_⟩, And.left⟩⟩
    simp only [List.mem_singleton, Prod.mk.injEq] at hm
    obtain ⟨rfl, rfl⟩ := hm
    exact hf

/-- A dropped or published seal is no fill (R8). -/
theorem dropSeal_fillSame (s : State) (i : SlotId) (w : AbandonReason) : FillSame s (s.dropSeal i w) := by
  unfold dropSeal
  split
  · exact fillSame_of_slots rfl
  · rename_i g hg
    have := sealedGen_spec _ _ hg
    exact (fillSame_setGen s i ((s.slot i).abandoned g) g (Slot.emptied ((s.slot i).gen g)) rfl rfl rfl
      (by simp [Slot.emptied, this])).offer ..

theorem publishSeal_fillSame (s : State) (i : SlotId) (e : BitVec 16) (b : Bool) : FillSame s (s.publishSeal i e b) := by
  unfold publishSeal
  split
  · exact fillSame_of_slots rfl
  · rename_i g hg
    have := sealedGen_spec _ _ hg
    exact fillSame_setGen s i _ g _ rfl rfl rfl (by simp [this])

theorem publishSeals_fillSame (s : State) (set : BitVec 32) (e : BitVec 16) (b : Bool) :
    FillSame s (s.publishSeals set e b) := by
  refine foldl_rel FillSame _ (fun _ => fillSame_of_slots rfl) (fun _ _ _ => .trans) (fun t i => ?_) allSlots s
  split
  · exact publishSeal_fillSame t i e b
  · exact fillSame_of_slots rfl

theorem discardSeals_fillSame (s : State) (set : BitVec 32) : FillSame s (s.discardSeals set) := by
  refine foldl_rel FillSame _ (fun _ => fillSame_of_slots rfl) (fun _ _ _ => .trans) (fun t i => ?_) allSlots s
  split
  · exact dropSeal_fillSame t i _
  · exact fillSame_of_slots rfl

theorem fullPublish_fillSame (s : State) (c : CohortId) : FillSame s (s.fullPublish c) :=
  (publishSeals_fillSame s _ _ _).same (fillSame_of_slots rfl)

theorem sealReport_fillSame (s : State) (c : CohortId) (i : SlotId) (b : Bool) : FillSame s (s.sealReport c i b) := by
  unfold sealReport
  simp only []
  split
  · split
    · exact FillSame.trans (t := s.setCohort c _) (fillSame_of_slots rfl) (fullPublish_fillSame _ c)
    · exact fillSame_of_slots rfl
  · split
    · exact fillSame_of_slots rfl
    · split
      · exact FillSame.trans (t := s.setCohort c _) (fillSame_of_slots rfl) (fullPublish_fillSame _ c)
      · exact fillSame_of_slots rfl

theorem depart_fillSame (s : State) (c : CohortId) (i : SlotId) : FillSame s (s.depart c i) := by
  unfold depart
  simp only []
  split
  · exact fillSame_of_slots rfl
  · split
    · exact fillSame_of_slots rfl
    · split
      · exact FillSame.trans (t := s.setCohort c _) (fillSame_of_slots rfl) (fullPublish_fillSame _ c)
      · exact fillSame_of_slots rfl

/-- A seal ends the fill of its generation; a superseded one was no fill (R7). -/
theorem sealGen_fillEnds (s : State) (i : SlotId) (g : GenId) (c : CohortId) (n : Nat) :
    FillEnds s (s.sealGen i g c n) [(i, g)] := by
  unfold sealGen
  simp only []
  split
  · exact (fillEnds_setGen s i _ g _ rfl rfl rfl (by simp) (by simp)).same (sealReport_fillSame ..)
  · rename_i o ho
    have hs := sealedGen_spec _ _ ho
    generalize hx : ((s.slot i).setGen g _).setGen o _ = x
    have h : FillEnds s (s.setSlot i x) [(i, g)] := by
      refine fillEnds_setSlot s i x (by rw [← hx]; rfl) (by rw [← hx]; exact id) (fun h => ?_) (by simp)
      rw [← hx, Slot.gen_setGen, Slot.gen_setGen]
      by_cases h1 : h = o
      · subst h1; simp [Slot.emptied, hs]
      · by_cases h2 : h = g
        · subst h2; simp [h1]
        · simp [h1, h2]
    exact (h.offer ..).same (sealReport_fillSame ..)

/-- A completion ends the fill of its generation (R6, R7). -/
theorem complete_fillEnds (s : State) (i : SlotId) (g : GenId) (n : Nat) : FillEnds s (s.complete i g n) [(i, g)] := by
  unfold complete
  simp only []
  split
  · rename_i hf
    split
    · exact fillEnds_setGen s i _ g _ rfl rfl rfl (by simp) (by simp)
    · exact sealGen_fillEnds ..
  · rename_i h
    refine ⟨fun _ => rfl, fun _ => id, fun j k => ⟨fun hf => ⟨hf, fun hm => h ?_⟩, And.left⟩⟩
    simp only [List.mem_singleton, Prod.mk.injEq] at hm
    obtain ⟨rfl, rfl⟩ := hm
    exact hf

/-- The members of a list as generations. -/
def memberGens (l : List FillMember) : List (SlotId × GenId) := l.map fun m => (m.slot, m.gen)

/-- A fold that ends the fill of each member ends the fills of all. -/
theorem foldl_fillEnds {f : State → FillMember → State} (hf : ∀ t m, FillEnds t (f t m) [(m.slot, m.gen)]) :
    ∀ (l : List FillMember) (s : State), FillEnds s (l.foldl f s) (memberGens l)
  | [], _ => fillSame_of_slots rfl
  | m :: l, s => (hf s m).trans (foldl_fillEnds hf l (f s m))

theorem abandonMembers_fillEnds (s : State) (l : List FillMember) (w : AbandonReason) :
    FillEnds s (s.abandonMembers l w) (memberGens l) := foldl_fillEnds (fun _ _ => abandon_fillEnds ..) l s

theorem completeMembers_fillEnds (s : State) (l : List FillMember) : FillEnds s (s.completeMembers l) (memberGens l) :=
  foldl_fillEnds (fun _ _ => complete_fillEnds ..) l s

/-- PINS, WORDS and HEAD of a record are no matter of its fill. -/
theorem setPins_fillSame (s : State) (i : SlotId) (g : GenId) (n : Nat) :
    FillSame s (s.setSlot i ((s.slot i).setPins g n)) := fillSame_setGen s i _ g _ rfl rfl rfl Iff.rfl

theorem returnChain_fillSame (s : State) (i : SlotId) (g : GenId) : FillSame s (s.returnChain i g) := by
  unfold returnChain
  simp only []
  split
  · exact fillSame_of_slots rfl
  · exact FillSame.trans (t := s.setPool (s.pool.appendChain _ (s.slot i).ppg)) (fillSame_of_slots rfl)
      (fillSame_setGen _ i _ g _ rfl rfl rfl Iff.rfl)

theorem returnChains_fillSame (s : State) (i : SlotId) : FillSame s (s.returnChains i) := by
  refine foldl_rel FillSame _ (fun _ => fillSame_of_slots rfl) (fun _ _ _ => .trans) (fun t g => ?_) allGens s
  split
  · exact returnChain_fillSame t i g
  · exact fillSame_of_slots rfl

/-- The return of chains leaves the slot's state as it is. -/
theorem returnChains_state (s : State) (i : SlotId) : ((s.returnChains i).slot i).state = (s.slot i).state := by
  refine foldl_get (fun t : State => (t.slot i).state) _ allGens (fun t g _ => ?_) s
  split
  · unfold returnChain
    simp only []
    split
    · rfl
    · rw [slot_setSlot_self]; rfl
  · rfl

/-- The end of a drain in a slot that is not ACTIVE or FROZEN (R20). -/
theorem drainEnd_fillSame (s : State) (i : SlotId) (h : ¬ (s.slot i).live) : FillSame s (s.drainEnd i) := by
  have hs := forgetSlot_slots (s.returnChains i) i
  have hf : FillSame s ((s.returnChains i).forgetSlot i) := (returnChains_fillSame s i).same (fillSame_of_slots hs)
  have hst : (((s.returnChains i).forgetSlot i).slot i).state = (s.slot i).state := by
    unfold slot at *; rw [hs]; exact returnChains_state s i
  unfold drainEnd
  simp only []
  generalize (s.returnChains i).forgetSlot i = u at hf hst ⊢
  have hu : FillSame u (u.setSlot i { u.slot i with state := .unused }) := by
    refine fillEnds_setSlot u i _ rfl (fun hl => absurd ?_ h) (fun g => by simp [Slot.gen]) (by simp)
    unfold Slot.live at hl ⊢; rwa [hst] at hl
  exact (hf.same hu).offer ..

theorem drainCheck_fillSame (s : State) (i : SlotId) : FillSame s (s.drainCheck i) := by
  unfold drainCheck
  split
  · rename_i h
    exact drainEnd_fillSame s i (by unfold Slot.live; rw [h.1]; simp)
  · exact fillSame_of_slots rfl

theorem release_fillSame (s : State) (i : SlotId) (g : GenId) : FillSame s (s.release i g) :=
  (setPins_fillSame s i g _).same (drainCheck_fillSame _ i)

theorem releasePins_fillSame (s : State) (k : LinkId) : FillSame s (s.releasePins k) :=
  (foldl_rel FillSame _ (fun _ => fillSame_of_slots rfl) (fun _ _ _ => .trans) (fun _ _ => release_fillSame ..)
    (s.link k).pinSet s).same (fillSame_of_slots rfl)

theorem abortFrame_fillSame (s : State) (k : LinkId) (w : AbortReason) : FillSame s (s.abortFrame k w) := by
  unfold abortFrame
  simp only []
  split
  · exact fillSame_of_slots rfl
  · exact FillEnds.same (t := (s.setLink k _).releasePins k)
      (FillSame.trans (t := s.setLink k _) (fillSame_of_slots rfl) (releasePins_fillSame _ k)) (fillSame_of_slots rfl)

theorem frameDone_fillSame (s : State) (k : LinkId) (r : BitVec 4) : FillSame s (s.frameDone k r) :=
  fillSame_of_slots (by rw [frameDone_only])

theorem frameEnd_fillSame (s : State) (k : LinkId) : FillSame s (s.frameEnd k) :=
  (releasePins_fillSame s k).same (frameDone_fillSame _ k 0)

theorem claimPins_fillSame (s : State) (k : LinkId) (l : List SlotId) : FillSame s (s.claimPins k l) := by
  refine foldl_rel FillSame _ (fun _ => fillSame_of_slots rfl) (fun _ _ _ => .trans) (fun t i => ?_) l s
  unfold claimPin
  split
  · exact (setPins_fillSame t i _ _).same (fillSame_of_slots rfl)
  all_goals exact fillSame_of_slots rfl

theorem frameBegin_fillSame (s : State) (k : LinkId) : FillSame s (s.frameBegin k) := by
  unfold frameBegin
  exact (claimPins_fillSame s k _).same (fillSame_of_slots (by rw [placeWord_only]; rfl))

theorem revokeHandles_fillSame (s : State) (i : SlotId) : FillSame s (s.revokeHandles i) := by
  refine foldl_rel FillSame _ (fun _ => fillSame_of_slots rfl) (fun _ _ _ => .trans) (fun t h => ?_) allHandles s
  unfold revokeHandle
  simp only []
  split
  · exact (setPins_fillSame t i _ _).same (fillSame_of_slots rfl)
  · exact fillSame_of_slots rfl

theorem writeInto_fillSame (s : State) (a : Nat) (q : WriteReq) : FillSame s (s.writeInto a q) :=
  FillSame.trans (t := s.storeWord a q.word) (fillSame_of_slots rfl)
    (fillSame_setGen (s.storeWord a q.word) q.slot _ q.gen _ rfl rfl rfl Iff.rfl)

/-! ### The FILL sets and the feed's session -/

/-- The FILL sets, the ports that are in a block, and the feed's session. -/
structure WritersSame (s t : State) : Prop where
  fill : ∀ p, (t.port p).fill = (s.port p).fill
  block : ∀ p, (s.port p).state = .inBlock → (t.port p).state = .inBlock
  open' : t.feed.state = s.feed.state
  slot : t.feed.slot = s.feed.slot
  gen : t.feed.gen = s.feed.gen

theorem writersSame_of_eq {s t : State} (hp : t.ports = s.ports) (hf : t.feed = s.feed) : WritersSame s t := by
  have h : ∀ p, t.port p = s.port p := fun p => by unfold port; rw [hp]
  exact ⟨fun p => by rw [h], fun p => by rw [h]; exact id, by rw [hf], by rw [hf], by rw [hf]⟩

theorem WritersSame.trans {s t u : State} (h : WritersSame s t) (h' : WritersSame t u) : WritersSame s u :=
  ⟨fun p => (h'.fill p).trans (h.fill p), fun p => h'.block p ∘ h.block p, h'.open'.trans h.open', h'.slot.trans h.slot,
    h'.gen.trans h.gen⟩

/-- The same writers in slots with the same sources. -/
theorem hasWriter_congr {s t : State} {i : SlotId} {g : GenId} (hs : (t.slot i).source = (s.slot i).source)
    (hp : ∀ p, (t.port p).fill = (s.port p).fill)
    (hf : t.feed.state = s.feed.state ∧ t.feed.slot = s.feed.slot ∧ t.feed.gen = s.feed.gen) :
    t.hasWriter i g ↔ s.hasWriter i g := by
  unfold hasWriter
  rw [hs, hf.1, hf.2.1, hf.2.2]
  simp only [hp]

/-- Where no fill begins or ends and the writers stay, the FILLING generations are still those with a writer. -/
theorem fillInv_same {s t : State} (h : s.fillInv) (hs : FillSame s t) (hw : WritersSame s t) : t.fillInv := by
  obtain ⟨hports, hfeed, hgens⟩ := h
  have hfill : ∀ i g, ((t.slot i).gen g).state = .filling ↔ ((s.slot i).gen g).state = .filling := fun i g => by
    rw [hs.filling]; simp
  refine ⟨fun p => ?_, fun ho => ?_, fun i g => ⟨?_, fun hf => ?_⟩⟩
  · obtain ⟨h1, h2, h3⟩ := hports p
    rw [hw.fill p]
    exact ⟨h1, fun hn => h2 (fun hb => hn (hw.block p hb)), fun m hm => by rw [hs.source]; exact h3 m hm⟩
  · rw [hw.slot, hs.source]; exact hfeed (hw.open' ▸ ho)
  · rw [hfill, (hgens i g).1, hasWriter_congr (hs.source i) hw.fill ⟨hw.open', hw.slot, hw.gen⟩]
  · exact hs.live i ((hgens i g).2 ((hfill i g).1 hf))

/-- A member of a FILL set of a port is FILLING. -/
theorem fillInv_member {s : State} (h : s.fillInv) {p : PortId} {m : FillMember} (hm : m ∈ (s.port p).fill) :
    ((s.slot m.slot).gen m.gen).state = .filling :=
  (h.2.2 m.slot m.gen).1.mpr (.inl ⟨p, m.fill, (h.1 p).2.2 m hm, hm⟩)

/-- The open feed's generation is FILLING. -/
theorem fillInv_feed {s : State} (h : s.fillInv) (ho : s.feed.state = .opened) :
    ((s.slot s.feed.slot).gen s.feed.gen).state = .filling :=
  (h.2.2 s.feed.slot s.feed.gen).1.mpr (.inr ⟨h.2.1 ho, ho, rfl, rfl⟩)

/-- No member of a FILL set and no open feed belongs to a slot without a FILLING generation. -/
theorem fillInv_slot_free {s : State} (h : s.fillInv) {i : SlotId} (hn : ∀ g, ((s.slot i).gen g).state ≠ .filling) :
    (∀ p, ∀ m ∈ (s.port p).fill, m.slot ≠ i) ∧ (s.feed.state = .opened → s.feed.slot ≠ i) :=
  ⟨fun _ m hm e => hn m.gen (e ▸ fillInv_member h hm), fun ho e => hn s.feed.gen (e ▸ fillInv_feed h ho)⟩

/-- Two members of a FILL set in one slot are the same. -/
theorem fillInv_member_unique {s : State} (h : s.fillInv) {p : PortId} {m n : FillMember} (hm : m ∈ (s.port p).fill)
    (hn : n ∈ (s.port p).fill) (e : m.slot = n.slot) : m = n := by
  have hnd : ((s.port p).fill.map FillMember.slot).Nodup := (h.1 p).1.imp fun hab => Fin.ne_of_lt hab
  exact List.inj_on_of_nodup_map hnd hm hn e

/-- A slot has at most one FILLING generation (R4). -/
theorem fillInv_filling_unique {s : State} (h : s.fillInv) {i : SlotId} {g g' : GenId}
    (hg : ((s.slot i).gen g).state = .filling) (hg' : ((s.slot i).gen g').state = .filling) : g = g' := by
  obtain ⟨p, n, hs, hm⟩ | ⟨hs, _, _, e⟩ := (h.2.2 i g).1.mp hg <;>
    obtain ⟨p', n', hs', hm'⟩ | ⟨hs', _, _, e'⟩ := (h.2.2 i g').1.mp hg'
  · rw [hs] at hs'; cases hs'
    exact congrArg FillMember.gen (fillInv_member_unique h hm hm' rfl)
  · rw [hs] at hs'; cases hs'
  · rw [hs] at hs'; cases hs'
  · exact e.symm.trans e'

/-- A port's context replaced by one with the same FILL set. -/
theorem fillInv_setPort {s : State} (h : s.fillInv) (p : PortId) (q : Port) (hf : q.fill = (s.port p).fill)
    (hb : q.state ≠ .inBlock → (s.port p).fill = []) : (s.setPort p q).fillInv := by
  refine ⟨fun r => ?_, h.2.1, fun i g => ⟨?_, (h.2.2 i g).2⟩⟩
  · rw [port_setPort]
    split
    · rename_i e; subst e
      rw [hf]
      exact ⟨(h.1 r).1, hb, (h.1 r).2.2⟩
    · exact h.1 r
  · refine (h.2.2 i g).1.trans (hasWriter_congr (s := s) (t := s.setPort p q) rfl (fun r => ?_) ⟨rfl, rfl, rfl⟩).symm
    rw [port_setPort]; split <;> [(rename_i e; subst e; exact hf); rfl]

/-- A slot without a FILLING generation replaced by another such slot. -/
theorem fillInv_setSlot_empty {s : State} (h : s.fillInv) {i : SlotId} {x : Slot}
    (hn : ∀ g, ((s.slot i).gen g).state ≠ .filling) (hx : ∀ g, (x.gen g).state ≠ .filling) : (s.setSlot i x).fillInv := by
  obtain ⟨hfill, hfeed⟩ := fillInv_slot_free h hn
  refine ⟨fun p => ⟨(h.1 p).1, (h.1 p).2.1, fun m hm => ?_⟩, fun ho => ?_, fun j g => ?_⟩
  · rw [slot_setSlot, if_neg (hfill p m hm)]; exact (h.1 p).2.2 m hm
  · rw [feed_setSlot, slot_setSlot, if_neg (hfeed ho)]; exact h.2.1 ho
  · rw [slot_setSlot]
    split
    · rename_i e; subst e
      refine ⟨⟨fun hf => absurd hf (hx g), ?_⟩, fun hf => absurd hf (hx g)⟩
      rintro (⟨p, n, _, hm⟩ | ⟨_, ho, e, _⟩)
      · exact absurd rfl (hfill p _ hm)
      · exact absurd e (hfeed ho)
    · rename_i e
      rw [(h.2.2 j g).1]
      have hsrc : ((s.setSlot i x).slot j).source = (s.slot j).source := by rw [slot_setSlot, if_neg e]
      exact ⟨(hasWriter_congr hsrc (fun _ => rfl) ⟨rfl, rfl, rfl⟩).symm,
        fun hw => (h.2.2 j g).2 ((h.2.2 j g).1.mpr hw)⟩

/-- The fills of a port's block have ended, and its FILL set is empty. -/
theorem fillInv_clearPort {s t : State} (h : s.fillInv) {p : PortId} (he : FillEnds s t (memberGens (s.port p).fill))
    (hp : (t.port p).fill = []) (hother : ∀ r, r ≠ p → t.port r = s.port r) (hfeed : t.feed = s.feed) : t.fillInv := by
  refine ⟨fun r => ?_, fun ho => ?_, fun i g => ?_⟩
  · by_cases e : r = p
    · subst e; rw [hp]; simp
    · rw [hother r e]
      exact ⟨(h.1 r).1, (h.1 r).2.1, fun m hm => by rw [he.source]; exact (h.1 r).2.2 m hm⟩
  · rw [hfeed] at ho ⊢; rw [he.source]; exact h.2.1 ho
  · rw [he.filling]
    refine ⟨?_, fun hf => he.live i ((h.2.2 i g).2 hf.1)⟩
    rw [(h.2.2 i g).1]
    have hgone : (i, g) ∈ memberGens (s.port p).fill ↔ ∃ n, { slot := i, gen := g, fill := n } ∈ (s.port p).fill := by
      simp only [memberGens, List.mem_map, Prod.mk.injEq]
      exact ⟨fun ⟨m, hm, e1, e2⟩ => ⟨m.fill, by subst e1 e2; exact hm⟩, fun ⟨n, hm⟩ => ⟨_, hm, rfl, rfl⟩⟩
    rw [hgone]
    constructor
    · rintro ⟨⟨r, n, hs, hm⟩ | ⟨hs, hw⟩, hn⟩
      · have e : r ≠ p := fun e => hn ⟨n, e ▸ hm⟩
        exact .inl ⟨r, n, by rw [he.source]; exact hs, by rw [hother r e]; exact hm⟩
      · exact .inr ⟨by rw [he.source]; exact hs, by rw [hfeed]; exact hw⟩
    · rintro (⟨r, n, hs, hm⟩ | ⟨hs, hw⟩)
      · rw [he.source] at hs
        have e : r ≠ p := fun e => by rw [e, hp] at hm; exact nomatch hm
        rw [hother r e] at hm
        refine ⟨.inl ⟨r, n, hs, hm⟩, fun ⟨n', hm'⟩ => e ?_⟩
        exact Source.port.inj (hs.symm.trans ((h.1 p).2.2 _ hm'))
      · rw [he.source] at hs
        refine ⟨.inr ⟨hs, hfeed ▸ hw⟩, fun ⟨n, hm⟩ => ?_⟩
        exact Source.noConfusion (hs.symm.trans ((h.1 p).2.2 _ hm))

/-- The fill of the feed's session has ended, and the feed is IDLE. -/
theorem fillInv_clearFeed {s t : State} (h : s.fillInv) (he : FillEnds s t [(s.feed.slot, s.feed.gen)])
    (ho : s.feed.state = .opened) (hports : t.ports = s.ports) (hidle : t.feed.state = .idle) : t.fillInv := by
  have hport : ∀ r, t.port r = s.port r := fun r => by unfold port; rw [hports]
  refine ⟨fun r => ?_, fun hop => absurd (hidle.symm.trans hop) (by decide), fun i g => ?_⟩
  · rw [hport r]
    exact ⟨(h.1 r).1, (h.1 r).2.1, fun m hm => by rw [he.source]; exact (h.1 r).2.2 m hm⟩
  · rw [he.filling]
    refine ⟨?_, fun hf => he.live i ((h.2.2 i g).2 hf.1)⟩
    rw [(h.2.2 i g).1, List.mem_singleton, Prod.mk.injEq]
    constructor
    · rintro ⟨⟨r, n, hs, hm⟩ | ⟨_, _, e1, e2⟩, hn⟩
      · exact .inl ⟨r, n, by rw [he.source]; exact hs, by rw [hport r]; exact hm⟩
      · exact absurd ⟨e1.symm, e2.symm⟩ hn
    · rintro (⟨r, n, hs, hm⟩ | ⟨_, hop, _⟩)
      · rw [he.source] at hs
        refine ⟨.inl ⟨r, n, hs, hport r ▸ hm⟩, fun ⟨e, _⟩ => ?_⟩
        exact Source.noConfusion (hs.symm.trans (e ▸ h.2.1 ho))
      · exact absurd (hidle.symm.trans hop) (by decide)

end State
end Sys2Proof.Machine

namespace Sys2Proof.Machine
namespace State

/-! ### The acts on slots, ports and the feed -/

/-- Where slots, ports and the feed are as they were, so are the fills. -/
theorem fillInv_frame {s t : State} (h : s.fillInv) (hs : t.slots = s.slots) (hp : t.ports = s.ports)
    (hf : t.feed = s.feed) : t.fillInv := fillInv_same h (fillSame_of_slots hs) (writersSame_of_eq hp hf)

/-- Where no fill begins or ends, and ports and the feed are as they were. -/
theorem fillInv_slots {s t : State} (h : s.fillInv) (hs : FillSame s t) (hp : t.ports = s.ports) (hf : t.feed = s.feed) :
    t.fillInv := fillInv_same h hs (writersSame_of_eq hp hf)

theorem giveUpBlock_fillInv {s : State} (h : s.fillInv) (p : PortId) (w : AbandonReason) : (s.giveUpBlock p w).fillInv := by
  refine fillInv_clearPort h (p := p) ?_ ?_ (fun r hr => ?_) ?_
  · exact FillEnds.same (t := s.abandonMembers (s.port p).fill w) (abandonMembers_fillEnds ..) (fillSame_of_slots rfl)
  · rw [giveUpBlock_port, if_pos rfl]
  · rw [giveUpBlock_port, if_neg hr]
  · rw [giveUpBlock_only]

theorem endBlock_fillInv {s : State} (h : s.fillInv) (p : PortId) : (s.endBlock p).fillInv := by
  refine fillInv_clearPort h (p := p) ?_ ?_ (fun r hr => ?_) ?_
  · exact FillEnds.same (t := s.completeMembers (s.port p).fill) (completeMembers_fillEnds ..) (fillSame_of_slots rfl)
  · rw [endBlock_port, if_pos rfl]
  · rw [endBlock_port, if_neg hr]
  · rw [endBlock_only]

/-- A block that is open is given up; out of one nothing is to be done. Either way the FILL set is empty. -/
theorem giveUpOpen_fillInv {s : State} (h : s.fillInv) (p : PortId) (w : AbandonReason) :
    let t := if (s.port p).state = .inBlock then s.giveUpBlock p w else s
    t.fillInv ∧ (t.port p).fill = [] := by
  simp only []
  split
  · exact ⟨giveUpBlock_fillInv h p w, by rw [giveUpBlock_port, if_pos rfl]⟩
  · rename_i hb; exact ⟨h, (h.1 p).2.1 hb⟩

/-- A port's context replaced by one with the same FILL set and state. -/
theorem fillInv_setPort_same {s : State} (h : s.fillInv) (p : PortId) (q : Port) (hf : q.fill = (s.port p).fill)
    (hs : q.state = (s.port p).state) : (s.setPort p q).fillInv :=
  fillInv_setPort h p q hf (fun hb => (h.1 p).2.1 (hs ▸ hb))

theorem leaveEntry_fillInv {s : State} (h : s.fillInv) (p : PortId) : (s.leaveEntry p).fillInv := by
  unfold leaveEntry
  split
  · exact h
  · split
    · obtain ⟨ht, hf⟩ := giveUpOpen_fillInv h p .captureOverflow
      exact fillInv_setPort ht p _ rfl (fun _ => hf)
    · exact fillInv_setPort_same h p _ rfl rfl

theorem finishWord_fillInv {s : State} (h : s.fillInv) (p : PortId) : (s.finishWord p).fillInv := by
  unfold finishWord
  split
  · exact h
  · rename_i e _ _
    have ht : (s.setPort p { s.port p with
      wordIndex := saturate16 (s.port p).wordIndex, writing := false, due := [] }).fillInv := fillInv_setPort_same h p _ rfl rfl
    simp only []
    split
    · exact leaveEntry_fillInv (endBlock_fillInv ht p) p
    · exact leaveEntry_fillInv ht p

theorem presentWrite_fillInv {s : State} (h : s.fillInv) (p : PortId) : (s.presentWrite p).fillInv := by
  unfold presentWrite
  simp only []
  split
  · exact fillInv_setPort_same h p _ rfl rfl
  · exact h

theorem takeWord_fillInv {s : State} (h : s.fillInv) (p : PortId) : (s.takeWord p).fillInv := by
  unfold takeWord
  simp only []
  split
  · exact finishWord_fillInv h p
  · refine presentWrite_fillInv ?_ p
    exact fillInv_setPort_same h p _ rfl rfl

theorem afterRequest_fillInv {s : State} (h : s.fillInv) (p : PortId) : (s.afterRequest p).fillInv := by
  unfold afterRequest
  split
  · exact presentWrite_fillInv h p
  · split
    · exact finishWord_fillInv h p
    · exact h

theorem headError_fillInv {s : State} (h : s.fillInv) (p : PortId) : (s.headError p).fillInv := by
  unfold headError
  split
  · exact h
  · split
    · have hg := giveUpBlock_fillInv h p .sourceError
      have hf : ((s.giveUpBlock p .sourceError).port p).fill = [] := by rw [giveUpBlock_port, if_pos rfl]
      refine leaveEntry_fillInv ?_ p
      exact fillInv_setPort hg p _ rfl (fun _ => hf)
    · exact h

theorem disablePort_fillInv {s : State} (h : s.fillInv) (p : PortId) : (s.disablePort p).fillInv := by
  unfold disablePort
  split
  · obtain ⟨ht, hf⟩ := giveUpOpen_fillInv h p .portDisabled
    exact fillInv_setPort ht p _ rfl (fun _ => hf)
  · exact h

theorem enablePort_fillInv {s : State} (h : s.fillInv) (p : PortId) : (s.enablePort p).fillInv := by
  unfold enablePort
  split
  · exact h
  · exact fillInv_setPort_same h p _ rfl rfl

/-! ### Fills that begin -/

/-- Between two states the fill of one generation begins, every slot keeps SOURCE and stays ACTIVE or FROZEN. -/
structure FillBegins (s t : State) (i : SlotId) (g : GenId) : Prop where
  source : ∀ j, (t.slot j).source = (s.slot j).source
  live : ∀ j, (s.slot j).live → (t.slot j).live
  filling : ∀ j h, ((t.slot j).gen h).state = .filling ↔ ((s.slot j).gen h).state = .filling ∨ (j = i ∧ h = g)

/-- A granted writer-target request begins the fill of its target (R4). -/
theorem requestTarget_begins {s : State} {i : SlotId} {g : GenId} (h : (s.slot i).target = some g) (stamp : Tick)
    (tag : BitVec 8) : FillBegins s (s.requestTarget i stamp tag) i g := by
  rw [requestTarget_some h]
  refine ⟨fun j => ?_, fun j => ?_, fun j k => ?_⟩ <;> rw [slot_setSlot] <;> split <;> rename_i e
  · subst e; rfl
  · rfl
  · subst e; exact id
  · exact id
  · subst e
    rw [Slot.gen_setGen]
    split <;> simp_all [Slot.filled]
  · simp [e]

theorem requestTarget_none_same {s : State} {i : SlotId} (h : (s.slot i).target = none) (stamp : Tick) (tag : BitVec 8) :
    FillSame s (s.requestTarget i stamp tag) := by
  rw [requestTarget_none h]
  exact (fillEnds_setSlot s i { s.slot i with overruns := saturate16 (s.slot i).overruns } rfl id
    (fun g => by simp [Slot.gen]) (by simp)).offer ..

/-- A slot that joins the FILL set of an open block, behind members of lower numbers, and begins its fill. -/
theorem fillInv_addMember {s t : State} (h : s.fillInv) {p : PortId} {m : FillMember} (hb : FillBegins s t m.slot m.gen)
    (hlive : (s.slot m.slot).live) (hsrc : (s.slot m.slot).source = .port p)
    (hlt : ∀ n ∈ (s.port p).fill, n.slot < m.slot) (hst : (t.port p).state = .inBlock)
    (hfill : (t.port p).fill = (s.port p).fill ++ [m]) (hother : ∀ r, r ≠ p → t.port r = s.port r)
    (hfeed : t.feed = s.feed) : t.fillInv := by
  refine ⟨fun r => ?_, fun ho => ?_, fun i g => ⟨?_, fun hf => ?_⟩⟩
  · by_cases e : r = p
    · subst e
      rw [hfill]
      refine ⟨?_, fun hn => absurd hst hn, fun n hn => ?_⟩
      · rw [List.map_append, List.pairwise_append]
        refine ⟨(h.1 r).1, List.pairwise_singleton _ _, fun a ha b hb' => ?_⟩
        obtain ⟨n, hn, rfl⟩ := List.mem_map.mp ha
        simp only [List.map_cons, List.map_nil, List.mem_singleton] at hb'
        exact hb' ▸ hlt n hn
      · rw [hb.source]
        rcases List.mem_append.mp hn with hn | hn
        · exact (h.1 r).2.2 n hn
        · rw [List.mem_singleton.mp hn]; exact hsrc
    · rw [hother r e]
      exact ⟨(h.1 r).1, (h.1 r).2.1, fun n hn => by rw [hb.source]; exact (h.1 r).2.2 n hn⟩
  · rw [hfeed] at ho ⊢; rw [hb.source]; exact h.2.1 ho
  · rw [hb.filling, (h.2.2 i g).1]
    unfold hasWriter
    rw [hb.source, hfeed]
    constructor
    · rintro ((⟨r, n, hs, hm⟩ | hw) | ⟨rfl, rfl⟩)
      · refine .inl ⟨r, n, hs, ?_⟩
        by_cases e : r = p
        · subst e; rw [hfill]; exact List.mem_append_left _ hm
        · rwa [hother r e]
      · exact .inr hw
      · exact .inl ⟨p, m.fill, hsrc, by rw [hfill]; simp⟩
    · rintro (⟨r, n, hs, hm⟩ | hw)
      · by_cases e : r = p
        · subst e
          rw [hfill, List.mem_append, List.mem_singleton] at hm
          obtain hm | rfl := hm
          · exact .inl (.inl ⟨r, n, hs, hm⟩)
          · exact .inr ⟨rfl, rfl⟩
        · rw [hother r e] at hm; exact .inl (.inl ⟨r, n, hs, hm⟩)
      · exact .inl (.inr hw)
  · obtain hf | ⟨rfl, rfl⟩ := (hb.filling i g).mp hf
    · exact hb.live i ((h.2.2 i g).2 hf)
    · exact hb.live _ hlive

/-- A session that the IDLE feed begins with the fill of a generation. -/
theorem fillInv_openFeed {s t : State} (h : s.fillInv) {i : SlotId} {g : GenId} (hb : FillBegins s t i g)
    (hlive : (s.slot i).live) (hsrc : (s.slot i).source = .feed) (hidle : s.feed.state = .idle) (hports : t.ports = s.ports)
    (ho : t.feed.state = .opened) (hs : t.feed.slot = i) (hg : t.feed.gen = g) : t.fillInv := by
  have hport : ∀ r, t.port r = s.port r := fun r => by unfold port; rw [hports]
  refine ⟨fun r => ?_, fun _ => ?_, fun j k => ⟨?_, fun hf => ?_⟩⟩
  · rw [hport r]
    exact ⟨(h.1 r).1, (h.1 r).2.1, fun m hm => by rw [hb.source]; exact (h.1 r).2.2 m hm⟩
  · rw [hs, hb.source]; exact hsrc
  · rw [hb.filling, (h.2.2 j k).1]
    unfold hasWriter
    simp only [hb.source, hport, ho, hs, hg, hidle]
    constructor
    · rintro ((hw | ⟨_, hn, _⟩) | ⟨rfl, rfl⟩)
      · exact .inl hw
      · cases hn
      · exact .inr ⟨hsrc, trivial, rfl, rfl⟩
    · rintro (hw | ⟨_, _, rfl, rfl⟩)
      · exact .inl (.inl hw)
      · exact .inr ⟨rfl, rfl⟩
  · obtain hf | ⟨rfl, rfl⟩ := (hb.filling j k).mp hf
    · exact hb.live j ((h.2.2 j k).2 hf)
    · exact hb.live _ hlive

/-! ### The start of a block -/

/-- The state with the port in a block: how the offers of a block see the port that is about to be in it (R41). -/
def inBlockAt (s : State) (p : PortId) : State := s.setPort p { s.port p with state := .inBlock }

/-- A change of slots and of other parts that leaves ports and the feed alone, seen with the port in a block. -/
theorem inBlockAt_same {s t : State} {p : PortId} (h : (s.inBlockAt p).fillInv) (hs : FillSame s t) (hp : t.ports = s.ports)
    (hf : t.feed = s.feed) : (t.inBlockAt p).fillInv := by
  have hport : t.port p = s.port p := by unfold port; rw [hp]
  refine fillInv_slots h ⟨hs.source, hs.live, hs.filling⟩ ?_ hf
  show Table.put t.ports p _ = Table.put s.ports p _
  rw [hp, hport]

/-- A block offered to a slot above the members it has so far (R41, R42). -/
theorem offerBlock_fillInv {s : State} {p : PortId} (e : FifoEntry) {i : SlotId} (h : (s.inBlockAt p).fillInv)
    (hlt : ∀ m ∈ (s.port p).fill, m.slot < i) :
    ((s.offerBlock p e i).inBlockAt p).fillInv ∧ ∀ m ∈ ((s.offerBlock p e i).port p).fill, m.slot ≤ i := by
  have hle : ∀ {t : State}, t.ports = s.ports → ∀ m ∈ (t.port p).fill, m.slot ≤ i := fun ht m hm =>
    Fin.le_of_lt (hlt m (by unfold port at hm ⊢; rwa [ht] at hm))
  have count : ∀ n, FillSame s (s.setSlot i { s.slot i with decCount := n }) := fun n =>
    fillEnds_setSlot s i _ rfl id (fun g => by simp [Slot.gen]) (by simp)
  unfold offerBlock
  simp only []
  split
  · rename_i hact
    split
    · generalize hu : s.setSlot i { s.slot i with decCount := 0 } = u
      have hup : u.ports = s.ports := by rw [← hu]; rfl
      have huf : u.feed = s.feed := by rw [← hu]; rfl
      have hui : u.slot i = { s.slot i with decCount := 0 } := by rw [← hu, slot_setSlot_self]
      have hlt' : ∀ m ∈ (u.port p).fill, m.slot < i := fun m hm => hlt m (by unfold port at hm ⊢; rwa [hup] at hm)
      have hinv : (u.inBlockAt p).fillInv := inBlockAt_same h (hu ▸ count 0) hup huf
      unfold keepBlock
      split
      · rename_i g hg
        have hb := requestTarget_begins hg e.arrived e.tag
        have honly := requestTarget_only u i e.arrived e.tag
        generalize u.requestTarget i e.arrived e.tag = v at hb honly ⊢
        have hvp : v.port p = u.port p := by rw [honly]; rfl
        refine ⟨?_, fun m hm => ?_⟩
        · refine fillInv_addMember hinv (p := p) (m := ⟨i, g, u.targetFill i g⟩) ⟨hb.source, hb.live, hb.filling⟩ ?_ ?_ ?_ ?_
            ?_ (fun r hr => ?_) ?_
          · show (u.slot i).live; rw [hui]; exact .inl hact.1
          · show (u.slot i).source = _; rw [hui]; exact hact.2
          · simpa [inBlockAt] using hlt'
          · simp [inBlockAt]
          · simp [inBlockAt, addMember, hvp]
          · simp only [inBlockAt, addMember, port_setPort, if_neg hr]; rw [honly]; rfl
          · show v.feed = u.feed; rw [honly]
        · simp only [addMember, port_setPort_self, hvp, List.mem_append, List.mem_singleton] at hm
          obtain hm | rfl := hm
          · exact Fin.le_of_lt (hlt' m hm)
          · exact Fin.le_refl _
      · rename_i hn
        have hp : (u.requestTarget i e.arrived e.tag).ports = u.ports := by rw [requestTarget_only]
        have hf : (u.requestTarget i e.arrived e.tag).feed = u.feed := by rw [requestTarget_only]
        exact ⟨inBlockAt_same hinv (requestTarget_none_same hn ..) hp hf, hle (hp.trans hup)⟩
    · exact ⟨inBlockAt_same h (count _) rfl rfl, hle rfl⟩
  · exact ⟨h, hle rfl⟩

/-- A block offered to slots in ascending order, all above the members it has so far (R41). -/
theorem offerAll_fillInv (p : PortId) (e : FifoEntry) : ∀ (l : List SlotId), l.Pairwise (· < ·) → ∀ s : State,
    (s.inBlockAt p).fillInv → (∀ m ∈ (s.port p).fill, ∀ i ∈ l, m.slot < i) →
    ((l.foldl (fun t i => t.offerBlock p e i) s).inBlockAt p).fillInv
  | [], _, _, h, _ => h
  | i :: l, hl, s, h, hlt => by
    obtain ⟨h1, h2⟩ := List.pairwise_cons.mp hl
    obtain ⟨hi, hm⟩ := offerBlock_fillInv e h (fun m hm => hlt m hm i List.mem_cons_self)
    exact offerAll_fillInv p e l h2 _ hi (fun m hm' j hj => Fin.lt_of_le_of_lt (hm m hm') (h1 j hj))

theorem allSlots_ascending : allSlots.Pairwise (· < ·) := List.pairwise_lt_finRange 32

theorem beginBlock_fillInv {s : State} (h : s.fillInv) (p : PortId) (e : FifoEntry) : (s.beginBlock p e).fillInv := by
  obtain ⟨h1, hempty⟩ := giveUpOpen_fillInv h p .missingEnd
  unfold beginBlock
  simp only [] at h1 hempty ⊢
  generalize (if (s.port p).state = .inBlock then s.giveUpBlock p .missingEnd else s) = u at h1 hempty ⊢
  generalize hv : u.setPort p { u.port p with blocksSeen := (u.port p).blocksSeen + 1, wordIndex := 0 } = v
  have hv0 : (v.port p).fill = [] := by rw [← hv, port_setPort_self]; exact hempty
  have h2 : v.fillInv := hv ▸ fillInv_setPort_same h1 p _ rfl rfl
  have h3 : (v.inBlockAt p).fillInv := fillInv_setPort h2 p _ rfl (fun _ => hv0)
  have h4 := offerAll_fillInv p e allSlots allSlots_ascending v h3 (by rw [hv0]; simp)
  show ((v.offerToSlots p e).setPort p _).fillInv
  change ((v.offerToSlots p e).inBlockAt p).fillInv at h4
  generalize v.offerToSlots p e = w at h4 ⊢
  refine fillInv_same h4 (fillSame_of_slots rfl) ⟨fun r => ?_, fun r => ?_, rfl, rfl, rfl⟩ <;>
    simp only [inBlockAt, port_setPort] <;> split <;> simp

theorem headStart_fillInv {s : State} (h : s.fillInv) (p : PortId) : (s.headStart p).fillInv := by
  unfold headStart
  split
  · exact h
  · split
    · split
      · exact beginBlock_fillInv h p _
      · exact takeWord_fillInv (beginBlock_fillInv h p _) p
    · exact h

/-! ### Commands of slots and of the feed -/

/-- A slot that leaves its port's FILL set as the fill of its generation ends (R51). -/
theorem fillInv_removeMember {s t : State} (h : s.fillInv) {p : PortId} {i : SlotId} {g : GenId}
    (he : FillEnds s t [(i, g)]) (hg : ((s.slot i).gen g).state = .filling) (hsrc : (s.slot i).source = .port p)
    (hfill : (t.port p).fill = (s.port p).fill.filter fun m => m.slot ≠ i) (hst : (t.port p).state = (s.port p).state)
    (hother : ∀ r, r ≠ p → t.port r = s.port r) (hfeed : t.feed = s.feed) : t.fillInv := by
  refine ⟨fun r => ?_, fun ho => ?_, fun j k => ⟨?_, fun hf => ?_⟩⟩
  · by_cases e : r = p
    · subst e
      rw [hfill, hst]
      refine ⟨(h.1 r).1.sublist (List.filter_sublist.map _), fun hn => ?_, fun m hm => ?_⟩
      · rw [(h.1 r).2.1 hn]; rfl
      · rw [he.source]; exact (h.1 r).2.2 m (List.mem_of_mem_filter hm)
    · rw [hother r e]
      exact ⟨(h.1 r).1, (h.1 r).2.1, fun m hm => by rw [he.source]; exact (h.1 r).2.2 m hm⟩
  · rw [hfeed] at ho ⊢; rw [he.source]; exact h.2.1 ho
  · rw [he.filling, List.mem_singleton, Prod.mk.injEq]
    constructor
    · rintro ⟨hf, hn⟩
      have hj : j ≠ i := fun e => hn ⟨e, fillInv_filling_unique h (e ▸ hf) hg⟩
      obtain ⟨r, n, hs, hm⟩ | hw := (h.2.2 j k).1.mp hf
      · refine .inl ⟨r, n, by rw [he.source]; exact hs, ?_⟩
        by_cases e : r = p
        · subst e; rw [hfill]; exact List.mem_filter.mpr ⟨hm, by simpa using hj⟩
        · rwa [hother r e]
      · exact .inr (by rw [he.source, hfeed]; exact hw)
    · rintro (⟨r, n, hs, hm⟩ | ⟨hs, hw⟩)
      · rw [he.source] at hs
        by_cases e : r = p
        · subst e
          rw [hfill, List.mem_filter] at hm
          exact ⟨fillInv_member h hm.1, fun hn => by simp [hn.1] at hm⟩
        · rw [hother r e] at hm
          refine ⟨fillInv_member h hm, fun hn => e ?_⟩
          rw [hn.1, hsrc] at hs; exact (Source.port.inj hs).symm
      · rw [he.source] at hs
        rw [hfeed] at hw
        exact ⟨(h.2.2 j k).1.mpr (.inr ⟨hs, hw⟩), fun hn => by rw [hn.1, hsrc] at hs; cases hs⟩
  · exact he.live j ((h.2.2 j k).2 ((he.filling j k).mp hf).1)

theorem fillingGen_none {x : Slot} (h : x.fillingGen = none) (g : GenId) : (x.gen g).state ≠ .filling := by
  have := List.find?_eq_none.mp h g (by revert g; decide)
  simpa using this

/-- Step 1 of R18 leaves no FILLING generation in the slot. -/
theorem abandonFilling_fillInv {s : State} (h : s.fillInv) (i : SlotId) :
    (s.abandonFilling i).fillInv ∧ ∀ g, (((s.abandonFilling i).slot i).gen g).state ≠ .filling := by
  unfold abandonFilling
  split
  · rename_i g hg
    have hf := fillingGen_spec _ _ hg
    have he := abandon_fillEnds s i g .teardown
    have honly := abandon_only s i g .teardown
    generalize s.abandon i g .teardown = u at he honly ⊢
    have hports : u.ports = s.ports := by rw [honly]
    have hport : ∀ r, u.port r = s.port r := fun r => by unfold port; rw [hports]
    have hfeed : u.feed = s.feed := by rw [honly]
    have key : (u.dropWriter i).fillInv ∧ FillSame u (u.dropWriter i) := by
      unfold dropWriter
      rw [he.source, hfeed]
      obtain ⟨p, n, hs, hm⟩ | ⟨hs, ho, hi, hgen⟩ := (h.2.2 i g).1.mp hf
      · simp only [hs]
        refine ⟨fillInv_removeMember h (p := p) (he.same (fillSame_of_slots rfl)) hf hs ?_ ?_ (fun r hr => ?_) hfeed,
          fillSame_of_slots rfl⟩
        · simp [removeMember, hport]
        · simp [removeMember, hport]
        · simp [removeMember, port_setPort, hr, hport]
      · simp only [hs, ho, hi, and_self, if_true]
        refine ⟨fillInv_clearFeed h ?_ ho hports rfl, fillSame_of_slots rfl⟩
        rw [hi, hgen]
        exact he.same (fillSame_of_slots rfl)
    refine ⟨key.1, fun g' hf' => ?_⟩
    obtain ⟨hs', hn⟩ := (FillEnds.same he key.2).filling i g' |>.mp hf'
    exact hn (by rw [fillInv_filling_unique h hs' hf]; exact List.mem_singleton_self _)
  · rename_i hn
    exact ⟨h, fillingGen_none hn⟩

theorem leaveCohort_fillSame (s : State) (i : SlotId) (c : Option CohortId) : FillSame s (s.leaveCohort i c) := by
  unfold leaveCohort; split <;> [exact depart_fillSame ..; exact fillSame_of_slots rfl]

theorem acceptTeardown_fillInv {s : State} (h : s.fillInv) (i : SlotId) (force : Bool) :
    (s.acceptTeardown i force).fillInv := by
  obtain ⟨h1, hn⟩ := abandonFilling_fillInv h i
  unfold acceptTeardown
  simp only []
  generalize s.abandonFilling i = u at h1 hn ⊢
  have hd := dropSeal_fillSame u i .teardown
  have h2 : (u.dropSeal i .teardown).fillInv := fillInv_slots h1 hd (by rw [dropSeal_only]) (by rw [dropSeal_only])
  have hn2 : ∀ g, (((u.dropSeal i .teardown).slot i).gen g).state ≠ .filling := fun g hf =>
    hn g ((hd.filling i g).mp hf).1
  generalize u.dropSeal i .teardown = v at h2 hn2 ⊢
  have h3 := fillInv_setSlot_empty h2 (x := { v.slot i with state := .draining, cohort := none }) hn2 hn2
  generalize v.setSlot i _ = w at h3 ⊢
  have h4 : (if force then w.revokeHandles i else w).fillInv := by
    split
    · exact fillInv_slots h3 (revokeHandles_fillSame w i) (by rw [revokeHandles_only]) (by rw [revokeHandles_only])
    · exact h3
  generalize (if force then w.revokeHandles i else w) = x at h4 ⊢
  have h5 : (x.drainCheck i).fillInv :=
    fillInv_slots h4 (drainCheck_fillSame x i) (by rw [drainCheck_only]) (by rw [drainCheck_only])
  generalize x.drainCheck i = y at h5 ⊢
  have h6 : (y.leaveCohort i (s.slot i).cohort).fillInv :=
    fillInv_slots h5 (leaveCohort_fillSame ..) (by rw [leaveCohort_only]) (by rw [leaveCohort_only])
  exact fillInv_frame h6 rfl rfl rfl

end State
end Sys2Proof.Machine

namespace Sys2Proof.Machine
namespace State

/-! ### The acts on links, handles, cohorts and the pool -/

theorem stallAbort_fillSame (s : State) (k : LinkId) : FillSame s (s.stallAbort k) := by
  unfold stallAbort
  split <;> [exact abortFrame_fillSame ..; exact fillSame_of_slots rfl]

theorem periodExpiry_fillSame (s : State) (k : LinkId) : FillSame s (s.periodExpiry k) := by
  unfold periodExpiry
  simp only []
  split
  · split
    · exact FillSame.trans (t := s.setLink k _) (fillSame_of_slots rfl) (frameBegin_fillSame _ k)
    · exact fillSame_of_slots rfl
  · exact fillSame_of_slots rfl

theorem windowExpiry_fillSame (s : State) (c : CohortId) : FillSame s (s.windowExpiry c) := by
  unfold windowExpiry
  split <;> [skip; exact fillSame_of_slots rfl]
  split
  · exact (publishSeals_fillSame s _ _ _).same (fillSame_of_slots rfl)
  · exact (discardSeals_fillSame s _).same (fillSame_of_slots rfl)

theorem wordTaken_fillSame (s : State) (k : LinkId) : FillSame s (s.wordTaken k) := by
  unfold wordTaken
  simp only []
  split
  · exact fillSame_of_slots rfl
  · exact fillSame_of_slots rfl
  · exact FillSame.trans (t := s.clearAbortWord k) (fillSame_of_slots rfl) (frameDone_fillSame _ k 0)
  · split <;> [skip; exact fillSame_of_slots rfl]
    split
    · exact FillSame.trans (t := s.setLink k _) (fillSame_of_slots rfl) (frameEnd_fillSame _ k)
    · unfold afterTake
      split
      · exact fillSame_of_slots (by rw [presentRead_only, itemDone_only]; rfl)
      · exact fillSame_of_slots (by rw [presentRead_only]; rfl)

theorem linkStop_fillSame (s : State) : FillSame s s.linkStop := by
  unfold linkStop
  split <;> [exact fillSame_of_slots rfl; skip]
  split <;> [exact fillSame_of_slots rfl; skip]
  split <;> [exact fillSame_of_slots rfl; skip]
  rename_i k _ _ _ b _
  split
  · exact fillSame_of_slots rfl
  · have h : FillSame s (s.stopFrame k b) := by
      unfold stopFrame
      simp only []
      split
      · exact (abortFrame_fillSame s k .stop).same (fillSame_of_slots rfl)
      · exact fillSame_of_slots rfl
    exact h.result ..

theorem handlePin_fillSame (s : State) : FillSame s s.handlePin := by
  unfold handlePin
  split <;> [exact fillSame_of_slots rfl; skip]
  split <;> [exact fillSame_of_slots rfl; skip]
  split <;> [exact fillSame_of_slots rfl; skip]
  rename_i i _
  split
  · rename_i g _
    exact (setPins_fillSame s i g (((s.slot i).gen g).pins + 1)).same (fillSame_of_slots rfl)
  all_goals exact fillSame_of_slots rfl

theorem handleRelease_fillSame (s : State) : FillSame s s.handleRelease := by
  unfold handleRelease
  split <;> [exact fillSame_of_slots rfl; skip]
  rename_i h _
  simp only []
  split
  · generalize hu : s.setHandle h _ = u
    have hsu : FillSame s u := fillSame_of_slots (by rw [← hu]; rfl)
    exact (hsu.trans (release_fillSame u _ _)).result ..
  all_goals exact fillSame_of_slots rfl

/-- The state of a slot that is not ACTIVE or FROZEN, or goes on to be, is no matter of its fills. -/
theorem setState_fillSame (s : State) (i : SlotId) (st : SlotState) (h : st = .active ∨ st = .frozen) :
    FillSame s (s.setSlot i { s.slot i with state := st }) :=
  fillEnds_setSlot s i _ rfl (fun _ => h) (fun g => by simp [Slot.gen]) (by simp)

theorem slotFreeze_fillSame (s : State) : FillSame s s.slotFreeze := by
  unfold slotFreeze
  split <;> [exact fillSame_of_slots rfl; skip]
  split <;> [exact (setState_fillSame s _ .frozen (.inr rfl)).result ..; exact fillSame_of_slots rfl]

theorem slotThaw_fillSame (s : State) : FillSame s s.slotThaw := by
  unfold slotThaw
  split <;> [exact fillSame_of_slots rfl; skip]
  split <;> [exact (setState_fillSame s _ .active (.inl rfl)).result ..; exact fillSame_of_slots rfl]

theorem configureDone_fillSame (s : State) (i : SlotId) : FillSame s (s.configureDone i) := by
  have h := setState_fillSame (s.setPool { s.pool with alloc := none }) i .active (.inl rfl)
  exact FillSame.trans (t := s.setPool { s.pool with alloc := none }) (fillSame_of_slots rfl)
    (h.same (fillSame_of_slots rfl))

/-- HEAD of a generation is no matter of its fill. -/
theorem setHead_fillSame (s : State) (i : SlotId) (g : GenId) (head : Option PageId) :
    FillSame s (s.setSlot i ((s.slot i).setGen g { (s.slot i).gen g with head := head })) :=
  fillSame_setGen s i _ g _ rfl rfl rfl Iff.rfl

theorem advanceAlloc_fillSame (s : State) (a : Alloc) (p : PageId) : FillSame s (s.advanceAlloc a p) := by
  unfold advanceAlloc
  simp only []
  split
  · split
    · exact (setHead_fillSame s a.slot a.gen _).same (configureDone_fillSame _ a.slot)
    · exact configureDone_fillSame s a.slot
  · split
    · exact (setHead_fillSame s a.slot a.gen _).same (fillSame_of_slots rfl)
    · exact fillSame_of_slots rfl

theorem pageTake_fillSame (s : State) : FillSame s s.pageTake := by
  unfold pageTake
  split
  · rename_i a p _ _
    exact FillSame.trans (t := (s.takeHead p).chainPage a.last p) (fillSame_of_slots rfl) (advanceAlloc_fillSame _ a p)
  · exact fillSame_of_slots rfl

/-- SLOT_CONFIGURE takes an UNUSED slot, which holds no FILLING generation, and leaves its records blank (R14). -/
theorem slotConfigure_fillInv {s : State} (h : s.fillInv) : s.slotConfigure.fillInv := by
  unfold slotConfigure
  split <;> [exact fillInv_frame h rfl rfl rfl; skip]
  rename_i i _
  split <;> [exact fillInv_frame h rfl rfl rfl; skip]
  rename_i hst
  split <;> [exact fillInv_frame h rfl rfl rfl; skip]
  rename_i a _
  split <;> [exact fillInv_frame h rfl rfl rfl; skip]
  have hn : ∀ g, ((s.slot i).gen g).state ≠ .filling := fun g hf => by
    obtain hl | hl := (h.2.2 i g).2 hf <;> simp [hl] at hst
  have hx : ∀ g, (((s.slot i).configured a).gen g).state ≠ .filling := fun g => by
    rw [gen_configured]; simp [Gen.blank]
  have h1 := fillInv_setSlot_empty h hn hx
  unfold acceptConfigure joinCohort
  split <;> exact fillInv_frame h1 rfl rfl rfl

theorem feedOpen_fillInv {s : State} (h : s.fillInv) : s.feedOpen.fillInv := by
  unfold feedOpen
  split <;> [exact fillInv_frame h rfl rfl rfl; skip]
  rename_i i _
  split <;> [exact fillInv_frame h rfl rfl rfl; skip]
  rename_i hidle
  split <;> [exact fillInv_frame h rfl rfl rfl; skip]
  split <;> [exact fillInv_frame h rfl rfl rfl; skip]
  split <;> [exact fillInv_frame h rfl rfl rfl; skip]
  rename_i hact
  split <;> [exact fillInv_frame h rfl rfl rfl; skip]
  rename_i hsrc
  have hidle' : s.feed.state = .idle := by cases hf : s.feed.state <;> simp_all
  unfold openFeed
  simp only []
  have honly := requestTarget_only s i s.now ((s.arg 1).setWidth 8)
  split
  · rename_i g hg
    have hb := requestTarget_begins hg s.now ((s.arg 1).setWidth 8)
    generalize s.requestTarget i s.now _ = u at hb honly ⊢
    exact fillInv_openFeed h ⟨hb.source, hb.live, hb.filling⟩ (.inl (not_not.mp hact)) (not_not.mp hsrc) hidle'
      (show u.ports = s.ports by rw [honly]) rfl rfl rfl
  · rename_i hn
    have hs := requestTarget_none_same hn s.now ((s.arg 1).setWidth 8)
    generalize s.requestTarget i s.now _ = u at hs honly ⊢
    exact fillInv_slots h (hs.result ..) (show u.ports = s.ports by rw [honly]) (show u.feed = s.feed by rw [honly])

theorem feedClose_fillInv {s : State} (h : s.fillInv) : s.feedClose.fillInv := by
  unfold feedClose
  split <;> [exact fillInv_frame h rfl rfl rfl; skip]
  rename_i ho
  generalize hu : s.setFeed { s.feed with state := .idle } = u
  have hc := complete_fillEnds u s.feed.slot s.feed.gen s.feedWords
  have honly := complete_only u s.feed.slot s.feed.gen s.feedWords
  generalize u.complete s.feed.slot s.feed.gen s.feedWords = v at hc honly ⊢
  refine fillInv_clearFeed h (FillSame.trans (t := u) (fillSame_of_slots (by rw [← hu]; rfl)) (hc.result ..)) ho ?_ ?_
  · show v.ports = s.ports; rw [honly, ← hu]; rfl
  · show v.feed.state = .idle; rw [honly, ← hu]; rfl

/-- The feed's session given up (R134, R135). -/
theorem abandonFeed_fillInv {s : State} (h : s.fillInv) (ho : s.feed.state = .opened) (w : AbandonReason) :
    ((s.setFeed { s.feed with state := .idle }).abandon s.feed.slot s.feed.gen w).fillInv := by
  generalize hu : s.setFeed { s.feed with state := .idle } = u
  have hc := abandon_fillEnds u s.feed.slot s.feed.gen w
  have honly := abandon_only u s.feed.slot s.feed.gen w
  generalize u.abandon s.feed.slot s.feed.gen w = v at hc honly ⊢
  refine fillInv_clearFeed h (FillSame.trans (t := u) (fillSame_of_slots (by rw [← hu]; rfl)) hc) ho ?_ ?_
  · rw [honly, ← hu]; rfl
  · rw [honly, ← hu]; rfl

theorem feedAbort_fillInv {s : State} (h : s.fillInv) : s.feedAbort.fillInv := by
  unfold feedAbort
  split <;> [exact fillInv_frame h rfl rfl rfl; skip]
  rename_i ho
  exact fillInv_frame (abandonFeed_fillInv h ho .feedAbort) rfl rfl rfl

theorem feedExpiry_fillInv {s : State} (h : s.fillInv) : s.feedExpiry.fillInv := by
  unfold feedExpiry
  split <;> [skip; exact h]
  rename_i hd
  have ho : s.feed.state = .opened := by simp only [feedDue, Bool.and_eq_true, decide_eq_true_eq] at hd; exact hd.1
  exact fillInv_frame (abandonFeed_fillInv h ho .feedTimeout) rfl rfl rfl

theorem writeFeed_fillInv {s : State} (h : s.fillInv) (v : Word) : (s.writeFeed v).fillInv := by
  have same : ∀ f : Feed, f.state = s.feed.state → f.slot = s.feed.slot → f.gen = s.feed.gen → (s.setFeed f).fillInv :=
    fun f h1 h2 h3 => fillInv_same h (fillSame_of_slots rfl) ⟨fun _ => rfl, fun _ => id, h1, h2, h3⟩
  unfold writeFeed
  simp only []
  split
  · exact h
  · split
    · exact same _ rfl rfl rfl
    · exact same _ rfl rfl rfl

theorem slotTeardown_fillInv {s : State} (h : s.fillInv) : s.slotTeardown.fillInv := by
  unfold slotTeardown
  split <;> [exact fillInv_frame h rfl rfl rfl; skip]
  split <;> [exact acceptTeardown_fillInv h _ _; exact fillInv_frame h rfl rfl rfl]

theorem intake_fillInv {s : State} (h : s.fillInv) (p : PortId) (x : Transfer) : (s.intake p x).fillInv := by
  unfold intake
  simp only []
  split <;> [exact h; skip]
  split <;> exact fillInv_setPort_same h p _ rfl rfl

/-- With every slot, port and the feed as after reset there is no fill. -/
theorem fillInv_cleared {s : State} (hs : ∀ i g, ((s.slot i).gen g).state = .empty) (hp : ∀ p, (s.port p).fill = [])
    (hf : s.feed.state = .idle) : s.fillInv := by
  refine ⟨fun p => ?_, fun ho => ?_, fun i g => ⟨⟨fun h => ?_, ?_⟩, fun h => ?_⟩⟩
  · rw [hp]; simp
  · rw [hf] at ho; cases ho
  · rw [hs] at h; cases h
  · rintro (⟨p, n, _, hm⟩ | ⟨_, ho, _⟩)
    · rw [hp] at hm; cases hm
    · rw [hf] at ho; cases ho
  · rw [hs] at h; cases h

theorem slot_reset (i : SlotId) : State.reset.slot i = Slot.reset := by
  simp [slot, State.reset, Vector.get_eq_getElem]

theorem port_reset (p : PortId) : State.reset.port p = Port.reset := by
  simp [port, State.reset, Vector.get_eq_getElem]

theorem gen_reset (g : GenId) : Slot.reset.gen g = Gen.blank 0 := by
  simp [Slot.gen, Slot.reset, Vector.get_eq_getElem]

theorem fillInv_reset_blocks {s : State} (hs : s.slots = State.reset.slots) (hp : s.ports = State.reset.ports)
    (hf : s.feed = State.reset.feed) : s.fillInv := by
  refine fillInv_cleared (fun i g => ?_) (fun p => ?_) (by rw [hf]; rfl)
  · rw [show s.slot i = State.reset.slot i by unfold slot; rw [hs], slot_reset, gen_reset]; rfl
  · rw [show s.port p = State.reset.port p by unfold port; rw [hp], port_reset]; rfl

theorem writeControl_fillInv {s : State} (h : s.fillInv) (v : Word) : (s.writeControl v).fillInv := by
  unfold writeControl
  simp only []
  split
  · unfold startDeviceReset
    split
    · exact fillInv_reset_blocks rfl rfl rfl
    all_goals exact fillInv_frame h rfl rfl rfl
  · exact fillInv_frame h rfl rfl rfl

theorem advanceTime_fillInv {s : State} (h : s.fillInv) (ready : BitVec 6) : (s.advanceTime ready).fillInv := by
  obtain ⟨_, he⟩ := advanceTime_spec ready s
  rw [he]
  exact fillInv_same h (fillSame_of_slots rfl) ⟨fun _ => rfl, fun _ => id, rfl, rfl, rfl⟩

/-- Every grant keeps the FILLING generations those with a writer. -/
theorem grantAct_fillInv {s t : State} (h : s.fillInv) (e : GrantAct s t) : t.fillInv := by
  cases e with
  | idle => exact h
  | portWrite r p q a hq hf ha =>
    have h1 : (s.setPort p { s.port p with req := none }).fillInv := fillInv_setPort_same h p _ rfl rfl
    generalize s.setPort p { s.port p with req := none } = u at h1 ⊢
    have h2 : (u.writeInto a q).fillInv := fillInv_slots h1 (writeInto_fillSame u a q) rfl rfl
    exact afterRequest_fillInv (fillInv_frame (t := (u.writeInto a q).granted r) h2 rfl rfl rfl) p
  | portWithdraw p q hq hf =>
    exact afterRequest_fillInv (fillInv_setPort_same h p { s.port p with req := none } rfl rfl) p
  | feedWrite r q a hq hf ha =>
    generalize hu : s.setFeed { s.feed with req := none } = u
    have hsu : FillSame s u := fillSame_of_slots (by rw [← hu]; rfl)
    have hp : (u.writeInto a q).ports = s.ports := by rw [← hu]; rfl
    have hw : FillSame s (u.writeInto a q) := hsu.trans (writeInto_fillSame u a q)
    generalize u.writeInto a q = v at hw hp ⊢
    have hport : ∀ p, v.port p = s.port p := fun p => by unfold port; rw [hp]
    refine fillInv_same h (hw.same (fillSame_of_slots rfl)) ?_
    exact ⟨fun p => congrArg Port.fill (hport p), fun p => (hport p).symm ▸ id, rfl, rfl, rfl⟩
  | feedWithdraw q hq hf => exact fillInv_same h (fillSame_of_slots rfl) ⟨fun _ => rfl, fun _ => id, rfl, rfl, rfl⟩
  | linkRead r k q w hq hw => rw [presentRead_only, placeWord_only]; exact fillInv_frame h rfl rfl rfl
  | handleRead r n q w hq hw => exact fillInv_frame h rfl rfl rfl

/-- Every expiry and every tick likewise. -/
theorem timeAct_fillInv {s t : State} (h : s.fillInv) (e : TimeAct s t) : t.fillInv := by
  cases e with
  | stallAbort k =>
    exact fillInv_slots h (stallAbort_fillSame s k) (by rw [stallAbort_only]) (by rw [stallAbort_only])
  | giveUp k => rw [giveUp_only]; exact fillInv_frame h rfl rfl rfl
  | periodExpiry k =>
    exact fillInv_slots h (periodExpiry_fillSame s k) (by rw [periodExpiry_only]) (by rw [periodExpiry_only])
  | windowExpiry c =>
    have honly := (windowExpiry_spec s c).1
    exact fillInv_slots h (windowExpiry_fillSame s c) (by rw [honly]) (by rw [honly])
  | feedExpiry => exact feedExpiry_fillInv h
  | advanceTime ready => exact advanceTime_fillInv h ready
  | countCycle => exact fillInv_frame h rfl rfl rfl

/-- Every act of the part likewise. -/
theorem act_fillInv {s t : State} (h : s.fillInv) (e : Act s t) : t.fillInv := by
  cases e with
  | plain e => rw [plainAct_only e]; exact fillInv_frame h rfl rfl rfl
  | time e => exact timeAct_fillInv h e
  | slotConfigure => exact slotConfigure_fillInv h
  | slotFreeze => exact fillInv_slots h (slotFreeze_fillSame s) (by rw [slotFreeze_only]) (by rw [slotFreeze_only])
  | slotThaw => exact fillInv_slots h (slotThaw_fillSame s) (by rw [slotThaw_only]) (by rw [slotThaw_only])
  | slotTeardown => exact slotTeardown_fillInv h
  | cohortSet => rw [cohortSet_only]; exact fillInv_frame h rfl rfl rfl
  | linkStart => rw [linkStart_only]; exact fillInv_frame h rfl rfl rfl
  | linkLoad => rw [linkLoad_only]; exact fillInv_frame h rfl rfl rfl
  | linkCancel => rw [linkCancel_only]; exact fillInv_frame h rfl rfl rfl
  | linkStop => exact fillInv_slots h (linkStop_fillSame s) (by rw [linkStop_only]) (by rw [linkStop_only])
  | handlePin => exact fillInv_slots h (handlePin_fillSame s) (by rw [handlePin_only]) (by rw [handlePin_only])
  | handleRelease =>
    exact fillInv_slots h (handleRelease_fillSame s) (by rw [handleRelease_only]) (by rw [handleRelease_only])
  | feedOpen => exact feedOpen_fillInv h
  | feedClose => exact feedClose_fillInv h
  | feedAbort => exact feedAbort_fillInv h
  | pageTake => exact fillInv_slots h (pageTake_fillSame s) (by rw [pageTake_only]) (by rw [pageTake_only])
  | checkExamine => rw [checkExamine_only]; exact fillInv_frame h rfl rfl rfl
  | intake p x => exact intake_fillInv h p x
  | headStart p => exact headStart_fillInv h p
  | headWord p => obtain e | e := headWord_eq s p <;> rw [e] <;> [exact h; exact takeWord_fillInv h p]
  | headDrop p => obtain e | e := headDrop_eq s p <;> rw [e] <;> [exact h; exact leaveEntry_fillInv h p]
  | headEnd p => obtain e | e := headEnd_eq s p <;> rw [e] <;> [exact h; exact takeWord_fillInv h p]
  | headError p => exact headError_fillInv h p
  | enablePort p => exact enablePort_fillInv h p
  | disablePort p => exact disablePort_fillInv h p
  | writeEnables v =>
    refine foldl_keeps fillInv _ allPorts (fun t p _ ht => ?_) s h
    split <;> [exact enablePort_fillInv ht p; exact disablePort_fillInv ht p]
  | clearOverflowed p b => exact fillInv_setPort_same h p _ rfl rfl
  | placeNext k => rw [placeNext_only]; exact fillInv_frame h rfl rfl rfl
  | wordTaken k => exact fillInv_slots h (wordTaken_fillSame s k) (by rw [wordTaken_only]) (by rw [wordTaken_only])
  | readHandle n => rw [readHandle_only]; exact fillInv_frame h rfl rfl rfl
  | writeHandleAddr n v => exact fillInv_frame h rfl rfl rfl
  | clearOverread n b => exact fillInv_frame h rfl rfl rfl
  | writeFeed v => exact writeFeed_fillInv h v
  | clearOverlength b => exact fillInv_same h (fillSame_of_slots rfl) ⟨fun _ => rfl, fun _ => id, rfl, rfl, rfl⟩
  | writeControl v => exact writeControl_fillInv h v
  | assertReset => exact fillInv_reset_blocks rfl rfl rfl
  | releaseReset => unfold releaseReset; split <;> exact fillInv_frame h rfl rfl rfl
  | rebuildPage =>
    unfold rebuildPage
    split <;> [skip; exact h; exact h]
    split <;> [skip; exact h]
    simp only []
    split <;> exact fillInv_frame h rfl rfl rfl
  | clearSchedule =>
    unfold clearSchedule
    split <;> [skip; exact h; exact h; exact h]
    simp only []
    split <;> exact fillInv_frame h rfl rfl rfl

end State

/-- Settles O54: every grant and every act keeps the FILLING generations exactly those with a writer. -/
theorem everyFillingGenerationHasItsWriter : Obligations.EveryFillingGenerationHasItsWriter := by
  unfold Obligations.EveryFillingGenerationHasItsWriter
  exact fun s t h e => step_keeps_of_acts State.fillInv (fun _ _ h => State.fillInv_frame h rfl rfl rfl)
    (fun _ _ => State.grantAct_fillInv) (fun _ _ => State.act_fillInv) h e

end Sys2Proof.Machine

/-! SUPPORT. What the operations keep of the generation records: PINS, HEAD, and the record of a READY generation (R4, R10,
R101). A condition on PINS says for which generations the record is kept: for all, or for the pinned ones alone where an
operation may take an unpinned generation for a new fill. -/

namespace Sys2Proof.Machine

/-- A READY generation's SEQ, STAMP, TAG, WORDS, flags and EPOCH stand as before, and it is READY (R4, R101). -/
def SameRecord (y z : Gen) : Prop :=
  z.seq = y.seq ∧ z.stamp = y.stamp ∧ z.tag = y.tag ∧ z.words = y.words ∧ z.isShort = y.isShort ∧
    z.isPartial = y.isPartial ∧ z.epoch = y.epoch ∧ z.state = .ready

theorem SameRecord.self {y : Gen} (h : y.state = .ready) : SameRecord y y := ⟨rfl, rfl, rfl, rfl, rfl, rfl, rfl, h⟩

theorem SameRecord.ready {y z : Gen} (h : SameRecord y z) : z.state = .ready := h.2.2.2.2.2.2.2

theorem SameRecord.trans {x y z : Gen} (h : SameRecord x y) (h' : SameRecord y z) : SameRecord x z := by
  obtain ⟨h1, h2, h3, h4, h5, h6, h7, _⟩ := h
  obtain ⟨k1, k2, k3, k4, k5, k6, k7, k8⟩ := h'
  exact ⟨k1.trans h1, k2.trans h2, k3.trans h3, k4.trans h4, k5.trans h5, k6.trans h6, k7.trans h7, k8⟩

/-- PINS and HEAD stand, and so does the record of a READY generation whose PINS the condition admits. -/
structure GenKept (c : Nat → Prop) (y z : Gen) : Prop where
  pins : z.pins = y.pins
  head : z.head = y.head
  record : c y.pins → y.state = .ready → SameRecord y z

theorem GenKept.refl {c : Nat → Prop} (y : Gen) : GenKept c y y := ⟨rfl, rfl, fun _ => .self⟩

theorem GenKept.trans {c : Nat → Prop} {x y z : Gen} (h : GenKept c x y) (h' : GenKept c y z) : GenKept c x z where
  pins := h'.pins.trans h.pins
  head := h'.head.trans h.head
  record hc hr :=
    have h1 := h.record hc hr
    h1.trans (h'.record (h.pins.symm ▸ hc) h1.ready)

theorem GenKept.of_not_ready {c : Nat → Prop} {y z : Gen} (hp : z.pins = y.pins) (hh : z.head = y.head)
    (h : y.state ≠ .ready) : GenKept c y z := ⟨hp, hh, fun _ hr => absurd hr h⟩

/-- The condition that admits the pinned generations alone. -/
def Pinned (n : Nat) : Prop := 0 < n

namespace State

/-- Every generation of every slot is kept, and a slot is UNUSED where it was. -/
structure SlotsKept (c : Nat → Prop) (s t : State) : Prop where
  unused : ∀ i, (t.slot i).state = .unused ↔ (s.slot i).state = .unused
  gen : ∀ i g, GenKept c ((s.slot i).gen g) ((t.slot i).gen g)

variable {c : Nat → Prop}

theorem SlotsKept.trans {s t u : State} (h : SlotsKept c s t) (h' : SlotsKept c t u) : SlotsKept c s u :=
  ⟨fun i => (h'.unused i).trans (h.unused i), fun i g => (h.gen i g).trans (h'.gen i g)⟩

/-- Operations that leave the slots. -/
theorem slotsKept_of_slots {s t : State} (h : t.slots = s.slots) : SlotsKept c s t := by
  have hs : ∀ i, t.slot i = s.slot i := fun i => by unfold slot; rw [h]
  exact ⟨fun i => by rw [hs], fun i g => by rw [hs]; exact .refl _⟩

theorem slotsKept_self (s : State) : SlotsKept c s s := slotsKept_of_slots rfl

theorem SlotsKept.slots {s t u : State} (h : SlotsKept c s t) (hu : u.slots = t.slots) : SlotsKept c s u :=
  h.trans (slotsKept_of_slots hu)

theorem SlotsKept.offer {s t : State} (h : SlotsKept c s t) (k : EventKind) (o : Nat) (a : Word) (r : BitVec 4) :
    SlotsKept c s (t.offer k o a r) := h.slots (u := t.offer k o a r) rfl

theorem SlotsKept.result {s t : State} (h : SlotsKept c s t) (d : ResultCode) (w : Word) :
    SlotsKept c s (t.result d w) := h.slots (u := t.result d w) rfl

theorem slotsKept_foldl {α : Type} {f : State → α → State} (hf : ∀ t x, SlotsKept c t (f t x)) (l : List α) (s : State) :
    SlotsKept c s (l.foldl f s) :=
  foldl_rel (SlotsKept c) f slotsKept_self (fun _ _ _ => .trans) hf l s

/-- One slot replaced. -/
theorem slotsKept_setSlot (s : State) (i : SlotId) (x : Slot) (hst : x.state = .unused ↔ (s.slot i).state = .unused)
    (hx : ∀ g, GenKept c ((s.slot i).gen g) (x.gen g)) : SlotsKept c s (s.setSlot i x) where
  unused j := by rw [slot_setSlot]; split <;> [(rename_i e; subst e; exact hst); rfl]
  gen j g := by rw [slot_setSlot]; split <;> [(rename_i e; subst e; exact hx g); exact .refl _]

/-- One generation record of a slot replaced, and fields of the slot that do not matter here. -/
theorem slotsKept_setGen (s : State) (i : SlotId) (x : Slot) (g : GenId) (y : Gen)
    (hx : x.gens = ((s.slot i).setGen g y).gens) (hst : x.state = (s.slot i).state)
    (hy : GenKept c ((s.slot i).gen g) y) : SlotsKept c s (s.setSlot i x) := by
  refine slotsKept_setSlot s i x (by rw [hst]) fun h => ?_
  have e : x.gen h = ((s.slot i).setGen g y).gen h := by unfold Slot.gen; rw [hx]
  rw [e, Slot.gen_setGen]
  split
  · rename_i e; subst e; exact hy
  · exact .refl _

/-! ### The operations of chapters 1 and 4 -/

theorem genKept_emptied {y : Gen} (h : y.state ≠ .ready) : GenKept c y (Slot.emptied y) := .of_not_ready rfl rfl h

theorem abandon_slotsKept (s : State) (i : SlotId) (g : GenId) (w : AbandonReason) : SlotsKept c s (s.abandon i g w) := by
  unfold abandon
  split
  · rename_i h
    exact (slotsKept_setGen s i ((s.slot i).abandoned g) g _ rfl rfl (genKept_emptied (by rw [h]; decide))).offer ..
  · exact slotsKept_self s

theorem dropSeal_slotsKept (s : State) (i : SlotId) (w : AbandonReason) : SlotsKept c s (s.dropSeal i w) := by
  unfold dropSeal
  split
  · exact slotsKept_self s
  · rename_i g hg
    have hs := sealedGen_spec _ _ hg
    exact (slotsKept_setGen s i ((s.slot i).abandoned g) g _ rfl rfl (genKept_emptied (by rw [hs]; decide))).offer ..

theorem publishSeal_slotsKept (s : State) (i : SlotId) (e : BitVec 16) (b : Bool) : SlotsKept c s (s.publishSeal i e b) := by
  unfold publishSeal
  split
  · exact slotsKept_self s
  · rename_i g hg
    have hs := sealedGen_spec _ _ hg
    exact slotsKept_setGen s i _ g _ rfl rfl (.of_not_ready rfl rfl (by rw [hs]; decide))

theorem publishSeals_slotsKept (s : State) (set : BitVec 32) (e : BitVec 16) (b : Bool) :
    SlotsKept c s (s.publishSeals set e b) :=
  slotsKept_foldl (fun t i => by split <;> [exact publishSeal_slotsKept ..; exact slotsKept_self t]) allSlots s

theorem discardSeals_slotsKept (s : State) (set : BitVec 32) : SlotsKept c s (s.discardSeals set) :=
  slotsKept_foldl (fun t i => by split <;> [exact dropSeal_slotsKept ..; exact slotsKept_self t]) allSlots s

theorem fullPublish_slotsKept (s : State) (k : CohortId) : SlotsKept c s (s.fullPublish k) :=
  (publishSeals_slotsKept s _ _ _).slots rfl

theorem setCohort_fullPublish_slotsKept (s : State) (k : CohortId) (x : Cohort) :
    SlotsKept c s ((s.setCohort k x).fullPublish k) :=
  SlotsKept.trans (t := s.setCohort k x) (slotsKept_of_slots rfl) (fullPublish_slotsKept _ k)

theorem sealReport_slotsKept (s : State) (k : CohortId) (i : SlotId) (b : Bool) : SlotsKept c s (s.sealReport k i b) := by
  unfold sealReport
  simp only []
  split
  · split <;> [exact setCohort_fullPublish_slotsKept ..; exact slotsKept_of_slots rfl]
  · split <;> [exact slotsKept_self s; skip]
    split <;> [exact setCohort_fullPublish_slotsKept ..; exact slotsKept_of_slots rfl]

theorem leaveCohort_slotsKept (s : State) (i : SlotId) (k : Option CohortId) : SlotsKept c s (s.leaveCohort i k) := by
  unfold leaveCohort
  split <;> [skip; exact slotsKept_self s]
  unfold depart
  simp only []
  split <;> [exact slotsKept_of_slots rfl; skip]
  split <;> [exact slotsKept_of_slots rfl; skip]
  split <;> [exact setCohort_fullPublish_slotsKept ..; exact slotsKept_of_slots rfl]

theorem sealGen_slotsKept (s : State) (i : SlotId) (g : GenId) (k : CohortId) (n : Nat)
    (h : ((s.slot i).gen g).state = .filling) : SlotsKept c s (s.sealGen i g k n) := by
  have hg : ((s.slot i).gen g).state ≠ .ready := by rw [h]; decide
  unfold sealGen
  simp only []
  split
  · generalize hx : (s.slot i).setGen g _ = x
    have h : SlotsKept c s (s.setSlot i x) := by
      subst hx; exact slotsKept_setGen s i _ g _ rfl rfl (.of_not_ready rfl rfl hg)
    exact h.trans (sealReport_slotsKept ..)
  · rename_i o ho
    have hs : ((s.slot i).gen o).state ≠ .ready := by rw [sealedGen_spec _ _ ho]; decide
    generalize hx : ((s.slot i).setGen g _).setGen o _ = x
    have h : SlotsKept c s (s.setSlot i x) := by
      refine slotsKept_setSlot s i x (by rw [← hx]; rfl) fun h => ?_
      rw [← hx, Slot.gen_setGen, Slot.gen_setGen]
      by_cases h1 : h = o
      · subst h1; rw [if_pos rfl]; exact genKept_emptied hs
      · by_cases h2 : h = g
        · subst h2; rw [if_neg h1, if_pos rfl]; exact .of_not_ready rfl rfl hg
        · rw [if_neg h1, if_neg h2]; exact .refl _
    exact (h.offer ..).trans (sealReport_slotsKept ..)

theorem complete_slotsKept (s : State) (i : SlotId) (g : GenId) (n : Nat) : SlotsKept c s (s.complete i g n) := by
  unfold complete
  simp only []
  split
  · rename_i h
    split
    · exact slotsKept_setGen s i _ g _ rfl rfl (.of_not_ready rfl rfl (by rw [h]; decide))
    · exact sealGen_slotsKept s i g _ n h
  · exact slotsKept_self s

theorem windowExpiry_slotsKept (s : State) (k : CohortId) : SlotsKept c s (s.windowExpiry k) := by
  unfold windowExpiry
  split <;> [skip; exact slotsKept_self s]
  split
  · exact (publishSeals_slotsKept s _ _ _).slots rfl
  · exact (discardSeals_slotsKept s _).slots rfl

/-- What a granted writer-target request chooses: an EMPTY generation, or a READY one without pins (R4). -/
theorem target_spec {x : Slot} {g : GenId} (h : x.target = some g) :
    (x.gen g).state = .empty ∨ ((x.gen g).state = .ready ∧ (x.gen g).pins = 0) := by
  have oldest : ∀ (l : List GenId) (b : Option GenId), (∀ k, b = some k → (x.gen k).state = .ready ∧ (x.gen k).pins = 0) →
      (∀ k ∈ l, (x.gen k).state = .ready ∧ (x.gen k).pins = 0) → ∀ k, l.foldl (fun best g => match best with
        | none => some g
        | some b => if (x.gen g).seq < (x.gen b).seq then some g else some b) b = some k →
      (x.gen k).state = .ready ∧ (x.gen k).pins = 0 := by
    intro l
    induction l with
    | nil => exact fun b hb _ k => hb k
    | cons m l ih =>
      intro b hb hl
      refine ih _ (fun k hk => ?_) (fun k hk => hl k (List.mem_cons_of_mem _ hk))
      have hm := hl m List.mem_cons_self
      cases b with
      | none => simp only [Option.some.injEq] at hk; exact hk ▸ hm
      | some b =>
        simp only [] at hk
        split at hk <;> simp only [Option.some.injEq] at hk <;> subst hk
        · exact hm
        · exact hb _ rfl
  unfold Slot.target at h
  split at h
  · rename_i g' hf
    have := List.find?_some hf
    simp only [Option.some.injEq, Bool.and_eq_true, decide_eq_true_eq] at h this
    exact .inl (h ▸ this.2)
  · refine .inr (oldest _ none (fun k hk => nomatch hk) (fun k hk => ?_) g h)
    have hk := (List.mem_filter.mp hk).2
    simp only [Slot.reusable, Bool.and_eq_true, decide_eq_true_eq] at hk
    exact hk.2.1

/-- A writer-target request keeps the pinned generations. -/
theorem requestTarget_slotsKept (s : State) (i : SlotId) (stamp : Tick) (tag : BitVec 8) :
    SlotsKept Pinned s (s.requestTarget i stamp tag) := by
  cases h : (s.slot i).target with
  | none =>
    rw [requestTarget_none h]
    have h : SlotsKept Pinned s (s.setSlot i { s.slot i with overruns := saturate16 (s.slot i).overruns }) :=
      slotsKept_setSlot s i _ Iff.rfl (fun _ => .refl _)
    exact h.offer ..
  | some g =>
    rw [requestTarget_some h]
    refine slotsKept_setGen s i _ g _ rfl rfl ⟨rfl, rfl, fun hp hr => ?_⟩
    obtain h | ⟨_, h⟩ := target_spec h
    · rw [hr] at h; cases h
    · unfold Pinned at hp; omega

/-! ### Ports and the feed -/

theorem giveUpBlock_slotsKept (s : State) (p : PortId) (w : AbandonReason) : SlotsKept c s (s.giveUpBlock p w) :=
  SlotsKept.slots (t := s.abandonMembers (s.port p).fill w) (slotsKept_foldl (fun _ _ => abandon_slotsKept ..) _ s) rfl

theorem giveUpOpen_slotsKept (s : State) (p : PortId) (w : AbandonReason) :
    SlotsKept c s (if (s.port p).state = .inBlock then s.giveUpBlock p w else s) := by
  split <;> [exact giveUpBlock_slotsKept ..; exact slotsKept_self s]

theorem leaveEntry_slotsKept (s : State) (p : PortId) : SlotsKept c s (s.leaveEntry p) := by
  unfold leaveEntry
  split <;> [exact slotsKept_self s; skip]
  split
  · exact (giveUpOpen_slotsKept s p _).slots rfl
  · exact slotsKept_of_slots rfl

theorem endBlock_slotsKept (s : State) (p : PortId) : SlotsKept c s (s.endBlock p) :=
  SlotsKept.slots (t := s.completeMembers (s.port p).fill) (slotsKept_foldl (fun _ _ => complete_slotsKept ..) _ s) rfl

theorem finishWord_slotsKept (s : State) (p : PortId) : SlotsKept c s (s.finishWord p) := by
  unfold finishWord
  split <;> [exact slotsKept_self s; skip]
  simp only []
  generalize hu : s.setPort p _ = u
  have hsu : SlotsKept c s u := slotsKept_of_slots (by rw [← hu]; rfl)
  split
  · exact hsu.trans ((endBlock_slotsKept u p).trans (leaveEntry_slotsKept _ p))
  · exact hsu.trans (leaveEntry_slotsKept u p)

theorem presentWrite_slots (s : State) (p : PortId) : (s.presentWrite p).slots = s.slots := by
  unfold presentWrite
  simp only []
  split <;> rfl

theorem takeWord_slotsKept (s : State) (p : PortId) : SlotsKept c s (s.takeWord p) := by
  unfold takeWord
  simp only []
  split
  · exact finishWord_slotsKept s p
  · exact slotsKept_of_slots (by rw [presentWrite_slots]; rfl)

theorem afterRequest_slotsKept (s : State) (p : PortId) : SlotsKept c s (s.afterRequest p) := by
  unfold afterRequest
  split
  · exact slotsKept_of_slots (presentWrite_slots s p)
  · split <;> [exact finishWord_slotsKept s p; exact slotsKept_self s]

theorem offerBlock_slotsKept (s : State) (p : PortId) (e : FifoEntry) (i : SlotId) :
    SlotsKept Pinned s (s.offerBlock p e i) := by
  have count : ∀ n, SlotsKept Pinned s (s.setSlot i { s.slot i with decCount := n }) := fun n =>
    slotsKept_setSlot s i _ Iff.rfl (fun _ => .refl _)
  unfold offerBlock
  simp only []
  split <;> [skip; exact slotsKept_self s]
  split <;> [skip; exact count _]
  refine (count 0).trans ?_
  unfold keepBlock
  split
  · exact (requestTarget_slotsKept ..).slots rfl
  · exact requestTarget_slotsKept ..

theorem beginBlock_slotsKept (s : State) (p : PortId) (e : FifoEntry) : SlotsKept Pinned s (s.beginBlock p e) := by
  have h := giveUpOpen_slotsKept (c := Pinned) s p .missingEnd
  unfold beginBlock
  simp only []
  generalize (if (s.port p).state = .inBlock then s.giveUpBlock p .missingEnd else s) = u at h ⊢
  generalize hv : u.setPort p _ = v
  have huv : SlotsKept Pinned u v := slotsKept_of_slots (by rw [← hv]; rfl)
  have hw : SlotsKept Pinned v (v.offerToSlots p e) := slotsKept_foldl (fun t i => offerBlock_slotsKept t p e i) allSlots v
  generalize v.offerToSlots p e = w at hw ⊢
  exact (h.trans (huv.trans hw)).slots rfl

theorem headStart_slotsKept (s : State) (p : PortId) : SlotsKept Pinned s (s.headStart p) := by
  unfold headStart
  split <;> [exact slotsKept_self s; skip]
  split <;> [skip; exact slotsKept_self s]
  split
  · exact beginBlock_slotsKept ..
  · exact (beginBlock_slotsKept ..).trans (takeWord_slotsKept ..)

theorem headError_slotsKept (s : State) (p : PortId) : SlotsKept c s (s.headError p) := by
  unfold headError
  split <;> [exact slotsKept_self s; skip]
  split <;> [skip; exact slotsKept_self s]
  have h := giveUpBlock_slotsKept (c := c) s p .sourceError
  simp only []
  generalize s.giveUpBlock p .sourceError = u at h ⊢
  generalize hv : u.setPort p _ = v
  exact (h.slots (u := v) (by rw [← hv]; rfl)).trans (leaveEntry_slotsKept v p)

theorem disablePort_slotsKept (s : State) (p : PortId) : SlotsKept c s (s.disablePort p) := by
  unfold disablePort
  split <;> [exact (giveUpOpen_slotsKept s p _).slots rfl; exact slotsKept_self s]

theorem writeEnables_slotsKept (s : State) (v : Word) : SlotsKept c s (s.writeEnables v) :=
  slotsKept_foldl (fun t p => by
    split <;> [exact slotsKept_of_slots (by rw [enablePort_only]); exact disablePort_slotsKept t p]) allPorts s

theorem feedOpen_slotsKept (s : State) : SlotsKept Pinned s s.feedOpen := by
  unfold feedOpen
  split <;> [exact slotsKept_of_slots rfl; skip]
  split <;> [exact slotsKept_of_slots rfl; skip]
  split <;> [exact slotsKept_of_slots rfl; skip]
  split <;> [exact slotsKept_of_slots rfl; skip]
  split <;> [exact slotsKept_of_slots rfl; skip]
  split <;> [exact slotsKept_of_slots rfl; skip]
  rename_i i _ _ _ _ _ _
  unfold openFeed
  simp only []
  have h := requestTarget_slotsKept s i s.now ((s.arg 1).setWidth 8)
  generalize s.requestTarget i s.now _ = u at h ⊢
  split
  · exact h.slots rfl
  · exact h.result ..

theorem feedClose_slotsKept (s : State) : SlotsKept c s s.feedClose := by
  unfold feedClose
  split <;> [exact slotsKept_of_slots rfl; skip]
  generalize hu : s.setFeed _ = u
  have h := complete_slotsKept (c := c) u s.feed.slot s.feed.gen s.feedWords
  exact (SlotsKept.trans (s := s) (slotsKept_of_slots (by rw [← hu]; rfl)) h).result ..

/-- The feed's session given up (R134, R135). -/
theorem abandonFeed_slotsKept (s : State) (w : AbandonReason) :
    SlotsKept c s ((s.setFeed { s.feed with state := .idle }).abandon s.feed.slot s.feed.gen w) :=
  SlotsKept.trans (t := s.setFeed { s.feed with state := .idle }) (slotsKept_of_slots rfl) (abandon_slotsKept ..)

theorem feedAbort_slotsKept (s : State) : SlotsKept c s s.feedAbort := by
  unfold feedAbort
  split <;> [exact slotsKept_of_slots rfl; exact (abandonFeed_slotsKept s _).result ..]

theorem feedExpiry_slotsKept (s : State) : SlotsKept c s s.feedExpiry := by
  unfold feedExpiry
  split <;> [exact (abandonFeed_slotsKept s _).offer ..; exact slotsKept_self s]

/-- A granted write goes into a FILLING generation (R35). -/
theorem writeInto_slotsKept (s : State) (a : Nat) (q : WriteReq) (h : s.sameFill q = true) :
    SlotsKept c s (s.writeInto a q) := by
  have hf : ((s.slot q.slot).gen q.gen).state ≠ .ready := by
    simp only [sameFill, Bool.and_eq_true, decide_eq_true_eq] at h
    rw [h.1]; decide
  exact SlotsKept.trans (t := s.storeWord a q.word) (slotsKept_of_slots rfl)
    (slotsKept_setGen (s.storeWord a q.word) q.slot _ q.gen _ rfl rfl (.of_not_ready rfl rfl hf))

/-- A grant keeps every generation: what it writes into is FILLING (R35). -/
theorem grantAct_slotsKept {s t : State} (e : GrantAct s t) : SlotsKept c s t := by
  cases e with
  | idle => exact slotsKept_self s
  | portWrite r p q a hq hf ha =>
    generalize hu : s.setPort p _ = u
    have hsu : SlotsKept c s u := slotsKept_of_slots (by rw [← hu]; rfl)
    have hf : u.sameFill q = true := by rw [← hu]; exact hf
    have hw : SlotsKept c u ((u.writeInto a q).granted r) := (writeInto_slotsKept u a q hf).slots rfl
    exact hsu.trans (hw.trans (afterRequest_slotsKept _ p))
  | portWithdraw p q hq hf =>
    generalize hu : s.setPort p _ = u
    exact SlotsKept.trans (t := u) (slotsKept_of_slots (by rw [← hu]; rfl)) (afterRequest_slotsKept u p)
  | feedWrite r q a hq hf ha =>
    generalize hu : s.setFeed _ = u
    have hsu : SlotsKept c s u := slotsKept_of_slots (by rw [← hu]; rfl)
    have hf : u.sameFill q = true := by rw [← hu]; exact hf
    exact (hsu.trans (writeInto_slotsKept u a q hf)).slots rfl
  | feedWithdraw q hq hf => exact slotsKept_of_slots rfl
  | linkRead r k q w hq hw =>
    refine slotsKept_of_slots ?_
    rw [presentRead_only, placeWord_only]; rfl
  | handleRead r n q w hq hw => exact slotsKept_of_slots rfl

/-! ### Slot commands -/

/-- A slot's state changed between others than UNUSED. -/
theorem setState_slotsKept (s : State) (i : SlotId) (st : SlotState) (h : st ≠ .unused) (hi : (s.slot i).state ≠ .unused) :
    SlotsKept c s (s.setSlot i { s.slot i with state := st }) :=
  slotsKept_setSlot s i _ (iff_of_false h hi) (fun _ => .refl _)

theorem slotFreeze_slotsKept (s : State) : SlotsKept c s s.slotFreeze := by
  unfold slotFreeze
  split <;> [exact slotsKept_of_slots rfl; skip]
  rename_i i _
  split
  · rename_i h
    exact (setState_slotsKept s i .frozen (by decide) (by rw [h]; decide)).result ..
  · exact slotsKept_of_slots rfl

theorem slotThaw_slotsKept (s : State) : SlotsKept c s s.slotThaw := by
  unfold slotThaw
  split <;> [exact slotsKept_of_slots rfl; skip]
  rename_i i _
  split
  · rename_i h
    exact (setState_slotsKept s i .active (by decide) (by rw [h]; decide)).result ..
  · exact slotsKept_of_slots rfl

theorem dropWriter_slots (s : State) (i : SlotId) : (s.dropWriter i).slots = s.slots := by
  unfold dropWriter
  split
  · rfl
  · split <;> rfl

theorem abandonFilling_slotsKept (s : State) (i : SlotId) : SlotsKept c s (s.abandonFilling i) := by
  unfold abandonFilling
  split
  · exact (abandon_slotsKept ..).slots (dropWriter_slots ..)
  · exact slotsKept_self s

/-- Steps 1 to 3 of an accepted SLOT_TEARDOWN, up to the slot's new state (R18). -/
def teardownBegun (s : State) (i : SlotId) : State :=
  let t := (s.abandonFilling i).dropSeal i .teardown
  t.setSlot i { t.slot i with state := .draining, cohort := none }

theorem acceptTeardown_eq (s : State) (i : SlotId) (force : Bool) :
    s.acceptTeardown i force = (((if force then (s.teardownBegun i).revokeHandles i else s.teardownBegun i).drainCheck
      i).leaveCohort i (s.slot i).cohort).result .ok 0 := rfl

theorem teardownBegun_slotsKept (s : State) (i : SlotId) (h : (s.slot i).state ≠ .unused) :
    SlotsKept c s (s.teardownBegun i) := by
  have h1 : SlotsKept c s ((s.abandonFilling i).dropSeal i .teardown) :=
    (abandonFilling_slotsKept s i).trans (dropSeal_slotsKept ..)
  unfold teardownBegun
  simp only []
  generalize (s.abandonFilling i).dropSeal i .teardown = u at h1 ⊢
  exact h1.trans (slotsKept_setSlot u i _ (iff_of_false nofun ((h1.unused i).not.mpr h)) (fun _ => .refl _))

end State
end Sys2Proof.Machine

/-! SUPPORT. PINS and its holders (R10, R11): the count of the links and handles that hold a generation, what each operation
does to it and to PINS, and that a link without a frame in flight, or with an aborted one, holds nothing. -/

namespace Sys2Proof.Machine

/-- A link holds a generation: its pin set names it. -/
def Link.holds (l : Link) (i : SlotId) (g : GenId) : Bool := l.pinSet.any fun p => decide (p.slot = i ∧ p.gen = g)

/-- A handle holds a generation. -/
def Handle.holds (y : Handle) (i : SlotId) (g : GenId) : Bool := decide (y.state = .held ∧ y.slot = i ∧ y.gen = g)

/-- Where two tests agree off one element of a list, their counts differ by what they say of it. -/
theorem filter_length_change {α : Type} (p q : α → Bool) (a : α) : ∀ l : List α, l.Nodup → a ∈ l →
    (∀ x, x ≠ a → q x = p x) → (l.filter q).length + (p a).toNat = (l.filter p).length + (q a).toNat
  | x :: l, hn, ha, h => by
    obtain ⟨hx, hn⟩ := List.nodup_cons.mp hn
    simp only [List.filter_cons]
    by_cases e : x = a
    · subst e
      have : l.filter q = l.filter p := List.filter_congr fun y hy => h y fun e => hx (e ▸ hy)
      rw [this]
      cases p x <;> cases q x <;> simp
    · have ih := filter_length_change p q a l hn ((List.mem_cons.mp ha).resolve_left (Ne.symm e)) h
      rw [h x e]
      cases p x <;> simp <;> omega

namespace State

/-- The number of links and handles that hold a generation. -/
def holders (s : State) (i : SlotId) (g : GenId) : Nat :=
  ((List.finRange 6).filter fun k => (s.link k).holds i g).length +
    ((List.finRange 2).filter fun h => (s.handle h).holds i g).length

/-- PINS of every generation is the number of its holders, a link's pins are on different slots, and an UNUSED slot holds no
pin. -/
structure PinCount (s : State) : Prop where
  nodup : ∀ k, ((s.link k).pinSet.map PinEntry.slot).Nodup
  count : ∀ i g, ((s.slot i).gen g).pins = s.holders i g
  unused : ∀ i, (s.slot i).state = .unused → ∀ g, ((s.slot i).gen g).pins = 0

theorem pinInv_iff (s : State) : s.pinInv ↔ (∀ k, ((s.link k).pinSet.map PinEntry.slot).Nodup) ∧
    ∀ i g, ((s.slot i).gen g).pins = s.holders i g := Iff.rfl

/-- One link's pins changed. -/
theorem holders_link {s t : State} (k : LinkId) (hl : ∀ j, j ≠ k → (t.link j).pinSet = (s.link j).pinSet)
    (hh : t.handles = s.handles) (i : SlotId) (g : GenId) :
    t.holders i g + ((s.link k).holds i g).toNat = s.holders i g + ((t.link k).holds i g).toNat := by
  have h := filter_length_change (fun j => (s.link j).holds i g) (fun j => (t.link j).holds i g) k (List.finRange 6)
    (List.nodup_finRange 6) (List.mem_finRange k) (fun j hj => by simp only [Link.holds, hl j hj])
  have e : ∀ n, t.handle n = s.handle n := fun n => by unfold handle; rw [hh]
  simp only [holders, e]
  omega

/-- One handle changed. -/
theorem holders_handle {s t : State} (n : HandleId) (hl : ∀ k, (t.link k).pinSet = (s.link k).pinSet)
    (hh : ∀ m, m ≠ n → t.handle m = s.handle m) (i : SlotId) (g : GenId) :
    t.holders i g + ((s.handle n).holds i g).toNat = s.holders i g + ((t.handle n).holds i g).toNat := by
  have h := filter_length_change (fun m => (s.handle m).holds i g) (fun m => (t.handle m).holds i g) n (List.finRange 2)
    (List.nodup_finRange 2) (List.mem_finRange n) (fun m hm => by simp only [hh m hm])
  simp only [holders, Link.holds, hl]
  omega

/-- The holders stand where pin sets and handles do. -/
theorem holders_congr {s t : State} (hl : ∀ k, (t.link k).pinSet = (s.link k).pinSet)
    (hh : ∀ n i g, (t.handle n).holds i g = (s.handle n).holds i g) (i : SlotId) (g : GenId) :
    t.holders i g = s.holders i g := by simp only [holders, Link.holds, hl, hh]

/-- A generation has at most eight holders. -/
theorem holders_le (s : State) (i : SlotId) (g : GenId) : s.holders i g ≤ 8 := by
  have h1 := List.length_filter_le (fun k => (s.link k).holds i g) (List.finRange 6)
  have h2 := List.length_filter_le (fun n => (s.handle n).holds i g) (List.finRange 2)
  rw [List.length_finRange] at h1 h2
  unfold holders; omega

/-- The slots keep PINS: no pin changes, and a slot that has become UNUSED holds none. -/
structure PinsSame (s t : State) : Prop where
  pins : ∀ i g, ((t.slot i).gen g).pins = ((s.slot i).gen g).pins
  unused : ∀ i, (t.slot i).state = .unused → (s.slot i).state = .unused ∨ ∀ g, ((t.slot i).gen g).pins = 0

theorem SlotsKept.pinsSame {c : Nat → Prop} {s t : State} (h : SlotsKept c s t) : PinsSame s t :=
  ⟨fun i g => (h.gen i g).pins, fun i hu => .inl ((h.unused i).mp hu)⟩

theorem pinsSame_of_slots {s t : State} (h : t.slots = s.slots) : PinsSame s t :=
  (slotsKept_of_slots (c := Pinned) h).pinsSame

theorem PinsSame.trans {s t u : State} (h : PinsSame s t) (h' : PinsSame t u) : PinsSame s u where
  pins i g := (h'.pins i g).trans (h.pins i g)
  unused i hu := by
    obtain ht | h0 := h'.unused i hu
    · obtain hs | h0 := h.unused i ht
      · exact .inl hs
      · exact .inr fun g => (h'.pins i g).trans (h0 g)
    · exact .inr h0

/-- Where PINS, the pin sets and the handles stand, PINS still counts its holders. -/
theorem PinCount.same {s t : State} (h : PinCount s) (hs : PinsSame s t) (hl : ∀ k, (t.link k).pinSet = (s.link k).pinSet)
    (hh : ∀ n i g, (t.handle n).holds i g = (s.handle n).holds i g) : PinCount t where
  nodup k := by rw [hl]; exact h.nodup k
  count i g := by rw [hs.pins, h.count, holders_congr hl hh]
  unused i hu := (hs.unused i hu).elim (fun hi g => (hs.pins i g).trans (h.unused i hi g)) id

theorem PinCount.slots {s t : State} (h : PinCount s) (hs : PinsSame s t) (hl : t.links = s.links)
    (hh : t.handles = s.handles) : PinCount t :=
  h.same hs (fun k => by unfold link; rw [hl]) (fun n _ _ => by unfold handle; rw [hh])

/-- A link replaced by one with the same pins. -/
theorem PinCount.setLink {s : State} (h : PinCount s) (k : LinkId) (l : Link) (hl : l.pinSet = (s.link k).pinSet) :
    PinCount (s.setLink k l) :=
  h.same (pinsSame_of_slots rfl) (fun j => by rw [link_setLink]; split <;> [(rename_i e; subst e; exact hl); rfl])
    (fun _ _ _ => rfl)

/-- A handle replaced by one that holds the same. -/
theorem PinCount.setHandle {s : State} (h : PinCount s) (n : HandleId) (y : Handle)
    (hy : ∀ i g, y.holds i g = (s.handle n).holds i g) : PinCount (s.setHandle n y) :=
  h.same (pinsSame_of_slots rfl) (fun _ => rfl)
    (fun m i g => by rw [handle_setHandle]; split <;> [(rename_i e; subst e; exact hy i g); rfl])

/-! ### Pins that are added and released -/

/-- PINS after a change of one. -/
theorem pins_setPins (s : State) (i : SlotId) (g : GenId) (n : Nat) (j : SlotId) (h : GenId) :
    (((s.setSlot i ((s.slot i).setPins g n)).slot j).gen h).pins =
      if j = i ∧ h = g then n else ((s.slot j).gen h).pins := by
  rw [slot_setSlot]
  by_cases e : j = i
  · subst e
    rw [if_pos rfl, Slot.setPins, Slot.gen_setGen]
    split <;> simp_all
  · simp [e]

theorem state_setPins (s : State) (i : SlotId) (g : GenId) (n : Nat) (j : SlotId) :
    ((s.setSlot i ((s.slot i).setPins g n)).slot j).state = (s.slot j).state := by
  rw [slot_setSlot]; split <;> [(rename_i e; subst e; rfl); rfl]

/-- The return of a chain leaves PINS and the slot's state. -/
theorem returnChain_pins (s : State) (i : SlotId) (g : GenId) :
    (∀ j h, (((s.returnChain i g).slot j).gen h).pins = ((s.slot j).gen h).pins) ∧
      ∀ j, ((s.returnChain i g).slot j).state = (s.slot j).state := by
  unfold returnChain
  simp only []
  split
  · exact ⟨fun _ _ => rfl, fun _ => rfl⟩
  · refine ⟨fun j h => ?_, fun j => ?_⟩ <;> rw [slot_setSlot] <;> split <;> rename_i e
    · subst e; rw [Slot.gen_setGen]; split <;> [(rename_i e; subst e; rfl); rfl]
    · rfl
    · subst e; rfl
    · rfl

theorem returnChains_pins (s : State) (i : SlotId) :
    (∀ j h, (((s.returnChains i).slot j).gen h).pins = ((s.slot j).gen h).pins) ∧
      ∀ j, ((s.returnChains i).slot j).state = (s.slot j).state := by
  refine ⟨fun j h => foldl_get (fun t : State => ((t.slot j).gen h).pins) _ allGens (fun t g _ => ?_) s,
    fun j => foldl_get (fun t : State => (t.slot j).state) _ allGens (fun t g _ => ?_) s⟩ <;> split
  · exact (returnChain_pins t i g).1 j h
  · rfl
  · exact (returnChain_pins t i g).2 j
  · rfl

/-- The end of a drain leaves PINS, and only the drained slot becomes UNUSED (R20). -/
theorem drainEnd_pins (s : State) (i : SlotId) :
    (∀ j h, (((s.drainEnd i).slot j).gen h).pins = ((s.slot j).gen h).pins) ∧
      ∀ j, j ≠ i → ((s.drainEnd i).slot j).state = (s.slot j).state := by
  obtain ⟨hp, hst⟩ := returnChains_pins s i
  have hs := forgetSlot_slots (s.returnChains i) i
  have he : ∀ j, ((s.returnChains i).forgetSlot i).slot j = (s.returnChains i).slot j := fun j => by unfold slot; rw [hs]
  unfold drainEnd
  simp only []
  refine ⟨fun j h => ?_, fun j hj => ?_⟩
  · rw [slot_offer, slot_setSlot]
    split
    · rename_i e; subst e
      show (((s.returnChains j).forgetSlot j).slot j |>.gen h).pins = _
      rw [he, hp]
    · rw [he, hp]
  · rw [slot_offer, slot_setSlot, if_neg hj, he, hst]

theorem drainCheck_pinsSame (s : State) (i : SlotId) : PinsSame s (s.drainCheck i) := by
  unfold drainCheck
  split
  · rename_i hd
    obtain ⟨hp, hst⟩ := drainEnd_pins s i
    refine ⟨hp, fun j hu => ?_⟩
    by_cases e : j = i
    · subst e; exact .inr fun g => (hp j g).trans ((unpinned_iff _).mp hd.2 g)
    · exact .inl ((hst j e).symm.trans hu)
  · exact pinsSame_of_slots rfl

/-- A release takes one from PINS of its generation (R11); a slot that it frees holds no pin. -/
theorem release_pins (s : State) (i : SlotId) (g : GenId) :
    (∀ j h, (((s.release i g).slot j).gen h).pins =
      ((s.slot j).gen h).pins - (decide (i = j ∧ g = h)).toNat) ∧
    ∀ j, ((s.release i g).slot j).state = .unused →
      (s.slot j).state = .unused ∨ ∀ h, (((s.release i g).slot j).gen h).pins = 0 := by
  have hd := drainCheck_pinsSame (s.setSlot i ((s.slot i).setPins g (((s.slot i).gen g).pins - 1))) i
  refine ⟨fun j h => ?_, fun j hu => ?_⟩
  · refine (hd.pins j h).trans ?_
    rw [pins_setPins]
    by_cases e : j = i ∧ h = g
    · obtain ⟨rfl, rfl⟩ := e; simp
    · rw [if_neg e, decide_eq_false (fun e' => e ⟨e'.1.symm, e'.2.symm⟩)]; rfl
  · exact (hd.unused j hu).imp (fun h => (state_setPins ..).symm.trans h) id

/-- The release of a list of pins on different slots takes one from PINS of each generation named (R11). -/
theorem foldl_release_pins : ∀ (l : List PinEntry), (l.map PinEntry.slot).Nodup → ∀ s : State,
    let t := l.foldl (fun t p => t.release p.slot p.gen) s
    (∀ i g, ((t.slot i).gen g).pins =
      ((s.slot i).gen g).pins - (l.any fun p => decide (p.slot = i ∧ p.gen = g)).toNat) ∧
    ∀ i, (t.slot i).state = .unused → (s.slot i).state = .unused ∨ ∀ g, ((t.slot i).gen g).pins = 0
  | [], _, s => ⟨fun _ _ => rfl, fun _ => .inl⟩
  | p :: l, hn, s => by
    obtain ⟨hp, hn⟩ := List.nodup_cons.mp hn
    obtain ⟨h1, h2⟩ := release_pins s p.slot p.gen
    obtain ⟨h3, h4⟩ := foldl_release_pins l hn (s.release p.slot p.gen)
    refine ⟨fun i g => ?_, fun i hu => ?_⟩
    · rw [List.foldl_cons, h3, h1, List.any_cons]
      by_cases e : p.slot = i ∧ p.gen = g
      · have : (l.any fun p => decide (p.slot = i ∧ p.gen = g)) = false :=
          List.any_eq_false.mpr fun q hq hd => hp (List.mem_map.mpr ⟨q, hq, by simpa using (of_decide_eq_true hd).1.trans e.1.symm⟩)
        rw [this, decide_eq_true e]; simp
      · rw [decide_eq_false e]; simp
    · obtain h | h := h4 i hu
      · obtain h | h := h2 i h
        · exact .inl h
        · exact .inr fun g => by rw [List.foldl_cons, h3, h g, Nat.zero_sub]
      · exact .inr h

/-- The end of a drain changes no pin set. -/
theorem drainCheck_pinSet (s : State) (i : SlotId) (k : LinkId) : ((s.drainCheck i).link k).pinSet = (s.link k).pinSet := by
  unfold drainCheck
  split <;> [skip; rfl]
  unfold drainEnd forgetSlot
  simp only [link_offer, link_setSlot]
  rw [returnChains_only]
  refine foldl_get (fun t : State => (t.link k).pinSet) _ allLinks (fun t j _ => ?_) _
  rw [link_setLink]; split <;> [(rename_i e; subst e; rfl); rfl]

/-- A fold of releases changes no pin set and no handle. -/
theorem foldl_release_links (l : List PinEntry) (s : State) :
    let t := l.foldl (fun t p => t.release p.slot p.gen) s
    (∀ k, (t.link k).pinSet = (s.link k).pinSet) ∧ t.handles = s.handles := by
  refine ⟨fun k => foldl_get (fun t : State => (t.link k).pinSet) _ l (fun t p _ => ?_) s,
    foldl_get (fun t : State => t.handles) _ l (fun t p _ => ?_) s⟩
  · exact drainCheck_pinSet (t.setSlot p.slot _) p.slot k
  · rw [release_only]

end State
end Sys2Proof.Machine

namespace Sys2Proof.Machine

/-- A link with the line QUIET, no frame in flight and no pin. -/
def Link.empty (l : Link) : Prop := l.line = .quiet ∧ l.pinSet = [] ∧ l.frame = none

/-- A link in OFF or WAIT is empty, and one whose frame is aborted holds no pin (R106, R116). -/
structure Link.Calm (l : Link) : Prop where
  rest : l.state = .off ∨ l.state = .wait → l.empty
  aborted : l.line = .abort → l.pinSet = []

theorem Link.empty.calm {l : Link} (h : l.empty) : l.Calm := ⟨fun _ => h, fun _ => h.2.1⟩

/-- A link in FRAME or STOPPING whose line is not in ABORT. -/
theorem Link.calm_of_driving {l : Link} (hs : ¬ (l.state = .off ∨ l.state = .wait)) (hl : l.line ≠ .abort) : l.Calm :=
  ⟨fun h => absurd h hs, fun h => absurd h hl⟩

/-- What of a link its calm depends on. -/
theorem Link.Calm.congr {l m : Link} (h : l.Calm) (hs : m.state = l.state) (hn : m.line = l.line) (hp : m.pinSet = l.pinSet)
    (hf : m.frame = l.frame) : m.Calm where
  rest e := by unfold Link.empty; rw [hn, hp, hf]; exact h.rest (hs ▸ e)
  aborted e := by rw [hp]; exact h.aborted (hn ▸ e)

/-- A calm link whose line is not QUIET is in FRAME or STOPPING. -/
theorem Link.Calm.busy {l : Link} (h : l.Calm) (hq : l.line ≠ .quiet) : ¬ (l.state = .off ∨ l.state = .wait) :=
  fun e => hq (h.rest e).1

theorem Link.Calm.busy_of_frame {l : Link} (h : l.Calm) {f : Frame} (hf : l.frame = some f) :
    ¬ (l.state = .off ∨ l.state = .wait) := fun e => by rw [(h.rest e).2.2] at hf; cases hf

namespace State

/-- Every link is calm, and a check for LINK_START belongs to a link in OFF (R91). -/
structure LinksCalm (s : State) : Prop where
  check : ∀ c, s.check = some c → c.kind = .start → (s.link c.link).state = .off
  calm : ∀ k, (s.link k).Calm

/-- One link changed; the others may have lost last-seen entries. -/
theorem LinksCalm.step {s t : State} (h : LinksCalm s) (k : LinkId)
    (ho : ∀ j, j ≠ k → (t.link j).bare = (s.link j).bare ∧ (t.link j).pinSet = (s.link j).pinSet) (hk : (t.link k).Calm)
    (hst : (s.link k).state = .off → (t.link k).state = .off) (hc : t.check = s.check) : LinksCalm t where
  check c e1 e2 := by
    have hoff := h.check c (hc ▸ e1) e2
    by_cases e : c.link = k
    · rw [e] at hoff ⊢; exact hst hoff
    · obtain ⟨hstate, _⟩ := Link.bare_fields (ho c.link e).1
      exact hstate.trans hoff
  calm j := by
    by_cases e : j = k
    · exact e ▸ hk
    · obtain ⟨hb, hp⟩ := ho j e
      obtain ⟨hstate, hline, _, _, _, _, _, hframe⟩ := Link.bare_fields hb
      exact (h.calm j).congr hstate hline hp hframe

theorem LinksCalm.frame {s t : State} (h : LinksCalm s) (hl : t.links = s.links) (hc : t.check = s.check) : LinksCalm t := by
  have e : ∀ k, t.link k = s.link k := fun k => by unfold link; rw [hl]
  exact ⟨fun c h1 h2 => by rw [e]; exact h.check c (hc ▸ h1) h2, fun k => by rw [e]; exact h.calm k⟩

/-- Links that have lost last-seen entries only. -/
theorem LinksCalm.bare {s t : State} (h : LinksCalm s)
    (ho : ∀ j, (t.link j).bare = (s.link j).bare ∧ (t.link j).pinSet = (s.link j).pinSet) (hc : t.check = s.check) :
    LinksCalm t := by
  obtain ⟨hstate, hline, _, _, _, _, _, hframe⟩ := Link.bare_fields (ho 0).1
  exact h.step 0 (fun j _ => ho j) ((h.calm 0).congr hstate hline (ho 0).2 hframe) (fun e => hstate.trans e) hc

theorem LinksCalm.setLink {s : State} (h : LinksCalm s) (k : LinkId) (l : Link) (hl : l.Calm)
    (hst : (s.link k).state = .off → l.state = .off) : LinksCalm (s.setLink k l) := by
  refine h.step k (fun j e => ?_) ?_ (fun e => ?_) rfl
  · rw [link_setLink, if_neg e]; exact ⟨rfl, rfl⟩
  · rw [link_setLink_self]; exact hl
  · rw [link_setLink_self]; exact hst e

/-- The pins are counted and the links calm. -/
structure PinsHeld (s : State) : Prop where
  pins : PinCount s
  links : LinksCalm s

theorem PinsHeld.frame {s t : State} (h : PinsHeld s) (hs : t.slots = s.slots) (hl : t.links = s.links)
    (hh : t.handles = s.handles) (hc : t.check = s.check) : PinsHeld t :=
  ⟨h.pins.slots (pinsSame_of_slots hs) hl hh, h.links.frame hl hc⟩

/-- The slots kept, and links, handles and the check as they were. -/
theorem PinsHeld.kept {s t : State} (h : PinsHeld s) (hs : SlotsKept Pinned s t) (hl : t.links = s.links)
    (hh : t.handles = s.handles) (hc : t.check = s.check) : PinsHeld t :=
  ⟨h.pins.slots hs.pinsSame hl hh, h.links.frame hl hc⟩

theorem PinsHeld.setLink {s : State} (h : PinsHeld s) (k : LinkId) (l : Link) (hp : l.pinSet = (s.link k).pinSet)
    (hl : l.Calm) (hst : (s.link k).state = .off → l.state = .off) : PinsHeld (s.setLink k l) :=
  ⟨h.pins.setLink k l hp, h.links.setLink k l hl hst⟩

/-- A link replaced by one that agrees on what its calm and its pins depend on. -/
theorem PinsHeld.setLink_same {s : State} (h : PinsHeld s) (k : LinkId) (l : Link) (hs : l.state = (s.link k).state)
    (hn : l.line = (s.link k).line) (hp : l.pinSet = (s.link k).pinSet) (hf : l.frame = (s.link k).frame) :
    PinsHeld (s.setLink k l) :=
  h.setLink k l hp ((h.links.calm k).congr hs hn hp hf) (fun e => hs.trans e)

/-! ### Frames -/

theorem presentRead_pinsHeld {s : State} (h : PinsHeld s) (k : LinkId) : PinsHeld (s.presentRead k) := by
  obtain ⟨q, e⟩ := presentRead_req s k
  rw [e]
  exact h.setLink_same k _ rfl rfl rfl rfl

theorem placeWord_pinsHeld {s : State} (h : PinsHeld s) (k : LinkId) (w : Word) (b : Bool) : PinsHeld (s.placeWord k w b) := by
  cases hf : (s.link k).frame with
  | none => unfold placeWord; simp only [hf]; exact h
  | some f =>
    have hbusy := (h.links.calm k).busy_of_frame hf
    rw [placeWord_frame s k w b f hf]
    refine h.setLink k _ rfl ⟨fun e => absurd e hbusy, fun e => (h.links.calm k).aborted ?_⟩ (fun e => absurd (.inl e) hbusy)
    by_contra hn
    simp [hn] at e

theorem placeNext_pinsHeld {s : State} (h : PinsHeld s) (k : LinkId) : PinsHeld (s.placeNext k) := by
  unfold placeNext
  simp only []
  split <;> [exact h; skip]
  split <;> [skip; exact h]
  split
  · exact presentRead_pinsHeld (placeWord_pinsHeld h k _ _) k
  · exact placeWord_pinsHeld h k _ _
  all_goals exact h

/-- The pin sets after the release of a link's pins. -/
theorem releasePins_pinSet (s : State) (k j : LinkId) :
    ((s.releasePins k).link j).pinSet = if j = k then [] else (s.link j).pinSet := by
  unfold releasePins
  simp only []
  rw [link_setLink]
  split <;> [rfl; exact (foldl_release_links (s.link k).pinSet s).1 j]

theorem releasePins_handles (s : State) (k : LinkId) : (s.releasePins k).handles = s.handles := by
  rw [releasePins_only]

/-- A link releases its pins: PINS falls with its holders (R11). -/
theorem releasePins_pinCount {s : State} (h : PinCount s) (k : LinkId) : PinCount (s.releasePins k) := by
  obtain ⟨hpins, hunused⟩ := foldl_release_pins (s.link k).pinSet (h.nodup k) s
  change (∀ i g, (((s.releasePins k).slot i).gen g).pins = _ - ((s.link k).holds i g).toNat) at hpins
  change ∀ i, ((s.releasePins k).slot i).state = .unused → _ ∨ ∀ g, (((s.releasePins k).slot i).gen g).pins = 0 at hunused
  refine ⟨fun j => ?_, fun i g => ?_, fun i hu g => ?_⟩
  · rw [releasePins_pinSet]; split <;> [exact List.nodup_nil; exact h.nodup j]
  · have hold := holders_link (s := s) (t := s.releasePins k) k (fun j e => by rw [releasePins_pinSet, if_neg e])
      (releasePins_handles s k) i g
    have hnone : ((s.releasePins k).link k).holds i g = false := by
      unfold Link.holds; rw [releasePins_pinSet, if_pos rfl]; rfl
    rw [hnone] at hold
    rw [hpins, h.count]
    simp only [Bool.toNat_false] at hold
    omega
  · obtain hu | h0 := hunused i hu
    · rw [hpins, h.unused i hu, Nat.zero_sub]
    · exact h0 g

/-- The end of a frame in a link whose line is QUIET and that holds no pin leaves the link empty. -/
theorem frameDone_empty (s : State) (k : LinkId) (r : BitVec 4) (hl : (s.link k).line = .quiet) (hp : (s.link k).pinSet = []) :
    ((s.frameDone k r).link k).empty := by
  have adv : ∀ n, ((s.advanceCursor k n).link k).empty := fun n => by
    unfold advanceCursor cycleEnd
    simp only []
    split <;> simp [Link.empty, hl, hp]
  unfold frameDone
  simp only []
  split
  · rename_i hf; exact ⟨hl, hp, hf⟩
  · rename_i f _
    have h := adv f.next
    generalize s.advanceCursor k f.next = t at h ⊢
    split
    · simpa [linkOff, Link.empty] using h.1
    · split
      · simpa [swapProgram, Link.empty] using h
      · simpa [Link.empty] using h

/-- The end of a frame of a link that is not in OFF or WAIT. -/
theorem frameDone_linksCalm {s u : State} (h : LinksCalm s) (k : LinkId) (r : BitVec 4)
    (ho : ∀ j, j ≠ k → (u.link j).bare = (s.link j).bare ∧ (u.link j).pinSet = (s.link j).pinSet)
    (hc : u.check = s.check) (hbusy : ¬ ((s.link k).state = .off ∨ (s.link k).state = .wait))
    (hl : (u.link k).line = .quiet) (hp : (u.link k).pinSet = []) : LinksCalm (u.frameDone k r) := by
  refine h.step k (fun j e => ?_) (frameDone_empty u k r hl hp).calm (fun e => absurd (.inl e) hbusy) ?_
  · rw [(frameDone_link u k j r).1 e]; exact ho j e
  · rw [frameDone_only]; exact hc

theorem frameDone_pinCount {s : State} (h : PinCount s) (k : LinkId) (r : BitVec 4) (hl : (s.link k).line = .quiet)
    (hp : (s.link k).pinSet = []) : PinCount (s.frameDone k r) := by
  refine h.same (pinsSame_of_slots (by rw [frameDone_only])) (fun j => ?_) (fun n i g => ?_)
  · by_cases e : j = k
    · subst e; rw [(frameDone_empty s j r hl hp).2.1, hp]
    · rw [(frameDone_link s k j r).1 e]
  · have : (s.frameDone k r).handles = s.handles := by rw [frameDone_only]
    unfold handle; rw [this]

/-- The abort word leaves the line, and the frame ends (R122). -/
theorem clearAbort_pinsHeld {s : State} (h : PinsHeld s) (k : LinkId) (r : BitVec 4) (ha : (s.link k).line = .abort) :
    PinsHeld ((s.clearAbortWord k).frameDone k r) := by
  have hbusy := (h.links.calm k).busy (by rw [ha]; decide)
  have hp := (h.links.calm k).aborted ha
  have hk : ((s.clearAbortWord k).link k).line = .quiet ∧ ((s.clearAbortWord k).link k).pinSet = [] := by
    unfold clearAbortWord; rw [link_setLink_self]; exact ⟨rfl, hp⟩
  have hcount : PinCount (s.clearAbortWord k) := h.pins.setLink k _ rfl
  refine ⟨frameDone_pinCount hcount k r hk.1 hk.2, ?_⟩
  refine frameDone_linksCalm h.links k r (fun j e => ?_) rfl hbusy hk.1 hk.2
  unfold clearAbortWord; rw [link_setLink, if_neg e]; exact ⟨rfl, rfl⟩

theorem giveUp_pinsHeld {s : State} (h : PinsHeld s) (k : LinkId) : PinsHeld (s.giveUp k) := by
  unfold giveUp
  split
  · rename_i hd
    simp only [giveUpDue, Bool.and_eq_true, decide_eq_true_eq] at hd
    exact clearAbort_pinsHeld h k 1 hd.1.1
  · exact h

/-- The abort of a frame in flight (R106). -/
theorem abortFrame_pinsHeld {s : State} (h : PinsHeld s) (k : LinkId) (w : AbortReason) : PinsHeld (s.abortFrame k w) := by
  cases hf : (s.link k).frame with
  | none => unfold abortFrame; simp only [hf]; exact h
  | some f =>
    have hbusy := (h.links.calm k).busy_of_frame hf
    obtain ⟨_, hline, _⟩ := abortFrame_link s k k w f hf
    have hother := fun j e => (abortFrame_link s k j w f hf).1 e
    have hcheck : (s.abortFrame k w).check = s.check := by rw [abortFrame_only]
    unfold abortFrame at hline hother hcheck ⊢
    simp only [hf] at hline hother hcheck ⊢
    generalize hu : s.setLink k _ = u at hline hother hcheck ⊢
    have hpu : ∀ j, (u.link j).pinSet = (s.link j).pinSet := fun j => by
      rw [← hu, link_setLink]; split <;> [(rename_i e; subst e; rfl); rfl]
    have hsu : (u.link k).state = (s.link k).state := by rw [← hu, link_setLink_self]
    have hcount : PinCount (u.releasePins k) :=
      releasePins_pinCount (by rw [← hu]; exact h.pins.setLink k _ rfl) k
    have hpin := releasePins_pinSet u k
    obtain ⟨hstate, _⟩ := Link.bare_fields (releasePins_bare u k k)
    generalize u.releasePins k = v at hline hother hcheck hcount hpin hstate ⊢
    have hcount' : PinCount (v.setLink k { v.link k with aborts := saturate16 (v.link k).aborts }) :=
      hcount.setLink k _ rfl
    refine ⟨hcount'.slots (pinsSame_of_slots rfl) rfl rfl, ?_⟩
    refine h.links.step k (fun j e => ⟨hother j e, ?_⟩) ?_ (fun e => absurd (.inl e) hbusy) hcheck
    · rw [link_offer, link_setLink, if_neg e, hpin, if_neg e, hpu]
    · rw [link_offer, link_setLink_self]
      refine ⟨fun e => absurd ?_ hbusy, fun _ => by rw [hpin, if_pos rfl]⟩
      rwa [← hsu, ← hstate]

theorem stallAbort_pinsHeld {s : State} (h : PinsHeld s) (k : LinkId) : PinsHeld (s.stallAbort k) := by
  unfold stallAbort
  split <;> [exact abortFrame_pinsHeld h k _; exact h]

/-- The trailer is taken: the pins are released and the frame ends (R104). -/
theorem frameEnd_pinsHeld {s : State} (h : PinsHeld s) (k : LinkId) (l : Link) (hd : (s.link k).line ≠ .quiet)
    (hq : l.line = .quiet) (hp : l.pinSet = (s.link k).pinSet) : PinsHeld ((s.setLink k l).frameEnd k) := by
  have hbusy := (h.links.calm k).busy hd
  generalize hu : s.setLink k l = u
  have hpu : PinCount u := by rw [← hu]; exact h.pins.setLink k l hp
  have hk : u.link k = l := by rw [← hu, link_setLink_self]
  have hline : ((u.releasePins k).link k).line = .quiet := by
    obtain ⟨_, e, _⟩ := Link.bare_fields (releasePins_bare u k k)
    rw [e, hk, hq]
  have hempty : ((u.releasePins k).link k).pinSet = [] := by rw [releasePins_pinSet, if_pos rfl]
  refine ⟨frameDone_pinCount (releasePins_pinCount hpu k) k 0 hline hempty, ?_⟩
  refine frameDone_linksCalm h.links k 0 (fun j e => ?_) ?_ hbusy hline hempty
  · rw [releasePins_bare, releasePins_pinSet, if_neg e, ← hu, link_setLink, if_neg e]; exact ⟨rfl, rfl⟩
  · rw [releasePins_only, ← hu]; rfl

theorem itemDone_pinsHeld {s : State} (h : PinsHeld s) (k : LinkId) (it : Item) : PinsHeld (s.itemDone k it) := by
  unfold itemDone
  simp only []
  have hseen : PinsHeld (if it.kind = .data ∨ it.kind = .repeated then
      s.setLink k { s.link k with lastSeen := Table.put (s.link k).lastSeen it.slot it.seq } else s) := by
    split <;> [exact h.setLink_same k _ rfl rfl rfl rfl; exact h]
  generalize (if it.kind = .data ∨ it.kind = .repeated then _ else s) = u at hseen ⊢
  split <;> [exact hseen.frame rfl rfl rfl rfl; exact hseen]

theorem afterTake_pinsHeld {s : State} (h : PinsHeld s) (k : LinkId) (j : Nat) : PinsHeld (s.afterTake k j) := by
  unfold afterTake
  split <;> [exact presentRead_pinsHeld (itemDone_pinsHeld h k _) k; exact presentRead_pinsHeld h k]

theorem wordTaken_pinsHeld {s : State} (h : PinsHeld s) (k : LinkId) : PinsHeld (s.wordTaken k) := by
  unfold wordTaken
  simp only []
  split
  · exact h
  · exact h
  · rename_i ha; exact clearAbort_pinsHeld h k 0 ha
  · rename_i hd
    have hq : (s.link k).line ≠ .quiet := by rw [hd]; decide
    have hbusy := (h.links.calm k).busy hq
    split <;> [skip; exact h]
    split
    · exact frameEnd_pinsHeld h k _ hq rfl rfl
    · refine afterTake_pinsHeld ?_ k _
      refine h.setLink k _ rfl (Link.calm_of_driving hbusy ?_) (fun e => absurd (.inl e) hbusy)
      simp only []
      split <;> decide

end State
end Sys2Proof.Machine

namespace Sys2Proof.Machine

theorem distinctSlots_nodup (l : List (Nat × SchedEntry)) : (distinctSlots l).Nodup := by
  refine foldl_keeps List.Nodup _ l (fun acc c _ h => ?_) [] List.nodup_nil
  split
  · exact h
  · rename_i hc
    refine List.nodup_append.mpr ⟨h, List.nodup_singleton _, fun a ha b hb e => hc ?_⟩
    rw [List.mem_singleton] at hb
    exact hb ▸ e ▸ ha

namespace State

/-! ### Pin requests (R10, R96, R126) -/

/-- A pin request is granted on NEWEST, in ACTIVE and FROZEN alone (R10). -/
theorem pinAnswer_granted {x : Slot} {g : GenId} (h : x.pinAnswer = .granted g) :
    x.newest = some g ∧ (x.state = .active ∨ x.state = .frozen) := by
  unfold Slot.pinAnswer at h
  cases hs : x.state <;> simp only [hs, reduceCtorEq] at h <;> cases hn : x.newest <;>
    simp only [hn, reduceCtorEq, Slot.PinAnswer.granted.injEq] at h <;> simp [h]

/-- A pin added with its new holder. -/
theorem PinCount.addPin {s t : State} (h : PinCount s) {i : SlotId} {g : GenId} (hg : (s.slot i).state ≠ .unused)
    (hs : t.slots = (s.addPin i g).slots) (hn : ∀ k, ((t.link k).pinSet.map PinEntry.slot).Nodup)
    (hold : ∀ j k, t.holders j k = s.holders j k + (decide (j = i ∧ k = g)).toNat) : PinCount t where
  nodup := hn
  count j k := by
    have e : t.slot j = (s.addPin i g).slot j := by unfold slot; rw [hs]
    rw [e, State.addPin, pins_setPins, hold, ← h.count]
    by_cases e : j = i ∧ k = g
    · obtain ⟨rfl, rfl⟩ := e; simp
    · rw [if_neg e, decide_eq_false e]; rfl
  unused j hu k := by
    have e : t.slot j = (s.addPin i g).slot j := by unfold slot; rw [hs]
    rw [e, State.addPin, state_setPins] at hu
    have hj : j ≠ i := fun e => hg (e ▸ hu)
    rw [e, State.addPin, pins_setPins, if_neg (fun e => hj e.1)]
    exact h.unused j hu k

/-- A frame's pin request for a slot its pin set does not name yet (R96). -/
theorem claimPin_pinCount {s : State} (h : PinCount s) (k : LinkId) (i : SlotId)
    (hi : i ∉ (s.link k).pinSet.map PinEntry.slot) : PinCount (s.claimPin k i) ∧
      ∀ j ∈ ((s.claimPin k i).link k).pinSet.map PinEntry.slot, j = i ∨ j ∈ (s.link k).pinSet.map PinEntry.slot := by
  unfold claimPin
  split
  · rename_i g hg
    have hst : (s.slot i).state ≠ .unused := by
      obtain ⟨_, e | e⟩ := pinAnswer_granted hg <;> rw [e] <;> decide
    simp only []
    generalize hp : PinEntry.mk i g _ _ _ _ _ _ = p
    have hps : p.slot = i := by rw [← hp]
    have hpg : p.gen = g := by rw [← hp]
    generalize ht : (s.addPin i g).setLink k _ = t
    have hk : t.link k = { s.link k with pinSet := (s.link k).pinSet ++ [p] } := by rw [← ht, link_setLink_self]
    have ho : ∀ j, j ≠ k → t.link j = s.link j := fun j e => by rw [← ht, link_setLink, if_neg e]; rfl
    refine ⟨h.addPin hst (by rw [← ht]; rfl) (fun j => ?_) (fun j n => ?_), fun j hj => ?_⟩
    · by_cases e : j = k
      · subst e
        rw [hk, List.map_append, List.nodup_append]
        refine ⟨h.nodup j, List.nodup_singleton _, fun a ha b hb e => hi ?_⟩
        simp only [List.map_cons, List.map_nil, List.mem_singleton] at hb
        exact hps ▸ hb ▸ e ▸ ha
      · rw [ho j e]; exact h.nodup j
    · have hold := holders_link (s := s) (t := t) k (fun j e => congrArg Link.pinSet (ho j e)) (by rw [← ht]; rfl) j n
      have hnew : (t.link k).holds j n = ((s.link k).holds j n || decide (i = j ∧ g = n)) := by
        rw [hk]; simp [Link.holds, hps, hpg]
      rw [hnew] at hold
      by_cases e : i = j ∧ g = n
      · obtain ⟨rfl, rfl⟩ := e
        have hfree : (s.link k).holds i g = false := by
          refine List.any_eq_false.mpr fun q hq hd => hi (List.mem_map.mpr ⟨q, hq, ?_⟩)
          exact (of_decide_eq_true hd).1
        rw [hfree] at hold
        simpa using hold
      · rw [decide_eq_false e, Bool.or_false] at hold
        rw [decide_eq_false (fun e' => e ⟨e'.1.symm, e'.2.symm⟩)]
        simp only [Bool.toNat_false]
        omega
    · rw [hk, List.map_append, List.mem_append] at hj
      refine hj.symm.imp_left fun hj => ?_
      simp only [List.map_cons, List.map_nil, List.mem_singleton] at hj
      exact hj.trans hps
  all_goals exact ⟨h, fun j => .inr⟩

theorem claimPins_pinCount (k : LinkId) : ∀ (l : List SlotId), l.Nodup → ∀ s : State, PinCount s →
    (∀ i ∈ l, i ∉ (s.link k).pinSet.map PinEntry.slot) → PinCount (s.claimPins k l)
  | [], _, _, h, _ => h
  | i :: l, hn, s, h, hl => by
    obtain ⟨hi, hn⟩ := List.nodup_cons.mp hn
    obtain ⟨h1, h2⟩ := claimPin_pinCount h k i (hl i List.mem_cons_self)
    refine claimPins_pinCount k l hn (s.claimPin k i) h1 fun j hj hm => ?_
    obtain rfl | hm := h2 j hm
    · exact hi hj
    · exact hl j (List.mem_cons_of_mem _ hj) hm

/-- The claim of a frame changes the pin set of its link alone. -/
theorem claimPins_link (s : State) (k : LinkId) (l : List SlotId) :
    (∀ j, j ≠ k → (s.claimPins k l).link j = s.link j) ∧ ((s.claimPins k l).link k).bare = (s.link k).bare := by
  refine ⟨fun j e => foldl_get (fun t : State => t.link j) _ l (fun t i _ => ?_) s,
    foldl_get (fun t : State => (t.link k).bare) _ l (fun t i _ => ?_) s⟩
  · unfold claimPin
    split <;> [(rw [link_setLink, if_neg e]; rfl); rfl; rfl]
  · unfold claimPin
    split <;> [(rw [link_setLink_self]; rfl); rfl; rfl]

/-- Frame begin in WAIT (R94, R96). -/
theorem frameBegin_pinsHeld {s : State} (h : PinsHeld s) (k : LinkId) (hw : (s.link k).state = .wait) :
    PinsHeld (s.frameBegin k) := by
  obtain ⟨hline, hpin, _⟩ := (h.links.calm k).rest (.inr hw)
  unfold frameBegin
  simp only []
  generalize hd : distinctSlots _ = slots
  have hn : slots.Nodup := hd ▸ distinctSlots_nodup _
  have hcount := claimPins_pinCount k slots hn s h.pins (fun i _ => by rw [hpin]; simp)
  obtain ⟨hother, hbare⟩ := claimPins_link s k slots
  have hcheck : (s.claimPins k slots).check = s.check := by rw [claimPins_only]
  obtain ⟨_, hl, _⟩ := Link.bare_fields hbare
  generalize s.claimPins k slots = t at hcount hother hcheck hl ⊢
  refine placeWord_pinsHeld ⟨?_, ?_⟩ k _ _
  · exact hcount.setLink k _ rfl
  refine h.links.step k (fun j e => ?_) ?_ (fun e => by rw [hw] at e; cases e) hcheck
  · rw [link_setLink, if_neg e, hother j e]; exact ⟨rfl, rfl⟩
  · rw [link_setLink_self]
    refine Link.calm_of_driving (by simp) ?_
    simp only [hl, hline]; decide

theorem periodExpiry_pinsHeld {s : State} (h : PinsHeld s) (k : LinkId) : PinsHeld (s.periodExpiry k) := by
  unfold periodExpiry
  simp only []
  split <;> [skip; exact h]
  have hr : PinsHeld (s.setLink k { s.link k with remain := (s.link k).period }) := h.setLink_same k _ rfl rfl rfl rfl
  split
  · rename_i hw
    exact frameBegin_pinsHeld hr k (by rw [link_setLink_self]; exact hw)
  · generalize s.setLink k { s.link k with remain := (s.link k).period } = t at hr ⊢
    unfold slip
    simp only []
    have hs : PinsHeld (t.setLink k { t.link k with
      frameNo := (t.link k).frameNo + 1, slips := saturate16 (t.link k).slips }) := hr.setLink_same k _ rfl rfl rfl rfl
    exact hs.frame rfl rfl rfl rfl

/-! ### Link commands and checks -/

theorem abortFrame_state (s : State) (k : LinkId) (w : AbortReason) :
    ((s.abortFrame k w).link k).state = (s.link k).state := by
  unfold abortFrame
  simp only []
  split
  · rfl
  · rw [link_offer, link_setLink_self]
    refine (Link.bare_fields (releasePins_bare _ k k)).1.trans ?_
    rw [link_setLink_self]

theorem stopFrame_pinsHeld {s : State} (h : PinsHeld s) (k : LinkId) (b : Bool) (hf : (s.link k).state ≠ .off) :
    PinsHeld (s.stopFrame k b) := by
  have ht : PinsHeld (if b = true ∧ (s.link k).line ≠ .abort then s.abortFrame k .stop else s) ∧
      ((if b = true ∧ (s.link k).line ≠ .abort then s.abortFrame k .stop else s).link k).state ≠ .off := by
    split
    · exact ⟨abortFrame_pinsHeld h k .stop, by rwa [abortFrame_state]⟩
    · exact ⟨h, hf⟩
  unfold stopFrame
  simp only []
  generalize (if b = true ∧ (s.link k).line ≠ .abort then s.abortFrame k .stop else s) = t at ht ⊢
  obtain ⟨ht, hoff⟩ := ht
  exact ht.setLink k _ rfl ⟨fun e => by simp at e, (ht.links.calm k).aborted⟩ (fun e => absurd e hoff)

theorem linkStop_pinsHeld {s : State} (h : PinsHeld s) : PinsHeld s.linkStop := by
  unfold linkStop
  split <;> [exact h.frame rfl rfl rfl rfl; skip]
  rename_i k _
  split <;> [exact h.frame rfl rfl rfl rfl; skip]
  rename_i hst
  split <;> [exact h.frame rfl rfl rfl rfl; skip]
  rename_i b _
  split
  · rename_i hw
    obtain ⟨hline, hpin, _⟩ := (h.links.calm k).rest (.inr hw)
    have ho : PinsHeld (s.setLink k { s.link k with
        state := .off, pendingValid := false, pinSet := [], items := [], buffer := [], frame := none }) :=
      h.setLink k _ hpin.symm (Link.empty.calm ⟨hline, rfl, rfl⟩) (fun _ => rfl)
    exact ho.frame rfl rfl rfl rfl
  · have hs := stopFrame_pinsHeld h k b (fun e => hst (by simp [e]))
    exact hs.frame rfl rfl rfl rfl

theorem linkCancel_pinsHeld {s : State} (h : PinsHeld s) : PinsHeld s.linkCancel := by
  unfold linkCancel
  split <;> [exact h.frame rfl rfl rfl rfl; skip]
  rename_i k _
  split <;> [exact h.frame rfl rfl rfl rfl; skip]
  have hs : PinsHeld (s.setLink k { s.link k with pendingValid := false }) := h.setLink_same k _ rfl rfl rfl rfl
  exact hs.frame rfl rfl rfl rfl

/-- The check changed. -/
theorem PinsHeld.setCheck {s t : State} (h : PinsHeld s) (hs : t.slots = s.slots) (hl : t.links = s.links)
    (hh : t.handles = s.handles) (hc : ∀ c, t.check = some c → c.kind = .start → (s.link c.link).state = .off) :
    PinsHeld t := by
  have e : ∀ k, t.link k = s.link k := fun k => by unfold link; rw [hl]
  exact ⟨h.pins.slots (pinsSame_of_slots hs) hl hh, fun c h1 h2 => by rw [e]; exact hc c h1 h2,
    fun k => by rw [e]; exact h.links.calm k⟩

theorem checkStart_pinsHeld {s : State} (h : PinsHeld s) (k : LinkId) (c : LongCommand) (p : Program)
    (hk : c = .start → (s.link k).state = .off) : PinsHeld (s.checkStart k c p) := by
  unfold checkStart
  split
  · refine h.setCheck rfl rfl rfl fun c' e1 e2 => ?_
    simp only [Option.some.injEq] at e1
    subst e1; exact hk e2
  · exact h.setCheck rfl rfl rfl (fun c' e1 => by cases e1)

theorem linkStart_pinsHeld {s : State} (h : PinsHeld s) : PinsHeld s.linkStart := by
  unfold linkStart
  split <;> [exact h.frame rfl rfl rfl rfl; skip]
  split <;> [exact h.frame rfl rfl rfl rfl; skip]
  rename_i hoff
  split <;> [exact h.frame rfl rfl rfl rfl; skip]
  split <;> [exact h.frame rfl rfl rfl rfl; skip]
  split <;> [exact h.frame rfl rfl rfl rfl; skip]
  exact checkStart_pinsHeld (s := s.startCommand .start) (h.frame rfl rfl rfl rfl) _ _ _ (fun _ => not_not.mp hoff)

theorem linkLoad_pinsHeld {s : State} (h : PinsHeld s) : PinsHeld s.linkLoad := by
  unfold linkLoad
  split <;> [exact h.frame rfl rfl rfl rfl; skip]
  split <;> [exact h.frame rfl rfl rfl rfl; skip]
  split <;> [exact h.frame rfl rfl rfl rfl; skip]
  exact checkStart_pinsHeld (s := s.startCommand .load) (h.frame rfl rfl rfl rfl) _ _ _ (fun e => by cases e)

/-- A check that passes starts a link in OFF, or loads a link (R85, R92). -/
theorem checkPass_pinsHeld {s : State} (h : PinsHeld s) {c : Check} (hc : s.check = some c) : PinsHeld (s.checkPass c) := by
  have hnone : PinsHeld { s with check := none } := h.setCheck rfl rfl rfl (fun _ e => by cases e)
  unfold checkPass
  simp only []
  split
  · rename_i hk
    have hempty := (h.links.calm c.link).rest (.inl (h.links.check c hc hk))
    unfold startLink
    split
    · exact hnone.frame rfl rfl rfl rfl
    · generalize ht : ({ s with check := none } : State).setLink c.link _ = t
      have hp : PinCount t := by rw [← ht]; exact hnone.pins.setLink c.link _ rfl
      have hl : LinksCalm t := by
        refine ⟨fun c' e => ?_, fun j => ?_⟩
        · rw [← ht] at e; cases e
        rw [← ht, link_setLink]
        split
        · exact Link.empty.calm hempty
        · exact hnone.links.calm j
      exact PinsHeld.frame (s := t) ⟨hp, hl⟩ rfl rfl rfl rfl
  · have hl : PinsHeld (({ s with check := none } : State).loadLink c.link c.prog) :=
      hnone.setLink_same c.link _ rfl rfl rfl rfl
    exact hl.frame rfl rfl rfl rfl
  · exact hnone.frame rfl rfl rfl rfl

theorem checkExamine_pinsHeld {s : State} (h : PinsHeld s) : PinsHeld s.checkExamine := by
  have fail : ∀ k w n, PinsHeld (s.checkFail k w n) := fun k w n => h.setCheck rfl rfl rfl (fun _ e => by cases e)
  unfold checkExamine
  split <;> [exact h; skip]
  rename_i c hc
  have next : ∀ c' : Check, c'.link = c.link → c'.kind = c.kind → PinsHeld (s.checkNext c') := fun c' e1 e2 => by
    refine h.setCheck rfl rfl rfl fun d hd hs => ?_
    have hd : { c' with pos := c'.pos + 1 } = d := Option.some.inj hd
    subst hd
    exact e1 ▸ h.links.check c hc (e2 ▸ hs)
  have item : ∀ e, PinsHeld (s.examineItem c e) := fun e => by
    unfold examineItem
    simp only []
    split <;> [exact fail ..; skip]
    split <;> [exact fail ..; skip]
    split <;> [exact fail ..; skip]
    split <;> [exact fail ..; exact next _ rfl rfl]
  simp only []
  split
  · exact fail ..
  · unfold examineEnd
    split <;> [exact fail ..; skip]
    split <;> [exact checkPass_pinsHeld h hc; exact next _ rfl rfl]
  · exact item _
  · exact item _

/-- What a tick leaves of a link (R93, R120). -/
theorem tick_fields (l : Link) (b : Bool) : ((l.tickPeriod.tickStall b).state = l.state) ∧
    ((l.tickPeriod.tickStall b).line = l.line) ∧ ((l.tickPeriod.tickStall b).pinSet = l.pinSet) ∧
    ((l.tickPeriod.tickStall b).frame = l.frame) := by
  have hp : l.tickPeriod.state = l.state ∧ l.tickPeriod.line = l.line ∧ l.tickPeriod.pinSet = l.pinSet ∧
      l.tickPeriod.frame = l.frame := by
    unfold Link.tickPeriod; split <;> simp
  unfold Link.tickStall
  split
  · exact hp
  · split <;> exact hp

theorem advanceTime_pinsHeld {s : State} (h : PinsHeld s) (ready : BitVec 6) : PinsHeld (s.advanceTime ready) := by
  obtain ⟨hlink, he⟩ := advanceTime_spec ready s
  have hcheck : (s.advanceTime ready).check = s.check := by rw [he]
  have hslots : (s.advanceTime ready).slots = s.slots := by rw [he]
  have hhandles : (s.advanceTime ready).handles = s.handles := by rw [he]
  generalize s.advanceTime ready = t at hlink hcheck hslots hhandles
  have hf := fun k => tick_fields (s.link k) (ready.getLsbD k.val)
  refine ⟨h.pins.same (pinsSame_of_slots hslots) (fun k => ?_) (fun n i g => by unfold handle; rw [hhandles]),
    fun c e1 e2 => ?_, fun k => ?_⟩
  · rw [hlink]; exact (hf k).2.2.1
  · rw [hlink, (hf c.link).1]; exact h.links.check c (hcheck ▸ e1) e2
  · rw [hlink]
    obtain ⟨h1, h2, h3, h4⟩ := hf k
    exact (h.links.calm k).congr h1 h2 h3 h4

end State
end Sys2Proof.Machine

namespace Sys2Proof.Machine
namespace State

/-! ### Handles (R126, R128, R129) -/

theorem PinsHeld.setHandle {s : State} (h : PinsHeld s) (n : HandleId) (y : Handle)
    (hy : ∀ i g, y.holds i g = (s.handle n).holds i g) : PinsHeld (s.setHandle n y) :=
  ⟨h.pins.setHandle n y hy, h.links.frame rfl rfl⟩

theorem handlePin_pinsHeld {s : State} (h : PinsHeld s) : PinsHeld s.handlePin := by
  unfold handlePin
  split <;> [exact h.frame rfl rfl rfl rfl; skip]
  rename_i n _
  split <;> [exact h.frame rfl rfl rfl rfl; skip]
  rename_i hfree
  split <;> [exact h.frame rfl rfl rfl rfl; skip]
  rename_i i _
  split
  · rename_i g hg
    have hst : (s.slot i).state ≠ .unused := by
      obtain ⟨_, e | e⟩ := pinAnswer_granted hg <;> rw [e] <;> decide
    unfold pinHandle
    simp only []
    generalize hy : Handle.mk .held i g _ _ _ _ _ _ _ _ _ _ = y
    have hnew : ∀ j k, y.holds j k = decide (j = i ∧ k = g) := fun j k => by
      rw [← hy]
      simp only [Handle.holds, true_and, decide_eq_decide]
      exact ⟨fun e => ⟨e.1.symm, e.2.symm⟩, fun e => ⟨e.1.symm, e.2.symm⟩⟩
    have hold : ∀ j k, (s.handle n).holds j k = false := fun j k => by
      simp only [Handle.holds, not_not.mp hfree, reduceCtorEq, false_and, decide_false]
    generalize ht : (s.addPin i g).setHandle n y = t
    have hcount : PinCount t := by
      refine h.pins.addPin hst (by rw [← ht]; rfl) (fun k => by rw [← ht]; exact h.pins.nodup k) fun j k => ?_
      have hc := holders_handle (s := s) (t := t) n (fun k => by rw [← ht]; rfl)
        (fun m e => by rw [← ht, handle_setHandle, if_neg e]; rfl) j k
      rw [hold j k, show t.handle n = y by rw [← ht, handle_setHandle_self], hnew j k] at hc
      simpa using hc
    have hcalm : LinksCalm t := h.links.frame (by rw [← ht]; rfl) (by rw [← ht]; rfl)
    exact PinsHeld.frame ⟨hcount, hcalm⟩ rfl rfl rfl rfl
  all_goals exact h.frame rfl rfl rfl rfl

/-- A handle that holds a pin lets it go, and PINS falls by one. -/
theorem PinCount.dropHandle {s t : State} (h : PinCount s) {n : HandleId} (hh : (s.handle n).state = .held)
    (hp : ∀ i g, ((t.slot i).gen g).pins =
      ((s.slot i).gen g).pins - (decide ((s.handle n).slot = i ∧ (s.handle n).gen = g)).toNat)
    (hu : ∀ i, (t.slot i).state = .unused → (s.slot i).state = .unused ∨ ∀ g, ((t.slot i).gen g).pins = 0)
    (hl : ∀ k, (t.link k).pinSet = (s.link k).pinSet) (ho : ∀ m, m ≠ n → t.handle m = s.handle m)
    (hn : (t.handle n).state ≠ .held) : PinCount t where
  nodup k := by rw [hl]; exact h.nodup k
  count i g := by
    have hc := holders_handle (s := s) (t := t) n hl ho i g
    rw [show (t.handle n).holds i g = false by simp [Handle.holds, hn],
      show (s.handle n).holds i g = decide ((s.handle n).slot = i ∧ (s.handle n).gen = g) by simp [Handle.holds, hh]] at hc
    rw [hp, h.count]
    simp only [Bool.toNat_false] at hc
    omega
  unused i e g := (hu i e).elim (fun hi => by rw [hp, h.unused i hi, Nat.zero_sub]) (fun h0 => h0 g)

theorem drainCheck_linksCalm {s : State} (h : LinksCalm s) (i : SlotId) : LinksCalm (s.drainCheck i) := by
  refine h.bare (fun j => ⟨?_, drainCheck_pinSet s i j⟩) (by rw [drainCheck_only])
  unfold drainCheck
  split <;> [skip; rfl]
  unfold drainEnd
  simp only [link_offer, link_setSlot]
  rw [forgetSlot_bare, returnChains_only]; rfl

theorem handleRelease_pinsHeld {s : State} (h : PinsHeld s) : PinsHeld s.handleRelease := by
  unfold handleRelease
  split <;> [exact h.frame rfl rfl rfl rfl; skip]
  rename_i n _
  simp only []
  split
  · rename_i hh
    generalize hu : s.setHandle n _ = u
    have hslot : ∀ i, u.slot i = s.slot i := fun i => by rw [← hu]; rfl
    have hlink : ∀ k, u.link k = s.link k := fun k => by rw [← hu]; rfl
    obtain ⟨h1, h2⟩ := release_pins u (s.handle n).slot (s.handle n).gen
    have hhandle : ∀ m, (u.release (s.handle n).slot (s.handle n).gen).handle m = u.handle m := fun m => by
      rw [release_only]; rfl
    have hpin : ∀ k, ((u.release (s.handle n).slot (s.handle n).gen).link k).pinSet = (s.link k).pinSet := fun k =>
      (drainCheck_pinSet (u.setSlot _ _) _ k).trans (by rw [link_setSlot, hlink])
    have hcalm : LinksCalm (u.release (s.handle n).slot (s.handle n).gen) :=
      drainCheck_linksCalm (h.links.frame (by rw [← hu]; rfl) (by rw [← hu]; rfl)) _
    generalize u.release (s.handle n).slot (s.handle n).gen = t at h1 h2 hhandle hpin hcalm ⊢
    have hcount : PinCount t := by
      refine h.pins.dropHandle hh (fun i g => by rw [h1, hslot]) (fun i e => by rw [← hslot]; exact h2 i e) hpin
        (fun m e => ?_) ?_
      · rw [hhandle, ← hu, handle_setHandle, if_neg e]
      · rw [hhandle, ← hu, handle_setHandle_self]; simp
    exact PinsHeld.frame ⟨hcount, hcalm⟩ rfl rfl rfl rfl
  · rename_i hh
    have hs : PinsHeld (s.setHandle n { s.handle n with state := .free }) :=
      h.setHandle n _ fun i g => by simp [Handle.holds, hh]
    exact hs.frame rfl rfl rfl rfl
  · exact h.frame rfl rfl rfl rfl

theorem revokeHandle_pinsHeld {s : State} (h : PinsHeld s) (i : SlotId) (n : HandleId) : PinsHeld (s.revokeHandle i n) := by
  unfold revokeHandle
  simp only []
  split <;> [skip; exact h]
  rename_i hh
  obtain ⟨hh, rfl⟩ := hh
  generalize hu : s.setSlot (s.handle n).slot _ = u
  generalize ht : u.setHandle n _ = t
  have hslots : ∀ j, t.slot j = u.slot j := fun j => by rw [← ht]; rfl
  have hcount : PinCount t := by
    refine h.pins.dropHandle hh (fun j g => ?_) (fun j e => .inl ?_) (fun k => by rw [← ht, ← hu]; rfl) (fun m e => ?_) ?_
    · rw [hslots, ← hu, pins_setPins]
      by_cases e : j = (s.handle n).slot ∧ g = (s.handle n).gen
      · obtain ⟨rfl, rfl⟩ := e; simp
      · rw [if_neg e, decide_eq_false (fun e' => e ⟨e'.1.symm, e'.2.symm⟩)]; rfl
    · rw [hslots, ← hu, state_setPins] at e; exact e
    · rw [← ht, handle_setHandle, if_neg e, ← hu]; rfl
    · rw [← ht, handle_setHandle_self]; simp
  have hcalm : LinksCalm t := h.links.frame (by rw [← ht, ← hu]; rfl) (by rw [← ht, ← hu]; rfl)
  exact PinsHeld.frame ⟨hcount, hcalm⟩ rfl rfl rfl rfl

theorem readHandle_pinsHeld {s : State} (h : PinsHeld s) (n : HandleId) : PinsHeld (s.readHandle n) := by
  unfold readHandle
  simp only []
  split
  · split
    · exact h.setHandle n _ (fun _ _ => rfl)
    · have hs : PinsHeld (s.setHandle n { s.handle n with overread := true, addr := (s.handle n).addr + 1 }) :=
        h.setHandle n _ (fun _ _ => rfl)
      exact hs.frame rfl rfl rfl rfl
  all_goals exact h.frame rfl rfl rfl rfl

/-! ### Slot commands -/

theorem teardownBegun_only (s : State) (i : SlotId) : s.teardownBegun i = { s with
    slots := (s.teardownBegun i).slots, ports := (s.teardownBegun i).ports, feed := (s.teardownBegun i).feed
    events := (s.teardownBegun i).events } := by
  have hw : ∀ t : State, t.dropWriter i = { t with
      ports := (t.dropWriter i).ports, feed := (t.dropWriter i).feed, events := (t.dropWriter i).events } := fun t => by
    unfold dropWriter
    split <;> [rfl; skip]
    split <;> rfl
  have ha : s.abandonFilling i = { s with
      slots := (s.abandonFilling i).slots, ports := (s.abandonFilling i).ports, feed := (s.abandonFilling i).feed
      events := (s.abandonFilling i).events } := by
    unfold abandonFilling
    split <;> [(rw [hw, abandon_only]); rfl]
  unfold teardownBegun
  simp only []
  rw [dropSeal_only, ha]
  rfl

theorem acceptTeardown_pinsHeld {s : State} (h : PinsHeld s) (i : SlotId) (force : Bool)
    (hi : (s.slot i).state ≠ .unused) : PinsHeld (s.acceptTeardown i force) := by
  rw [acceptTeardown_eq]
  have hb : PinsHeld (s.teardownBegun i) := h.kept (teardownBegun_slotsKept s i hi) (by rw [teardownBegun_only])
    (by rw [teardownBegun_only]) (by rw [teardownBegun_only])
  generalize s.teardownBegun i = u at hb ⊢
  have hr : PinsHeld (if force then u.revokeHandles i else u) := by
    split
    · exact foldl_keeps PinsHeld _ allHandles (fun t n _ ht => revokeHandle_pinsHeld ht i n) u hb
    · exact hb
  generalize (if force then u.revokeHandles i else u) = v at hr ⊢
  have hd : PinsHeld (v.drainCheck i) := ⟨hr.pins.same (drainCheck_pinsSame v i) (drainCheck_pinSet v i)
    (fun n j g => by rw [drainCheck_only]; rfl), drainCheck_linksCalm hr.links i⟩
  generalize v.drainCheck i = w at hd ⊢
  have hl : PinsHeld (w.leaveCohort i (s.slot i).cohort) := hd.kept (leaveCohort_slotsKept ..) (by rw [leaveCohort_only])
    (by rw [leaveCohort_only]) (by rw [leaveCohort_only])
  exact hl.frame rfl rfl rfl rfl

theorem slotTeardown_pinsHeld {s : State} (h : PinsHeld s) : PinsHeld s.slotTeardown := by
  unfold slotTeardown
  split <;> [exact h.frame rfl rfl rfl rfl; skip]
  split
  · rename_i hst
    exact acceptTeardown_pinsHeld h _ _ (by obtain e | e := hst <;> rw [e] <;> decide)
  · exact h.frame rfl rfl rfl rfl

/-- An UNUSED slot holds no pin, and a slot just configured neither (R14). -/
theorem slotConfigure_pinsHeld {s : State} (h : PinsHeld s) : PinsHeld s.slotConfigure := by
  unfold slotConfigure
  split <;> [exact h.frame rfl rfl rfl rfl; skip]
  rename_i i _
  split <;> [exact h.frame rfl rfl rfl rfl; skip]
  rename_i hst
  split <;> [exact h.frame rfl rfl rfl rfl; skip]
  rename_i a _
  split <;> [exact h.frame rfl rfl rfl rfl; skip]
  have hs : PinsSame s (s.setSlot i ((s.slot i).configured a)) := by
    refine ⟨fun j g => ?_, fun j e => .inl ?_⟩ <;> rw [slot_setSlot] at *
    · split
      · rename_i e; subst e
        rw [gen_configured, h.pins.unused j (not_not.mp hst)]; rfl
      · rfl
    · split at e
      · cases e
      · exact e
  have h1 : PinsHeld (s.setSlot i ((s.slot i).configured a)) := ⟨h.pins.slots hs rfl rfl, h.links.frame rfl rfl⟩
  unfold acceptConfigure joinCohort
  split <;> exact h1.frame rfl rfl rfl rfl

/-- A page take changes HEAD of one generation, and may make its slot ACTIVE (R15, R29). -/
theorem advanceAlloc_pinsSame (s : State) (a : Alloc) (p : PageId) : PinsSame s (s.advanceAlloc a p) := by
  have head : ∀ f, PinsSame s (s.setSlot a.slot ((s.slot a.slot).setGen a.gen
      { (s.slot a.slot).gen a.gen with head := f })) := fun f => by
    refine ⟨fun j g => ?_, fun j e => .inl ?_⟩ <;> rw [slot_setSlot] at *
    · split
      · rename_i e; subst e
        rw [Slot.gen_setGen]; split <;> [(rename_i e; subst e; rfl); rfl]
      · rfl
    · split at e
      · rename_i e'; subst e'; exact e
      · exact e
  have done : ∀ t : State, PinsSame t (t.configureDone a.slot) := fun t => by
    have e : ∀ j, (t.configureDone a.slot).slot j = if j = a.slot then { t.slot a.slot with state := .active } else t.slot j :=
      fun j => slot_setSlot (t.setPool { t.pool with alloc := none }) a.slot { t.slot a.slot with state := .active } j
    refine ⟨fun j g => ?_, fun j hu => .inl ?_⟩ <;> rw [e] at *
    · split <;> [(rename_i e; subst e; rfl); rfl]
    · split at hu <;> [cases hu; exact hu]
  unfold advanceAlloc
  simp only []
  split
  · split
    · exact (head _).trans (done _)
    · exact done s
  · split
    · exact (head _).trans (pinsSame_of_slots rfl)
    · exact pinsSame_of_slots rfl

theorem pageTake_pinsHeld {s : State} (h : PinsHeld s) : PinsHeld s.pageTake := by
  have hs : PinsSame s s.pageTake := by
    unfold pageTake
    split
    · rename_i a p _ _
      exact PinsSame.trans (t := (s.takeHead p).chainPage a.last p) (pinsSame_of_slots rfl) (advanceAlloc_pinsSame _ a p)
    · exact pinsSame_of_slots rfl
  exact ⟨h.pins.slots hs (by rw [pageTake_only]) (by rw [pageTake_only]),
    h.links.frame (by rw [pageTake_only]) (by rw [pageTake_only])⟩

/-! ### Resets -/

theorem link_reset (k : LinkId) : State.reset.link k = Link.reset := by
  simp [link, State.reset, Vector.get_eq_getElem]

theorem handle_reset (n : HandleId) : State.reset.handle n = Handle.reset := by
  simp [handle, State.reset, Vector.get_eq_getElem]

theorem pinsHeld_reset_blocks {s : State} (hs : s.slots = State.reset.slots) (hl : s.links = State.reset.links)
    (hh : s.handles = State.reset.handles) (hc : s.check = none) : PinsHeld s := by
  have e1 : ∀ i, s.slot i = Slot.reset := fun i => by rw [← slot_reset i]; unfold slot; rw [hs]
  have e2 : ∀ k, s.link k = Link.reset := fun k => by rw [← link_reset k]; unfold link; rw [hl]
  have e3 : ∀ n, s.handle n = Handle.reset := fun n => by rw [← handle_reset n]; unfold handle; rw [hh]
  have hp : ∀ i g, ((s.slot i).gen g).pins = 0 := fun i g => by rw [e1, gen_reset]; rfl
  refine ⟨⟨fun k => by rw [e2]; exact List.nodup_nil, fun i g => ?_, fun i _ => hp i⟩, fun c e => ?_, fun k => ?_⟩
  · have h1 : ∀ k, (s.link k).holds i g = false := fun k => by rw [e2]; rfl
    have h2 : ∀ n, (s.handle n).holds i g = false := fun n => by rw [e3]; rfl
    rw [hp, holders]; simp [h1, h2]
  · rw [hc] at e; cases e
  · rw [e2]; exact Link.empty.calm ⟨rfl, rfl, rfl⟩

theorem writeControl_pinsHeld {s : State} (h : PinsHeld s) (v : Word) : PinsHeld (s.writeControl v) := by
  unfold writeControl
  simp only []
  split
  · unfold startDeviceReset
    split
    · exact pinsHeld_reset_blocks rfl rfl rfl rfl
    all_goals exact h.frame rfl rfl rfl rfl
  · exact h.frame rfl rfl rfl rfl

/-! ### Grants and acts -/

/-- Every grant keeps the pins counted. -/
theorem grantAct_pinsHeld {s t : State} (h : PinsHeld s) (e : GrantAct s t) : PinsHeld t := by
  cases e with
  | idle => exact h
  | portWrite r p q a hq hf ha =>
    exact h.kept (grantAct_slotsKept (.portWrite r p q a hq hf ha)) (by rw [afterRequest_only]; rfl)
      (by rw [afterRequest_only]; rfl) (by rw [afterRequest_only]; rfl)
  | portWithdraw p q hq hf =>
    exact h.kept (grantAct_slotsKept (.portWithdraw p q hq hf)) (by rw [afterRequest_only]; rfl)
      (by rw [afterRequest_only]; rfl) (by rw [afterRequest_only]; rfl)
  | feedWrite r q a hq hf ha => exact h.kept (grantAct_slotsKept (.feedWrite r q a hq hf ha)) rfl rfl rfl
  | feedWithdraw q hq hf => exact h.frame rfl rfl rfl rfl
  | linkRead r k q w hq hw =>
    have h1 : PinsHeld (s.setLink k { s.link k with req := none }) := h.setLink_same k _ rfl rfl rfl rfl
    exact (presentRead_pinsHeld (placeWord_pinsHeld h1 k w false) k).frame rfl rfl rfl rfl
  | handleRead r n q w hq hw =>
    have h1 : PinsHeld (s.setHandle n { s.handle n with req := none, addr := (s.handle n).addr + 1 }) :=
      h.setHandle n _ (fun _ _ => rfl)
    exact h1.frame rfl rfl rfl rfl

/-- Every expiry and every tick likewise. -/
theorem timeAct_pinsHeld {s t : State} (h : PinsHeld s) (e : TimeAct s t) : PinsHeld t := by
  cases e with
  | stallAbort k => exact stallAbort_pinsHeld h k
  | giveUp k => exact giveUp_pinsHeld h k
  | periodExpiry k => exact periodExpiry_pinsHeld h k
  | windowExpiry c =>
    have honly := (windowExpiry_spec s c).1
    exact h.kept (windowExpiry_slotsKept s c) (by rw [honly]) (by rw [honly]) (by rw [honly])
  | feedExpiry =>
    have honly : s.feedExpiry = { s with
        slots := s.feedExpiry.slots, feed := s.feedExpiry.feed, events := s.feedExpiry.events } := by
      unfold feedExpiry
      split <;> [(rw [abandon_only]; rfl); rfl]
    exact h.kept (feedExpiry_slotsKept s) (by rw [honly]) (by rw [honly]) (by rw [honly])
  | advanceTime ready => exact advanceTime_pinsHeld h ready
  | countCycle => exact h.frame rfl rfl rfl rfl

/-- Every act of the part likewise. -/
theorem act_pinsHeld {s t : State} (h : PinsHeld s) (e : Act s t) : PinsHeld t := by
  cases e with
  | plain e => rw [plainAct_only e]; exact h.frame rfl rfl rfl rfl
  | time e => exact timeAct_pinsHeld h e
  | slotConfigure => exact slotConfigure_pinsHeld h
  | slotFreeze =>
    exact h.kept (slotFreeze_slotsKept s) (by rw [slotFreeze_only]) (by rw [slotFreeze_only]) (by rw [slotFreeze_only])
  | slotThaw =>
    exact h.kept (slotThaw_slotsKept s) (by rw [slotThaw_only]) (by rw [slotThaw_only]) (by rw [slotThaw_only])
  | slotTeardown => exact slotTeardown_pinsHeld h
  | cohortSet => rw [cohortSet_only]; exact h.frame rfl rfl rfl rfl
  | linkStart => exact linkStart_pinsHeld h
  | linkLoad => exact linkLoad_pinsHeld h
  | linkCancel => exact linkCancel_pinsHeld h
  | linkStop => exact linkStop_pinsHeld h
  | handlePin => exact handlePin_pinsHeld h
  | handleRelease => exact handleRelease_pinsHeld h
  | feedOpen =>
    exact h.kept (feedOpen_slotsKept s) (by rw [feedOpen_only]) (by rw [feedOpen_only]) (by rw [feedOpen_only])
  | feedClose =>
    exact h.kept (feedClose_slotsKept s) (by rw [feedClose_only]) (by rw [feedClose_only]) (by rw [feedClose_only])
  | feedAbort =>
    exact h.kept (feedAbort_slotsKept s) (by rw [feedAbort_only]) (by rw [feedAbort_only]) (by rw [feedAbort_only])
  | pageTake => exact pageTake_pinsHeld h
  | checkExamine => exact checkExamine_pinsHeld h
  | intake p x => rw [intake_only]; exact h.frame rfl rfl rfl rfl
  | headStart p =>
    exact h.kept (headStart_slotsKept s p) (by rw [headStart_only]) (by rw [headStart_only]) (by rw [headStart_only])
  | headWord p =>
    obtain e | e := headWord_eq s p <;> rw [e]
    · exact h
    · exact h.kept (takeWord_slotsKept s p) (by rw [takeWord_only]) (by rw [takeWord_only]) (by rw [takeWord_only])
  | headDrop p =>
    obtain e | e := headDrop_eq s p <;> rw [e]
    · exact h
    · exact h.kept (leaveEntry_slotsKept s p) (by rw [leaveEntry_only]) (by rw [leaveEntry_only]) (by rw [leaveEntry_only])
  | headEnd p =>
    obtain e | e := headEnd_eq s p <;> rw [e]
    · exact h
    · exact h.kept (takeWord_slotsKept s p) (by rw [takeWord_only]) (by rw [takeWord_only]) (by rw [takeWord_only])
  | headError p =>
    exact h.kept (headError_slotsKept s p) (by rw [headError_only]) (by rw [headError_only]) (by rw [headError_only])
  | enablePort p => rw [enablePort_only]; exact h.frame rfl rfl rfl rfl
  | disablePort p =>
    exact h.kept (disablePort_slotsKept s p) (by rw [disablePort_only]) (by rw [disablePort_only])
      (by rw [disablePort_only])
  | writeEnables v =>
    exact h.kept (writeEnables_slotsKept s v) (by rw [writeEnables_only]) (by rw [writeEnables_only])
      (by rw [writeEnables_only])
  | clearOverflowed p b => exact h.frame rfl rfl rfl rfl
  | placeNext k => exact placeNext_pinsHeld h k
  | wordTaken k => exact wordTaken_pinsHeld h k
  | readHandle n => exact readHandle_pinsHeld h n
  | writeHandleAddr n v => exact h.setHandle n _ (fun _ _ => rfl)
  | clearOverread n b => exact h.setHandle n _ (fun _ _ => rfl)
  | writeFeed v => rw [writeFeed_only]; exact h.frame rfl rfl rfl rfl
  | clearOverlength b => exact h.frame rfl rfl rfl rfl
  | writeControl v => exact writeControl_pinsHeld h v
  | assertReset => exact pinsHeld_reset_blocks rfl rfl rfl rfl
  | releaseReset => unfold releaseReset; split <;> exact h.frame rfl rfl rfl rfl
  | rebuildPage =>
    unfold rebuildPage
    split <;> [skip; exact h; exact h]
    split <;> [skip; exact h]
    simp only []
    split <;> exact h.frame rfl rfl rfl rfl
  | clearSchedule =>
    unfold clearSchedule
    split <;> [skip; exact h; exact h; exact h]
    simp only []
    split <;> exact h.frame rfl rfl rfl rfl

/-- A link and its line that agree are calm (R90, R96, R106). -/
theorem calm_of_linkOk {k : LinkId} {l : Link} (h : linkOk k l) : l.Calm := by
  have inFrame : (∃ f, l.frame = some f ∧ (linkDriving k l f ∨ linkAborted l)) → l.line = .abort → l.pinSet = [] := by
    rintro ⟨_, _, ⟨_, _, _, _, hl, _⟩ | ⟨_, _, hp, _⟩⟩ ha
    · obtain ⟨e, _⟩ | ⟨e, _⟩ := hl <;> rw [e] at ha <;> cases ha
    · exact hp
  have rest : linkAtRest l → l.empty := fun ⟨hl, hp, _, _, hf, _⟩ => ⟨hl, hp, hf⟩
  unfold linkOk at h
  cases hs : l.state <;> simp only [hs] at h
  · exact (rest h).calm
  · exact (rest h).calm
  · exact ⟨fun e => by simp [hs] at e, inFrame h⟩
  · exact ⟨fun e => by simp [hs] at e, inFrame h⟩

end State

/-- Settles O57: the count of the holders is kept by every grant and every act, with the links calm, and a generation has
at most six links and two handles to hold it. -/
theorem pinsCountTheirHolders : Obligations.PinsCountTheirHolders := by
  unfold Obligations.PinsCountTheirHolders
  refine ⟨fun s t hslot _ hlink hpin e => ?_, fun s h i g => ?_⟩
  · obtain ⟨hn, hc⟩ := (State.pinInv_iff s).mp hpin
    obtain ⟨hcheck, hok⟩ := hlink
    have h : State.PinsHeld s :=
      ⟨⟨hn, hc, fun i => (hslot i).2.2.1⟩, hcheck, fun k => State.calm_of_linkOk (hok k)⟩
    have ht := step_keeps_of_acts State.PinsHeld (fun _ _ h => h.frame rfl rfl rfl rfl)
      (fun _ _ => State.grantAct_pinsHeld) (fun _ _ => State.act_pinsHeld) h e
    exact (State.pinInv_iff t).mpr ⟨ht.pins.nodup, ht.pins.count⟩
  · rw [((State.pinInv_iff s).mp h).2]
    exact State.holders_le s i g

end Sys2Proof.Machine

/-! SUPPORT. The chains of the generations through an act (R25, R30, R36, R101): where each page is, what the return of a
chain does to the other chains, and what the acts keep of READY generations and of their chains. -/

namespace Sys2Proof.Machine

/-- The free list and the chains of all generations hold different pages, each list a page once. -/
structure Apart (free : List PageId) (chain : SlotId → GenId → List PageId) : Prop where
  freeOnce : free.Nodup
  chainOnce : ∀ i g, (chain i g).Nodup
  off : ∀ p ∈ free, ∀ i g, p ∉ chain i g
  other : ∀ i g j h p, p ∈ chain i g → p ∈ chain j h → i = j ∧ g = h

/-- A chain joins the free list and its generation has none. -/
theorem Apart.return {free : List PageId} {chain : SlotId → GenId → List PageId} (h : Apart free chain) (i : SlotId)
    (g : GenId) : Apart (free ++ chain i g) fun j k => if j = i ∧ k = g then [] else chain j k where
  freeOnce := List.nodup_append.mpr ⟨h.freeOnce, h.chainOnce i g, fun p hp q hq e => h.off p hp i g (e ▸ hq)⟩
  chainOnce j k := by split <;> [exact List.nodup_nil; exact h.chainOnce j k]
  off p hp j k := by
    split <;> [exact List.not_mem_nil; skip]
    rename_i hn
    obtain hp | hp := List.mem_append.mp hp
    · exact h.off p hp j k
    · exact fun hm => hn (h.other j k i g p hm hp)
  other j k j' k' p hp hp' := by
    split at hp <;> [cases hp; skip]
    split at hp' <;> [cases hp'; exact h.other j k j' k' p hp hp']

/-- The end of a walk does not depend on COUNT. -/
theorem Pool.lastPage_count (q : Pool) (n : Nat) : ∀ (fuel : Nat) (p : PageId),
    Pool.lastPage { q with count := n } p fuel = q.lastPage p fuel
  | 0, _ => rfl
  | fuel + 1, p => by
    have e : Pool.nextOf { q with count := n } p = q.nextOf p := rfl
    unfold Pool.lastPage
    rw [e]
    cases q.nextOf p with
    | none => rfl
    | some r => exact Pool.lastPage_count q n fuel r

/-- The free list after a chain of its own pages has joined it at TAIL, COUNT apart (R30): NEXT of other pages stands. -/
theorem Pool.linked_appendChain {q : Pool} {l c : List PageId} {f : PageId} (n : Nat)
    (hw : Cells.rising none q.next = true) (hl : linkedList q q.head l) (ht : q.tail = l.getLast?)
    (hc : linkedList q (some f) c) (hd : (l ++ c).Nodup) :
    linkedList (q.appendChain f n) (q.appendChain f n).head (l ++ c) ∧
      (q.appendChain f n).tail = (l ++ c).getLast? ∧ ∀ p, p ∉ l → (q.appendChain f n).nextOf p = q.nextOf p := by
  have same : ∀ h : Option PageId, ∀ m, linkedList q h m → linkedList { q with count := l.length } h m := fun _ _ =>
    linkedList_congr (fun _ _ => rfl)
  obtain ⟨h1, h2, _⟩ := Pool.freeList_appendChain (q := { q with count := l.length }) hw ⟨same _ _ hl, ht, rfl⟩
    (same _ _ hc) hd
  obtain ⟨hnext, hhead, htail⟩ : (q.appendChain f n).next = (Pool.appendChain { q with count := l.length } f c.length).next ∧
      (q.appendChain f n).head = (Pool.appendChain { q with count := l.length } f c.length).head ∧
      (q.appendChain f n).tail = (Pool.appendChain { q with count := l.length } f c.length).tail := by
    refine ⟨?_, ?_, congrArg some (Pool.lastPage_count q l.length Config.pages f).symm⟩ <;>
      cases htail : q.tail <;> simp [Pool.appendChain, Pool.setNext, htail]
  refine ⟨?_, htail.trans h2, fun p hp => ?_⟩
  · rw [hhead]
    exact linkedList_congr (fun p _ => by unfold Pool.nextOf; rw [hnext]) h1
  · cases htail : q.tail with
    | none => simp [Pool.appendChain, Pool.nextOf, htail]
    | some t =>
      have hne : p ≠ t := fun e => hp (List.mem_of_getLast? (e ▸ (ht ▸ htail)))
      have hset := (Pool.nextOf_setNext q t p (some f) hw).trans (if_neg hne)
      simpa [Pool.appendChain, Pool.nextOf, htail] using hset

/-- A walk along a chain meets its pages in order (R32). -/
theorem Pool.follow_eq {q : Pool} : ∀ {p : PageId} {l : List PageId}, linkedList q (some p) l → ∀ n, q.follow p n = l[n]?
  | _, [], h, _ => by simp [linkedList] at h
  | p, r :: l, h, 0 => by
    obtain rfl : p = r := Option.some.inj h.1
    rfl
  | p, r :: l, h, n + 1 => by
    obtain rfl : p = r := Option.some.inj h.1
    have hl := h.2
    unfold Pool.follow
    cases hn : q.nextOf p with
    | none =>
      rw [hn] at hl
      cases l with
      | nil => rfl
      | cons x l => simp [linkedList] at hl
    | some x =>
      rw [hn] at hl
      exact Pool.follow_eq hl n

namespace State

/-- The store addresses of a generation by the pages of its chain (R32). -/
theorem wordAddress_eq {s : State} {i : SlotId} {g : GenId} {l : List PageId}
    (h : linkedList s.pool ((s.slot i).gen g).head l) (w : Nat) :
    s.wordAddress i g w = l[w / Config.pageWords]?.map fun p => Config.pageWords * p.val + w % Config.pageWords := by
  unfold wordAddress
  cases hh : ((s.slot i).gen g).head with
  | none =>
    rw [hh] at h
    cases l with
    | nil => rfl
    | cons p l => simp [linkedList] at h
  | some p =>
    rw [hh] at h
    simp only [Pool.follow_eq h]
    cases l[w / Config.pageWords]? <;> rfl

/-- The pages of the pool are where two lists say: the free list from HEAD to TAIL, and the chain of every generation. -/
structure Mapped (s : State) (free : List PageId) (chain : SlotId → GenId → List PageId) : Prop where
  wf : Cells.wf Config.pages rebuiltNext s.pool.next = true
  list : linkedList s.pool s.pool.head free
  tail : s.pool.tail = free.getLast?
  chains : ∀ i g, linkedList s.pool ((s.slot i).gen g).head (chain i g)
  apart : Apart free chain

/-- HEAD of every generation as it was. -/
def HeadsSame (s t : State) : Prop := ∀ i g, ((t.slot i).gen g).head = ((s.slot i).gen g).head

theorem Mapped.same {s t : State} {free : List PageId} {chain : SlotId → GenId → List PageId} (h : Mapped s free chain)
    (hp : t.pool = s.pool) (hh : HeadsSame s t) : Mapped t free chain :=
  ⟨by rw [hp]; exact h.wf, by rw [hp]; exact h.list, by rw [hp]; exact h.tail, fun i g => by rw [hp, hh i g]; exact h.chains i g, h.apart⟩

/-- The return of one chain (R30): the chains of the other generations stand. -/
theorem Mapped.returnChain {s : State} {free : List PageId} {chain : SlotId → GenId → List PageId} (h : Mapped s free chain)
    (i : SlotId) (g : GenId) : Mapped (s.returnChain i g) (free ++ chain i g) fun j k => if j = i ∧ k = g then [] else chain j k := by
  have hc := h.chains i g
  unfold State.returnChain
  simp only []
  split
  · rename_i hh
    rw [hh] at hc
    have hnil : chain i g = [] := by
      cases hl : chain i g with
      | nil => rfl
      | cons p l => rw [hl] at hc; simp [linkedList] at hc
    have heq : (fun j k => if j = i ∧ k = g then [] else chain j k) = chain := by
      funext j k; split <;> [(rename_i e; rw [e.1, e.2, hnil]); rfl]
    rw [heq, hnil, List.append_nil]
    exact h
  · rename_i f hh
    rw [hh] at hc
    have ha := h.apart.return i g
    have hr := Cells.rising_of_wf h.wf
    obtain ⟨h1, h2, h3⟩ := Pool.linked_appendChain (s.slot i).ppg hr h.list h.tail hc ha.freeOnce
    have hwf := Pool.wf_appendChain s.pool f (s.slot i).ppg h.wf
    refine ⟨hwf, h1, h2, fun j k => ?_, ha⟩
    have hstay : ¬ (j = i ∧ k = g) → linkedList (s.pool.appendChain f (s.slot i).ppg) ((s.slot j).gen k).head (chain j k) :=
      fun _ => linkedList_congr (fun p hp => h3 p fun hf => h.apart.off p hf j k hp) (h.chains j k)
    show linkedList (s.pool.appendChain f (s.slot i).ppg) _ _
    rw [slot_setSlot]
    by_cases e : j = i
    · subst e
      rw [if_pos rfl, Slot.gen_setGen]
      by_cases e' : k = g
      · subst e'; rw [if_pos rfl, if_pos ⟨rfl, rfl⟩]; rfl
      · rw [if_neg e', if_neg fun h => e' h.2]; exact hstay fun h => e' h.2
    · rw [if_neg e, if_neg fun h => e h.1]; exact hstay fun h => e h.1

/-- The end of a drain: the chains of the other slots stand (R20, R30). -/
theorem Mapped.drainEnd {s : State} {free : List PageId} {chain : SlotId → GenId → List PageId} (h : Mapped s free chain)
    (i : SlotId) : ∃ free' chain', Mapped (s.drainEnd i) free' chain' ∧ ∀ j, j ≠ i → ∀ g, chain' j g = chain j g := by
  have returned : ∀ (l : List GenId) (t : State) (fr : List PageId) (ch : SlotId → GenId → List PageId), Mapped t fr ch →
      ∃ free' chain', Mapped (l.foldl (fun t g => if g.val < (s.slot i).depth then t.returnChain i g else t) t) free' chain' ∧
        ∀ j, j ≠ i → ∀ g, chain' j g = ch j g := by
    intro l
    induction l with
    | nil => exact fun t fr ch ht => ⟨fr, ch, ht, fun _ _ _ => rfl⟩
    | cons g l ih =>
      intro t fr ch ht
      rw [List.foldl_cons]
      split
      · obtain ⟨fr', ch', h', hs⟩ := ih _ _ _ (ht.returnChain i g)
        exact ⟨fr', ch', h', fun j hj k => (hs j hj k).trans (if_neg fun e => hj e.1)⟩
      · exact ih t fr ch ht
  obtain ⟨fr, ch, hm, hs⟩ := returned allGens s free chain h
  refine ⟨fr, ch, ?_, hs⟩
  change Mapped (s.returnChains i) fr ch at hm
  have hslots := forgetSlot_slots (s.returnChains i) i
  have hpool : ((s.returnChains i).forgetSlot i).pool = (s.returnChains i).pool := by rw [forgetSlot_only]
  unfold State.drainEnd
  simp only []
  generalize (s.returnChains i).forgetSlot i = u at hslots hpool ⊢
  have hu : ∀ j, u.slot j = (s.returnChains i).slot j := fun j => by unfold slot; rw [hslots]
  refine hm.same (t := (u.setSlot i _).offer _ _ _ _) hpool fun j k => ?_
  rw [slot_offer, slot_setSlot]
  split
  · rename_i e; subst e
    show ((u.slot j).gen k).head = _
    rw [hu]
  · rw [hu]

/-- A chain that a generation of slot i is known to have: it has it as long as the slot is not UNUSED. -/
def Traced (i : SlotId) (g : GenId) (c : List PageId) (s : State) : Prop :=
  ∃ free chain, Mapped s free chain ∧ ((s.slot i).state ≠ .unused → chain i g = c)

/-- What an act keeps: the record of every READY generation whose PINS the condition admits, and the chains it does not
return. -/
structure Keeps (c : Nat → Prop) (s t : State) : Prop where
  record : ∀ i g, c ((s.slot i).gen g).pins → ((s.slot i).gen g).state = .ready → SameRecord ((s.slot i).gen g) ((t.slot i).gen g)
  traced : ∀ i g l, Traced i g l s → Traced i g l t

/-- An act that keeps every READY generation's record. -/
abbrev KeepsAll (s t : State) : Prop := Keeps (fun _ => True) s t

theorem KeepsAll.trans {s t u : State} (h : KeepsAll s t) (h' : KeepsAll t u) : KeepsAll s u where
  record i g _ hr :=
    have h1 := h.record i g trivial hr
    h1.trans (h'.record i g trivial h1.ready)
  traced i g l := h'.traced i g l ∘ h.traced i g l

theorem KeepsAll.pinned {s t : State} (h : KeepsAll s t) : Keeps Pinned s t :=
  ⟨fun i g _ => h.record i g trivial, h.traced⟩

theorem Traced.same {i : SlotId} {g : GenId} {c : List PageId} {s t : State} (h : Traced i g c s) (hp : t.pool = s.pool)
    (hh : HeadsSame s t) (hu : (t.slot i).state ≠ .unused → (s.slot i).state ≠ .unused) : Traced i g c t := by
  obtain ⟨free, chain, hm, hc⟩ := h
  exact ⟨free, chain, hm.same hp hh, fun e => hc (hu e)⟩

/-- Acts that keep the slots and the pool. -/
theorem SlotsKept.keeps {c : Nat → Prop} {s t : State} (h : SlotsKept c s t) (hp : t.pool = s.pool) : Keeps c s t :=
  ⟨fun i g => (h.gen i g).record, fun i _ _ ht => ht.same hp (fun j k => (h.gen j k).head) ((h.unused i).not.mp)⟩

theorem keeps_of_slots {c : Nat → Prop} {s t : State} (h : t.slots = s.slots) (hp : t.pool = s.pool) : Keeps c s t :=
  (slotsKept_of_slots h).keeps hp

theorem KeepsAll.slots {s t u : State} (h : KeepsAll s t) (hs : u.slots = t.slots) (hp : u.pool = t.pool) : KeepsAll s u :=
  h.trans (keeps_of_slots hs hp)

theorem keepsAll_foldl {α : Type} {f : State → α → State} (hf : ∀ t x, KeepsAll t (f t x)) (l : List α) (s : State) :
    KeepsAll s (l.foldl f s) :=
  foldl_rel KeepsAll f (fun _ => keeps_of_slots rfl rfl) (fun _ _ _ => .trans) hf l s

/-! ### Pins and drains -/

/-- PINS are no part of a record. -/
theorem setPins_keeps (s : State) (i : SlotId) (g : GenId) (n : Nat) :
    KeepsAll s (s.setSlot i ((s.slot i).setPins g n)) := by
  have hgen : ∀ j k, ((s.setSlot i ((s.slot i).setPins g n)).slot j).gen k =
      { (s.slot j).gen k with pins := if j = i ∧ k = g then n else ((s.slot j).gen k).pins } := fun j k => by
    rw [slot_setSlot]
    by_cases e : j = i
    · subst e
      rw [if_pos rfl, Slot.setPins, Slot.gen_setGen]
      by_cases e' : k = g
      · subst e'; simp
      · simp [e']
    · simp [e]
  refine ⟨fun j k _ hr => ?_, fun j _ _ ht => ht.same rfl (fun j k => by rw [hgen]) (by rw [state_setPins]; exact id)⟩
  rw [hgen]
  exact ⟨rfl, rfl, rfl, rfl, rfl, rfl, rfl, hr⟩

/-- The end of a drain keeps the records, and the chains of the other slots (R20). -/
theorem drainEnd_keeps (s : State) (i : SlotId) : KeepsAll s (s.drainEnd i) := by
  have record : ∀ j k, ((s.slot j).gen k).state = .ready → SameRecord ((s.slot j).gen k) (((s.returnChains i).slot j).gen k) := by
    intro j k hr
    refine foldl_keeps (fun t : State => SameRecord ((s.slot j).gen k) ((t.slot j).gen k)) _ allGens (fun t g _ ht => ?_) s
      (.self hr)
    split <;> [skip; exact ht]
    unfold State.returnChain
    simp only []
    split <;> [exact ht; skip]
    rw [slot_setSlot]
    split <;> [(rename_i e; subst e); exact ht]
    rw [Slot.gen_setGen]
    split <;> [(rename_i e; subst e; exact ht.trans ⟨rfl, rfl, rfl, rfl, rfl, rfl, rfl, ht.ready⟩); exact ht]
  refine ⟨fun j k _ hr => ?_, fun j k c ⟨free, chain, hm, hc⟩ => ?_⟩
  · have h := record j k hr
    have hslots := forgetSlot_slots (s.returnChains i) i
    unfold State.drainEnd
    simp only []
    generalize (s.returnChains i).forgetSlot i = u at hslots ⊢
    have hu : ∀ j, u.slot j = (s.returnChains i).slot j := fun j => by unfold slot; rw [hslots]
    rw [slot_offer, slot_setSlot]
    split
    · rename_i e; subst e
      show SameRecord _ ((u.slot j).gen k)
      rw [hu]; exact h
    · rw [hu]; exact h
  · obtain ⟨fr, ch, hm', hs⟩ := hm.drainEnd i
    refine ⟨fr, ch, hm', fun hu => ?_⟩
    by_cases e : j = i
    · subst e
      exact absurd (by simp [State.drainEnd]) hu
    · rw [drainEnd_other s i j e] at hu
      rw [hs j e k]; exact hc hu

theorem drainCheck_keeps (s : State) (i : SlotId) : KeepsAll s (s.drainCheck i) := by
  unfold drainCheck
  split <;> [exact drainEnd_keeps s i; exact keeps_of_slots rfl rfl]

theorem release_keeps (s : State) (i : SlotId) (g : GenId) : KeepsAll s (s.release i g) :=
  (setPins_keeps s i g _).trans (drainCheck_keeps _ i)

theorem releasePins_keeps (s : State) (k : LinkId) : KeepsAll s (s.releasePins k) :=
  KeepsAll.slots (t := (s.link k).pinSet.foldl (fun t p => t.release p.slot p.gen) s)
    (keepsAll_foldl (fun _ _ => release_keeps ..) _ s) rfl rfl

end State
end Sys2Proof.Machine

namespace Sys2Proof.Machine
namespace State

/-! ### What each act keeps of records and chains -/

theorem abortFrame_keeps (s : State) (k : LinkId) (w : AbortReason) : KeepsAll s (s.abortFrame k w) := by
  unfold abortFrame
  simp only []
  split
  · exact keeps_of_slots rfl rfl
  · generalize hu : s.setLink k _ = u
    have hsu : KeepsAll s u := keeps_of_slots (by rw [← hu]; rfl) (by rw [← hu]; rfl)
    exact (hsu.trans (releasePins_keeps u k)).slots rfl rfl

theorem stallAbort_keeps (s : State) (k : LinkId) : KeepsAll s (s.stallAbort k) := by
  unfold stallAbort
  split <;> [exact abortFrame_keeps ..; exact keeps_of_slots rfl rfl]

theorem frameDone_keeps (s : State) (k : LinkId) (r : BitVec 4) : KeepsAll s (s.frameDone k r) :=
  keeps_of_slots (by rw [frameDone_only]) (by rw [frameDone_only])

theorem claimPins_keeps (s : State) (k : LinkId) (l : List SlotId) : KeepsAll s (s.claimPins k l) := by
  refine keepsAll_foldl (fun t i => ?_) l s
  unfold claimPin
  split
  · exact (setPins_keeps t i _ _).slots rfl rfl
  all_goals exact keeps_of_slots rfl rfl

theorem frameBegin_keeps (s : State) (k : LinkId) : KeepsAll s (s.frameBegin k) := by
  unfold frameBegin
  exact (claimPins_keeps s k _).slots (by rw [placeWord_only]; rfl) (by rw [placeWord_only]; rfl)

theorem periodExpiry_keeps (s : State) (k : LinkId) : KeepsAll s (s.periodExpiry k) := by
  unfold periodExpiry
  simp only []
  split <;> [skip; exact keeps_of_slots rfl rfl]
  split
  · exact KeepsAll.trans (t := s.setLink k _) (keeps_of_slots rfl rfl) (frameBegin_keeps _ k)
  · exact keeps_of_slots rfl rfl

theorem wordTaken_keeps (s : State) (k : LinkId) : KeepsAll s (s.wordTaken k) := by
  unfold wordTaken
  simp only []
  split
  · exact keeps_of_slots rfl rfl
  · exact keeps_of_slots rfl rfl
  · exact KeepsAll.trans (t := s.clearAbortWord k) (keeps_of_slots rfl rfl) (frameDone_keeps _ k 0)
  · split <;> [skip; exact keeps_of_slots rfl rfl]
    split
    · generalize hu : s.setLink k _ = u
      have hsu : KeepsAll s u := keeps_of_slots (by rw [← hu]; rfl) (by rw [← hu]; rfl)
      exact hsu.trans ((releasePins_keeps u k).trans (frameDone_keeps _ k 0))
    · unfold afterTake
      split
      · exact keeps_of_slots (by rw [presentRead_only, itemDone_only]; rfl) (by rw [presentRead_only, itemDone_only]; rfl)
      · exact keeps_of_slots (by rw [presentRead_only]; rfl) (by rw [presentRead_only]; rfl)

theorem linkStop_keeps (s : State) : KeepsAll s s.linkStop := by
  unfold linkStop
  split <;> [exact keeps_of_slots rfl rfl; skip]
  rename_i k _
  split <;> [exact keeps_of_slots rfl rfl; skip]
  split <;> [exact keeps_of_slots rfl rfl; skip]
  rename_i b _
  split <;> [exact keeps_of_slots rfl rfl; skip]
  have h : KeepsAll s (s.stopFrame k b) := by
    unfold stopFrame
    simp only []
    split
    · exact (abortFrame_keeps s k .stop).slots rfl rfl
    · exact keeps_of_slots rfl rfl
  exact h.slots rfl rfl

theorem handlePin_keeps (s : State) : KeepsAll s s.handlePin := by
  unfold handlePin
  split <;> [exact keeps_of_slots rfl rfl; skip]
  split <;> [exact keeps_of_slots rfl rfl; skip]
  split <;> [exact keeps_of_slots rfl rfl; skip]
  rename_i i _
  split
  · rename_i g _
    exact (setPins_keeps s i g (((s.slot i).gen g).pins + 1)).slots rfl rfl
  all_goals exact keeps_of_slots rfl rfl

theorem handleRelease_keeps (s : State) : KeepsAll s s.handleRelease := by
  unfold handleRelease
  split <;> [exact keeps_of_slots rfl rfl; skip]
  rename_i n _
  simp only []
  split
  · generalize hu : s.setHandle n _ = u
    have hsu : KeepsAll s u := keeps_of_slots (by rw [← hu]; rfl) (by rw [← hu]; rfl)
    exact (hsu.trans (release_keeps u _ _)).slots rfl rfl
  all_goals exact keeps_of_slots rfl rfl

theorem revokeHandles_keeps (s : State) (i : SlotId) : KeepsAll s (s.revokeHandles i) := by
  refine keepsAll_foldl (fun t n => ?_) allHandles s
  unfold revokeHandle
  simp only []
  split
  · exact (setPins_keeps t i _ _).slots rfl rfl
  · exact keeps_of_slots rfl rfl

theorem acceptTeardown_keeps (s : State) (i : SlotId) (force : Bool) (h : (s.slot i).state ≠ .unused) :
    KeepsAll s (s.acceptTeardown i force) := by
  rw [acceptTeardown_eq]
  have hb : KeepsAll s (s.teardownBegun i) := (teardownBegun_slotsKept s i h).keeps (by rw [teardownBegun_only])
  generalize s.teardownBegun i = u at hb ⊢
  have hr : KeepsAll u (if force then u.revokeHandles i else u) := by
    split <;> [exact revokeHandles_keeps u i; exact keeps_of_slots rfl rfl]
  generalize (if force then u.revokeHandles i else u) = v at hr ⊢
  have hd := drainCheck_keeps v i
  generalize v.drainCheck i = w at hd ⊢
  have hl : KeepsAll w (w.leaveCohort i (s.slot i).cohort) := (leaveCohort_slotsKept ..).keeps (by rw [leaveCohort_only])
  exact (hb.trans (hr.trans (hd.trans hl))).slots rfl rfl

theorem slotTeardown_keeps (s : State) : KeepsAll s s.slotTeardown := by
  unfold slotTeardown
  split <;> [exact keeps_of_slots rfl rfl; skip]
  split
  · rename_i hst
    exact acceptTeardown_keeps s _ _ (by obtain e | e := hst <;> rw [e] <;> decide)
  · exact keeps_of_slots rfl rfl

theorem feedExpiry_only (s : State) : s.feedExpiry = { s with
    slots := s.feedExpiry.slots, feed := s.feedExpiry.feed, events := s.feedExpiry.events } := by
  unfold feedExpiry
  split <;> [(rw [abandon_only]; rfl); rfl]

theorem timeAct_keeps {s t : State} (e : TimeAct s t) : KeepsAll s t := by
  cases e with
  | stallAbort k => exact stallAbort_keeps s k
  | giveUp k => exact keeps_of_slots (by rw [giveUp_only]) (by rw [giveUp_only])
  | periodExpiry k => exact periodExpiry_keeps s k
  | windowExpiry c => exact (windowExpiry_slotsKept s c).keeps (by rw [(windowExpiry_spec s c).1])
  | feedExpiry => exact (feedExpiry_slotsKept s).keeps (by rw [feedExpiry_only])
  | advanceTime ready =>
    obtain ⟨_, e⟩ := advanceTime_spec ready s
    exact keeps_of_slots (by rw [e]) (by rw [e])
  | countCycle => exact keeps_of_slots rfl rfl

/-- Every act keeps the pinned generations, but for SLOT_CONFIGURE, PAGE_TAKE, the rebuild, and what begins a reset. -/
theorem act_keeps {s t : State} (e : Act s t) :
    Keeps Pinned s t ∨ t = s.slotConfigure ∨ t = s.pageTake ∨ t = s.rebuildPage ∨ t.resetPhase ≠ .none := by
  cases e with
  | slotConfigure => exact .inr (.inl rfl)
  | pageTake => exact .inr (.inr (.inl rfl))
  | rebuildPage => exact .inr (.inr (.inr (.inl rfl)))
  | assertReset => exact .inr (.inr (.inr (.inr nofun)))
  | writeControl v =>
    unfold writeControl
    simp only []
    split
    · unfold startDeviceReset
      split
      · exact .inr (.inr (.inr (.inr nofun)))
      all_goals exact .inl (keeps_of_slots rfl rfl)
    · exact .inl (keeps_of_slots rfl rfl)
  | plain e => rw [plainAct_only e]; exact .inl (keeps_of_slots rfl rfl)
  | time e => exact .inl (timeAct_keeps e).pinned
  | slotFreeze => exact .inl ((slotFreeze_slotsKept s).keeps (by rw [slotFreeze_only]))
  | slotThaw => exact .inl ((slotThaw_slotsKept s).keeps (by rw [slotThaw_only]))
  | slotTeardown => exact .inl (slotTeardown_keeps s).pinned
  | cohortSet => rw [cohortSet_only]; exact .inl (keeps_of_slots rfl rfl)
  | linkStart => rw [linkStart_only]; exact .inl (keeps_of_slots rfl rfl)
  | linkLoad => rw [linkLoad_only]; exact .inl (keeps_of_slots rfl rfl)
  | linkCancel => rw [linkCancel_only]; exact .inl (keeps_of_slots rfl rfl)
  | linkStop => exact .inl (linkStop_keeps s).pinned
  | handlePin => exact .inl (handlePin_keeps s).pinned
  | handleRelease => exact .inl (handleRelease_keeps s).pinned
  | feedOpen => exact .inl ((feedOpen_slotsKept s).keeps (by rw [feedOpen_only]))
  | feedClose => exact .inl ((feedClose_slotsKept s).keeps (by rw [feedClose_only]))
  | feedAbort => exact .inl ((feedAbort_slotsKept s).keeps (by rw [feedAbort_only]))
  | checkExamine => rw [checkExamine_only]; exact .inl (keeps_of_slots rfl rfl)
  | intake p x => rw [intake_only]; exact .inl (keeps_of_slots rfl rfl)
  | headStart p => exact .inl ((headStart_slotsKept s p).keeps (by rw [headStart_only]))
  | headWord p =>
    obtain e | e := headWord_eq s p <;> rw [e]
    · exact .inl (keeps_of_slots rfl rfl)
    · exact .inl ((takeWord_slotsKept s p).keeps (by rw [takeWord_only]))
  | headDrop p =>
    obtain e | e := headDrop_eq s p <;> rw [e]
    · exact .inl (keeps_of_slots rfl rfl)
    · exact .inl ((leaveEntry_slotsKept s p).keeps (by rw [leaveEntry_only]))
  | headEnd p =>
    obtain e | e := headEnd_eq s p <;> rw [e]
    · exact .inl (keeps_of_slots rfl rfl)
    · exact .inl ((takeWord_slotsKept s p).keeps (by rw [takeWord_only]))
  | headError p => exact .inl ((headError_slotsKept s p).keeps (by rw [headError_only]))
  | enablePort p => rw [enablePort_only]; exact .inl (keeps_of_slots rfl rfl)
  | disablePort p => exact .inl ((disablePort_slotsKept s p).keeps (by rw [disablePort_only]))
  | writeEnables v => exact .inl ((writeEnables_slotsKept s v).keeps (by rw [writeEnables_only]))
  | clearOverflowed p b => exact .inl (keeps_of_slots rfl rfl)
  | placeNext k => rw [placeNext_only]; exact .inl (keeps_of_slots rfl rfl)
  | wordTaken k => exact .inl (wordTaken_keeps s k).pinned
  | readHandle n => rw [readHandle_only]; exact .inl (keeps_of_slots rfl rfl)
  | writeHandleAddr n v => exact .inl (keeps_of_slots rfl rfl)
  | clearOverread n b => exact .inl (keeps_of_slots rfl rfl)
  | writeFeed v => rw [writeFeed_only]; exact .inl (keeps_of_slots rfl rfl)
  | clearOverlength b => exact .inl (keeps_of_slots rfl rfl)
  | releaseReset => unfold releaseReset; split <;> exact .inl (keeps_of_slots rfl rfl)
  | clearSchedule =>
    unfold clearSchedule
    split <;> [skip; exact .inl (keeps_of_slots rfl rfl); exact .inl (keeps_of_slots rfl rfl);
      exact .inl (keeps_of_slots rfl rfl)]
    simp only []
    split <;> exact .inl (keeps_of_slots rfl rfl)

/-! ### The store -/

/-- No expiry and no tick writes the store. -/
theorem timeAct_store {s t : State} (e : TimeAct s t) : t.store = s.store := by
  cases e with
  | stallAbort k => rw [stallAbort_only]
  | giveUp k => rw [giveUp_only]
  | periodExpiry k => rw [periodExpiry_only]
  | windowExpiry c => rw [(windowExpiry_spec s c).1]
  | feedExpiry => rw [feedExpiry_only]
  | advanceTime ready => rw [(advanceTime_spec ready s).2]
  | countCycle => rfl

theorem slotTeardown_store (s : State) : s.slotTeardown.store = s.store := by
  unfold slotTeardown
  split <;> [rfl; skip]
  split <;> [skip; rfl]
  rename_i i _ _
  rw [acceptTeardown_eq]
  show State.store (State.leaveCohort _ _ _) = _
  rw [leaveCohort_only, drainCheck_only]
  split
  · rw [revokeHandles_only, teardownBegun_only]
  · rw [teardownBegun_only]

/-- Only grants write the store (R33). -/
theorem act_store {s t : State} (e : Act s t) : t.store = s.store := by
  cases e with
  | plain e => rw [plainAct_only e]
  | time e => exact timeAct_store e
  | slotConfigure => rw [slotConfigure_only]
  | slotFreeze => rw [slotFreeze_only]
  | slotThaw => rw [slotThaw_only]
  | slotTeardown => exact slotTeardown_store s
  | cohortSet => rw [cohortSet_only]
  | linkStart => rw [linkStart_only]
  | linkLoad => rw [linkLoad_only]
  | linkCancel => rw [linkCancel_only]
  | linkStop => rw [linkStop_only]
  | handlePin => rw [handlePin_only]
  | handleRelease => rw [handleRelease_only]
  | feedOpen => rw [feedOpen_only]
  | feedClose => rw [feedClose_only]
  | feedAbort => rw [feedAbort_only]
  | pageTake => rw [pageTake_only]
  | checkExamine => rw [checkExamine_only]
  | intake p x => rw [intake_only]
  | headStart p => rw [headStart_only]
  | headWord p => obtain e | e := headWord_eq s p <;> [rw [e]; rw [e, takeWord_only]]
  | headDrop p => obtain e | e := headDrop_eq s p <;> [rw [e]; rw [e, leaveEntry_only]]
  | headEnd p => obtain e | e := headEnd_eq s p <;> [rw [e]; rw [e, takeWord_only]]
  | headError p => rw [headError_only]
  | enablePort p => rw [enablePort_only]
  | disablePort p => rw [disablePort_only]
  | writeEnables v => rw [writeEnables_only]
  | placeNext k => rw [placeNext_only]
  | wordTaken k => rw [wordTaken_only]
  | readHandle n => rw [readHandle_only]
  | writeFeed v => rw [writeFeed_only]
  | writeControl v =>
    unfold writeControl
    simp only []
    split <;> [skip; rfl]
    unfold startDeviceReset
    split <;> rfl
  | releaseReset => unfold releaseReset; split <;> rfl
  | rebuildPage =>
    unfold rebuildPage
    split <;> [skip; rfl; rfl]
    split <;> [skip; rfl]
    simp only []
    split <;> rfl
  | clearSchedule =>
    unfold clearSchedule
    split <;> [skip; rfl; rfl; rfl]
    simp only []
    split <;> rfl
  | clearOverflowed | writeHandleAddr | clearOverread | clearOverlength | assertReset => rfl

theorem readStore_congr {s t : State} (h : t.store = s.store) (a : Nat) : t.readStore a = s.readStore a := by
  unfold readStore; rw [h]

/-! ### Grants -/

/-- A grant leaves the pool and the reset phase, and writes the store at a word of a FILLING generation at most (R35). -/
theorem grantAct_pool {s t : State} (e : GrantAct s t) : t.pool = s.pool ∧ t.resetPhase = s.resetPhase ∧
    (t.store = s.store ∨ ∃ i g w a v, ((s.slot i).gen g).state = .filling ∧ s.wordAddress i g w = some a ∧
      t.store = (s.storeWord a v).store) := by
  have filling : ∀ q : WriteReq, s.sameFill q = true → ((s.slot q.slot).gen q.gen).state = .filling := fun q h => by
    simp only [sameFill, Bool.and_eq_true, decide_eq_true_eq] at h
    exact h.1
  cases e with
  | idle => exact ⟨rfl, rfl, .inl rfl⟩
  | portWrite r p q a hq hf ha =>
    rw [afterRequest_only]
    exact ⟨rfl, rfl, .inr ⟨_, _, _, a, q.word, filling q hf, ha, rfl⟩⟩
  | portWithdraw p q hq hf => rw [afterRequest_only]; exact ⟨rfl, rfl, .inl rfl⟩
  | feedWrite r q a hq hf ha => exact ⟨rfl, rfl, .inr ⟨_, _, _, a, q.word, filling q hf, ha, rfl⟩⟩
  | feedWithdraw q hq hf => exact ⟨rfl, rfl, .inl rfl⟩
  | linkRead r k q w hq hw => rw [presentRead_only, placeWord_only]; exact ⟨rfl, rfl, .inl rfl⟩
  | handleRead r n q w hq hw => exact ⟨rfl, rfl, .inl rfl⟩

/-- What a run of grants leaves: pool, reset phase and every generation's PINS, HEAD and READY record. -/
theorem grantRun_kept {s t : State} (e : GrantRun s t) :
    (∀ c, SlotsKept c s t) ∧ t.pool = s.pool ∧ t.resetPhase = s.resetPhase := by
  induction e with
  | refl => exact ⟨fun _ => slotsKept_self s, rfl, rfl⟩
  | tail _ e ih =>
    obtain ⟨h1, h2, h3⟩ := ih
    obtain ⟨k2, k3, _⟩ := grantAct_pool e
    exact ⟨fun c => (h1 c).trans (grantAct_slotsKept e), k2.trans h2, k3.trans h3⟩

/-- Two words of different generations stand at different store addresses (R25, R32). -/
theorem Mapped.wordAddress_ne {s : State} {free : List PageId} {chain : SlotId → GenId → List PageId}
    (h : Mapped s free chain) {i j : SlotId} {g k : GenId} (hne : ¬ (i = j ∧ g = k)) {w v a b : Nat}
    (ha : s.wordAddress i g w = some a) (hb : s.wordAddress j k v = some b) : a ≠ b := by
  rw [wordAddress_eq (h.chains i g), Option.map_eq_some_iff] at ha
  rw [wordAddress_eq (h.chains j k), Option.map_eq_some_iff] at hb
  obtain ⟨p, hp, rfl⟩ := ha
  obtain ⟨r, hr, rfl⟩ := hb
  have hpr : p ≠ r := fun e => hne (h.apart.other i g j k p (List.mem_of_getElem? hp) (e ▸ List.mem_of_getElem? hr))
  have hval : p.val ≠ r.val := fun e => hpr (Fin.ext e)
  simp only [Config.pageWords]
  omega

/-- A run of grants leaves the stored words of a READY generation (R35, R36). -/
theorem grantRun_readStore {s t : State} (e : GrantRun s t) {free : List PageId} {chain : SlotId → GenId → List PageId}
    (h : Mapped s free chain) {i : SlotId} {g : GenId} (hr : ((s.slot i).gen g).state = .ready) {w a : Nat}
    (ha : s.wordAddress i g w = some a) : t.readStore a = s.readStore a := by
  induction e with
  | refl => rfl
  | @tail u v run e ih =>
    obtain ⟨h1, h2, _⟩ := grantRun_kept run
    have hm : Mapped u free chain := h.same h2 fun j k => ((h1 fun _ => True).gen j k).head
    have hu : ((u.slot i).gen g).state = .ready := (((h1 fun _ => True).gen i g).record trivial hr).ready
    have ha' : u.wordAddress i g w = some a := by
      rw [wordAddress_eq (hm.chains i g), ← ha, wordAddress_eq (h.chains i g)]
    obtain hs | ⟨j, k, x, b, y, hf, hb, hs⟩ := (grantAct_pool e).2.2
    · exact (readStore_congr hs a).trans ih
    · have hne : a ≠ b := hm.wordAddress_ne (fun ⟨e1, e2⟩ => by subst e1 e2; rw [hu] at hf; cases hf) ha' hb
      rw [readStore_congr hs, readStore_storeWord, if_neg hne]
      exact ih

/-! ### SLOT_CONFIGURE and PAGE_TAKE -/

/-- A slot that is not UNUSED keeps all through a SLOT_CONFIGURE, and so does NEXT of every page (R13, R14). -/
theorem slotConfigure_other (s : State) (i : SlotId) (h : (s.slot i).state ≠ .unused) :
    s.slotConfigure.slot i = s.slot i ∧ s.slotConfigure.pool.next = s.pool.next := by
  unfold slotConfigure
  split <;> [exact ⟨rfl, rfl⟩; skip]
  rename_i j _
  split <;> [exact ⟨rfl, rfl⟩; skip]
  rename_i hst
  split <;> [exact ⟨rfl, rfl⟩; skip]
  rename_i a _
  split <;> [exact ⟨rfl, rfl⟩; skip]
  have hne : i ≠ j := fun e => h (e ▸ not_not.mp hst)
  have hs : (s.setSlot j ((s.slot j).configured a)).slot i = s.slot i := by rw [slot_setSlot, if_neg hne]
  unfold acceptConfigure joinCohort
  split <;> exact ⟨hs, rfl⟩

/-- A page take changes of a generation its HEAD at most, and that of the generation being built (R29). -/
theorem advanceAlloc_gen (s : State) (a : Alloc) (p : PageId) (i : SlotId) (g : GenId) :
    ∃ f, ((s.advanceAlloc a p).slot i).gen g = { (s.slot i).gen g with head := f } ∧
      (¬ (i = a.slot ∧ g = a.gen) → f = ((s.slot i).gen g).head) := by
  have head : ∀ f, ∃ f', ((s.setSlot a.slot ((s.slot a.slot).setGen a.gen { (s.slot a.slot).gen a.gen with head := f })).slot
      i).gen g = { (s.slot i).gen g with head := f' } ∧ (¬ (i = a.slot ∧ g = a.gen) → f' = ((s.slot i).gen g).head) := by
    intro f
    rw [slot_setSlot]
    by_cases e : i = a.slot
    · subst e
      rw [if_pos rfl, Slot.gen_setGen]
      by_cases e' : g = a.gen
      · subst e'; exact ⟨f, by rw [if_pos rfl], fun h => absurd ⟨rfl, rfl⟩ h⟩
      · exact ⟨_, by rw [if_neg e'], fun _ => rfl⟩
    · exact ⟨_, by rw [if_neg e], fun _ => rfl⟩
  have done : ∀ t : State, ((t.configureDone a.slot).slot i).gen g = (t.slot i).gen g := fun t => by
    have e : (t.configureDone a.slot).slot i = if i = a.slot then { t.slot a.slot with state := .active } else t.slot i :=
      slot_setSlot (t.setPool { t.pool with alloc := none }) a.slot { t.slot a.slot with state := .active } i
    rw [e]; split <;> [(rename_i e; subst e; rfl); rfl]
  unfold advanceAlloc
  simp only []
  split
  · rw [done]
    split <;> [exact head _; exact ⟨_, rfl, fun _ => rfl⟩]
  · split <;> [exact head _; exact ⟨_, rfl, fun _ => rfl⟩]

/-- A page take keeps the records (R29). -/
theorem pageTake_record (s : State) (i : SlotId) (g : GenId) (h : ((s.slot i).gen g).state = .ready) :
    SameRecord ((s.slot i).gen g) ((s.pageTake.slot i).gen g) := by
  unfold pageTake
  split
  · rename_i a p _ _
    obtain ⟨f, e, _⟩ := advanceAlloc_gen ((s.takeHead p).chainPage a.last p) a p i g
    rw [e]
    exact ⟨rfl, rfl, rfl, rfl, rfl, rfl, rfl, h⟩
  · exact .self h

/-- A page take writes NEXT of the page at HEAD and of the last page taken, which the generation's chain does not hold, and
HEAD of the generation being built, which is another (R25, R29). -/
theorem pageTake_chain {s : State} (hw : Cells.wf Config.pages rebuiltNext s.pool.next = true) {i : SlotId} {g : GenId} {l : List PageId}
    (hl : linkedList s.pool ((s.slot i).gen g).head l) (hg : ∀ a, s.pool.alloc = some a → ¬ (i = a.slot ∧ g = a.gen))
    (hlast : ∀ a r, s.pool.alloc = some a → a.last = some r → r ∉ l) (hhead : ∀ p, s.pool.head = some p → p ∉ l) :
    linkedList s.pageTake.pool ((s.pageTake.slot i).gen g).head l := by
  unfold pageTake
  split
  · rename_i a p ha hp
    have hnext : ∀ r, r ∈ l → ((s.takeHead p).chainPage a.last p).pool.nextOf r = s.pool.nextOf r := fun r hr => by
      have hrp : r ≠ p := fun e => hhead p hp (e ▸ hr)
      have h1 := (Pool.nextOf_setNext (s.takeHead p).pool p r none (Cells.rising_of_wf hw)).trans (if_neg hrp)
      unfold chainPage
      simp only []
      cases hla : a.last with
      | none => exact h1
      | some x =>
        have hrx : r ≠ x := fun e => hlast a x ha hla (e ▸ hr)
        refine (Pool.nextOf_setNext ((s.takeHead p).pool.setNext p none) x r (some p) ?_).trans ((if_neg hrx).trans h1)
        exact Cells.rising_of_wf (Pool.wf_setNext (s.takeHead p).pool p none hw)
    generalize hu : (s.takeHead p).chainPage a.last p = u at hnext ⊢
    have hslot : u.slot i = s.slot i := by rw [← hu]; rfl
    have hpool : (u.advanceAlloc a p).pool.next = u.pool.next := by
      unfold advanceAlloc
      simp only []
      split <;> split <;> rfl
    obtain ⟨f, e, hf⟩ := advanceAlloc_gen u a p i g
    rw [e]
    show linkedList _ f l
    rw [hf (hg a ha), hslot]
    refine linkedList_congr (fun r hr => ?_) hl
    rw [← hnext r hr]
    unfold Pool.nextOf
    rw [hpool]
  · exact hl

end State
end Sys2Proof.Machine

namespace Sys2Proof.Machine
namespace State

/-- Lists that do not meet pairwise, in a list of them without repeated pages. -/
theorem flatMap_apart {n : Nat} {f : Fin n → List PageId} (h : ((List.finRange n).flatMap f).Nodup) {i j : Fin n} {p : PageId}
    (hi : p ∈ f i) (hj : p ∈ f j) : i = j := by
  by_contra hne
  have hpair := (List.nodup_flatMap.mp h).2
  have hsymm : Std.Symm (Function.onFun List.Disjoint f) := ⟨fun _ _ hd => hd.symm⟩
  exact hpair.forall (List.mem_finRange i) (List.mem_finRange j) hne hi hj

/-- Outside a reset the pages are mapped, and the pages of the chain being built are on no other (R25, R28, R29). -/
theorem mapped_of_pagesInv {s : State} (h : s.pagesInv) (hw : s.memoriesWf = true) (hr : s.resetPhase = .none) :
    ∃ free chain, Mapped s free chain ∧ ∀ a, s.pool.alloc = some a →
      chain a.slot a.gen = [] ∧ ∀ r, a.last = some r → ∀ i g, r ∉ chain i g := by
  obtain ⟨hslots, hpages⟩ := h
  rw [hr] at hpages
  obtain ⟨free, building, chain, ⟨hlist, htail, _⟩, hchains, _, halloc, hnodup, _⟩ := hpages
  obtain ⟨hfb, hall, hoff⟩ := List.nodup_append.mp hnodup
  obtain ⟨hfree, _, _⟩ := List.nodup_append.mp hfb
  have hgens : ∀ i, ((List.finRange 5).flatMap (chain i)).Nodup := fun i =>
    (List.nodup_flatMap.mp hall).1 i (List.mem_finRange i)
  have hmem : ∀ {p i g}, p ∈ chain i g → p ∈ (List.finRange 5).flatMap (chain i) := fun {p i g} hp =>
    List.mem_flatMap.mpr ⟨g, List.mem_finRange g, hp⟩
  have hmem' : ∀ {p i g}, p ∈ chain i g → p ∈ (List.finRange 32).flatMap fun i => (List.finRange 5).flatMap (chain i) :=
    fun {p i g} hp => List.mem_flatMap.mpr ⟨i, List.mem_finRange i, hmem hp⟩
  have hwf : Cells.wf Config.pages rebuiltNext s.pool.next = true := by
    simp only [memoriesWf, Bool.and_eq_true] at hw
    exact hw.1.2
  refine ⟨free, chain, ⟨hwf, hlist, htail, fun i g => (hchains i g).1, hfree, fun i g => ?_, fun p hp i g hm => ?_,
    fun i g j k p hp hq => ?_⟩, fun a ha => ⟨?_, fun r hlast i g hm => ?_⟩⟩
  · exact (List.nodup_flatMap.mp (hgens i)).1 g (List.mem_finRange g)
  · exact hoff p (List.mem_append_left _ hp) p (hmem' hm) rfl
  · have e : i = j := flatMap_apart hall (hmem hp) (hmem hq)
    subst e
    exact ⟨rfl, flatMap_apart (hgens i) hp hq⟩
  · refine (hchains a.slot a.gen).2.2 fun hc => ?_
    unfold hasChain at hc
    rw [((hslots a.slot).1.mpr ⟨a, ha, rfl⟩)] at hc
    obtain ⟨b, hb, _, hlt⟩ := hc
    rw [ha] at hb
    exact absurd (Option.some.inj hb ▸ hlt) (lt_irrefl _)
  · obtain ⟨_, _, hlast', _⟩ := halloc a ha
    exact hoff r (List.mem_append_right _ (List.mem_of_getLast? (hlast' ▸ hlast))) r (hmem' hm) rfl

/-- The record of a pinned generation through an act that leaves no reset in progress. -/
theorem act_record {s t : State} (e : Act s t) (ht : t.resetPhase = .none) {i : SlotId} {g : GenId}
    (hu : (s.slot i).state ≠ .unused) (hp : 0 < ((s.slot i).gen g).pins) (hr : ((s.slot i).gen g).state = .ready) :
    SameRecord ((s.slot i).gen g) ((t.slot i).gen g) := by
  obtain h | rfl | rfl | rfl | h := act_keeps e
  · exact h.record i g hp hr
  · rw [(slotConfigure_other s i hu).1]; exact .self hr
  · exact pageTake_record s i g hr
  · have hs : s.rebuildPage.slots = s.slots := by
      unfold rebuildPage
      split <;> [skip; rfl; rfl]
      split <;> [skip; rfl]
      simp only []
      split <;> rfl
    unfold slot at hr ⊢
    rw [hs]; exact .self hr
  · exact absurd ht h

/-- The chain of a pinned generation through an act, unless the act ends the drain of its slot. -/
theorem act_chain {s t : State} (e : Act s t) (hs : s.resetPhase = .none) (ht : t.resetPhase = .none) {i : SlotId}
    {g : GenId} (hu : (s.slot i).state ≠ .unused) {free : List PageId} {chain : SlotId → GenId → List PageId}
    (hm : Mapped s free chain) (hne : chain i g ≠ [])
    (halloc : ∀ a, s.pool.alloc = some a → chain a.slot a.gen = [] ∧ ∀ r, a.last = some r → ∀ i g, r ∉ chain i g)
    (hti : (t.slot i).state ≠ .unused) : linkedList t.pool ((t.slot i).gen g).head (chain i g) := by
  obtain h | rfl | rfl | rfl | h := act_keeps e
  · obtain ⟨_, chain', hm', hc⟩ := h.traced i g (chain i g) ⟨free, chain, hm, fun _ => rfl⟩
    rw [← hc hti]
    exact hm'.chains i g
  · obtain ⟨hslot, hnext⟩ := slotConfigure_other s i hu
    rw [hslot]
    exact linkedList_congr (fun p _ => by unfold Pool.nextOf; rw [hnext]) (hm.chains i g)
  · refine pageTake_chain hm.wf (hm.chains i g) (fun a ha e => hne ?_) (fun a r ha hl => (halloc a ha).2 r hl i g)
      (fun p hp hmem => ?_)
    · rw [e.1, e.2]; exact (halloc a ha).1
    · have hfree : p ∈ free := by
        have hl := hm.list
        rw [hp] at hl
        cases hf : free with
        | nil => rw [hf] at hl; simp [linkedList] at hl
        | cons r l => rw [hf] at hl; exact Option.some.inj hl.1 ▸ List.mem_cons_self
      exact hm.apart.off p hfree i g hmem
  · have e : s.rebuildPage = s := by unfold rebuildPage; rw [hs]
    rw [e]; exact hm.chains i g
  · exact absurd ht h

theorem timeRun_keeps {s t : State} (e : TimeRun s t) : KeepsAll s t ∧ t.store = s.store := by
  induction e with
  | refl => exact ⟨keeps_of_slots rfl rfl, rfl⟩
  | tail _ e ih => exact ⟨ih.1.trans (timeAct_keeps e), (timeAct_store e).trans ih.2⟩

/-- A slot with a pinned generation is not UNUSED. -/
theorem not_unused_of_pinned {s : State} (h : s.slotInv) {i : SlotId} {g : GenId} (hp : 0 < ((s.slot i).gen g).pins) :
    (s.slot i).state ≠ .unused := fun e => by
  have := (h i).2.2.1 e g
  omega

/-- A pinned generation after a run of grants: still pinned, READY, in a slot that is not UNUSED, with its record. -/
theorem grantRun_pinned {s t : State} (e : GrantRun s t) (h : s.slotInv) {i : SlotId} {g : GenId}
    (hp : 0 < ((s.slot i).gen g).pins) : (t.slot i).state ≠ .unused ∧ 0 < ((t.slot i).gen g).pins ∧
      ((t.slot i).gen g).state = .ready ∧ SameRecord ((s.slot i).gen g) ((t.slot i).gen g) := by
  obtain ⟨hk, _⟩ := grantRun_kept e
  have hrec := ((hk fun _ => True).gen i g).record trivial ((h i).1 g hp)
  refine ⟨((hk Pinned).unused i).not.mpr (not_unused_of_pinned h hp), ?_, hrec.ready, hrec⟩
  rw [((hk Pinned).gen i g).pins]; exact hp

/-- The record of a pinned generation through a step that leaves no reset in progress (R4, R10, R101). -/
theorem step_record {s t : State} (h : s.slotInv) (e : step s = .next t) (ht : t.resetPhase = .none) {i : SlotId}
    {g : GenId} (hp : 0 < ((s.slot i).gen g).pins) : SameRecord ((s.slot i).gen g) ((t.slot i).gen g) := by
  obtain ⟨l, ⟨u, run, act⟩ | run⟩ := step_shape e
  · obtain ⟨hu, hpu, hru, hrec⟩ := grantRun_pinned (s := { s with pending := l }) run h hp
    exact SameRecord.trans hrec (act_record act ht hu hpu hru)
  · exact (timeRun_keeps run).1.record i g trivial ((h i).1 g hp)

/-- The stored words of a pinned generation through a step that leaves no reset in progress (R4, R36, R101). -/
theorem step_words {s t : State} (h : s.slotInv) (hpages : s.pagesInv) (hw : s.memoriesWf = true) (e : step s = .next t)
    (ht : t.resetPhase = .none) {i : SlotId} {g : GenId} (hp : 0 < ((s.slot i).gen g).pins) {w a : Nat}
    (ha : s.wordAddress i g w = some a) :
    ((t.slot i).state ≠ .unused → t.wordAddress i g w = some a) ∧ t.readStore a = s.readStore a := by
  have hr : s.resetPhase = .none := by
    by_contra hn
    have hhead : ((s.slot i).gen g).head = none := by
      have hp := hpages.2
      cases hph : s.resetPhase with
      | none => exact absurd hph hn
      | held => rw [hph] at hp; exact hp i g
      | running n b => rw [hph] at hp; exact hp i g
    unfold wordAddress at ha
    rw [hhead] at ha
    cases ha
  obtain ⟨free, chain, hm, halloc⟩ := mapped_of_pagesInv hpages hw hr
  have hne : chain i g ≠ [] := fun e => by
    rw [wordAddress_eq (hm.chains i g), e] at ha
    cases ha
  have address : ∀ {u : State}, linkedList u.pool ((u.slot i).gen g).head (chain i g) → u.wordAddress i g w = some a :=
    fun hl => by rw [wordAddress_eq hl, ← ha, wordAddress_eq (hm.chains i g)]
  obtain ⟨l, ⟨u, run, act⟩ | run⟩ := step_shape e
  · obtain ⟨hk, hpool, hphase⟩ := grantRun_kept run
    obtain ⟨hu, _⟩ := grantRun_pinned (s := { s with pending := l }) run h hp
    have hm' : Mapped { s with pending := l } free chain := hm.same rfl fun _ _ => rfl
    have hmu : Mapped u free chain := hm'.same hpool fun j k => ((hk Pinned).gen j k).head
    refine ⟨fun hti => address (act_chain act (hphase.trans hr) ht hu hmu hne ?_ hti), ?_⟩
    · rw [hpool]; exact halloc
    · rw [readStore_congr (act_store act) a]
      exact grantRun_readStore run hm' ((h i).1 g hp) ha
  · obtain ⟨hk, hstore⟩ := timeRun_keeps run
    refine ⟨fun hti => ?_, readStore_congr hstore a⟩
    obtain ⟨_, chain', hm', hc⟩ := hk.traced i g (chain i g) ⟨free, chain, hm.same rfl fun _ _ => rfl, fun _ => rfl⟩
    exact address (hc hti ▸ hm'.chains i g)

end State

/-- Settles O58: a step is grants, which write FILLING generations alone, and an act or expiries, which take no pinned
generation, return the chain of no slot that stays, and write no store word. -/
theorem pinnedGenerationsKeepTheirRecordAndWords : Obligations.PinnedGenerationsKeepTheirRecordAndWords := by
  unfold Obligations.PinnedGenerationsKeepTheirRecordAndWords
  exact ⟨fun _ _ h e ht _ _ hp => State.step_record h e ht hp,
    fun _ _ h hpages hw e ht _ _ hp _ _ ha => State.step_words h hpages hw e ht hp ha⟩

end Sys2Proof.Machine

/-! SUPPORT. The invariants at reset, and the slot commands that need no run of the pool: the tests of SLOT_CONFIGURE (R13),
its acceptance (R14), SLOT_FREEZE, SLOT_THAW, and the choice of a writer target (R4). -/

namespace Sys2Proof.Machine
namespace State

/-! ### The state after a power-on reset -/

theorem cohort_reset (c : CohortId) : State.reset.cohort c = Cohort.reset := by
  simp [cohort, State.reset, Vector.get_eq_getElem]

theorem queueInv_reset : State.reset.queueInv := by
  refine ⟨Nat.zero_le _, Nat.zero_le _, Nat.zero_le _, fun p => ?_⟩
  rw [port_reset]
  exact ⟨Nat.zero_le _, Nat.zero_le _⟩

theorem cohortInv_reset : State.reset.cohortInv := fun c => by
  rw [cohort_reset]
  exact ⟨by simp [Cohort.reset], by decide, Nat.zero_le _⟩

theorem slotInv_reset : State.reset.slotInv := fun i => by
  rw [slot_reset]
  refine ⟨fun g h => ?_, fun g h => (nomatch h), fun _ g => ?_, by decide, Nat.zero_le _, Nat.zero_le _⟩
  · rw [gen_reset] at h; exact absurd h (lt_irrefl 0)
  · rw [gen_reset]; rfl

theorem memberInv_reset : State.reset.memberInv := by
  refine ⟨fun a h => (nomatch h), fun c i => ?_⟩
  rw [cohort_reset, slot_reset]
  simp [Cohort.reset, Slot.reset]

theorem sealInv_reset : State.reset.sealInv := fun i => by
  have hg : ∀ g, ((State.reset.slot i).gen g).state ≠ .sealed := fun g => by
    rw [slot_reset, gen_reset]; decide
  refine ⟨fun c => ?_, fun g h e => absurd e (hg g), fun g e => absurd e (hg g)⟩
  rw [cohort_reset, slot_reset]
  simp [Cohort.reset, Slot.reset]

theorem linkInv_reset : State.reset.linkInv := by
  refine ⟨fun c h => (nomatch h), fun k => ?_⟩
  rw [link_reset]
  exact linkAtRest_reset

theorem pinInv_reset : State.reset.pinInv :=
  have h := (pinsHeld_reset_blocks (s := State.reset) rfl rfl rfl rfl).pins
  (pinInv_iff _).mpr ⟨h.nodup, h.count⟩

/-- At reset every page is on the free list. -/
theorem pagesInv_reset : State.reset.pagesInv := by
  have hempty : ((List.finRange 32).flatMap fun _ => (List.finRange 5).flatMap fun _ => ([] : List PageId)) = [] := by simp
  refine ⟨fun i => ?_, List.finRange 2048, [], fun _ _ => [], freeList_reset, fun i g => ?_, fun _ => rfl,
    fun a e => (nomatch e), ?_, ?_⟩
  · rw [slot_reset]
    exact ⟨⟨fun e => (nomatch e), fun ⟨a, e, _⟩ => (nomatch e)⟩, fun e => absurd rfl e⟩
  · refine ⟨?_, fun e => ?_, fun _ => rfl⟩
    · rw [slot_reset, gen_reset]; rfl
    · unfold hasChain at e; rw [slot_reset] at e; exact e.elim
  · rw [hempty, List.append_nil, List.append_nil]; exact List.nodup_finRange 2048
  · rw [hempty, List.append_nil, List.append_nil]; exact List.length_finRange

end State

/-- Settles O50: the blocks' reset values meet each invariant. -/
theorem invariantsHoldAtReset : Obligations.InvariantsHoldAtReset := by
  unfold Obligations.InvariantsHoldAtReset
  exact ⟨memoriesWf_reset, State.queueInv_reset, ⟨rfl, rfl⟩, State.cohortInv_reset, State.slotInv_reset,
    State.fillInv_reset_blocks rfl rfl rfl, State.memberInv_reset, State.sealInv_reset, State.linkInv_reset, trivial,
    State.pinInv_reset, State.pagesInv_reset, fun h => absurd rfl h⟩

/-! ### The tests of SLOT_CONFIGURE (R13) -/

theorem objectArg_none {n : Nat} {w : Word} (h : n ≤ w.toNat) : objectArg n w = none := by
  simp [objectArg, Nat.not_lt.mpr h]

/-- SOURCE has a value (R162). -/
theorem sourceArg_none_iff (w : Word) : sourceArg w = none ↔ ¬ (bits w 4 0 ≤ 11 ∨ bits w 4 0 = 16) := by
  unfold sourceArg
  split
  · simp; omega
  · split <;> simp <;> omega

theorem sourceArg_some {w : Word} {src : Source} (h : sourceArg w = some src) :
    (∀ p, src = .port p → p.val = bits w 4 0) ∧ (src = .feed → bits w 4 0 = 16) := by
  unfold sourceArg at h
  split at h
  · cases h; exact ⟨fun p e => by cases e; rfl, fun e => nomatch e⟩
  · split at h
    · rename_i e; cases h; exact ⟨fun p e => (nomatch e), fun _ => e⟩
    · cases h

/-- COHORT has a value (R162). -/
theorem cohortArg_none_iff (w : Word) : cohortArg w = none ↔ ¬ (bits w 26 24 ≤ 3 ∨ bits w 26 24 = 7) := by
  unfold cohortArg
  split
  · simp; omega
  · split <;> simp <;> omega

theorem cohortArg_some {w : Word} {c : Option CohortId} (h : cohortArg w = some c) :
    (∀ k, c = some k → k.val = bits w 26 24) ∧ (c = none ↔ bits w 26 24 = 7) := by
  unfold cohortArg at h
  split at h
  · rename_i hlt
    cases h
    exact ⟨fun k e => by cases e; rfl, ⟨fun e => (nomatch e), fun e => by omega⟩⟩
  · split at h
    · rename_i e; cases h; exact ⟨fun k e => (nomatch e), ⟨fun _ => e, fun _ => rfl⟩⟩
    · cases h

theorem bits_lt (w : Word) (hi lo : Nat) : bits w hi lo < 2 ^ (hi + 1 - lo) := by
  unfold bits; exact BitVec.isLt _

theorem offsetArg_le (w : Word) : offsetArg w ≤ 1023 := Nat.le_of_lt_succ (bits_lt w 9 0)

section
variable {a1 a2 a3 : Word}

theorem configureArgs_badSource (h : ¬ (bits a1 4 0 ≤ 11 ∨ bits a1 4 0 = 16)) : configureArgs a1 a2 a3 = .error 3 := by
  unfold configureArgs
  rw [(sourceArg_none_iff a1).mpr h]

/-- With a SOURCE the checks go on. -/
theorem configureArgs_source (h : bits a1 4 0 ≤ 11 ∨ bits a1 4 0 = 16) : ∃ src, sourceArg a1 = some src :=
  Option.ne_none_iff_exists'.mp fun e => (sourceArg_none_iff a1).mp e h

theorem configureArgs_badWindow (h : bits a1 4 0 ≤ 11 ∨ bits a1 4 0 = 16)
    (hw : ¬ (1 ≤ lengthArg a2 ∧ lengthArg a2 ≤ 1024 ∧ offsetArg a2 + lengthArg a2 ≤ 1024)) :
    configureArgs a1 a2 a3 = .error 4 := by
  obtain ⟨src, hs⟩ := configureArgs_source h
  unfold configureArgs
  simp only [hs]
  rw [if_pos fun ⟨h1, h2, _, h3⟩ => hw ⟨h1, h2, h3⟩]

/-- With SOURCE and the window in order, the rest of the checks decides. -/
theorem configureArgs_window (h : bits a1 4 0 ≤ 11 ∨ bits a1 4 0 = 16)
    (hw : 1 ≤ lengthArg a2 ∧ lengthArg a2 ≤ 1024 ∧ offsetArg a2 + lengthArg a2 ≤ 1024) :
    ∃ src, configureArgs a1 a2 a3 =
      if ¬ (2 ≤ depthArg a3 ∧ depthArg a3 ≤ 5) then .error 5
      else if ¬ (1 ≤ decimateArg a3 ∧ decimateArg a3 ≤ 256) then .error 6
      else match cohortArg a3 with
        | none => .error 7
        | some c =>
          if c ≠ none ∧ depthArg a3 < 3 then .error 8
          else .ok { source := src, offset := offsetArg a2, length := lengthArg a2, depth := depthArg a3,
                     decimate := decimateArg a3, cohort := c } := by
  obtain ⟨src, hs⟩ := configureArgs_source h
  refine ⟨src, ?_⟩
  unfold configureArgs
  simp only [hs]
  exact if_neg (not_not.mpr ⟨hw.1, hw.2.1, offsetArg_le a2, hw.2.2⟩)

/-- What the accepted arguments are. -/
theorem configureArgs_ok {a : ConfigureArgs} (h : configureArgs a1 a2 a3 = .ok a) :
    sourceArg a1 = some a.source ∧ a.offset = offsetArg a2 ∧ a.length = lengthArg a2 ∧ a.depth = depthArg a3 ∧
      a.decimate = decimateArg a3 ∧ cohortArg a3 = some a.cohort := by
  unfold configureArgs at h
  split at h <;> [cases h; skip]
  rename_i src hs
  split at h <;> [cases h; skip]
  split at h <;> [cases h; skip]
  split at h <;> [cases h; skip]
  split at h <;> [cases h; skip]
  rename_i c hc
  split at h <;> [cases h; skip]
  cases h
  exact ⟨hs, rfl, rfl, rfl, rfl, hc⟩
end

namespace State

/-- SLOT_CONFIGURE of an UNUSED slot, after its first two tests (R13). -/
theorem slotConfigure_unused {s : State} {i : SlotId} (hi : (s.arg 0).toNat = i.val) (hu : (s.slot i).state = .unused) :
    s.slotConfigure = match configureArgs (s.arg 1) (s.arg 2) (s.arg 3) with
      | .error n => s.refusedBy .badArg n
      | .ok a => if s.pool.count < a.depth * pagesFor a.length then s.refusedBy .noPages 9 else s.acceptConfigure i a := by
  unfold slotConfigure
  rw [objectArg_eq _ i hi]
  exact if_neg (not_not.mpr hu)

/-- The slots after an accepted SLOT_CONFIGURE (R14). -/
theorem acceptConfigure_slot (s : State) (i : SlotId) (a : ConfigureArgs) (j : SlotId) :
    (s.acceptConfigure i a).slot j = if j = i then (s.slot i).configured a else s.slot j := by
  rw [← slot_setSlot]
  unfold acceptConfigure joinCohort
  cases a.cohort <;> rfl

end State

/-- Settles O10: the tests in the order of R13, the packed fields by configureArgs. -/
theorem configureChecksInOrder : Obligations.ConfigureChecksInOrder := by
  unfold Obligations.ConfigureChecksInOrder
  intro s hfree a1 a2 a3 port window depth decimate cohort deep fits refused
  have he : exec .slotConfigure s = .next s.slotConfigure := State.hostWrite_trigger s _ hfree
  have by_eq : ∀ code n, s.slotConfigure = s.refusedBy code n → refused code n := fun code n h => by
    show exec .slotConfigure s = _; rw [he, h]
  refine ⟨fun h0 => by_eq _ _ ?_, fun i hi => ⟨fun hu => by_eq _ _ ?_, fun hu => ?_⟩⟩
  · unfold State.slotConfigure; rw [objectArg_none (by omega)]; rfl
  · unfold State.slotConfigure; rw [State.objectArg_eq _ i hi]; simp only [if_pos hu]; rfl
  have hc := State.slotConfigure_unused hi hu
  have bad : ∀ n, configureArgs a1 a2 a3 = .error n → refused .badArg n := fun n h => by_eq _ _ (by rw [hc, h])
  refine ⟨fun hp => bad 3 (configureArgs_badSource hp), fun hp hw => bad 4 (configureArgs_badWindow hp hw),
    fun hp hw hd => bad 5 ?_, fun hp hw hd hm => bad 6 ?_, fun hp hw hd hm hk => bad 7 ?_,
    fun hp hw hd hm hk hn => bad 8 ?_, fun hp hw hd hm hk hn hf => by_eq _ _ ?_⟩ <;>
    obtain ⟨src, e⟩ := configureArgs_window (a3 := a3) hp hw
  · exact e.trans (if_pos hd)
  · exact e.trans ((if_neg (not_not.mpr hd)).trans (if_pos hm))
  · replace e := e.trans ((if_neg (not_not.mpr hd)).trans (if_neg (not_not.mpr hm)))
    rwa [(cohortArg_none_iff a3).mpr hk] at e
  all_goals
    replace e := e.trans ((if_neg (not_not.mpr hd)).trans (if_neg (not_not.mpr hm)))
    obtain ⟨c, hcoh⟩ := Option.ne_none_iff_exists'.mp fun e => (cohortArg_none_iff a3).mp e hk
    have hnone := (cohortArg_some hcoh).2
    rw [hcoh] at e
  · exact e.trans (if_pos ⟨fun e => hn (.inl (hnone.mp e)), Nat.not_le.mp fun e => hn (.inr e)⟩)
  · replace e := e.trans
      (if_neg fun ⟨h1, h2⟩ => hn.elim (fun h => h1 (hnone.mpr h)) (fun h => absurd h (Nat.not_le.mpr h2)))
    rw [hc, e]
    exact if_pos (Nat.not_le.mp hf)

/-- Settles O11: the accepted arguments are the packed fields, and the acceptance is its four updates. -/
theorem configureOpensTheAllocation : Obligations.ConfigureOpensTheAllocation := by
  unfold Obligations.ConfigureOpensTheAllocation
  intro s i a hfree hi hu ha hfit
  obtain ⟨hsrc, hoff, hlen, hdepth, hdec, hcoh⟩ := configureArgs_ok ha
  obtain ⟨hport, hfeed⟩ := sourceArg_some hsrc
  obtain ⟨hc, hnone⟩ := cohortArg_some hcoh
  refine ⟨hport, hfeed, hoff, hlen, hdepth, hdec, hc, hnone.mp, s.acceptConfigure i a, ?_, ?_, fun g => ?_, fun j hj => ?_,
    ?_, fun c e => ?_, fun c e => ?_, ?_⟩
  · refine (State.hostWrite_trigger s _ hfree).trans (congrArg _ ?_)
    rw [State.slotConfigure_unused hi hu, ha]
    exact if_neg (Nat.not_lt.mpr hfit)
  · rw [State.acceptConfigure_slot, if_pos rfl]; rfl
  · rw [State.acceptConfigure_slot, if_pos rfl]; exact State.gen_configured (s.slot i) a g
  · rw [State.acceptConfigure_slot, if_neg hj]
  all_goals unfold State.acceptConfigure State.joinCohort
  · cases a.cohort <;> rfl
  · rw [e]; exact State.cohort_setCohort_self ..
  · cases h : a.cohort with
    | none => rfl
    | some d => exact (State.cohort_setCohort ..).trans (if_neg fun e' => e (h.trans (congrArg some e'.symm)))
  · cases a.cohort <;> rfl

/-- Settles O13: each command is its tests and one write of STATE. -/
theorem freezeAndThaw : Obligations.FreezeAndThaw := by
  unfold Obligations.FreezeAndThaw
  intro s hfree
  have hf : exec .slotFreeze s = .next s.slotFreeze := State.hostWrite_trigger s _ hfree
  have ht : exec .slotThaw s = .next s.slotThaw := State.hostWrite_trigger s _ hfree
  rw [hf, ht]
  unfold State.slotFreeze State.slotThaw
  refine ⟨fun h => ?_, fun i hi => ?_⟩
  · rw [objectArg_none (by omega)]; exact ⟨rfl, rfl⟩
  · rw [State.objectArg_eq _ i hi]
    have moved : ∀ x, ∃ t : State, Host.Outcome.next ((s.setSlot i x).result .ok 0) = (.next t : Result) ∧ t.slot i = x ∧
        (∀ j, j ≠ i → t.slot j = s.slot j) ∧ t = { s with slots := t.slots, cmd := s.withResult .ok 0 } := fun x =>
      ⟨_, rfl, State.slot_setSlot_self .., fun j hj => (State.slot_setSlot ..).trans (if_neg hj), rfl⟩
    refine ⟨fun h => ?_, fun h => ?_, fun h => ?_, fun h => ?_⟩ <;> simp only []
    · rw [if_neg h]; rfl
    · rw [if_neg h]; rfl
    · rw [if_pos h]; exact moved _
    · rw [if_pos h]; exact moved _

/-! ### The choice of a writer target (R4) -/

/-- The first element of an ascending list that meets a test is the least. -/
theorem find?_least {n : Nat} {p : Fin n → Bool} {l : List (Fin n)} (hl : l.Pairwise (· < ·)) {g : Fin n}
    (h : l.find? p = some g) {k : Fin n} (hk : k ∈ l) (hp : p k = true) : g ≤ k := by
  obtain ⟨_, as, bs, rfl, has⟩ := List.find?_eq_some_iff_append.mp h
  obtain hk | hk := List.mem_append.mp hk
  · exact absurd hp (by simpa using has k hk)
  · obtain rfl | hk := List.mem_cons.mp hk
    · exact le_refl k
    · exact le_of_lt ((List.pairwise_cons.mp (List.pairwise_append.mp hl).2.1).1 k hk)

/-- The generation has a smaller SEQ than another, or the same and a lower number. -/
def Slot.elder (x : Slot) (g h : GenId) : Prop :=
  (x.gen g).seq < (x.gen h).seq ∨ ((x.gen g).seq = (x.gen h).seq ∧ g ≤ h)

theorem Slot.elder.trans {x : Slot} {g h k : GenId} (h1 : x.elder g h) (h2 : x.elder h k) : x.elder g k := by
  unfold Slot.elder at *
  rw [BitVec.lt_def] at *
  obtain h1 | ⟨e1, l1⟩ := h1 <;> obtain h2 | ⟨e2, l2⟩ := h2
  · exact .inl (h1.trans h2)
  · exact .inl (e2 ▸ h1)
  · exact .inl (e1 ▸ h2)
  · exact .inr ⟨e1.trans e2, l1.trans l2⟩

/-- The fold that Slot.oldest is, from a best one that stands before the rest of the list. -/
theorem oldest_from (x : Slot) : ∀ (l : List GenId) (b : GenId), (b :: l).Pairwise (· < ·) →
    ∃ g, l.foldl (fun best g => match best with
      | none => some g
      | some b => if (x.gen g).seq < (x.gen b).seq then some g else some b) (some b) = some g ∧ g ∈ b :: l ∧
      ∀ h ∈ b :: l, x.elder g h
  | [], b, _ => ⟨b, rfl, List.mem_cons_self, fun h hh => by
      rw [List.mem_singleton.mp hh]; exact .inr ⟨rfl, le_refl b⟩⟩
  | k :: l, b, hl => by
    obtain ⟨hb, hkl⟩ := List.pairwise_cons.mp hl
    obtain ⟨hk, hl'⟩ := List.pairwise_cons.mp hkl
    rw [List.foldl_cons]
    simp only []
    split
    · rename_i hlt
      obtain ⟨g, hg, hm, he⟩ := oldest_from x l k hkl
      refine ⟨g, hg, List.mem_cons_of_mem _ hm, fun h hh => ?_⟩
      obtain rfl | hh := List.mem_cons.mp hh
      · exact (he k List.mem_cons_self).trans (.inl hlt)
      · exact he h hh
    · rename_i hge
      have hbl : (b :: l).Pairwise (· < ·) := List.pairwise_cons.mpr ⟨fun a ha => hb a (List.mem_cons_of_mem _ ha), hl'⟩
      obtain ⟨g, hg, hm, he⟩ := oldest_from x l b hbl
      refine ⟨g, hg, ?_, fun h hh => ?_⟩
      · obtain rfl | hm := List.mem_cons.mp hm
        · exact List.mem_cons_self
        · exact List.mem_cons_of_mem _ (List.mem_cons_of_mem _ hm)
      · obtain rfl | hh := List.mem_cons.mp hh
        · exact he h List.mem_cons_self
        · obtain rfl | hh := List.mem_cons.mp hh
          · refine (he b List.mem_cons_self).trans ?_
            unfold Slot.elder
            rw [BitVec.lt_def] at *
            have hbk := le_of_lt (hb h List.mem_cons_self)
            obtain e | e := Nat.lt_or_eq_of_le (Nat.le_of_not_lt hge)
            · exact .inl e
            · exact .inr ⟨BitVec.eq_of_toNat_eq e, hbk⟩
          · exact he h (List.mem_cons_of_mem _ hh)

theorem oldest_none_iff (x : Slot) (l : List GenId) (hl : l.Pairwise (· < ·)) : x.oldest l = none ↔ l = [] := by
  cases l with
  | nil => exact ⟨fun _ => rfl, fun _ => rfl⟩
  | cons b l =>
    obtain ⟨g, hg, _⟩ := oldest_from x l b hl
    exact ⟨fun h => (nomatch (show some g = none from hg.symm.trans h)), fun h => (nomatch h)⟩

theorem oldest_some {x : Slot} {l : List GenId} (hl : l.Pairwise (· < ·)) {g : GenId} (h : x.oldest l = some g) :
    g ∈ l ∧ ∀ k ∈ l, x.elder g k := by
  cases l with
  | nil => cases h
  | cons b l =>
    obtain ⟨g', hg, hm, he⟩ := oldest_from x l b hl
    have : g' = g := Option.some.inj (hg.symm.trans h)
    exact this ▸ ⟨hm, he⟩

theorem allGens_ascending : allGens.Pairwise (· < ·) := by decide
theorem mem_allGens : ∀ g : GenId, g ∈ allGens := by decide

theorem mem_reusables (x : Slot) (g : GenId) : (g ∈ allGens.filter fun g => g.val < x.depth && x.reusable g) ↔
    g.val < x.depth ∧ (x.gen g).state = .ready ∧ (x.gen g).pins = 0 ∧ x.newest ≠ some g := by
  simp [List.mem_filter, mem_allGens, Slot.reusable, and_assoc]

/-- Settles O21: the first EMPTY generation in ascending order, else the fold's eldest candidate. -/
theorem writerTargetChoice : Obligations.WriterTargetChoice := by
  unfold Obligations.WriterTargetChoice
  intro x cand
  have hsorted : (allGens.filter fun g => g.val < x.depth && x.reusable g).Pairwise (· < ·) :=
    allGens_ascending.filter _
  unfold Slot.target
  cases hf : allGens.find? (fun g => g.val < x.depth && (x.gen g).state = .empty) with
  | some e =>
    have he := List.find?_some hf
    simp only [Bool.and_eq_true, decide_eq_true_eq] at he
    have hcand : cand e := ⟨he.1, .inl he.2⟩
    refine ⟨⟨fun h => (nomatch h), fun h => absurd hcand (h e)⟩, fun g hg => ?_⟩
    obtain rfl := Option.some.inj hg
    refine ⟨hcand, fun _ h hc hempty => ?_, fun h => absurd he.2 h⟩
    exact find?_least allGens_ascending hf (mem_allGens h) (by simp [hc.1, hempty])
  | none =>
    have hn : ∀ h : GenId, h.val < x.depth → (x.gen h).state ≠ .empty := fun h hd he => by
      have := List.find?_eq_none.mp hf h (mem_allGens h)
      simp [hd, he] at this
    have hiff : ∀ h, cand h ↔ h ∈ allGens.filter fun g => g.val < x.depth && x.reusable g := fun h => by
      rw [mem_reusables]
      exact ⟨fun ⟨hd, hc⟩ => ⟨hd, hc.resolve_left (hn h hd)⟩, fun ⟨hd, hc⟩ => ⟨hd, .inr hc⟩⟩
    refine ⟨?_, fun g hg => ?_⟩
    · simp only [oldest_none_iff x _ hsorted, List.eq_nil_iff_forall_not_mem, hiff]
    · obtain ⟨hm, he⟩ := oldest_some hsorted hg
      refine ⟨(hiff g).mpr hm, fun h => absurd h (hn g ((hiff g).mpr hm).1), fun _ h hc => ?_⟩
      exact ⟨hn h hc.1, he h ((hiff h).mp hc)⟩

end Sys2Proof.Machine

/-! SUPPORT. Blocks that are given up (R9, R46 to R49): what the abandons of a FILL set come to, and that a START met in a block
is taken as out of one (R41, R47). -/

namespace Sys2Proof.Machine
namespace State

/-- The records of the abandons of a FILL set, in its order (R9). -/
theorem abandonMembers_events (w : AbandonReason) : ∀ (l : List FillMember) (s : State), (l.map FillMember.slot).Nodup →
    (∀ m ∈ l, ((s.slot m.slot).gen m.gen).state = .filling) →
    (s.abandonMembers l w).events = s.events.takeAll (l.map fun m =>
      s.record .genAbandoned m.slot.val (BitVec.ofNat 32 ((s.slot m.slot).gen m.gen).words) w.value)
  | [], _, _, _ => rfl
  | m :: l, s, hn, hf => by
    obtain ⟨hm, hn⟩ := List.nodup_cons.mp hn
    have hother : ∀ n ∈ l, (s.abandon m.slot m.gen w).slot n.slot = s.slot n.slot := fun n hn' =>
      abandon_other s _ _ _ w fun e => hm (e ▸ List.mem_map_of_mem hn')
    have ih := abandonMembers_events w l (s.abandon m.slot m.gen w) hn fun n hn' => by
      rw [hother n hn']; exact hf n (List.mem_cons_of_mem _ hn')
    have hev : (s.abandon m.slot m.gen w).events = s.events.take
        (s.record .genAbandoned m.slot.val (BitVec.ofNat 32 ((s.slot m.slot).gen m.gen).words) w.value) := by
      rw [abandon_filling s _ _ w (hf m List.mem_cons_self)]; rfl
    have hrec : ∀ k o a r, (s.abandon m.slot m.gen w).record k o a r = s.record k o a r := fun _ _ _ _ => by
      rw [abandon_only]; rfl
    rw [List.map_cons, EventQueue.takeAll_cons, ← hev]
    refine ih.trans (congrArg _ (List.map_congr_left fun n hn' => ?_))
    rw [hother n hn', hrec]

/-- A FILL set whose members are each FILLING in a slot of their own, abandoned (R9). -/
theorem abandonsAll_of_members {s t : State} {l : List FillMember} (hn : (l.map FillMember.slot).Nodup)
    (hf : ∀ m ∈ l, ((s.slot m.slot).gen m.gen).state = .filling) (w : AbandonReason)
    (hs : t.slots = (s.abandonMembers l w).slots) (he : t.events = (s.abandonMembers l w).events) :
    s.abandonsAll t l w.value := by
  have hslot : ∀ i, t.slot i = (s.abandonMembers l w).slot i := fun i => by unfold slot; rw [hs]
  refine ⟨fun m hm => ?_, fun i hi => ?_, ?_⟩
  · rw [hslot, abandonMembers_slot s l w hn m hm, abandon_filling s _ _ w (hf m hm), slot_offer, slot_setSlot_self]
    refine ⟨(Slot.gen_setGen (s.slot m.slot) m.gen m.gen _).trans (if_pos rfl), rfl, fun g hg => ?_⟩
    exact (Slot.gen_setGen (s.slot m.slot) m.gen g _).trans (if_neg hg)
  · rw [hslot, abandonMembers_other s l w i hi]
  · rw [he, abandonMembers_events w l s hn hf]

/-- A port's context replaced twice. -/
theorem setPort_setPort (s : State) (p : PortId) (q r : Port) : (s.setPort p q).setPort p r = s.setPort p r := by
  unfold setPort Table.put
  simp only [Vector.set_set]

/-- The state with a port's framing state as given. -/
def framed (s : State) (p : PortId) (st : PortState) : State := s.setPort p { s.port p with state := st }

/-- The offer of a block does not look at the framing state (R41, R42). -/
theorem offerBlock_framed (s : State) (p : PortId) (e : FifoEntry) (i : SlotId) (st : PortState) :
    (s.framed p st).offerBlock p e i = (s.offerBlock p e i).framed p st := by
  have target : ∀ u : State, (u.framed p st).requestTarget i e.arrived e.tag =
      (u.requestTarget i e.arrived e.tag).framed p st := fun u => by
    unfold requestTarget framed
    simp only [slot_setPort]
    split <;> rfl
  have member : ∀ (u : State) (m : FillMember), (u.framed p st).addMember p m = (u.addMember p m).framed p st := fun u m => by
    unfold addMember framed
    simp only [port_setPort_self, setPort_setPort]
  have keep : ∀ u : State, (u.framed p st).keepBlock p e i = (u.keepBlock p e i).framed p st := fun u => by
    unfold keepBlock
    rw [target, show (u.framed p st).slot i = u.slot i from rfl]
    split
    · exact member _ _
    · rfl
  unfold offerBlock
  rw [show (s.framed p st).slot i = s.slot i from rfl]
  simp only []
  split <;> [skip; rfl]
  split
  · exact keep (s.setSlot i { s.slot i with decCount := 0 })
  · rfl

theorem offerToSlots_framed (s : State) (p : PortId) (e : FifoEntry) (st : PortState) :
    (s.framed p st).offerToSlots p e = (s.offerToSlots p e).framed p st := by
  unfold offerToSlots
  generalize allSlots = l
  induction l generalizing s with
  | nil => rfl
  | cons i l ih => rw [List.foldl_cons, offerBlock_framed, ih, List.foldl_cons]

/-- The open block given up at a START, and the port out of the block (R47). -/
def startGivenUp (s : State) (p : PortId) : State := (s.giveUpBlock p .missingEnd).framed p .idle

/-- A START met in a block is taken as out of one, after the block is given up (R41, R47). -/
theorem beginBlock_inBlock (s : State) (p : PortId) (e : FifoEntry) (h : (s.port p).state = .inBlock) :
    s.beginBlock p e = (s.startGivenUp p).beginBlock p e := by
  have hidle : ((s.startGivenUp p).port p).state ≠ .inBlock := by
    unfold startGivenUp framed; rw [port_setPort_self]; simp
  unfold beginBlock
  simp only [if_pos h, if_neg hidle]
  unfold startGivenUp
  generalize s.giveUpBlock p .missingEnd = u
  have hcount : (u.framed p .idle).setPort p { (u.framed p .idle).port p with
      blocksSeen := ((u.framed p .idle).port p).blocksSeen + 1, wordIndex := 0 } =
      (u.setPort p { u.port p with blocksSeen := (u.port p).blocksSeen + 1, wordIndex := 0 }).framed p .idle := by
    simp only [framed, port_setPort_self, setPort_setPort]
  rw [hcount, offerToSlots_framed]
  generalize (u.setPort p { u.port p with blocksSeen := (u.port p).blocksSeen + 1, wordIndex := 0 }).offerToSlots p e = v
  simp only [framed, port_setPort_self, setPort_setPort]

/-- An END with ERROR at the head of an open block (R46, R48). -/
theorem headError_inBlock {s : State} {p : PortId} {e : FifoEntry} {l : List FifoEntry} (hblock : (s.port p).state = .inBlock)
    (hfifo : (s.port p).fifo = e :: l) (hlast : e.last = true) (herr : e.error = true) (hbegun : (s.port p).begun = e.start)
    (hw : (s.port p).writing = false) :
    s.headError p = (s.giveUpBlock p .sourceError).setPort p { s.port p with
      fifo := l, state := if e.brk = true then .discard else .idle, fill := [], due := [], begun := false } := by
  have hport : (s.giveUpBlock p .sourceError).port p = { s.port p with fill := [], due := [] } := by
    rw [giveUpBlock_port, if_pos rfl]
  unfold headError
  simp only [hfifo]
  rw [if_pos ⟨hblock, hlast, herr, hbegun, hw⟩]
  generalize s.giveUpBlock p .sourceError = u at hport
  unfold leaveEntry
  simp only [port_setPort_self, hport, hfifo, setPort_setPort, reduceCtorEq, if_false]
  split <;> rfl

/-- A disable in an open block (R49). -/
theorem disablePort_inBlock {s : State} {p : PortId} (hblock : (s.port p).state = .inBlock)
    (hen : (s.port p).enable = true) :
    s.disablePort p = (s.giveUpBlock p .portDisabled).setPort p { s.port p with
      enable := false, fifo := [], state := .idle, wordIndex := 0, fill := [], due := [], begun := false
      writing := false } := by
  unfold disablePort
  simp only [hen, hblock, if_true]
  rw [giveUpBlock_port, if_pos rfl]

/-- The port with its head's word done (R43). -/
def wordDone (s : State) (p : PortId) : State :=
  s.setPort p { s.port p with wordIndex := saturate16 (s.port p).wordIndex, writing := false, due := [] }

/-- A word with a BREAK mark, due to no member of the open block (R43, R48). -/
theorem headWord_marked {s : State} {p : PortId} {e : FifoEntry} {l : List FifoEntry} (hblock : (s.port p).state = .inBlock)
    (hfifo : (s.port p).fifo = e :: l) (hstart : e.start = false) (hlast : e.last = false) (hbrk : e.brk = true)
    (hw : (s.port p).writing = false)
    (hnone : (s.port p).fill.filter (fun m => (s.slot m.slot).wants (s.port p).wordIndex) = []) :
    s.headWord p = ((s.wordDone p).giveUpBlock p .captureOverflow).setPort p { s.port p with
      fifo := l, state := .discard, wordIndex := min ((s.port p).wordIndex + 1) 65535, fill := [], due := []
      begun := false } := by
  have hport : (s.wordDone p).port p = { s.port p with
      wordIndex := saturate16 (s.port p).wordIndex, writing := false, due := [] } := port_setPort_self ..
  have hgiven : ((s.wordDone p).giveUpBlock p .captureOverflow).port p = { (s.wordDone p).port p with fill := [], due := [] } := by
    rw [giveUpBlock_port, if_pos rfl]
  unfold headWord
  simp only [hfifo]
  rw [if_pos ⟨hblock, hstart, hlast, hw⟩]
  unfold takeWord
  simp only [hnone]
  have hfinish : s.finishWord p = (s.wordDone p).leaveEntry p := by
    unfold finishWord wordDone
    split
    · rename_i h; rw [hfifo] at h; cases h
    · rename_i h; rw [hfifo] at h; cases h
      exact congrArg (fun t : State => t.leaveEntry p) (if_neg (by rw [hlast]; decide))
  rw [hfinish]
  unfold leaveEntry
  simp only [hport, hfifo, hbrk, hblock, if_true, hgiven]
  rw [hw]; rfl

/-- At any other head SOURCE_ERROR changes nothing. -/
theorem headError_other {s : State} {p : PortId} (h : ∀ e l, (s.port p).fifo = e :: l → (s.port p).state ≠ .inBlock ∨
    e.last = false ∨ e.error = false ∨ (s.port p).begun ≠ e.start ∨ (s.port p).writing = true) : s.headError p = s := by
  unfold headError
  split <;> [rfl; skip]
  rename_i e l hfifo
  refine if_neg fun ⟨h1, h2, h3, h4, h5⟩ => ?_
  simpa [h1, h2, h3, h4, h5] using h e l hfifo

end State

/-- Settles O24: each cause gives the block up by the same abandons, and changes its port in its own way. -/
theorem badBlocksAreAbandoned : Obligations.BadBlocksAreAbandoned := by
  unfold Obligations.BadBlocksAreAbandoned
  refine ⟨fun s p h => congrArg Host.Outcome.next (State.headError_other h), ?_⟩
  intro s p hblock hn hf after
  have given : ∀ (t : State) (w : AbandonReason) (q : Port), t = (s.giveUpBlock p w).setPort p q → after t w.value := by
    intro t w q e
    subst e
    refine ⟨State.abandonsAll_of_members hn hf w rfl rfl, fun r hr => ?_, ?_⟩
    · rw [State.port_setPort, if_neg hr, State.giveUpBlock_port, if_neg hr]
    · rw [State.giveUpBlock_only]; rfl
  refine ⟨fun e l hfifo hlast herr hbegun hw => ?_, fun e l hfifo hstart hbegun hw => ?_, fun hfree hen => ?_,
    fun e l hfifo hstart hlast hbrk hw hdue => ?_⟩
  · exact ⟨_, congrArg Host.Outcome.next (State.headError_inBlock hblock hfifo hlast herr hbegun hw),
      State.port_setPort_self .., given _ .sourceError _ rfl⟩
  · have hport : (s.startGivenUp p).port p = { s.port p with state := .idle, fill := [], due := [] } := by
      unfold State.startGivenUp State.framed
      rw [State.port_setPort_self, State.giveUpBlock_port, if_pos rfl]
    refine ⟨s.startGivenUp p, s.headStart p, hport, given _ .missingEnd _ rfl, congrArg Host.Outcome.next ?_, rfl⟩
    unfold State.headStart
    simp only [hport, hfifo, hstart, hbegun, hw, and_self, if_true]
    rw [State.beginBlock_inBlock s p e hblock]
  · exact ⟨_, (State.hostWrite_free s _ hfree).trans (congrArg _ (State.disablePort_inBlock hblock hen)),
      State.port_setPort_self .., given _ .portDisabled _ rfl⟩
  · have hnone : (s.port p).fill.filter (fun m => (s.slot m.slot).wants (s.port p).wordIndex) = [] := by
      refine List.filter_eq_nil_iff.mpr fun m hm hwants => hdue m hm ?_
      simpa [Slot.wants] using hwants
    have hfill : ((s.wordDone p).port p).fill = (s.port p).fill := by
      unfold State.wordDone; rw [State.port_setPort_self]
    have habandon : (s.wordDone p).abandonsAll ((s.wordDone p).giveUpBlock p .captureOverflow)
        ((s.wordDone p).port p).fill 3 :=
      State.abandonsAll_of_members (by rw [hfill]; exact hn) (by rw [hfill]; exact hf) .captureOverflow rfl rfl
    rw [hfill] at habandon
    refine ⟨_, congrArg Host.Outcome.next (State.headWord_marked hblock hfifo hstart hlast hbrk hw hnone),
      State.port_setPort_self .., habandon, fun r hr => ?_, ?_⟩
    · rw [State.port_setPort, if_neg hr, State.giveUpBlock_port, if_neg hr]
      unfold State.wordDone
      rw [State.port_setPort, if_neg hr]
    · rw [State.giveUpBlock_only]; rfl

end Sys2Proof.Machine

/-! SUPPORT. Completions in a cohort slot (R6 to R8, R57 to R60): what the completion of a FILLING generation comes to, and what
a publish of seals does to each slot. -/

namespace Sys2Proof.Machine

theorem seqAfter_eq (w : Word) : State.seqAfter w = nextSeqAfter w := by
  unfold State.seqAfter nextSeqAfter
  by_cases h : w = 0xFFFFFFFF#32
  · rw [if_pos h, if_pos (by rw [h]; rfl)]
  · have hn : w.toNat ≠ 4294967295 := fun e => h (BitVec.eq_of_toNat_eq e)
    rw [if_neg h, if_neg hn]

theorem nextEpochAfter_eq (e : BitVec 16) : nextEpochAfter e = if e.toNat = 65535 then 1 else e + 1 := by
  unfold nextEpochAfter
  by_cases h : e = 0xFFFF#16
  · rw [if_pos h, if_pos (by rw [h]; rfl)]
  · have hn : e.toNat ≠ 65535 := fun e' => h (BitVec.eq_of_toNat_eq e')
    rw [if_neg h, if_neg hn]

/-- The generations of a slot after a publish (R6, R8). -/
theorem gen_published (x : Slot) (g h : GenId) (y : Gen) (e : BitVec 16) (b : Bool) :
    (x.published g y e b).gen h =
      if h = g then { y with state := .ready, seq := x.nextSeq, epoch := e, isPartial := b } else x.gen h :=
  Slot.gen_setGen x g h _

namespace State

/-- A slot that publishes its one seal (R8). -/
theorem publishSeal_slot {s : State} {j : SlotId} {x : GenId} (hx : ((s.slot j).gen x).state = .sealed)
    (hu : ∀ a b, ((s.slot j).gen a).state = .sealed → ((s.slot j).gen b).state = .sealed → a = b) (e : BitVec 16) (b : Bool) :
    (s.publishSeal j e b).slot j = (s.slot j).published x ((s.slot j).gen x) e b := by
  unfold publishSeal
  rw [sealedGen_some _ x hx hu]
  exact slot_setSlot_self ..

/-- What a full publish does to a slot of the set, and to one outside it (R60). -/
theorem fullPublish_slot {s : State} {c : CohortId} {j : SlotId} {x : GenId}
    (hj : (s.cohort c).sealed.getLsbD j.val = true) (hx : ((s.slot j).gen x).state = .sealed)
    (hu : ∀ a b, ((s.slot j).gen a).state = .sealed → ((s.slot j).gen b).state = .sealed → a = b) :
    (s.fullPublish c).slot j = (s.slot j).published x ((s.slot j).gen x) (s.cohort c).epoch false :=
  (publishSeals_slot s _ _ _ j hj).trans (publishSeal_slot hx hu _ _)

theorem fullPublish_slot_other {s : State} {c : CohortId} {j : SlotId} (hj : (s.cohort c).sealed.getLsbD j.val = false) :
    (s.fullPublish c).slot j = s.slot j := publishSeals_other s _ _ _ j hj

theorem fullPublish_events (s : State) (c : CohortId) : (s.fullPublish c).events =
    s.events.take (s.record .cohortPublished c.val ((s.cohort c).epoch.setWidth 32) 0) := by
  unfold fullPublish
  simp only []
  rw [publishSeals_only]
  rfl

/-- A slot published under an epoch, as the statements say it. -/
theorem publishesSeal_of_published {s t : State} {j : SlotId} {e : BitVec 16}
    (h : ∀ x, ((s.slot j).gen x).state = .sealed → t.slot j = (s.slot j).published x ((s.slot j).gen x) e false) :
    s.publishesSeal t j e := by
  intro x hx
  have ht := h x hx
  rw [ht]
  refine ⟨by rw [gen_published, if_pos rfl], fun y hy => by rw [gen_published, if_neg hy], ?_⟩
  rw [seqAfter_eq]; rfl

/-- The slots that a full publish of another state's cohort reaches, where that state differs in other slots. -/
theorem fullPublish_publishesSeal {s u : State} {c : CohortId} {j : SlotId} (ho : s.oneSeal) (hs : u.slot j = s.slot j)
    (hj : (u.cohort c).sealed.getLsbD j.val = true) : s.publishesSeal (u.fullPublish c) j (u.cohort c).epoch :=
  publishesSeal_of_published fun x hx => by
    rw [← hs]
    exact fullPublish_slot hj (hs ▸ hx) fun a b ha hb => ho j a b (hs ▸ ha) (hs ▸ hb)

/-- The slot with a generation that has just been sealed (R7). -/
def withSeal (s : State) (i : SlotId) (g : GenId) (n : Nat) : Slot :=
  (s.slot i).setGen g { (s.slot i).completed ((s.slot i).gen g) n with state := .sealed }

theorem gen_withSeal (s : State) (i : SlotId) (g : GenId) (n : Nat) (h : GenId) : (s.withSeal i g n).gen h =
    if h = g then { (s.slot i).completed ((s.slot i).gen g) n with state := .sealed } else (s.slot i).gen h :=
  Slot.gen_setGen ..

/-- The completion of a FILLING generation of a cohort slot without a seal (R7). -/
theorem complete_seal {s : State} {i : SlotId} {g : GenId} {c : CohortId} (n : Nat)
    (hf : ((s.slot i).gen g).state = .filling) (hc : (s.slot i).cohort = some c)
    (hn : ∀ o, ((s.slot i).gen o).state ≠ .sealed) :
    s.complete i g n = (s.setSlot i (s.withSeal i g n)).sealReport c i false := by
  unfold complete
  simp only [hf, hc, if_true]
  unfold sealGen
  simp only [sealedGen_none _ hn]
  rfl

/-- In a cohort slot that holds a seal, the older seal is superseded (R7). -/
theorem complete_supersede {s : State} {i : SlotId} {g o : GenId} {c : CohortId} (n : Nat)
    (hf : ((s.slot i).gen g).state = .filling) (hc : (s.slot i).cohort = some c)
    (ho : ((s.slot i).gen o).state = .sealed)
    (hu : ∀ a b, ((s.slot i).gen a).state = .sealed → ((s.slot i).gen b).state = .sealed → a = b) :
    s.complete i g n = ((s.setSlot i ((s.withSeal i g n).setGen o (Slot.emptied ((s.slot i).gen o)))).offer
      .cohortSuperseded i.val (BitVec.ofNat 32 c.val) 0).sealReport c i true := by
  unfold complete
  simp only [hf, hc, if_true]
  unfold sealGen
  simp only [sealedGen_some _ o ho hu]
  rfl

/-- The report of a seal that leaves a member out (R57, R58). -/
theorem sealReport_gathers {s : State} {c : CohortId} {i : SlotId}
    (h : (s.cohort c).sealed ||| slotBit i ≠ (s.cohort c).members) :
    s.sealReport c i false = s.setCohort c { s.cohort c with
      sealed := (s.cohort c).sealed ||| slotBit i, state := .gathering
      deadline := if (s.cohort c).state = .idle ∧ (s.cohort c).window ≠ 0 then
        s.timebase.counter + BitVec.ofNat 32 (s.cohort c).window else (s.cohort c).deadline } := by
  unfold sealReport
  simp only []
  split
  · rename_i hst
    rw [if_neg h]
    by_cases hw : (s.cohort c).window = 0
    · rw [if_pos hw, if_neg fun e => e.2 hw]
    · rw [if_neg hw, if_pos ⟨hst, hw⟩]; rfl
  · rename_i hst
    have hno : ¬((s.cohort c).state = .idle ∧ (s.cohort c).window ≠ 0) := fun e => by rw [hst] at e; cases e.1
    rw [if_neg Bool.false_ne_true, if_neg h, if_neg hno, hst]

/-- The report of the last seal publishes every seal (R57, R58, R60). -/
theorem sealReport_publishes {s : State} {c : CohortId} {i : SlotId}
    (h : (s.cohort c).sealed ||| slotBit i = (s.cohort c).members) :
    s.sealReport c i false =
      (s.setCohort c { s.cohort c with sealed := (s.cohort c).sealed ||| slotBit i }).fullPublish c := by
  unfold sealReport
  simp only []
  split
  · rw [if_pos h]
  · rw [if_neg Bool.false_ne_true, if_pos h]

/-- A report that only supersedes (R59). -/
theorem sealReport_superseded {s : State} {c : CohortId} {i : SlotId} (h : (s.cohort c).state = .gathering) :
    s.sealReport c i true = s := by
  unfold sealReport
  simp only [h, if_true]

theorem getLsbD_slotBit (i j : SlotId) : (slotBit i).getLsbD j.val = decide (i = j) := by
  unfold slotBit
  rw [BitVec.getLsbD_twoPow]
  simp [Fin.ext_iff]

/-- What the completion of a FILLING generation comes to (R6, R7, R57 to R60). -/
theorem complete_completes {s : State} {i : SlotId} {g : GenId} (n : Nat) (hf : ((s.slot i).gen g).state = .filling)
    (ho : s.oneSeal) : s.completes (s.complete i g n) i g n := by
  refine ⟨complete_only s i g n, fun hc => ?_, fun c hc => ⟨fun d hd => ?_, fun o hk hos => ?_, fun hn hne => ?_,
    fun hn heq => ?_⟩⟩
  · rw [complete_publish s i g n hf hc]
    refine ⟨⟨?_, fun h hh => ?_, ?_⟩, fun j hj => ?_, rfl, rfl⟩
    · rw [slot_setSlot_self, gen_published, if_pos rfl]; rfl
    · rw [slot_setSlot_self, gen_published, if_neg hh]
    · rw [slot_setSlot_self, seqAfter_eq]; rfl
    · rw [slot_setSlot, if_neg hj]
  · by_cases hs : ∃ o, ((s.slot i).gen o).state = .sealed
    · obtain ⟨o, hs⟩ := hs
      rw [complete_supersede n hf hc hs (ho i), sealReport_other _ _ _ _ _ hd]; rfl
    · rw [complete_seal n hf hc fun o h => hs ⟨o, h⟩, sealReport_other _ _ _ _ _ hd]; rfl
  · have hgo : g ≠ o := fun e => by rw [← e, hf] at hos; cases hos
    rw [complete_supersede n hf hc hos (ho i), sealReport_superseded (by exact hk)]
    refine ⟨?_, ?_, fun h hg hh => ?_, ?_, fun j hj => ?_, rfl, rfl⟩
    · rw [slot_offer, slot_setSlot_self, Slot.gen_setGen, if_neg hgo, gen_withSeal, if_pos rfl]; rfl
    · rw [slot_offer, slot_setSlot_self, Slot.gen_setGen, if_pos rfl]; rfl
    · rw [slot_offer, slot_setSlot_self, Slot.gen_setGen, if_neg hh, gen_withSeal, if_neg hg]
    · rw [slot_offer, slot_setSlot_self]; rfl
    · rw [slot_offer, slot_setSlot, if_neg hj]
  · rw [complete_seal n hf hc hn, sealReport_gathers (by exact hne)]
    refine ⟨?_, fun h hh => ?_, ?_, fun j hj => ?_, rfl, ?_⟩
    · rw [slot_setCohort, slot_setSlot_self, gen_withSeal, if_pos rfl]; rfl
    · rw [slot_setCohort, slot_setSlot_self, gen_withSeal, if_neg hh]
    · rw [slot_setCohort, slot_setSlot_self]; rfl
    · rw [slot_setCohort, slot_setSlot, if_neg hj]
    · rw [cohort_setCohort_self]; rfl
  · rw [complete_seal n hf hc hn, sealReport_publishes (by exact heq)]
    generalize hu : (s.setSlot i (s.withSeal i g n)).setCohort c _ = u
    have hui : u.slot i = s.withSeal i g n := by rw [← hu, slot_setCohort, slot_setSlot_self]
    have huj : ∀ j, j ≠ i → u.slot j = s.slot j := fun j hj => by rw [← hu, slot_setCohort, slot_setSlot, if_neg hj]
    have huc : u.cohort c = { s.cohort c with sealed := (s.cohort c).sealed ||| slotBit i } := by
      rw [← hu, cohort_setCohort_self]; rfl
    have hbit : ∀ j, (u.cohort c).sealed.getLsbD j.val = ((s.cohort c).sealed.getLsbD j.val || decide (i = j)) := fun j => by
      rw [huc]; simp only [BitVec.getLsbD_or, getLsbD_slotBit]
    have hseal : ∀ a, ((u.slot i).gen a).state = .sealed ↔ a = g := fun a => by
      rw [hui, gen_withSeal]
      split
      · rename_i e; exact ⟨fun _ => e, fun _ => rfl⟩
      · rename_i e; exact ⟨fun h => absurd h (hn a), fun h => absurd h e⟩
    have hpi : (u.fullPublish c).slot i = (s.withSeal i g n).published g ((s.withSeal i g n).gen g) (s.cohort c).epoch false := by
      rw [fullPublish_slot (x := g) (by rw [hbit]; simp) ((hseal g).mpr rfl)
        (fun a b ha hb => ((hseal a).mp ha).trans ((hseal b).mp hb).symm), hui, huc]
    refine ⟨⟨?_, fun h hh => ?_, ?_⟩, fun j hj hb => ?_, fun j hj hb => ?_, ?_, ?_⟩
    · rw [hpi, gen_published, if_pos rfl, gen_withSeal, if_pos rfl]; rfl
    · rw [hpi, gen_published, if_neg hh, gen_withSeal, if_neg hh]
    · rw [hpi, seqAfter_eq]; rfl
    · have h := fullPublish_publishesSeal (c := c) ho (huj j hj) (by rw [hbit, hb]; rfl)
      rw [huc] at h
      exact h
    · rw [fullPublish_slot_other (by rw [hbit, hb, decide_eq_false (Ne.symm hj)]; rfl), huj j hj]
    · rw [fullPublish_cohort, if_pos rfl, huc, nextEpochAfter_eq]
    · rw [fullPublish_events, huc, ← hu]; rfl

/-- FEED_CLOSE is the completion of the feed's generation, with the feed IDLE (R133). -/
theorem feedClose_opened {s : State} (h : s.feed.state = .opened) : s.feedClose =
    ((s.setFeed { s.feed with state := .idle }).complete s.feed.slot s.feed.gen s.feedWords).result .ok
      (BitVec.ofNat 32 s.feedWords) := by
  unfold feedClose
  rw [h]

end State

/-- Settles O47: FEED_CLOSE is the completion of the feed's generation, with the feed IDLE. -/
theorem completionsInACohortSeal : Obligations.CompletionsInACohortSeal := by
  unfold Obligations.CompletionsInACohortSeal
  intro s i g c hfree hopen hslot hgen hf hc ho k n whole sealed noSeal next
  subst hslot hgen
  obtain ⟨honly, _, hcohort⟩ := State.complete_completes (s := s.setFeed { s.feed with state := .idle }) (i := s.feed.slot)
    (g := s.feed.gen) n hf ho
  obtain ⟨hd, hsuper, hgather, hpublish⟩ := hcohort c hc
  have hexec : exec .feedClose s = .next (((s.setFeed { s.feed with state := .idle }).complete s.feed.slot s.feed.gen n).result
      .ok (BitVec.ofNat 32 n)) :=
    (State.hostWrite_trigger s _ hfree).trans (congrArg _ (State.feedClose_opened hopen))
  refine ⟨_, hexec, ?_⟩
  generalize (s.setFeed { s.feed with state := .idle }).complete s.feed.slot s.feed.gen n = t at *
  refine ⟨hd, fun o hk hos => ?_, fun hn hne => ?_, fun hn heq => ?_, ?_⟩
  · exact hsuper o hk hos
  · obtain ⟨h1, h2, h3, h4, h5, h6⟩ := hgather hn hne
    exact ⟨h1, h2, h3, h4, h6, h5⟩
  · obtain ⟨⟨h1, h2, h3⟩, h4, h5, h6, h7⟩ := hpublish hn heq
    exact ⟨h1, h2, h3, fun j x hj hb hx => h4 j hj hb x hx, h5, h6, h7⟩
  · show State.result _ _ _ = _
    rw [honly]; rfl

end Sys2Proof.Machine

/-! SUPPORT. The end of a drain (R20, R30): what it does to the slot, to the free list, to the links and to the queue; and
SLOT_TEARDOWN of a slot that has no writer, no seal and no cohort. -/

namespace Sys2Proof.Machine
namespace State

/-! ### The return of the chains -/

/-- HEAD of a generation after the return of one chain (R30). -/
theorem returnChain_gen (s : State) (i : SlotId) (g h : GenId) : ((s.returnChain i g).slot i).gen h =
    if h = g then { (s.slot i).gen h with head := none } else (s.slot i).gen h := by
  unfold returnChain
  simp only []
  split
  · rename_i hn
    split
    · rename_i e; rw [e, ← hn]
    · rfl
  · rw [slot_setSlot_self, Slot.gen_setGen]
    split
    · rename_i e; rw [e]
    · rfl

theorem returnChain_slot (s : State) (i : SlotId) (g : GenId) :
    (s.returnChain i g).slot i = { s.slot i with gens := ((s.returnChain i g).slot i).gens } := by
  unfold returnChain
  simp only []
  split
  · rfl
  · rw [slot_setSlot_self]; rfl

theorem returnChain_some {s : State} {i : SlotId} {g : GenId} {f : PageId} (h : ((s.slot i).gen g).head = some f) :
    (s.returnChain i g).pool = s.pool.appendChain f (s.slot i).ppg := by
  unfold returnChain
  simp only [h]
  rfl

theorem returnChain_alloc (s : State) (i : SlotId) (g : GenId) : (s.returnChain i g).pool.alloc = s.pool.alloc := by
  cases h : ((s.slot i).gen g).head with
  | none => unfold returnChain; simp only [h]
  | some f =>
    rw [returnChain_some h]
    unfold Pool.appendChain
    cases s.pool.tail <;> rfl

/-- The generations whose chains a drain's end gives back: those within DEPTH (R20). -/
theorem returnChains_eq (s : State) (i : SlotId) : s.returnChains i =
    ((List.finRange 5).filter fun g : GenId => g.val < (s.slot i).depth).foldl (fun t g => t.returnChain i g) s := by
  have hgens : allGens = List.finRange 5 := by decide
  unfold returnChains
  rw [List.foldl_filter, hgens]
  simp only [decide_eq_true_eq]

theorem foldl_returnChain_gen (i : SlotId) (h : GenId) : ∀ (l : List GenId) (s : State),
    ((l.foldl (fun t g => t.returnChain i g) s).slot i).gen h =
      if h ∈ l then { (s.slot i).gen h with head := none } else (s.slot i).gen h
  | [], _ => by simp
  | g :: l, s => by
    rw [List.foldl_cons, foldl_returnChain_gen i h l, returnChain_gen]
    by_cases e : h = g <;> by_cases m : h ∈ l <;> simp [e, m]

theorem foldl_returnChain_slot (i : SlotId) (l : List GenId) (s : State) :
    (l.foldl (fun t g => t.returnChain i g) s).slot i =
      { s.slot i with gens := ((l.foldl (fun t g => t.returnChain i g) s).slot i).gens } := by
  refine foldl_rel (fun s t : State => t.slot i = { s.slot i with gens := (t.slot i).gens }) _ (fun _ => rfl)
    (fun s t u h1 h2 => ?_) (fun t g => returnChain_slot t i g) l s
  rw [h2, h1]

/-- The chains of a list of generations join the free list in the list's order (R30). -/
theorem freeList_returnChains {i : SlotId} {chain : GenId → List PageId} : ∀ (l : List GenId) (s : State)
    (free : List PageId), l.Nodup → Cells.wf Config.pages rebuiltNext s.pool.next = true → freeList s.pool free →
    (∀ g ∈ l, chain g ≠ [] ∧ (chain g).length = (s.slot i).ppg ∧ linkedList s.pool ((s.slot i).gen g).head (chain g)) →
    (free ++ l.flatMap chain).Nodup →
    freeList (l.foldl (fun t g => t.returnChain i g) s).pool (free ++ l.flatMap chain)
  | [], s, free, _, _, hf, _, _ => by simpa using hf
  | g :: l, s, free, hn, hw, hf, hc, hd => by
    obtain ⟨hne, hlen, hlink⟩ := hc g List.mem_cons_self
    rw [List.flatMap_cons, ← List.append_assoc] at hd ⊢
    have hd1 : (free ++ chain g).Nodup := (List.nodup_append.mp hd).1
    cases hh : ((s.slot i).gen g).head with
    | none =>
      rw [hh] at hlink
      cases hcg : chain g with
      | nil => exact absurd hcg hne
      | cons p c => rw [hcg] at hlink; exact absurd hlink.1 nofun
    | some f =>
      rw [hh] at hlink
      have hrise := Cells.rising_of_wf hw
      have hpool := returnChain_some hh
      have hfree : freeList (s.returnChain i g).pool (free ++ chain g) := by
        rw [hpool, ← hlen]
        exact Pool.freeList_appendChain hrise hf hlink hd1
      have hkeep := (Pool.linked_appendChain (s.slot i).ppg hrise hf.1 hf.2.1 hlink hd1).2.2
      have hppg : ((s.returnChain i g).slot i).ppg = (s.slot i).ppg := by rw [returnChain_slot]
      refine freeList_returnChains l _ _ (List.nodup_cons.mp hn).2 (by rw [hpool]; exact Pool.wf_appendChain _ _ _ hw)
        hfree (fun h hm => ?_) hd
      obtain ⟨hne', hlen', hlink'⟩ := hc h (List.mem_cons_of_mem _ hm)
      have hhg : h ≠ g := fun e => (List.nodup_cons.mp hn).1 (e ▸ hm)
      rw [hppg, returnChain_gen, if_neg hhg]
      refine ⟨hne', hlen', linkedList_congr (fun p hp => ?_) hlink'⟩
      rw [hpool]
      refine hkeep p fun hpf => ?_
      exact (List.nodup_append.mp hd).2.2 p (List.mem_append_left _ hpf) p (List.mem_flatMap.mpr ⟨h, hm, hp⟩) rfl

/-- COUNT after the return of chains that all have a HEAD (R30). -/
theorem count_returnChains {i : SlotId} : ∀ (l : List GenId) (s : State), l.Nodup →
    (∀ g ∈ l, ((s.slot i).gen g).head ≠ none) →
    (l.foldl (fun t g => t.returnChain i g) s).pool.count = s.pool.count + l.length * (s.slot i).ppg
  | [], _, _, _ => by simp
  | g :: l, s, hn, hh => by
    obtain ⟨f, hf⟩ := Option.ne_none_iff_exists'.mp (hh g List.mem_cons_self)
    have hppg : ((s.returnChain i g).slot i).ppg = (s.slot i).ppg := by rw [returnChain_slot]
    have hcount : (s.returnChain i g).pool.count = s.pool.count + (s.slot i).ppg := by
      rw [returnChain_some hf]
      unfold Pool.appendChain
      cases s.pool.tail <;> rfl
    rw [List.foldl_cons, count_returnChains l _ (List.nodup_cons.mp hn).2 fun h hm => ?_, hcount, hppg, List.length_cons,
      Nat.succ_mul]
    · omega
    · have hhg : h ≠ g := fun e => (List.nodup_cons.mp hn).1 (e ▸ hm)
      rw [returnChain_gen, if_neg hhg]
      exact hh h (List.mem_cons_of_mem _ hm)

/-! ### The links forget a slot -/

theorem foldl_forget_link (i : SlotId) (k : LinkId) : ∀ (l : List LinkId) (t : State), l.Nodup →
    (l.foldl (fun t j => t.setLink j { t.link j with lastSeen := Table.put (t.link j).lastSeen i 0 }) t).link k =
      if k ∈ l then { t.link k with lastSeen := Table.put (t.link k).lastSeen i 0 } else t.link k
  | [], _, _ => by simp
  | j :: l, t, hn => by
    have hm : j ∉ l := (List.nodup_cons.mp hn).1
    rw [List.foldl_cons, foldl_forget_link i k l _ (List.nodup_cons.mp hn).2, link_setLink]
    by_cases e : k = j
    · simp [e, hm]
    · simp [e]

theorem forgetSlot_link (s : State) (i : SlotId) (k : LinkId) :
    (s.forgetSlot i).link k = { s.link k with lastSeen := Table.put (s.link k).lastSeen i 0 } :=
  (foldl_forget_link i k allLinks s (by decide)).trans (if_pos (mem_allLinks k))

/-! ### The end of a drain -/

theorem drainEnd_gen (s : State) (i : SlotId) (g : GenId) : ((s.drainEnd i).slot i).gen g =
    { (s.slot i).gen g with head := if g.val < (s.slot i).depth then none else ((s.slot i).gen g).head } := by
  unfold drainEnd
  simp only []
  rw [slot_offer, slot_setSlot_self]
  show (((s.returnChains i).forgetSlot i).slots.get i).gen g = _
  rw [forgetSlot_slots, returnChains_eq]
  refine (foldl_returnChain_gen i g _ s).trans ?_
  by_cases h : g.val < (s.slot i).depth <;> simp [h]

theorem drainEnd_slot (s : State) (i : SlotId) :
    (s.drainEnd i).slot i = { s.slot i with state := .unused, gens := ((s.drainEnd i).slot i).gens } := by
  unfold drainEnd
  simp only []
  rw [slot_offer, slot_setSlot_self]
  have h : ((s.returnChains i).forgetSlot i).slot i = (s.returnChains i).slot i :=
    congrArg (fun m : Table 32 Slot => m.get i) (forgetSlot_slots ..)
  rw [h, returnChains_eq, foldl_returnChain_slot]

theorem drainEnd_pool (s : State) (i : SlotId) : (s.drainEnd i).pool =
    (((List.finRange 5).filter fun g : GenId => g.val < (s.slot i).depth).foldl (fun t g => t.returnChain i g) s).pool := by
  unfold drainEnd
  simp only []
  rw [forgetSlot_only, returnChains_eq]
  rfl

theorem drainEnd_alloc (s : State) (i : SlotId) : (s.drainEnd i).pool.alloc = s.pool.alloc :=
  (congrArg Pool.alloc (drainEnd_pool s i)).trans
    (foldl_get (fun t : State => t.pool.alloc) _ _ (fun t g _ => returnChain_alloc t i g) s)

theorem drainEnd_link (s : State) (i : SlotId) (k : LinkId) :
    (s.drainEnd i).link k = { s.link k with lastSeen := Table.put (s.link k).lastSeen i 0 } := by
  have h : (s.returnChains i).link k = s.link k := by rw [returnChains_only]; rfl
  unfold drainEnd
  simp only []
  rw [link_offer, link_setSlot, forgetSlot_link, h]

theorem drainEnd_events (s : State) (i : SlotId) : (s.drainEnd i).events =
    s.events.take (s.record .slotReleased i.val (BitVec.ofNat 32 ((s.slot i).depth * (s.slot i).ppg)) 0) := by
  unfold drainEnd
  simp only []
  rw [forgetSlot_only, returnChains_only]
  rfl

/-- The end of a drain gives the slot's chains back behind the free list (R20, R30). -/
theorem drainEnd_returnsChains (s : State) (i : SlotId) : s.returnsChains (s.drainEnd i) [i] := by
  intro free chain hw hf hc hd
  have hpages : [i].flatMap (s.chainPages chain) =
      ((List.finRange 5).filter fun g : GenId => g.val < (s.slot i).depth).flatMap (chain i) := by simp [chainPages]
  have hnext : Cells.wf Config.pages rebuiltNext s.pool.next = true := by
    unfold memoriesWf at hw
    simp only [Bool.and_eq_true] at hw
    exact hw.1.2
  rw [hpages] at hd ⊢
  rw [drainEnd_pool]
  refine freeList_returnChains _ s free ((List.nodup_finRange 5).filter _) hnext hf (fun g hg => ?_) hd
  exact hc i List.mem_cons_self g (by simpa using hg)

theorem drainEnd_count {s : State} {i : SlotId} (hd : (s.slot i).depth ≤ 5)
    (hh : ∀ g : GenId, g.val < (s.slot i).depth → ((s.slot i).gen g).head ≠ none) :
    (s.drainEnd i).pool.count = s.pool.count + (s.slot i).depth * (s.slot i).ppg := by
  have hlen : ∀ d, d ≤ 5 → ((List.finRange 5).filter fun g : GenId => g.val < d).length = d := by
    intro d hd
    interval_cases d <;> decide
  rw [drainEnd_pool, count_returnChains _ s ((List.nodup_finRange 5).filter _) fun g hg => hh g (by simpa using hg),
    hlen _ hd]

end State
end Sys2Proof.Machine

/-! SUPPORT. What an accepted SLOT_TEARDOWN does up to the slot's new state (steps 1 to 3 of R18): the slot, its writer and the
records. -/

namespace Sys2Proof.Machine
namespace Slot

/-- The slot without the content of a generation, if there is one to discard (R9, R18). -/
def without (x : Slot) : Option GenId → Slot
  | none => x
  | some g => x.abandoned g

theorem gen_without (x : Slot) (o : Option GenId) (g : GenId) :
    (x.without o).gen g = if o = some g then emptied (x.gen g) else x.gen g := by
  cases o with
  | none => rw [if_neg nofun]; rfl
  | some o =>
    refine (gen_setGen x o g _).trans ?_
    by_cases e : g = o
    · rw [if_pos e, if_pos (by rw [e]), e]
    · rw [if_neg e, if_neg fun h => e (Option.some.inj h).symm]

theorem without_eq (x : Slot) (o : Option GenId) :
    x.without o = { x with gens := (x.without o).gens, abandons := (x.without o).abandons } := by
  cases o <;> rfl

/-- ABANDONS after two discards, as one sum (R9, R18). -/
theorem abandons_without_without (x : Slot) (o p : Option GenId) : ((x.without o).without p).abandons =
    if o = none ∧ p = none then x.abandons else min (x.abandons + o.toList.length + p.toList.length) 65535 := by
  cases o <;> cases p
  case none.none => rfl
  case none.some => exact (if_neg fun e => nomatch e.2).symm
  case some.none => exact (if_neg fun e => nomatch e.1).symm
  case some.some =>
    refine Eq.trans ?_ (if_neg fun e => nomatch e.1).symm
    show min (min (x.abandons + 1) 65535 + 1) 65535 = min (x.abandons + 1 + 1) 65535
    omega

theorem fillingGen_eq {x : Slot} {o : Option GenId} (h : ∀ g, (x.gen g).state = .filling ↔ o = some g) :
    x.fillingGen = o := by
  cases hf : x.fillingGen with
  | some g => exact ((h g).mp (State.fillingGen_spec x g hf)).symm
  | none =>
    cases o with
    | none => rfl
    | some g => exact absurd ((h g).mpr rfl) (State.fillingGen_none hf g)

theorem sealedGen_eq {x : Slot} {o : Option GenId} (h : ∀ g, (x.gen g).state = .sealed ↔ o = some g) :
    x.sealedGen = o := by
  cases o with
  | none => exact State.sealedGen_none x fun g e => nomatch (h g).mp e
  | some g =>
    exact State.sealedGen_some x g ((h g).mpr rfl) fun a b ha hb =>
      Option.some.inj (((h a).mp ha).symm.trans ((h b).mp hb))

/-- The discard of the FILLING generation leaves the seal. -/
theorem sealed_without {x : Slot} {o p : Option GenId} (ho : ∀ g, (x.gen g).state = .filling ↔ o = some g)
    (hp : ∀ g, (x.gen g).state = .sealed ↔ p = some g) (g : GenId) :
    (((x.without o).gen g).state = .sealed) ↔ p = some g := by
  rw [gen_without]
  split
  · rename_i e
    have hf := (ho g).mpr e
    exact ⟨nofun, fun h => by rw [(hp g).mpr h] at hf; cases hf⟩
  · exact hp g

end Slot

namespace State

/-- A FILLING generation of the slot is the feed's (R133, R137). -/
def feedWrites (s : State) (i : SlotId) : Bool :=
  decide ((s.slot i).source = .feed ∧ s.feed.state = .opened ∧ s.feed.slot = i)

theorem feedWrites_iff (s : State) (i : SlotId) :
    s.feedWrites i = true ↔ (s.slot i).source = .feed ∧ s.feed.state = .opened ∧ s.feed.slot = i := decide_eq_true_iff

theorem not_feedWrites_of_port {s : State} {i : SlotId} {q : PortId} (h : (s.slot i).source = .port q) :
    ¬ s.feedWrites i = true := fun e => by
  rw [((feedWrites_iff s i).mp e).1] at h
  cases h

theorem dropWriter_port (s : State) (i : SlotId) (p : PortId) : (s.dropWriter i).port p =
    if (s.slot i).source = .port p then { s.port p with
      fill := (s.port p).fill.filter fun m => m.slot ≠ i, due := (s.port p).due.filter fun m => m.slot ≠ i }
    else s.port p := by
  unfold dropWriter
  split
  · rename_i q hq
    unfold removeMember
    rw [port_setPort, hq]
    by_cases e : p = q
    · rw [if_pos e, if_pos (by rw [e]), e]
    · rw [if_neg e, if_neg fun h => e (Source.port.inj h).symm]
  · rename_i hq
    have hn : ¬ (s.slot i).source = .port p := fun e => by rw [hq] at e; cases e
    rw [if_neg hn]
    split <;> rfl

theorem dropWriter_feed (s : State) (i : SlotId) : (s.dropWriter i).feed =
    if s.feedWrites i then { s.feed with state := .idle } else s.feed := by
  unfold dropWriter
  split
  · rename_i q hq
    rw [if_neg (not_feedWrites_of_port hq)]; rfl
  · rename_i hq
    split
    · rename_i h; exact (if_pos ((feedWrites_iff s i).mpr ⟨hq, h⟩)).symm
    · rename_i h; exact (if_neg fun e => h ((feedWrites_iff s i).mp e).2).symm

theorem dropWriter_events (s : State) (i : SlotId) : (s.dropWriter i).events =
    s.events.takeAll (if s.feedWrites i then [s.record .feedAbandoned i.val (BitVec.ofNat 32 s.feed.wordIndex) 0]
      else []) := by
  unfold dropWriter
  split
  · rename_i q hq
    rw [if_neg (not_feedWrites_of_port hq)]; rfl
  · rename_i hq
    split
    · rename_i h; rw [if_pos ((feedWrites_iff s i).mpr ⟨hq, h⟩)]; rfl
    · rename_i h; rw [if_neg fun e => h ((feedWrites_iff s i).mp e).2]; rfl

/-! ### The FILLING generation -/

theorem abandonFilling_none {s : State} {i : SlotId} (h : (s.slot i).fillingGen = none) : s.abandonFilling i = s := by
  unfold abandonFilling
  rw [h]

theorem abandonFilling_some {s : State} {i : SlotId} {g : GenId} (h : (s.slot i).fillingGen = some g) :
    s.abandonFilling i = ((s.setSlot i ((s.slot i).abandoned g)).offer .genAbandoned i.val
      (BitVec.ofNat 32 ((s.slot i).gen g).words) 7).dropWriter i := by
  unfold abandonFilling
  rw [h]
  exact congrArg (fun t : State => t.dropWriter i) (abandon_filling s i g .teardown (fillingGen_spec _ _ h))

/-- What step 1 of R18 writes, by the FILLING generation there was. -/
structure FillingDropped (s t : State) (i : SlotId) (filling : Option GenId) : Prop where
  slot : t.slot i = (s.slot i).without filling
  other : ∀ j, j ≠ i → t.slot j = s.slot j
  port : ∀ p, t.port p = if filling ≠ none ∧ (s.slot i).source = .port p then { s.port p with
      fill := (s.port p).fill.filter fun m => m.slot ≠ i, due := (s.port p).due.filter fun m => m.slot ≠ i }
    else s.port p
  feed : t.feed = if filling ≠ none ∧ s.feedWrites i = true then { s.feed with state := .idle } else s.feed
  events : t.events = s.events.takeAll
    ((filling.toList.map fun g => s.record .genAbandoned i.val (BitVec.ofNat 32 ((s.slot i).gen g).words) 7) ++
      if filling ≠ none ∧ s.feedWrites i = true then
        [s.record .feedAbandoned i.val (BitVec.ofNat 32 s.feed.wordIndex) 0] else [])
  now : t.now = s.now

theorem abandonFilling_dropped {s : State} {i : SlotId} {filling : Option GenId} (h : (s.slot i).fillingGen = filling) :
    FillingDropped s (s.abandonFilling i) i filling := by
  cases filling with
  | none =>
    rw [abandonFilling_none h]
    refine ⟨rfl, fun _ _ => rfl, fun p => (if_neg fun e => e.1 rfl).symm, (if_neg fun e => e.1 rfl).symm, ?_, rfl⟩
    rw [if_neg fun e => e.1 rfl]
    rfl
  | some g =>
    rw [abandonFilling_some h]
    generalize hu : (s.setSlot i ((s.slot i).abandoned g)).offer .genAbandoned i.val
      (BitVec.ofNat 32 ((s.slot i).gen g).words) 7 = u
    have hsource : (u.slot i).source = (s.slot i).source := by rw [← hu, slot_offer, slot_setSlot_self]; rfl
    have hfeed : u.feed = s.feed := by rw [← hu]; rfl
    have hwrites : u.feedWrites i = s.feedWrites i := by unfold feedWrites; rw [hsource, hfeed]
    have hslots : ∀ j, (u.dropWriter i).slot j = u.slot j := fun j =>
      congrArg (fun m : Table 32 Slot => m.get j) (dropWriter_slots u i)
    have hnow : u.now = s.now := by rw [← hu]; rfl
    refine ⟨?_, fun j hj => ?_, fun p => ?_, ?_, ?_, ?_⟩
    · rw [hslots, ← hu, slot_offer, slot_setSlot_self]; rfl
    · rw [hslots, ← hu, slot_offer, slot_setSlot, if_neg hj]
    · have hp : u.port p = s.port p := by rw [← hu]; rfl
      rw [dropWriter_port, hsource, hp]
      simp
    · rw [dropWriter_feed, hwrites, hfeed]
      simp
    · have hevents : u.events = s.events.take (s.record .genAbandoned i.val
          (BitVec.ofNat 32 ((s.slot i).gen g).words) 7) := by rw [← hu]; rfl
      have hrecord : u.record .feedAbandoned i.val (BitVec.ofNat 32 s.feed.wordIndex) 0 =
          s.record .feedAbandoned i.val (BitVec.ofNat 32 s.feed.wordIndex) 0 := by unfold record; rw [hnow]
      rw [dropWriter_events, hwrites, hfeed, hrecord, hevents]
      simp [EventQueue.takeAll_cons]
    · rw [← hnow]
      unfold dropWriter
      split <;> [rfl; skip]
      split <;> rfl

/-! ### The seal -/

theorem dropSeal_slot (s : State) (i : SlotId) (w : AbandonReason) :
    (s.dropSeal i w).slot i = (s.slot i).without (s.slot i).sealedGen := by
  unfold dropSeal
  split
  · rename_i h; rw [h]; rfl
  · rename_i g h; rw [slot_offer, slot_setSlot_self, h]; rfl

theorem dropSeal_events (s : State) (i : SlotId) (w : AbandonReason) : (s.dropSeal i w).events =
    s.events.takeAll ((s.slot i).sealedGen.toList.map fun g =>
      s.record .genAbandoned i.val (BitVec.ofNat 32 ((s.slot i).gen g).words) w.value) := by
  unfold dropSeal
  split
  · rename_i h; rw [h]; rfl
  · rename_i g h; rw [h]; rfl

/-! ### Steps 1 to 3 together -/

/-- What an accepted teardown has written before handles are revoked, by the FILLING and the SEALED generation there were
(R18). -/
structure TeardownBegun (s t : State) (i : SlotId) (filling sealed : Option GenId) : Prop where
  slot : t.slot i = { ((s.slot i).without filling).without sealed with state := .draining, cohort := none }
  other : ∀ j, j ≠ i → t.slot j = s.slot j
  port : ∀ p, t.port p = if filling ≠ none ∧ (s.slot i).source = .port p then { s.port p with
      fill := (s.port p).fill.filter fun m => m.slot ≠ i, due := (s.port p).due.filter fun m => m.slot ≠ i }
    else s.port p
  feed : t.feed = if filling ≠ none ∧ s.feedWrites i = true then { s.feed with state := .idle } else s.feed
  events : t.events = s.events.takeAll
    ((filling.toList.map fun g => s.record .genAbandoned i.val (BitVec.ofNat 32 ((s.slot i).gen g).words) 7) ++
      (if filling ≠ none ∧ s.feedWrites i = true then
        [s.record .feedAbandoned i.val (BitVec.ofNat 32 s.feed.wordIndex) 0] else []) ++
      sealed.toList.map fun g => s.record .genAbandoned i.val (BitVec.ofNat 32 ((s.slot i).gen g).words) 7)
  only : t = { s with slots := t.slots, ports := t.ports, feed := t.feed, events := t.events }

theorem teardownBegun_spec {s : State} {i : SlotId} {filling sealed : Option GenId}
    (hf : ∀ g, ((s.slot i).gen g).state = .filling ↔ filling = some g)
    (hs : ∀ g, ((s.slot i).gen g).state = .sealed ↔ sealed = some g) :
    TeardownBegun s (s.teardownBegun i) i filling sealed := by
  have hd := abandonFilling_dropped (Slot.fillingGen_eq hf)
  have honly := teardownBegun_only s i
  unfold teardownBegun at honly ⊢
  simp only [] at honly ⊢
  generalize s.abandonFilling i = u at hd honly ⊢
  have hseal : (u.slot i).sealedGen = sealed := Slot.sealedGen_eq (by rw [hd.slot]; exact Slot.sealed_without hf hs)
  refine ⟨?_, fun j hj => ?_, fun p => ?_, ?_, ?_, honly⟩
  · rw [slot_setSlot_self, dropSeal_slot, hseal, hd.slot]
  · rw [slot_setSlot, if_neg hj, dropSeal_other _ _ _ _ hj, hd.other j hj]
  · rw [port_setSlot, dropSeal_only]
    exact hd.port p
  · rw [dropSeal_only]
    exact hd.feed
  · have hwords : ∀ g, sealed = some g → ((u.slot i).gen g).words = ((s.slot i).gen g).words := fun g hg => by
      rw [hd.slot, Slot.gen_without, if_neg fun e => ?_]
      have := (hs g).mpr hg
      rw [(hf g).mpr e] at this
      cases this
    refine (dropSeal_events u i .teardown).trans ?_
    rw [hseal, hd.events, ← EventQueue.takeAll_append]
    refine congrArg (fun l => s.events.takeAll (_ ++ l)) (List.map_congr_left fun g hg => ?_)
    rw [hwords g (Option.mem_toList.mp hg)]
    unfold record
    rw [hd.now]
    rfl

end State
end Sys2Proof.Machine

/-! SUPPORT. Forced revocation at teardown (R19): the handles that lose their hold, the pins they release and their records. -/

namespace Sys2Proof.Machine
namespace State

/-- A handle that holds a pin on the slot (R19). -/
def holdsOn (s : State) (i : SlotId) (h : HandleId) : Bool := decide ((s.handle h).state = .held ∧ (s.handle h).slot = i)

/-- What the revocation of some handles, in their order, does (R19). -/
structure Revokes (s t : State) (i : SlotId) (revoked : List HandleId) : Prop where
  gen : ∀ g, (t.slot i).gen g = { (s.slot i).gen g with
    pins := ((s.slot i).gen g).pins - (revoked.filter fun h => (s.handle h).gen = g).length }
  slot : t.slot i = { s.slot i with gens := (t.slot i).gens }
  other : ∀ j, j ≠ i → t.slot j = s.slot j
  handle : ∀ h, t.handle h = if h ∈ revoked then { s.handle h with state := .revoked } else s.handle h
  events : t.events = s.events.takeAll (revoked.map fun h => s.record .handleRevoked h.val (s.handle h).seq 0)
  now : t.now = s.now

theorem revokes_nil (s : State) (i : SlotId) : Revokes s s i [] :=
  ⟨fun _ => rfl, rfl, fun _ _ => rfl, fun _ => rfl, rfl, rfl⟩

theorem revokeHandle_revokes {s : State} {i : SlotId} {h : HandleId} (hh : s.holdsOn i h = true) :
    Revokes s (s.revokeHandle i h) i [h] := by
  unfold revokeHandle
  simp only []
  rw [if_pos (of_decide_eq_true hh)]
  refine ⟨fun g => ?_, ?_, fun j hj => ?_, fun k => ?_, rfl, rfl⟩
  · rw [slot_offer, slot_setHandle, slot_setSlot_self]
    refine (Slot.gen_setGen (s.slot i) (s.handle h).gen g _).trans ?_
    by_cases e : (s.handle h).gen = g
    · rw [if_pos e.symm, ← e]; simp
    · rw [if_neg fun e' => e e'.symm]; simp [e]
  · rw [slot_offer, slot_setHandle, slot_setSlot_self]; rfl
  · rw [slot_offer, slot_setHandle, slot_setSlot, if_neg hj]
  · rw [handle_offer, handle_setHandle, handle_setSlot]
    by_cases e : k = h
    · subst e; simp
    · simp [e]

theorem revokeHandle_not {s : State} {i : SlotId} {h : HandleId} (hh : ¬ s.holdsOn i h = true) : s.revokeHandle i h = s :=
  if_neg fun e => hh (decide_eq_true e)

/-- Revocations of handles that differ, one after the other. -/
theorem Revokes.cons {s u t : State} {i : SlotId} {h : HandleId} {l : List HandleId} (h1 : Revokes s u i [h])
    (h2 : Revokes u t i l) (hn : h ∉ l) : Revokes s t i (h :: l) := by
  have hsame : ∀ k ∈ l, u.handle k = s.handle k := fun k hk => by
    have hne : k ≠ h := fun e => hn (e ▸ hk)
    rw [h1.handle, if_neg (by simpa using hne)]
  refine ⟨fun g => ?_, ?_, fun j hj => (h2.other j hj).trans (h1.other j hj), fun k => ?_, ?_, h2.now.trans h1.now⟩
  · have hfilter : (l.filter fun k => (u.handle k).gen = g) = l.filter fun k => (s.handle k).gen = g :=
      List.filter_congr fun k hk => by rw [hsame k hk]
    rw [h2.gen, h1.gen, hfilter, List.filter_cons]
    by_cases e : (s.handle h).gen = g <;> simp [e]
    omega
  · rw [h2.slot, h1.slot]
  · rw [h2.handle, h1.handle]
    by_cases e : k = h
    · subst e; simp [hn]
    · simp [e]
  · have hrecords : (l.map fun k => u.record .handleRevoked k.val (u.handle k).seq 0) =
        l.map fun k => s.record .handleRevoked k.val (s.handle k).seq 0 :=
      List.map_congr_left fun k hk => by unfold record; rw [hsame k hk, h1.now]
    rw [h2.events, h1.events, hrecords]
    rfl

theorem foldl_revokeHandle (i : SlotId) : ∀ (l : List HandleId) (s : State), l.Nodup →
    Revokes s (l.foldl (fun t h => t.revokeHandle i h) s) i (l.filter fun h => s.holdsOn i h)
  | [], s, _ => revokes_nil s i
  | h :: l, s, hn => by
    obtain ⟨hm, hl⟩ := List.nodup_cons.mp hn
    rw [List.foldl_cons, List.filter_cons]
    have ih := foldl_revokeHandle i l (s.revokeHandle i h) hl
    split
    · rename_i hh
      have h1 := revokeHandle_revokes hh
      have hfilter : (l.filter fun k => (s.revokeHandle i h).holdsOn i k) = l.filter fun k => s.holdsOn i k :=
        List.filter_congr fun k hk => by
          have hne : k ≠ h := fun e => hm (e ▸ hk)
          unfold holdsOn
          rw [h1.handle, if_neg (by simpa using hne)]
      rw [hfilter] at ih
      exact h1.cons ih fun e => hm (List.mem_filter.mp e).1
    · rename_i hh
      rw [revokeHandle_not hh] at ih ⊢
      exact ih

/-- Step 4 of R18, with and without force. -/
def revokedIf (s : State) (i : SlotId) (force : Bool) : State := if force then s.revokeHandles i else s

theorem revokedIf_revokes (s : State) (i : SlotId) (force : Bool) :
    Revokes s (s.revokedIf i force) i ((List.finRange 2).filter fun h => force = true ∧ s.holdsOn i h = true) := by
  cases force with
  | false => simpa [revokedIf] using revokes_nil s i
  | true =>
    have hall : List.finRange 2 = allHandles := by decide
    rw [hall]
    simpa [revokedIf, revokeHandles] using foldl_revokeHandle i allHandles s (by decide)

theorem revokedIf_only (s : State) (i : SlotId) (force : Bool) : s.revokedIf i force = { s with
    slots := (s.revokedIf i force).slots, handles := (s.revokedIf i force).handles
    events := (s.revokedIf i force).events } := by
  cases force with
  | false => rfl
  | true => exact revokeHandles_only s i

end State
end Sys2Proof.Machine

/-! SUPPORT. The judgement of a drain (R20) and a member's departure from its cohort (R64), as the steps of a teardown. -/

namespace Sys2Proof.Machine
namespace State

/-! ### The judgement of a drain -/

/-- What the judgement of a DRAINING slot does, by whether its drain ends (R20). -/
structure DrainJudged (s t : State) (i : SlotId) (ended : Bool) : Prop where
  gen : ∀ g, (t.slot i).gen g = { (s.slot i).gen g with
    head := if ended = true ∧ g.val < (s.slot i).depth then none else ((s.slot i).gen g).head }
  slot : t.slot i = { s.slot i with state := if ended then .unused else .draining, gens := (t.slot i).gens }
  other : ∀ j, j ≠ i → t.slot j = s.slot j
  stays : ended = false → t.pool = s.pool ∧ t.links = s.links
  returns : ended = true → s.returnsChains t [i] ∧ t.pool.alloc = s.pool.alloc ∧
    ∀ k, t.link k = { s.link k with lastSeen := Table.put (s.link k).lastSeen i 0 }
  events : t.events = s.events.takeAll (if ended then
    [s.record .slotReleased i.val (BitVec.ofNat 32 ((s.slot i).depth * (s.slot i).ppg)) 0] else [])
  only : t = { s with slots := t.slots, pool := t.pool, links := t.links, events := t.events }

theorem drainCheck_judged {s : State} {i : SlotId} (h : (s.slot i).state = .draining) :
    DrainJudged s (s.drainCheck i) i (s.slot i).unpinned := by
  have honly := drainCheck_only s i
  cases hu : (s.slot i).unpinned with
  | false =>
    have he : s.drainCheck i = s := if_neg fun e => by rw [hu] at e; exact nomatch e.2
    rw [he] at honly ⊢
    refine ⟨fun g => ?_, ?_, fun _ _ => rfl, fun _ => ⟨rfl, rfl⟩, nofun, rfl, honly⟩
    · rw [if_neg fun e => nomatch e.1]
    · rw [← h]; rfl
  | true =>
    have he : s.drainCheck i = s.drainEnd i := if_pos ⟨h, hu⟩
    rw [he] at honly ⊢
    refine ⟨fun g => ?_, drainEnd_slot s i, fun j hj => drainEnd_other s i j hj, nofun, fun _ => ?_, drainEnd_events s i, honly⟩
    · rw [drainEnd_gen]
      simp
    · exact ⟨drainEnd_returnsChains s i, drainEnd_alloc s i, drainEnd_link s i⟩

/-- The chains that a drain's end gives back are the same in states that agree on the memories and on the slots' chains. -/
theorem returnsChains_congr {s u t : State} {l : List SlotId} (hm : u.memoriesWf = s.memoriesWf) (hp : u.pool = s.pool)
    (hl : ∀ i ∈ l, (u.slot i).depth = (s.slot i).depth ∧ (u.slot i).ppg = (s.slot i).ppg ∧
      ∀ g, ((u.slot i).gen g).head = ((s.slot i).gen g).head) (h : u.returnsChains t l) : s.returnsChains t l := by
  intro free chain hw hf hc
  have hpages : l.flatMap (s.chainPages chain) = l.flatMap (u.chainPages chain) := by
    refine List.flatMap_congr fun i hi => ?_
    unfold chainPages
    rw [(hl i hi).1]
  rw [hpages]
  refine h free chain (hm.trans hw) (hp ▸ hf) fun i hi g hg => ?_
  obtain ⟨hdepth, hppg, hhead⟩ := hl i hi
  rw [hppg, hp, hhead]
  exact hc i hi g (hdepth ▸ hg)

/-! ### The departure from a cohort -/

/-- A departure after which the cohort publishes nothing (R64). -/
structure DepartsQuietly (s t : State) (c : CohortId) (i : SlotId) : Prop where
  cohort : t.cohort c = { s.cohort c with
    members := (s.cohort c).members &&& ~~~ slotBit i, sealed := (s.cohort c).sealed &&& ~~~ slotBit i
    state := if (s.cohort c).sealed &&& ~~~ slotBit i = 0 then .idle else (s.cohort c).state }
  slots : t.slots = s.slots
  events : t.events = s.events

theorem depart_quietly {s : State} {c : CohortId} {i : SlotId}
    (h : (s.cohort c).state = .idle ∨ (s.cohort c).sealed &&& ~~~ slotBit i = 0 ∨
      (s.cohort c).sealed &&& ~~~ slotBit i ≠ (s.cohort c).members &&& ~~~ slotBit i) :
    DepartsQuietly s (s.depart c i) c i := by
  unfold depart
  simp only []
  split
  · rename_i hi
    refine ⟨?_, rfl, rfl⟩
    rw [cohort_setCohort_self, hi, ite_self]
  · rename_i hg
    split
    · rename_i hz
      refine ⟨?_, rfl, rfl⟩
      rw [cohort_setCohort_self, if_pos hz]
    · rename_i hz
      have hne := (h.resolve_left (by rw [hg]; nofun)).resolve_left hz
      rw [if_neg hne]
      refine ⟨?_, rfl, rfl⟩
      rw [cohort_setCohort_self, if_neg hz]

/-- A departure that leaves every member sealed publishes the seals (R60, R64). -/
theorem depart_publishes {s : State} {c : CohortId} {i : SlotId} (hg : (s.cohort c).state = .gathering)
    (hz : (s.cohort c).sealed &&& ~~~ slotBit i ≠ 0)
    (he : (s.cohort c).sealed &&& ~~~ slotBit i = (s.cohort c).members &&& ~~~ slotBit i) :
    s.depart c i = (s.setCohort c { s.cohort c with
      members := (s.cohort c).members &&& ~~~ slotBit i, sealed := (s.cohort c).sealed &&& ~~~ slotBit i }).fullPublish c := by
  unfold depart
  simp only [hg]
  rw [if_neg hz, if_pos he]

/-- The bits of a set that a slot has left. -/
theorem getLsbD_leave (w : BitVec 32) (i j : SlotId) :
    (w &&& ~~~ slotBit i).getLsbD j.val = (w.getLsbD j.val && decide (i ≠ j)) := by
  rw [BitVec.getLsbD_and, BitVec.getLsbD_not, getLsbD_slotBit]
  simp

/-- What such a departure does to the slots, the cohort and the queue. -/
structure DepartsPublishing (s t : State) (c : CohortId) (i : SlotId) : Prop where
  cohort : t.cohort c = { s.cohort c with
    members := (s.cohort c).members &&& ~~~ slotBit i, sealed := 0, state := .idle
    epoch := nextEpochAfter (s.cohort c).epoch }
  publishes : ∀ j, ((s.cohort c).sealed &&& ~~~ slotBit i).getLsbD j.val = true → s.publishesSeal t j (s.cohort c).epoch
  other : ∀ j, ((s.cohort c).sealed &&& ~~~ slotBit i).getLsbD j.val = false → t.slot j = s.slot j
  events : t.events = s.events.take (s.record .cohortPublished c.val ((s.cohort c).epoch.setWidth 32) 0)

theorem depart_publishing {s : State} {c : CohortId} {i : SlotId} (ho : s.oneSeal) (hg : (s.cohort c).state = .gathering)
    (hz : (s.cohort c).sealed &&& ~~~ slotBit i ≠ 0)
    (he : (s.cohort c).sealed &&& ~~~ slotBit i = (s.cohort c).members &&& ~~~ slotBit i) :
    DepartsPublishing s (s.depart c i) c i := by
  rw [depart_publishes hg hz he]
  generalize hu : s.setCohort c _ = u
  have hc : u.cohort c = { s.cohort c with
      members := (s.cohort c).members &&& ~~~ slotBit i, sealed := (s.cohort c).sealed &&& ~~~ slotBit i } := by
    rw [← hu, cohort_setCohort_self]
  have hslot : ∀ j, u.slot j = s.slot j := fun j => by rw [← hu, slot_setCohort]
  refine ⟨?_, fun j hj => ?_, fun j hj => ?_, ?_⟩
  · rw [fullPublish_cohort, if_pos rfl, hc]
  · have h := fullPublish_publishesSeal (c := c) ho (hslot j) (by rw [hc]; exact hj)
    rw [hc] at h
    exact h
  · rw [fullPublish_slot_other (by rw [hc]; exact hj), hslot]
  · rw [fullPublish_events, hc, ← hu]; rfl

end State
end Sys2Proof.Machine

/-! SUPPORT. SLOT_TEARDOWN as a whole (R18 to R20, R64): the steps put together. -/

namespace Sys2Proof.Machine
namespace State

/-! ### What the command's arguments and the state decide -/

/-- The handles that a teardown revokes: with force, those that hold a pin on the slot (R18, R19). -/
def forcedHandles (s : State) (i : SlotId) : List HandleId :=
  (List.finRange 2).filter fun h => s.arg 1 ≠ 0 ∧ (s.handle h).state = .held ∧ (s.handle h).slot = i

/-- PINS of a generation without the pins of some handles (R19). -/
def pinsWithout (s : State) (i : SlotId) (l : List HandleId) (g : GenId) : Nat :=
  ((s.slot i).gen g).pins - (l.filter fun h => (s.handle h).gen = g).length

/-- The slot is left without a pin, so its drain ends at once (R20). -/
def drainsAtOnce (s : State) (i : SlotId) (l : List HandleId) : Bool := decide (∀ g, s.pinsWithout i l g = 0)

/-- The teardown ends the feed's fill (R137). -/
def feedEnds (s : State) (i : SlotId) (filling : Option GenId) : Bool :=
  decide (filling ≠ none ∧ (s.slot i).source = .feed ∧ s.feed.state = .opened ∧ s.feed.slot = i)

theorem feedEnds_iff (s : State) (i : SlotId) (filling : Option GenId) :
    s.feedEnds i filling = true ↔ filling ≠ none ∧ s.feedWrites i = true := by
  rw [feedWrites_iff]; exact decide_eq_true_iff

/-- The records of a teardown, in R18's order. -/
def teardownRecords (s : State) (i : SlotId) (filling sealed : Option GenId) : List EventRecord :=
  (filling.toList.map fun g => s.record .genAbandoned i.val (BitVec.ofNat 32 ((s.slot i).gen g).words) 7) ++
    (if s.feedEnds i filling then [s.record .feedAbandoned i.val (BitVec.ofNat 32 s.feed.wordIndex) 0] else []) ++
    (sealed.toList.map fun g => s.record .genAbandoned i.val (BitVec.ofNat 32 ((s.slot i).gen g).words) 7) ++
    ((s.forcedHandles i).map fun h => s.record .handleRevoked h.val (s.handle h).seq 0) ++
    (if s.drainsAtOnce i (s.forcedHandles i) then
      [s.record .slotReleased i.val (BitVec.ofNat 32 ((s.slot i).depth * (s.slot i).ppg)) 0] else [])

/-- An accepted teardown up to the judgement of the drain, before the slot leaves its cohort (R18). -/
def teardownJudged (s : State) (i : SlotId) : State :=
  ((s.teardownBegun i).revokedIf i (s.arg 1 ≠ 0)).drainCheck i

/-- SLOT_TEARDOWN of an ACTIVE or FROZEN slot (R18). -/
theorem exec_slotTeardown {s : State} {i : SlotId} (hfree : s.unitFree) (hi : (s.arg 0).toNat = i.val)
    (hs : (s.slot i).state = .active ∨ (s.slot i).state = .frozen) :
    exec .slotTeardown s = .next (((s.teardownJudged i).leaveCohort i (s.slot i).cohort).result .ok 0) := by
  refine (hostWrite_trigger s _ hfree).trans (congrArg _ ?_)
  unfold slotTeardown
  rw [objectArg_eq _ i hi]
  exact (if_pos hs).trans (acceptTeardown_eq ..)

/-! ### The slot's gens through the steps -/

/-- A generation's record after the discards of a teardown (R9, R18). -/
def torn (s : State) (i : SlotId) (filling sealed : Option GenId) (g : GenId) : Gen :=
  if filling = some g ∨ sealed = some g then Slot.emptied ((s.slot i).gen g) else (s.slot i).gen g

theorem torn_pins (s : State) (i : SlotId) (filling sealed : Option GenId) (g : GenId) :
    (s.torn i filling sealed g).pins = ((s.slot i).gen g).pins := by
  unfold torn; split <;> rfl

theorem torn_head (s : State) (i : SlotId) (filling sealed : Option GenId) (g : GenId) :
    (s.torn i filling sealed g).head = ((s.slot i).gen g).head := by
  unfold torn; split <;> rfl

theorem gen_without_without (s : State) (i : SlotId) (filling sealed : Option GenId) (g : GenId) :
    (((s.slot i).without filling).without sealed).gen g = s.torn i filling sealed g := by
  rw [Slot.gen_without, Slot.gen_without]
  unfold torn
  by_cases hf : filling = some g <;> by_cases hs : sealed = some g <;> simp [hf, hs, Slot.emptied]

/-- What a teardown has written when its drain has been judged (R18 to R20). -/
structure TeardownJudged (s t : State) (i : SlotId) (filling sealed : Option GenId) (revoked : List HandleId)
    (ended : Bool) : Prop where
  gen : ∀ g, (t.slot i).gen g = { s.torn i filling sealed g with
    pins := s.pinsWithout i revoked g
    head := if ended = true ∧ g.val < (s.slot i).depth then none else ((s.slot i).gen g).head }
  slot : t.slot i = { s.slot i with
    state := if ended then .unused else .draining, cohort := none, gens := (t.slot i).gens
    abandons := if filling = none ∧ sealed = none then (s.slot i).abandons
      else min ((s.slot i).abandons + filling.toList.length + sealed.toList.length) 65535 }
  other : ∀ j, j ≠ i → t.slot j = s.slot j
  port : ∀ p, t.port p = if filling ≠ none ∧ (s.slot i).source = .port p then { s.port p with
      fill := (s.port p).fill.filter fun m => m.slot ≠ i, due := (s.port p).due.filter fun m => m.slot ≠ i }
    else s.port p
  feed : t.feed = if s.feedEnds i filling then { s.feed with state := .idle } else s.feed
  handle : ∀ h, t.handle h = if h ∈ revoked then { s.handle h with state := .revoked } else s.handle h
  stays : ended = false → t.pool = s.pool ∧ t.links = s.links
  returns : ended = true → s.returnsChains t [i] ∧ t.pool.alloc = s.pool.alloc ∧
    ∀ k, t.link k = { s.link k with lastSeen := Table.put (s.link k).lastSeen i 0 }
  events : t.events = s.events.takeAll (s.teardownRecords i filling sealed)
  only : t = { s with
    slots := t.slots, pool := t.pool, ports := t.ports, links := t.links, handles := t.handles, feed := t.feed
    events := t.events }

theorem teardownJudged_spec {s : State} {i : SlotId} {filling sealed : Option GenId}
    (hf : ∀ g, ((s.slot i).gen g).state = .filling ↔ filling = some g)
    (hs : ∀ g, ((s.slot i).gen g).state = .sealed ↔ sealed = some g) :
    TeardownJudged s (s.teardownJudged i) i filling sealed (s.forcedHandles i) (s.drainsAtOnce i (s.forcedHandles i)) := by
  have hb := teardownBegun_spec hf hs
  have hr := revokedIf_revokes (s.teardownBegun i) i (s.arg 1 ≠ 0)
  have honly := revokedIf_only (s.teardownBegun i) i (s.arg 1 ≠ 0)
  unfold teardownJudged
  generalize s.teardownBegun i = u at hb hr honly ⊢
  generalize u.revokedIf i (s.arg 1 ≠ 0) = v at hr honly ⊢
  have hhandles : u.handles = s.handles := by rw [hb.only]
  have hhandle : ∀ h, u.handle h = s.handle h := fun h => congrArg (fun m : Table 2 Handle => m.get h) hhandles
  have hrevoked : ((List.finRange 2).filter fun h => decide (s.arg 1 ≠ 0) = true ∧ u.holdsOn i h = true) =
      s.forcedHandles i :=
    List.filter_congr fun h _ => by unfold holdsOn; rw [hhandle]; simp
  rw [hrevoked] at hr
  have hugen : ∀ g, (u.slot i).gen g = s.torn i filling sealed g := fun g => by
    rw [hb.slot]; exact gen_without_without s i filling sealed g
  have hvgen : ∀ g, (v.slot i).gen g =
      { s.torn i filling sealed g with pins := s.pinsWithout i (s.forcedHandles i) g } := fun g => by
    rw [hr.gen, hugen, torn_pins]
    simp only [hhandle]
    rfl
  have hvslot : v.slot i = { s.slot i with
      state := .draining, cohort := none, gens := (v.slot i).gens
      abandons := if filling = none ∧ sealed = none then (s.slot i).abandons
        else min ((s.slot i).abandons + filling.toList.length + sealed.toList.length) 65535 } := by
    rw [← Slot.abandons_without_without, hr.slot, hb.slot, Slot.without_eq ((s.slot i).without filling) sealed,
      Slot.without_eq (s.slot i) filling]
  have hended : (v.slot i).unpinned = s.drainsAtOnce i (s.forcedHandles i) := by
    unfold drainsAtOnce
    rw [Bool.eq_iff_iff, unpinned_iff, decide_eq_true_eq]
    simp only [hvgen]
  have hj := drainCheck_judged (s := v) (i := i) (by rw [hvslot])
  rw [hended] at hj
  have hstate : v = { s with
      slots := v.slots, ports := v.ports, feed := v.feed, handles := v.handles, events := v.events } := by
    rw [honly, hb.only]
  have hpool : v.pool = s.pool := by rw [hstate]
  have hlinks : v.links = s.links := by rw [hstate]
  have hnow : u.now = s.now := by rw [hb.only]; rfl
  have hdepth : (v.slot i).depth = (s.slot i).depth := by rw [hvslot]
  have hppg : (v.slot i).ppg = (s.slot i).ppg := by rw [hvslot]
  have hhead : ∀ g, ((v.slot i).gen g).head = ((s.slot i).gen g).head := fun g => by rw [hvgen]; exact torn_head ..
  generalize v.drainCheck i = t at hj ⊢
  refine ⟨fun g => ?_, ?_, fun j h => ?_, fun p => ?_, ?_, fun h => ?_, fun h => ?_, fun h => ?_, ?_, ?_⟩
  · rw [hj.gen, hhead, hdepth, hvgen]
  · rw [hj.slot, hvslot]
  · rw [hj.other j h, hr.other j h, hb.other j h]
  · have hports : t.ports = u.ports := by rw [hj.only]; show v.ports = _; rw [honly]
    exact (congrArg (fun m : Table 12 Port => m.get p) hports).trans (hb.port p)
  · have hfeed : t.feed = u.feed := by rw [hj.only]; show v.feed = _; rw [honly]
    simp only [feedEnds_iff]
    exact hfeed.trans hb.feed
  · have hh : t.handles = v.handles := by rw [hj.only]
    refine (congrArg (fun m : Table 2 Handle => m.get h) hh).trans ((hr.handle h).trans ?_)
    rw [hhandle]
  · obtain ⟨hp, hl⟩ := hj.stays h
    exact ⟨hp.trans hpool, hl.trans hlinks⟩
  · obtain ⟨hc, ha, hl⟩ := hj.returns h
    refine ⟨returnsChains_congr ?_ hpool (fun k hk => ?_) hc, ha.trans (congrArg Pool.alloc hpool), fun k => ?_⟩
    · rw [hstate]; rfl
    · obtain rfl := List.mem_singleton.mp hk
      exact ⟨hdepth, hppg, hhead⟩
    · rw [hl, show v.link k = s.link k from congrArg (fun m : Table 6 Link => m.get k) hlinks]
  · have hrecord : ∀ k o a r, v.record k o a r = s.record k o a r := fun k o a r => by unfold record; rw [hr.now, hnow]
    have hurecord : ∀ k o a r, u.record k o a r = s.record k o a r := fun k o a r => by unfold record; rw [hnow]
    unfold teardownRecords
    simp only [feedEnds_iff]
    rw [hj.events, hr.events, hb.events, hdepth, hppg, ← EventQueue.takeAll_append, ← EventQueue.takeAll_append]
    simp only [hrecord, hurecord, hhandle, List.append_assoc]
  · rw [hj.only, hstate]

end State
end Sys2Proof.Machine

/-! SUPPORT. O14 and O15: SLOT_TEARDOWN's result, from the judged drain and the departure from the cohort. -/

namespace Sys2Proof.Machine
namespace State

/-! ### The departure and the other parts of the state -/

theorem depart_other (s : State) (c d : CohortId) (i : SlotId) (h : d ≠ c) : (s.depart c i).cohort d = s.cohort d := by
  unfold depart
  simp only []
  split
  · rw [cohort_setCohort, if_neg h]
  · split
    · rw [cohort_setCohort, if_neg h, cohort_setCohort, if_neg h]
    · split
      · rw [fullPublish_cohort, if_neg h, cohort_setCohort, if_neg h]
      · rw [cohort_setCohort, if_neg h]

/-- The slot that leaves is itself left as it is (R64). -/
theorem leaveCohort_slot_self (s : State) (i : SlotId) (c : Option CohortId) : (s.leaveCohort i c).slot i = s.slot i := by
  unfold leaveCohort
  split
  · rename_i c
    unfold depart
    simp only []
    split <;> [rfl; skip]
    split <;> [rfl; skip]
    split <;> [skip; rfl]
    refine (fullPublish_slot_other ?_).trans (slot_setCohort ..)
    rw [cohort_setCohort_self, getLsbD_leave]
    simp
  · rfl

/-- After the discard of its seal a torn-down slot has none. -/
theorem torn_not_sealed {s : State} {i : SlotId} {filling sealed : Option GenId}
    (hs : ∀ g, ((s.slot i).gen g).state = .sealed ↔ sealed = some g) (g : GenId) :
    (s.torn i filling sealed g).state ≠ .sealed := by
  unfold torn
  split
  · nofun
  · rename_i h
    exact fun e => h (.inr ((hs g).mp e))

theorem TeardownJudged.oneSeal {s t : State} {i : SlotId} {filling sealed : Option GenId} {l : List HandleId} {ended : Bool}
    (h : TeardownJudged s t i filling sealed l ended) (hs : ∀ g, ((s.slot i).gen g).state = .sealed ↔ sealed = some g)
    (ho : s.oneSeal) : t.oneSeal := by
  intro j a b ha hb
  by_cases e : j = i
  · subst e
    rw [h.gen] at ha
    exact absurd ha (torn_not_sealed hs a)
  · rw [h.other j e] at ha hb
    exact ho j a b ha hb

/-- Where the slot is in no cohort, the whole command is the judged drain. -/
theorem exec_slotTeardown_alone {s : State} {i : SlotId} (hfree : s.unitFree) (hi : (s.arg 0).toNat = i.val)
    (hs : (s.slot i).state = .active ∨ (s.slot i).state = .frozen) (hc : (s.slot i).cohort = none) :
    exec .slotTeardown s = .next ((s.teardownJudged i).result .ok 0) := by
  rw [exec_slotTeardown hfree hi hs, hc]
  rfl

/-- Without a FILLING and a SEALED generation and without force, all that a teardown does is to judge the drain. -/
theorem teardownJudged_plain {s : State} {i : SlotId} (hforce : s.arg 1 = 0) (hc : (s.slot i).cohort = none)
    (hg : ∀ g, ((s.slot i).gen g).state ≠ .filling ∧ ((s.slot i).gen g).state ≠ .sealed) :
    s.teardownJudged i = (s.setSlot i { s.slot i with state := .draining }).drainCheck i := by
  have hf : (s.slot i).fillingGen = none := Slot.fillingGen_eq fun g => iff_of_false (hg g).1 nofun
  have hs : (s.slot i).sealedGen = none := sealedGen_none _ fun g => (hg g).2
  unfold teardownJudged revokedIf teardownBegun dropSeal
  rw [abandonFilling_none hf, hforce, ← hc]
  simp only [hs]
  rfl

end State

/-- Settles O14: with no generation FILLING or SEALED and no force, a teardown only judges the drain. -/
theorem teardownDrainsOrReleases : Obligations.TeardownDrainsOrReleases := by
  unfold Obligations.TeardownDrainsOrReleases
  intro s i hfree hi hforce hs hc hg
  rw [State.exec_slotTeardown_alone hfree hi hs hc, State.teardownJudged_plain hforce hc hg]
  have hslot : (s.setSlot i { s.slot i with state := .draining }).slot i = { s.slot i with state := .draining } :=
    State.slot_setSlot_self ..
  have hother : ∀ j, j ≠ i → (s.setSlot i { s.slot i with state := .draining }).slot j = s.slot j := fun j hj =>
    (State.slot_setSlot ..).trans (if_neg hj)
  have honly : s.setSlot i { s.slot i with state := .draining } =
      { s with slots := (s.setSlot i { s.slot i with state := .draining }).slots } := rfl
  generalize s.setSlot i { s.slot i with state := .draining } = u at hslot hother honly ⊢
  have hgen : ∀ g, (u.slot i).gen g = (s.slot i).gen g := fun g => by rw [hslot]; rfl
  refine ⟨fun ⟨g, hp⟩ => ?_, fun hp hh hd => ?_⟩
  · have hpinned : u.drainCheck i = u := if_neg fun e => by
      have := (State.unpinned_iff _).mp e.2 g
      rw [hgen] at this
      omega
    rw [hpinned]
    refine ⟨u.result .ok 0, rfl, hslot, hother, ?_⟩
    rw [honly]
    rfl
  · have hpool : u.pool = s.pool := by rw [honly]
    have hmem : u.memoriesWf = s.memoriesWf := by rw [honly]; rfl
    have hrec : ∀ k o a r, u.record k o a r = s.record k o a r := fun k o a r => by rw [honly]; rfl
    have hdepth : (u.slot i).depth = (s.slot i).depth := by rw [hslot]
    have hppg : (u.slot i).ppg = (s.slot i).ppg := by rw [hslot]
    have hlink : ∀ k, u.link k = s.link k := fun k => by rw [honly]; rfl
    have hevents : u.events = s.events := by rw [honly]
    have hdraining : (u.slot i).state = .draining := by rw [hslot]
    have hunpinned : (u.slot i).unpinned = true := (State.unpinned_iff _).mpr fun g => by rw [hgen]; exact hp g
    have hended : u.drainCheck i = u.drainEnd i := if_pos ⟨hdraining, hunpinned⟩
    have hcount := State.drainEnd_count (s := u) (i := i) (hdepth ▸ hd) fun g hg => by rw [hgen]; exact hh g (hdepth ▸ hg)
    have hj := State.drainCheck_judged hdraining
    rw [hunpinned, hended] at hj
    rw [hended]
    generalize u.drainEnd i = t at hj hcount ⊢
    obtain ⟨hreturns, halloc, hlinks⟩ := hj.returns rfl
    refine ⟨t.result .ok 0, rfl, ?_, fun g hg => ?_, fun g hg => ?_, fun j h => (hj.other j h).trans (hother j h), ?_, ?_,
      ?_, fun k => ?_, ?_, ?_⟩
    · show t.slot i = _
      rw [hj.slot, hslot]
      rfl
    · refine (hj.gen g).trans ?_
      rw [hgen, hdepth, if_pos ⟨rfl, hg⟩]
    · refine (hj.gen g).trans ?_
      rw [hgen, hdepth, if_neg fun e => Nat.not_lt.mpr hg e.2]
    · refine hcount.trans ?_
      rw [hpool, hdepth, hppg]
    · exact halloc.trans (congrArg Pool.alloc hpool)
    · refine State.returnsChains_congr (t := t) hmem hpool (fun k hk => ?_) hreturns
      obtain rfl := List.mem_singleton.mp hk
      exact ⟨hdepth, hppg, fun g => by rw [hgen]⟩
    · refine (hlinks k).trans ?_
      rw [hlink]
    · refine hj.events.trans ?_
      rw [hevents, hrec, hdepth, hppg]
      rfl
    · rw [hj.only, honly]
      rfl

end Sys2Proof.Machine

/-! SUPPORT. O15: SLOT_TEARDOWN's changes together, with the departure from the cohort (R18, R64). -/

namespace Sys2Proof.Machine
namespace State

/-- A departure of the torn-down slot, as seen from the state in which the command was taken. -/
theorem publishesSeal_congr {s u t : State} {j : SlotId} {e : BitVec 16} (h : u.slot j = s.slot j)
    (hp : u.publishesSeal t j e) : s.publishesSeal t j e := by
  unfold publishesSeal at hp ⊢
  rwa [h] at hp

/-- SLOT_TEARDOWN is refused in every other state, and for a number above 31 (R18). -/
theorem exec_slotTeardown_badArg {s : State} (hfree : s.unitFree) (h : 31 < (s.arg 0).toNat) :
    exec .slotTeardown s = .next (s.refusedBy .badArg 1) := by
  refine (hostWrite_trigger s _ hfree).trans (congrArg _ ?_)
  unfold slotTeardown
  rw [objectArg_none (by omega)]
  rfl

theorem exec_slotTeardown_badState {s : State} {i : SlotId} (hfree : s.unitFree) (hi : (s.arg 0).toNat = i.val)
    (ha : (s.slot i).state ≠ .active) (hf : (s.slot i).state ≠ .frozen) :
    exec .slotTeardown s = .next (s.refusedBy .state 2) := by
  refine (hostWrite_trigger s _ hfree).trans (congrArg _ ?_)
  unfold slotTeardown
  rw [objectArg_eq _ i hi]
  exact if_neg fun e => e.elim ha hf

end State

/-- Settles O15: the judged drain of the emptied slot, then its departure from the cohort. -/
theorem teardownEndsWritersAndSeals : Obligations.TeardownEndsWritersAndSeals := by
  unfold Obligations.TeardownEndsWritersAndSeals
  intro s hfree
  refine ⟨State.exec_slotTeardown_badArg hfree, fun i hi => ⟨State.exec_slotTeardown_badState hfree hi, ?_⟩⟩
  intro filling sealed hstate hf hs ho x revoked pinsAfter ended feedEnds wordsOf
  have hj := State.teardownJudged_spec hf hs
  have hseal := hj.oneSeal hs ho
  have hexec := State.exec_slotTeardown hfree hi hstate
  have hself := State.leaveCohort_slot_self (s.teardownJudged i) i (s.slot i).cohort
  have honly := State.leaveCohort_only (s.teardownJudged i) i (s.slot i).cohort
  have hcohort : ∀ d, (s.teardownJudged i).cohort d = s.cohort d := fun d => by rw [hj.only]; rfl
  have hcohorts : (s.teardownJudged i).cohorts = s.cohorts := by rw [hj.only]
  have hrecord : ∀ k o a r, (s.teardownJudged i).record k o a r = s.record k o a r := fun k o a r => by rw [hj.only]; rfl
  generalize s.teardownJudged i = u at *
  generalize ht : u.leaveCohort i (s.slot i).cohort = t at *
  have hdepart : ∀ c, (s.slot i).cohort = some c → u.depart c i = t := fun c hc => by rw [← ht, hc]; rfl
  have hports : t.ports = u.ports := by rw [honly]
  have hfeed : t.feed = u.feed := by rw [honly]
  have hhandles : t.handles = u.handles := by rw [honly]
  have hlinks : t.links = u.links := by rw [honly]
  have hpool : t.pool = u.pool := by rw [honly]
  refine ⟨t.result .ok 0, hexec, fun g => ?_, ?_, fun p => ?_, ?_, fun h => ?_, fun h => ?_, fun h => ?_, ⟨fun hc => ?_,
    fun c hc => ⟨fun d hd => ?_, fun hq => ?_, fun hg hz he => ?_⟩⟩, ?_⟩
  · exact (congrArg (fun y : Slot => y.gen g) hself).trans (hj.gen g)
  · have hslot := hj.slot
    rw [← hself] at hslot
    exact hslot
  · exact (congrArg (fun m : Table 12 Port => m.get p) hports).trans (hj.port p)
  · exact hfeed.trans hj.feed
  · exact (congrArg (fun m : Table 2 Handle => m.get h) hhandles).trans (hj.handle h)
  · exact ⟨hpool.trans (hj.stays h).1, hlinks.trans (hj.stays h).2⟩
  · obtain ⟨hreturns, halloc, hlink⟩ := hj.returns h
    refine ⟨fun free chain hw hl hc hd => ?_, (congrArg Pool.alloc hpool).trans halloc, fun k => ?_⟩
    · show freeList t.pool _
      rw [hpool]
      exact hreturns free chain hw hl hc hd
    · exact (congrArg (fun m : Table 6 Link => m.get k) hlinks).trans (hlink k)
  · have htu : u = t := by rw [← ht, show (s.slot i).cohort = none from hc]; rfl
    subst htu
    exact ⟨hcohorts, hj.other, hj.events⟩
  · show t.cohort d = _
    rw [← hdepart c hc, State.depart_other _ _ _ _ hd, hcohort]
  · have hd := State.depart_quietly (s := u) (c := c) (i := i) (by rw [hcohort]; exact hq)
    rw [hdepart c hc] at hd
    have hd1 := hd.cohort
    rw [hcohort] at hd1
    exact ⟨hd1, fun j h => (congrArg (fun m : Table 32 Slot => m.get j) hd.slots).trans (hj.other j h),
      hd.events.trans hj.events⟩
  · have hd := State.depart_publishing (s := u) (c := c) (i := i) hseal (by rw [hcohort]; exact hg)
      (by rw [hcohort]; exact hz) (by rw [hcohort]; exact he)
    rw [hdepart c hc] at hd
    obtain ⟨hd1, hd2, hd3, hd4⟩ := hd
    rw [hcohort] at hd1 hd2 hd3 hd4
    rw [hrecord, hj.events] at hd4
    rw [nextEpochAfter_eq] at hd1
    refine ⟨hd1, fun j hb => ?_, fun j h hb => (hd3 j hb).trans (hj.other j h), hd4⟩
    have hne : j ≠ i := fun e => by
      have hleft := (State.getLsbD_leave (s.cohort c).sealed i j).symm.trans hb
      simp [e] at hleft
    exact State.publishesSeal_congr (t := t) (hj.other j hne) (hd2 j hb)
  · show State.result _ _ _ = _
    rw [honly, hj.only]
    rfl

end Sys2Proof.Machine

/-! SUPPORT. The pages of the pool through a step (R25 to R30): what a step can do to the page pool and to the places where
the chains of the slots hang. -/

namespace Sys2Proof.Machine

/-- Two descriptors of a slot at which the same chains hang: whether it is UNUSED or CONFIGURING, DEPTH, PPG and HEAD of
every generation are the same. -/
structure Slot.SameSite (x y : Slot) : Prop where
  unused : y.state = .unused ↔ x.state = .unused
  configuring : y.state = .configuring ↔ x.state = .configuring
  depth : y.depth = x.depth
  ppg : y.ppg = x.ppg
  head : ∀ g, (y.gen g).head = (x.gen g).head

theorem Slot.SameSite.refl (x : Slot) : x.SameSite x := ⟨.rfl, .rfl, rfl, rfl, fun _ => rfl⟩

theorem Slot.SameSite.trans {x y z : Slot} (h : x.SameSite y) (h' : y.SameSite z) : x.SameSite z where
  unused := h'.unused.trans h.unused
  configuring := h'.configuring.trans h.configuring
  depth := h'.depth.trans h.depth
  ppg := h'.ppg.trans h.ppg
  head g := (h'.head g).trans (h.head g)

/-- Another state of the slot that is neither UNUSED nor CONFIGURING. -/
theorem Slot.sameSite_state {x y : Slot} (hx : x.state ≠ .unused ∧ x.state ≠ .configuring)
    (hy : y.state ≠ .unused ∧ y.state ≠ .configuring) (hd : y.depth = x.depth) (hp : y.ppg = x.ppg) (hg : y.gens = x.gens) :
    x.SameSite y :=
  ⟨iff_of_false hy.1 hx.1, iff_of_false hy.2 hx.2, hd, hp, fun g => by unfold Slot.gen; rw [hg]⟩

/-- One generation record replaced by one with the same HEAD, and fields that do not matter here. -/
theorem Slot.sameSite_setGen {x z : Slot} (g : GenId) (y : Gen) (hz : z.gens = (x.setGen g y).gens)
    (hs : z.state = x.state) (hd : z.depth = x.depth) (hp : z.ppg = x.ppg) (hy : y.head = (x.gen g).head) : x.SameSite z := by
  refine ⟨by rw [hs], by rw [hs], hd, hp, fun h => ?_⟩
  have e : z.gen h = (x.setGen g y).gen h := by unfold Slot.gen; rw [hz]
  rw [e, Slot.gen_setGen]
  split
  · rename_i e; rw [e, hy]
  · rfl

namespace State

/-- At every slot the same chains hang. -/
structure SitesKept (s t : State) : Prop where
  site : ∀ i, (s.slot i).SameSite (t.slot i)

theorem SitesKept.trans {s t u : State} (h : SitesKept s t) (h' : SitesKept t u) : SitesKept s u :=
  ⟨fun i => (h.site i).trans (h'.site i)⟩

theorem sitesKept_of_slots {s t : State} (h : t.slots = s.slots) : SitesKept s t :=
  ⟨fun i => by unfold slot; rw [h]; exact .refl _⟩

theorem sitesKept_self (s : State) : SitesKept s s := sitesKept_of_slots rfl

theorem SitesKept.slots {s t u : State} (h : SitesKept s t) (hu : u.slots = t.slots) : SitesKept s u :=
  h.trans (sitesKept_of_slots hu)

theorem SitesKept.offer {s t : State} (h : SitesKept s t) (k : EventKind) (o : Nat) (a : Word) (r : BitVec 4) :
    SitesKept s (t.offer k o a r) := h.slots (u := t.offer k o a r) rfl

theorem sitesKept_foldl {α : Type} {f : State → α → State} (hf : ∀ t x, SitesKept t (f t x)) (l : List α) (s : State) :
    SitesKept s (l.foldl f s) :=
  foldl_rel SitesKept f sitesKept_self (fun _ _ _ => .trans) hf l s

theorem sitesKept_setSlot (s : State) (i : SlotId) (x : Slot) (hx : (s.slot i).SameSite x) : SitesKept s (s.setSlot i x) :=
  ⟨fun j => by rw [slot_setSlot]; split <;> [(rename_i e; rw [e]; exact hx); exact .refl _]⟩

/-- One generation record of a slot replaced by one with the same HEAD. -/
theorem sitesKept_setGen (s : State) (i : SlotId) (x : Slot) (g : GenId) (y : Gen)
    (hx : x.gens = ((s.slot i).setGen g y).gens) (hs : x.state = (s.slot i).state) (hd : x.depth = (s.slot i).depth)
    (hp : x.ppg = (s.slot i).ppg) (hy : y.head = ((s.slot i).gen g).head) : SitesKept s (s.setSlot i x) :=
  sitesKept_setSlot s i x (Slot.sameSite_setGen g y hx hs hd hp hy)

/-! ### The operations on slots that leave the chains -/

theorem abandon_sites (s : State) (i : SlotId) (g : GenId) (w : AbandonReason) : SitesKept s (s.abandon i g w) := by
  unfold abandon
  split
  · exact (sitesKept_setGen s i ((s.slot i).abandoned g) g (Slot.emptied ((s.slot i).gen g)) rfl rfl rfl rfl rfl).offer ..
  · exact sitesKept_self s

theorem dropSeal_sites (s : State) (i : SlotId) (w : AbandonReason) : SitesKept s (s.dropSeal i w) := by
  unfold dropSeal
  split
  · exact sitesKept_self s
  · rename_i g _
    exact (sitesKept_setGen s i ((s.slot i).abandoned g) g (Slot.emptied ((s.slot i).gen g)) rfl rfl rfl rfl rfl).offer ..

theorem publishSeal_sites (s : State) (i : SlotId) (e : BitVec 16) (b : Bool) : SitesKept s (s.publishSeal i e b) := by
  unfold publishSeal
  split
  · exact sitesKept_self s
  · rename_i g _
    exact sitesKept_setGen s i _ g _ rfl rfl rfl rfl rfl

theorem publishSeals_sites (s : State) (set : BitVec 32) (e : BitVec 16) (b : Bool) : SitesKept s (s.publishSeals set e b) :=
  sitesKept_foldl (fun t i => by split <;> [exact publishSeal_sites t i e b; exact sitesKept_self t]) allSlots s

theorem discardSeals_sites (s : State) (set : BitVec 32) : SitesKept s (s.discardSeals set) :=
  sitesKept_foldl (fun t i => by split <;> [exact dropSeal_sites t i _; exact sitesKept_self t]) allSlots s

theorem fullPublish_sites (s : State) (c : CohortId) : SitesKept s (s.fullPublish c) :=
  (publishSeals_sites s (s.cohort c).sealed (s.cohort c).epoch false).slots rfl

theorem setCohort_fullPublish_sites (s : State) (c : CohortId) (k : Cohort) : SitesKept s ((s.setCohort c k).fullPublish c) :=
  SitesKept.trans (t := s.setCohort c k) (sitesKept_of_slots rfl) (fullPublish_sites _ c)

theorem sealReport_sites (s : State) (c : CohortId) (i : SlotId) (b : Bool) : SitesKept s (s.sealReport c i b) := by
  unfold sealReport
  simp only []
  split
  · split <;> [exact setCohort_fullPublish_sites ..; exact sitesKept_of_slots rfl]
  · split <;> [exact sitesKept_self s; skip]
    split <;> [exact setCohort_fullPublish_sites ..; exact sitesKept_of_slots rfl]

theorem leaveCohort_sites (s : State) (i : SlotId) (c : Option CohortId) : SitesKept s (s.leaveCohort i c) := by
  unfold leaveCohort
  split <;> [skip; exact sitesKept_self s]
  unfold depart
  simp only []
  split <;> [exact sitesKept_of_slots rfl; skip]
  split <;> [exact sitesKept_of_slots rfl; skip]
  split <;> [exact setCohort_fullPublish_sites ..; exact sitesKept_of_slots rfl]

theorem sealGen_sites (s : State) (i : SlotId) (g : GenId) (c : CohortId) (n : Nat) : SitesKept s (s.sealGen i g c n) := by
  have hy : (s.slot i).SameSite ((s.slot i).setGen g { (s.slot i).completed ((s.slot i).gen g) n with state := .sealed }) :=
    Slot.sameSite_setGen g _ rfl rfl rfl rfl rfl
  unfold sealGen
  simp only []
  generalize (s.slot i).setGen g _ = y at hy ⊢
  split
  · exact (sitesKept_setSlot s i y hy).trans (sealReport_sites ..)
  · rename_i o _
    have hz : y.SameSite (y.setGen o (Slot.emptied ((s.slot i).gen o))) :=
      Slot.sameSite_setGen o _ rfl rfl rfl rfl (hy.head o).symm
    exact ((sitesKept_setSlot s i _ (hy.trans hz)).offer ..).trans (sealReport_sites ..)

theorem complete_sites (s : State) (i : SlotId) (g : GenId) (n : Nat) : SitesKept s (s.complete i g n) := by
  unfold complete
  simp only []
  split <;> [skip; exact sitesKept_self s]
  split
  · exact sitesKept_setGen s i _ g _ rfl rfl rfl rfl rfl
  · exact sealGen_sites ..

theorem windowExpiry_sites (s : State) (c : CohortId) : SitesKept s (s.windowExpiry c) := by
  unfold windowExpiry
  split <;> [skip; exact sitesKept_self s]
  split
  · exact (publishSeals_sites s (s.cohort c).sealed (s.cohort c).epoch true).slots rfl
  · exact (discardSeals_sites s (s.cohort c).sealed).slots rfl

theorem requestTarget_sites (s : State) (i : SlotId) (stamp : Tick) (tag : BitVec 8) :
    SitesKept s (s.requestTarget i stamp tag) := by
  unfold requestTarget
  simp only []
  split
  · rename_i g _
    exact sitesKept_setGen s i _ g _ rfl rfl rfl rfl rfl
  · exact (sitesKept_setSlot s i { s.slot i with overruns := saturate16 (s.slot i).overruns }
      ⟨.rfl, .rfl, rfl, rfl, fun _ => rfl⟩).offer ..

theorem setPins_sites (s : State) (i : SlotId) (g : GenId) (n : Nat) : SitesKept s (s.setSlot i ((s.slot i).setPins g n)) :=
  sitesKept_setGen s i _ g _ rfl rfl rfl rfl rfl

/-! ### Ports and the feed -/

theorem abandonMembers_sites (s : State) (l : List FillMember) (w : AbandonReason) : SitesKept s (s.abandonMembers l w) :=
  sitesKept_foldl (fun _ _ => by exact abandon_sites ..) l s

theorem giveUpBlock_sites (s : State) (p : PortId) (w : AbandonReason) : SitesKept s (s.giveUpBlock p w) :=
  (abandonMembers_sites s (s.port p).fill w).slots rfl

theorem giveUpOpen_sites (s : State) (p : PortId) (w : AbandonReason) :
    SitesKept s (if (s.port p).state = .inBlock then s.giveUpBlock p w else s) := by
  split <;> [exact giveUpBlock_sites ..; exact sitesKept_self s]

theorem leaveEntry_sites (s : State) (p : PortId) : SitesKept s (s.leaveEntry p) := by
  unfold leaveEntry
  split <;> [exact sitesKept_self s; skip]
  split <;> [exact (giveUpOpen_sites s p .captureOverflow).slots rfl; exact sitesKept_of_slots rfl]

theorem endBlock_sites (s : State) (p : PortId) : SitesKept s (s.endBlock p) :=
  SitesKept.slots (t := s.completeMembers (s.port p).fill)
    (sitesKept_foldl (fun _ _ => by exact complete_sites ..) (s.port p).fill s) rfl

theorem finishWord_sites (s : State) (p : PortId) : SitesKept s (s.finishWord p) := by
  unfold finishWord
  split <;> [exact sitesKept_self s; skip]
  simp only []
  generalize hu : s.setPort p _ = u
  have hsu : SitesKept s u := sitesKept_of_slots (by rw [← hu]; rfl)
  split
  · exact hsu.trans ((endBlock_sites u p).trans (leaveEntry_sites _ p))
  · exact hsu.trans (leaveEntry_sites u p)

theorem takeWord_sites (s : State) (p : PortId) : SitesKept s (s.takeWord p) := by
  unfold takeWord
  simp only []
  split
  · exact finishWord_sites s p
  · exact sitesKept_of_slots (by rw [presentWrite_slots]; rfl)

theorem afterRequest_sites (s : State) (p : PortId) : SitesKept s (s.afterRequest p) := by
  unfold afterRequest
  split
  · exact sitesKept_of_slots (presentWrite_slots s p)
  · split <;> [exact finishWord_sites s p; exact sitesKept_self s]

theorem offerBlock_sites (s : State) (p : PortId) (e : FifoEntry) (i : SlotId) : SitesKept s (s.offerBlock p e i) := by
  unfold offerBlock
  simp only []
  split <;> [skip; exact sitesKept_self s]
  split
  · generalize hu : s.setSlot i _ = u
    have hsu : SitesKept s u := hu ▸ sitesKept_setSlot s i _ ⟨.rfl, .rfl, rfl, rfl, fun _ => rfl⟩
    unfold keepBlock
    split
    · exact (hsu.trans (requestTarget_sites u i e.arrived e.tag)).slots rfl
    · exact hsu.trans (requestTarget_sites u i e.arrived e.tag)
  · exact sitesKept_setSlot s i _ ⟨.rfl, .rfl, rfl, rfl, fun _ => rfl⟩

theorem beginBlock_sites (s : State) (p : PortId) (e : FifoEntry) : SitesKept s (s.beginBlock p e) := by
  unfold beginBlock
  simp only []
  have hu := giveUpOpen_sites s p .missingEnd
  generalize (if (s.port p).state = .inBlock then s.giveUpBlock p .missingEnd else s) = u at hu ⊢
  generalize hv : u.setPort p _ = v
  have hsv : SitesKept s v := hu.slots (by rw [← hv]; rfl)
  have hoffer : SitesKept v (v.offerToSlots p e) := sitesKept_foldl (fun t i => offerBlock_sites t p e i) allSlots v
  generalize v.offerToSlots p e = w at hoffer ⊢
  exact (hsv.trans hoffer).slots rfl

theorem headStart_sites (s : State) (p : PortId) : SitesKept s (s.headStart p) := by
  unfold headStart
  split <;> [exact sitesKept_self s; skip]
  split <;> [skip; exact sitesKept_self s]
  split
  · exact beginBlock_sites ..
  · exact (beginBlock_sites ..).trans (takeWord_sites _ p)

theorem headError_sites (s : State) (p : PortId) : SitesKept s (s.headError p) := by
  unfold headError
  split <;> [exact sitesKept_self s; skip]
  split <;> [skip; exact sitesKept_self s]
  have hu := giveUpBlock_sites s p .sourceError
  simp only []
  generalize s.giveUpBlock p .sourceError = u at hu ⊢
  exact (hu.slots (u := u.setPort p { u.port p with state := .idle }) rfl).trans (leaveEntry_sites _ p)

theorem disablePort_sites (s : State) (p : PortId) : SitesKept s (s.disablePort p) := by
  unfold disablePort
  split <;> [exact (giveUpOpen_sites s p .portDisabled).slots rfl; exact sitesKept_self s]

theorem writeEnables_sites (s : State) (v : Word) : SitesKept s (s.writeEnables v) :=
  sitesKept_foldl (fun t p => by
    split <;> [exact sitesKept_of_slots (by rw [enablePort_only]); exact disablePort_sites t p]) allPorts s

theorem feedOpen_sites (s : State) : SitesKept s s.feedOpen := by
  unfold feedOpen
  split <;> [exact sitesKept_of_slots rfl; skip]
  rename_i i _
  split <;> [exact sitesKept_of_slots rfl; skip]
  split <;> [exact sitesKept_of_slots rfl; skip]
  split <;> [exact sitesKept_of_slots rfl; skip]
  split <;> [exact sitesKept_of_slots rfl; skip]
  split <;> [exact sitesKept_of_slots rfl; skip]
  have ht := requestTarget_sites s i s.now ((s.arg 1).setWidth 8)
  unfold openFeed
  simp only []
  split <;> exact ht.slots rfl

theorem feedClose_sites (s : State) : SitesKept s s.feedClose := by
  unfold feedClose
  split <;> [exact sitesKept_of_slots rfl; skip]
  generalize hu : s.setFeed _ = u
  have hsu : SitesKept s u := sitesKept_of_slots (by rw [← hu]; rfl)
  exact (hsu.trans (complete_sites u _ _ _)).slots rfl

theorem abandonFeed_sites (s : State) (w : AbandonReason) :
    SitesKept s ((s.setFeed { s.feed with state := .idle }).abandon s.feed.slot s.feed.gen w) :=
  SitesKept.trans (t := s.setFeed { s.feed with state := .idle }) (sitesKept_of_slots rfl) (abandon_sites ..)

theorem feedAbort_sites (s : State) : SitesKept s s.feedAbort := by
  unfold feedAbort
  split <;> [exact sitesKept_of_slots rfl; exact (abandonFeed_sites s .feedAbort).slots rfl]

theorem feedExpiry_sites (s : State) : SitesKept s s.feedExpiry := by
  unfold feedExpiry
  split <;> [exact (abandonFeed_sites s .feedTimeout).slots rfl; exact sitesKept_self s]

/-! ### Slot commands, pins and grants -/

theorem slotFreeze_sites (s : State) : SitesKept s s.slotFreeze := by
  unfold slotFreeze
  split <;> [exact sitesKept_of_slots rfl; skip]
  rename_i i _
  split <;> [skip; exact sitesKept_of_slots rfl]
  rename_i h
  exact (sitesKept_setSlot s i { s.slot i with state := .frozen }
    (Slot.sameSite_state (by rw [h]; decide) ⟨nofun, nofun⟩ rfl rfl rfl)).slots rfl

theorem slotThaw_sites (s : State) : SitesKept s s.slotThaw := by
  unfold slotThaw
  split <;> [exact sitesKept_of_slots rfl; skip]
  rename_i i _
  split <;> [skip; exact sitesKept_of_slots rfl]
  rename_i h
  exact (sitesKept_setSlot s i { s.slot i with state := .active }
    (Slot.sameSite_state (by rw [h]; decide) ⟨nofun, nofun⟩ rfl rfl rfl)).slots rfl

/-- The changes of an accepted teardown up to the slot's new state. -/
theorem teardownBegun_sites (s : State) (i : SlotId) (h : (s.slot i).state = .active ∨ (s.slot i).state = .frozen) :
    SitesKept s (s.teardownBegun i) := by
  have ha : SitesKept s (s.abandonFilling i) := by
    unfold abandonFilling
    split
    · exact (abandon_sites s i _ _).slots (dropWriter_slots _ i)
    · exact sitesKept_self s
  have hd := ha.trans (dropSeal_sites (s.abandonFilling i) i .teardown)
  unfold teardownBegun
  simp only []
  generalize (s.abandonFilling i).dropSeal i .teardown = u at hd ⊢
  have hu : (u.slot i).state ≠ .unused ∧ (u.slot i).state ≠ .configuring := by
    rw [ne_eq, ne_eq, (hd.site i).unused, (hd.site i).configuring]
    obtain e | e := h <;> rw [e] <;> decide
  exact hd.trans (sitesKept_setSlot u i _ (Slot.sameSite_state hu ⟨nofun, nofun⟩ rfl rfl rfl))

theorem revokeHandles_sites (s : State) (i : SlotId) : SitesKept s (s.revokeHandles i) := by
  refine sitesKept_foldl (fun t n => ?_) allHandles s
  unfold revokeHandle
  simp only []
  split <;> [exact (setPins_sites t i _ _).slots rfl; exact sitesKept_self t]

theorem handlePin_sites (s : State) : SitesKept s s.handlePin := by
  unfold handlePin
  split <;> [exact sitesKept_of_slots rfl; skip]
  split <;> [exact sitesKept_of_slots rfl; skip]
  split <;> [exact sitesKept_of_slots rfl; skip]
  rename_i i _
  split
  · rename_i g _
    exact (setPins_sites s i g (((s.slot i).gen g).pins + 1)).slots rfl
  all_goals exact sitesKept_of_slots rfl

theorem claimPins_sites (s : State) (k : LinkId) (l : List SlotId) : SitesKept s (s.claimPins k l) := by
  refine sitesKept_foldl (fun t i => ?_) l s
  unfold claimPin
  split <;> [exact (setPins_sites t i _ _).slots rfl; exact sitesKept_self t; exact sitesKept_self t]

theorem periodExpiry_sites (s : State) (k : LinkId) : SitesKept s (s.periodExpiry k) := by
  unfold periodExpiry
  simp only []
  split <;> [skip; exact sitesKept_self s]
  split <;> [skip; exact sitesKept_of_slots rfl]
  generalize hu : s.setLink k _ = u
  have hsu : SitesKept s u := sitesKept_of_slots (by rw [← hu]; rfl)
  unfold frameBegin
  exact (hsu.trans (claimPins_sites u k _)).slots (by rw [placeWord_only]; rfl)

/-- A grant leaves the chains where they hang, the pool, the reset phase and the unit (R35). -/
theorem grantAct_sites {s t : State} (e : GrantAct s t) : SitesKept s t ∧ t.cmd = s.cmd := by
  have writes : ∀ (u : State) (a : Nat) (q : WriteReq), u.slots = s.slots → SitesKept s (u.writeInto a q) :=
    fun u a q hu => (sitesKept_of_slots hu).trans (SitesKept.trans (t := u.storeWord a q.word) (sitesKept_of_slots rfl)
      (sitesKept_setGen _ q.slot _ q.gen _ rfl rfl rfl rfl rfl))
  cases e with
  | idle => exact ⟨sitesKept_self s, rfl⟩
  | portWrite r p q a hq hf ha =>
    have hw := writes (s.setPort p { s.port p with req := none }) a q rfl
    refine ⟨SitesKept.trans (hw.slots (u := State.granted _ r) rfl) (afterRequest_sites _ p), ?_⟩
    rw [afterRequest_only]; rfl
  | portWithdraw p q hq hf =>
    refine ⟨SitesKept.trans (t := s.setPort p _) (sitesKept_of_slots rfl) (afterRequest_sites _ p), ?_⟩
    rw [afterRequest_only]; rfl
  | feedWrite r q a hq hf ha => exact ⟨(writes (s.setFeed _) a q rfl).slots rfl, rfl⟩
  | feedWithdraw q hq hf => exact ⟨sitesKept_of_slots rfl, rfl⟩
  | linkRead r k q w hq hw => rw [presentRead_only, placeWord_only]; exact ⟨sitesKept_of_slots rfl, rfl⟩
  | handleRead r n q w hq hw => exact ⟨sitesKept_of_slots rfl, rfl⟩

end State
end Sys2Proof.Machine

namespace Sys2Proof.Machine

/-! ### Host writes during a reset (R158) -/

/-- The two locations whose writes a reset does not discard (R158). -/
def Location.keptInReset : Location → Bool
  | .globalControl | .eventMask => true
  | _ => false

theorem groupAt_not_kept {a b : Nat} {mk : Fin a → Fin b → Location} (h : ∀ i n, (mk i n).keptInReset = false) (i n : Nat) :
    (groupAt mk i n).keptInReset = false := by
  unfold groupAt
  split <;> [exact h _ _; rfl]

theorem wordAt_not_kept {b : Nat} {mk : Fin b → Location} (h : ∀ n, (mk n).keptInReset = false) (n : Nat) :
    (wordAt mk n).keptInReset = false := by
  unfold wordAt
  split <;> [exact h _; rfl]

theorem globalAt_not_kept {n : Nat} (h1 : n ≠ 1) (h6 : n ≠ 6) : (globalAt n).keptInReset = false := by
  unfold globalAt
  split <;> first | rfl | contradiction

theorem ite_not_kept {c : Prop} [Decidable c] {x y : Location} (hx : x.keptInReset = false) (hy : y.keptInReset = false) :
    (if c then x else y).keptInReset = false := by
  split <;> [exact hx; exact hy]

theorem commandAt_not_kept (n : Nat) : (commandAt n).keptInReset = false :=
  ite_not_kept (wordAt_not_kept (fun _ => rfl) _) <| ite_not_kept rfl <| ite_not_kept rfl <| ite_not_kept rfl <|
    wordAt_not_kept (fun _ => rfl) _

theorem slotViewAt_not_kept (n : Nat) : (slotViewAt n).keptInReset = false :=
  ite_not_kept rfl <| ite_not_kept (wordAt_not_kept (fun _ => rfl) _) <| ite_not_kept rfl <|
    groupAt_not_kept (fun _ _ => rfl) _ _

theorem handlesAt_not_kept (n : Nat) : (handlesAt n).keptInReset = false :=
  ite_not_kept (groupAt_not_kept (fun _ _ => rfl) _ _) (wordAt_not_kept (fun _ => rfl) _)

theorem scheduleAt_not_kept (n : Nat) : (scheduleAt n).keptInReset = false := by
  unfold scheduleAt
  split <;> rfl

/-- Only the words of GLOBAL_CONTROL and EVENT_MASK are kept (§11.2). -/
theorem locationAt_not_kept {a : BitVec 12} (h1 : a ≠ 0x001#12) (h6 : a ≠ 0x006#12) :
    (locationAt a).keptInReset = false :=
  ite_not_kept (globalAt_not_kept (fun e => h1 (BitVec.eq_of_toNat_eq e)) fun e => h6 (BitVec.eq_of_toNat_eq e)) <|
    ite_not_kept (groupAt_not_kept (fun _ _ => rfl) _ _) <|
    ite_not_kept (groupAt_not_kept (fun _ _ => rfl) _ _) <|
    ite_not_kept rfl <|
    ite_not_kept (commandAt_not_kept _) <|
    ite_not_kept rfl <|
    ite_not_kept (slotViewAt_not_kept _) <|
    ite_not_kept (groupAt_not_kept (fun _ _ => rfl) _ _) <|
    ite_not_kept rfl <|
    ite_not_kept (handlesAt_not_kept _) <|
    ite_not_kept rfl (scheduleAt_not_kept _)

namespace State

/-- A write of any other word is a host write of its location (R160). -/
theorem writeWord_hostWrite {a : BitVec 12} (h1 : a ≠ 0x001#12) (h6 : a ≠ 0x006#12) (s : State) (v : Word) :
    s.writeWord a v = s.hostWrite (writeLocation v (locationAt a)) := by
  have h := locationAt_not_kept h1 h6
  unfold writeWord
  split
  · rename_i e; rw [e] at h; cases h
  · rename_i e; rw [e] at h; cases h
  · rfl

theorem writeWord_control (s : State) (v : Word) : s.writeWord 0x001#12 v = s.controlWrite (writeControl v) := rfl

theorem writeWord_mask (s : State) (v : Word) : s.writeWord 0x006#12 v = s.controlWrite (writeMask v) := rfl

end State
end Sys2Proof.Machine

namespace Sys2Proof.Machine

/-- A move of the pages: nothing of the pool, of the places where chains hang and of the reset's progress changes, or the
drain of a slot ends and its chains are returned (R20, R30). -/
inductive PageMove (s : State) : State → Prop
  | still {t : State} (hs : s.SitesKept t) (hp : t.pool = s.pool) (hr : t.resetPhase = s.resetPhase) : PageMove s t
  | drainEnd (i : SlotId) (hi : (s.slot i).state = .draining) : PageMove s (s.drainEnd i)

/-- Any number of such moves. -/
def PageRun : State → State → Prop := Relation.ReflTransGen PageMove

/-- One act of the part as the pages see it: moves, the opening of an allocation, a take, and the course of a reset. -/
inductive PageAct (s : State) : State → Prop
  | run {t : State} (h : PageRun s t) : PageAct s t
  | slotConfigure (h : s.cmd.state = .idle) (hr : s.resetPhase = .none) : PageAct s s.slotConfigure
  | pageTake : PageAct s s.pageTake
  | resetBegins {t : State} (hs : t.slots = State.reset.slots)
      (hp : t.pool = { head := none, tail := none, count := 0, next := s.pool.next, alloc := none })
      (hr : t.resetPhase = .held ∨ t.resetPhase = .running 0 false) : PageAct s t
  | releaseReset : PageAct s s.releaseReset
  | rebuildPage : PageAct s s.rebuildPage
  | clearSchedule : PageAct s s.clearSchedule

namespace State

theorem SitesKept.run {s t : State} (hs : SitesKept s t) (hp : t.pool = s.pool) (hr : t.resetPhase = s.resetPhase) :
    PageRun s t := .single (.still hs hp hr)

theorem pageRun_of_eq {s t : State} (hs : t.slots = s.slots) (hp : t.pool = s.pool) (hr : t.resetPhase = s.resetPhase) :
    PageRun s t := (sitesKept_of_slots hs).run hp hr

/-- A run and then a change of other parts of the state. -/
theorem pageRun_thenEq {s t u : State} (h : PageRun s t) (hs : u.slots = t.slots) (hp : u.pool = t.pool)
    (hr : u.resetPhase = t.resetPhase) : PageRun s u := h.trans (pageRun_of_eq hs hp hr)

/-! ### Acts that may end a drain -/

theorem drainCheck_run (s : State) (i : SlotId) : PageRun s (s.drainCheck i) := by
  unfold drainCheck
  split <;> [(rename_i h; exact .single (.drainEnd i h.1)); exact .refl]

theorem release_run (s : State) (i : SlotId) (g : GenId) : PageRun s (s.release i g) :=
  ((setPins_sites s i g _).run rfl rfl).trans (drainCheck_run _ i)

theorem releasePins_run (s : State) (k : LinkId) : PageRun s (s.releasePins k) :=
  pageRun_thenEq (t := (s.link k).pinSet.foldl (fun t p => t.release p.slot p.gen) s)
    (foldl_run (fun _ _ => by exact release_run ..) _ s) rfl rfl rfl

theorem abortFrame_run (s : State) (k : LinkId) (w : AbortReason) : PageRun s (s.abortFrame k w) := by
  unfold abortFrame
  simp only []
  split <;> [exact .refl; skip]
  generalize hu : s.setLink k _ = u
  have hsu : PageRun s u := pageRun_of_eq (by rw [← hu]; rfl) (by rw [← hu]; rfl) (by rw [← hu]; rfl)
  exact pageRun_thenEq (hsu.trans (releasePins_run u k)) rfl rfl rfl

theorem frameDone_run (s : State) (k : LinkId) (r : BitVec 4) : PageRun s (s.frameDone k r) :=
  pageRun_of_eq (by rw [frameDone_only]) (by rw [frameDone_only]) (by rw [frameDone_only])

theorem wordTaken_run (s : State) (k : LinkId) : PageRun s (s.wordTaken k) := by
  unfold wordTaken
  simp only []
  split
  · exact .refl
  · exact .refl
  · exact Relation.ReflTransGen.trans (b := s.clearAbortWord k) (pageRun_of_eq rfl rfl rfl) (frameDone_run _ k 0)
  · split <;> [skip; exact .refl]
    split
    · generalize hu : s.setLink k _ = u
      have hsu : PageRun s u := pageRun_of_eq (by rw [← hu]; rfl) (by rw [← hu]; rfl) (by rw [← hu]; rfl)
      exact hsu.trans ((releasePins_run u k).trans (frameDone_run _ k 0))
    · unfold afterTake
      split <;> rw [presentRead_only] <;> [rw [itemDone_only]; skip] <;> exact pageRun_of_eq rfl rfl rfl

theorem linkStop_run (s : State) : PageRun s s.linkStop := by
  unfold linkStop
  split <;> [exact pageRun_of_eq rfl rfl rfl; skip]
  rename_i k _
  split <;> [exact pageRun_of_eq rfl rfl rfl; skip]
  split <;> [exact pageRun_of_eq rfl rfl rfl; skip]
  rename_i b _
  split <;> [exact pageRun_of_eq rfl rfl rfl; skip]
  unfold stopFrame
  simp only []
  split
  · exact pageRun_thenEq (abortFrame_run s k .stop) rfl rfl rfl
  · exact pageRun_of_eq rfl rfl rfl

theorem handleRelease_run (s : State) : PageRun s s.handleRelease := by
  unfold handleRelease
  split <;> [exact pageRun_of_eq rfl rfl rfl; skip]
  rename_i n _
  simp only []
  split
  · generalize hu : s.setHandle n _ = u
    have hsu : PageRun s u := pageRun_of_eq (by rw [← hu]; rfl) (by rw [← hu]; rfl) (by rw [← hu]; rfl)
    exact pageRun_thenEq (hsu.trans (release_run u _ _)) rfl rfl rfl
  all_goals exact pageRun_of_eq rfl rfl rfl

theorem slotTeardown_run (s : State) : PageRun s s.slotTeardown := by
  unfold slotTeardown
  split <;> [exact pageRun_of_eq rfl rfl rfl; skip]
  rename_i i _
  split <;> [skip; exact pageRun_of_eq rfl rfl rfl]
  rename_i hst
  rw [acceptTeardown_eq]
  have hb : PageRun s (s.teardownBegun i) :=
    (teardownBegun_sites s i hst).run (by rw [teardownBegun_only]) (by rw [teardownBegun_only])
  generalize s.teardownBegun i = u at hb ⊢
  have hr : PageRun u (if (s.arg 1 ≠ 0 : Bool) then u.revokeHandles i else u) := by
    split <;> [skip; exact .refl]
    exact (revokeHandles_sites u i).run (by rw [revokeHandles_only]) (by rw [revokeHandles_only])
  generalize (if (s.arg 1 ≠ 0 : Bool) then u.revokeHandles i else u) = v at hr ⊢
  have hd := drainCheck_run v i
  generalize v.drainCheck i = w at hd ⊢
  have hl : PageRun w (w.leaveCohort i (s.slot i).cohort) :=
    (leaveCohort_sites ..).run (by rw [leaveCohort_only]) (by rw [leaveCohort_only])
  exact pageRun_thenEq (hb.trans (hr.trans (hd.trans hl))) rfl rfl rfl

/-! ### The acts, one by one -/

theorem stallAbort_run (s : State) (k : LinkId) : PageRun s (s.stallAbort k) := by
  unfold stallAbort
  split <;> [exact abortFrame_run ..; exact .refl]

/-- An expiry or a tick moves pages at most where an abort releases the last pin of a slot. -/
theorem timeAct_run {s t : State} (e : TimeAct s t) : PageRun s t := by
  cases e with
  | stallAbort k => exact stallAbort_run s k
  | giveUp k => rw [giveUp_only]; exact pageRun_of_eq rfl rfl rfl
  | periodExpiry k =>
    exact (periodExpiry_sites s k).run (by rw [periodExpiry_only]) (by rw [periodExpiry_only])
  | windowExpiry c =>
    have h := (windowExpiry_spec s c).1
    exact (windowExpiry_sites s c).run (by rw [h]) (by rw [h])
  | feedExpiry => exact (feedExpiry_sites s).run (by rw [feedExpiry_only]) (by rw [feedExpiry_only])
  | advanceTime ready =>
    rw [(advanceTime_spec ready s).2]
    exact pageRun_of_eq rfl rfl rfl
  | countCycle => exact pageRun_of_eq rfl rfl rfl

theorem timeRun_run {s t : State} (e : TimeRun s t) : PageRun s t := by
  induction e with
  | refl => exact .refl
  | tail _ e ih => exact ih.trans (timeAct_run e)

theorem plainAct_run {s t : State} (e : PlainAct s t) : PageRun s t := by
  rw [plainAct_only e]
  exact pageRun_of_eq rfl rfl rfl

theorem takeWord_run (s : State) (p : PortId) : PageRun s (s.takeWord p) :=
  (takeWord_sites s p).run (by rw [takeWord_only]) (by rw [takeWord_only])

theorem headWord_run (s : State) (p : PortId) : PageRun s (s.headWord p) := by
  obtain e | e := headWord_eq s p <;> rw [e] <;> [exact .refl; exact takeWord_run s p]

theorem headEnd_run (s : State) (p : PortId) : PageRun s (s.headEnd p) := by
  obtain e | e := headEnd_eq s p <;> rw [e] <;> [exact .refl; exact takeWord_run s p]

theorem headDrop_run (s : State) (p : PortId) : PageRun s (s.headDrop p) := by
  obtain e | e := headDrop_eq s p <;> rw [e] <;> [exact .refl; skip]
  exact (leaveEntry_sites s p).run (by rw [leaveEntry_only]) (by rw [leaveEntry_only])

theorem headStart_run (s : State) (p : PortId) : PageRun s (s.headStart p) :=
  (headStart_sites s p).run (by rw [headStart_only]) (by rw [headStart_only])

theorem headError_run (s : State) (p : PortId) : PageRun s (s.headError p) :=
  (headError_sites s p).run (by rw [headError_only]) (by rw [headError_only])

theorem intake_run (s : State) (p : PortId) (x : Transfer) : PageRun s (s.intake p x) := by
  rw [intake_only]; exact pageRun_of_eq rfl rfl rfl

theorem checkExamine_run (s : State) : PageRun s s.checkExamine := by
  rw [checkExamine_only]; exact pageRun_of_eq rfl rfl rfl

theorem placeNext_run (s : State) (k : LinkId) : PageRun s (s.placeNext k) := by
  rw [placeNext_only]; exact pageRun_of_eq rfl rfl rfl

theorem readHandle_run (s : State) (n : HandleId) : PageRun s (s.readHandle n) := by
  rw [readHandle_only]; exact pageRun_of_eq rfl rfl rfl

/-- A write of GLOBAL_CONTROL begins a device reset or leaves the pages (R157). -/
theorem writeControl_pages (s : State) (v : Word) : PageAct s (s.writeControl v) := by
  unfold writeControl
  simp only []
  split <;> [skip; exact .run (pageRun_of_eq rfl rfl rfl)]
  unfold startDeviceReset
  split <;> [exact .resetBegins rfl rfl (.inr rfl); skip; skip] <;> exact .run (pageRun_of_eq rfl rfl rfl)

theorem assertReset_pages (s : State) : PageAct s s.assertReset := .resetBegins rfl rfl (.inl rfl)

/-- Every act outside a reset. -/
theorem act_pages {s t : State} (e : Act s t) (hr : s.resetPhase = .none) : PageAct s t := by
  cases e with
  | plain e => exact .run (plainAct_run e)
  | time e => exact .run (timeAct_run e)
  | slotConfigure h => exact .slotConfigure h hr
  | pageTake => exact .pageTake
  | slotFreeze => exact .run ((slotFreeze_sites s).run (by rw [slotFreeze_only]) (by rw [slotFreeze_only]))
  | slotThaw => exact .run ((slotThaw_sites s).run (by rw [slotThaw_only]) (by rw [slotThaw_only]))
  | slotTeardown => exact .run (slotTeardown_run s)
  | cohortSet => rw [cohortSet_only]; exact .run (pageRun_of_eq rfl rfl rfl)
  | linkStart => rw [linkStart_only]; exact .run (pageRun_of_eq rfl rfl rfl)
  | linkLoad => rw [linkLoad_only]; exact .run (pageRun_of_eq rfl rfl rfl)
  | linkCancel => rw [linkCancel_only]; exact .run (pageRun_of_eq rfl rfl rfl)
  | linkStop => exact .run (linkStop_run s)
  | handlePin => exact .run ((handlePin_sites s).run (by rw [handlePin_only]) (by rw [handlePin_only]))
  | handleRelease => exact .run (handleRelease_run s)
  | feedOpen => exact .run ((feedOpen_sites s).run (by rw [feedOpen_only]) (by rw [feedOpen_only]))
  | feedClose => exact .run ((feedClose_sites s).run (by rw [feedClose_only]) (by rw [feedClose_only]))
  | feedAbort => exact .run ((feedAbort_sites s).run (by rw [feedAbort_only]) (by rw [feedAbort_only]))
  | checkExamine => exact .run (checkExamine_run s)
  | intake p x => exact .run (intake_run s p x)
  | headStart p => exact .run (headStart_run s p)
  | headWord p => exact .run (headWord_run s p)
  | headDrop p => exact .run (headDrop_run s p)
  | headEnd p => exact .run (headEnd_run s p)
  | headError p => exact .run (headError_run s p)
  | enablePort p => rw [enablePort_only]; exact .run (pageRun_of_eq rfl rfl rfl)
  | disablePort p => exact .run ((disablePort_sites s p).run (by rw [disablePort_only]) (by rw [disablePort_only]))
  | writeEnables v => exact .run ((writeEnables_sites s v).run (by rw [writeEnables_only]) (by rw [writeEnables_only]))
  | placeNext k => exact .run (placeNext_run s k)
  | wordTaken k => exact .run (wordTaken_run s k)
  | readHandle n => exact .run (readHandle_run s n)
  | writeFeed v => rw [writeFeed_only]; exact .run (pageRun_of_eq rfl rfl rfl)
  | clearOverflowed | writeHandleAddr | clearOverread | clearOverlength => exact .run (pageRun_of_eq rfl rfl rfl)
  | writeControl v => exact writeControl_pages s v
  | assertReset => exact assertReset_pages s
  | releaseReset => exact .releaseReset
  | rebuildPage => exact .rebuildPage
  | clearSchedule => exact .clearSchedule

/-! ### Commands and steps -/

/-- What a run of grants leaves as the pages see it: the places of the chains, the pool, the reset's progress and the
unit. -/
structure GrantsStill (s u : State) : Prop where
  sites : SitesKept s u
  pool : u.pool = s.pool
  phase : u.resetPhase = s.resetPhase
  cmd : u.cmd = s.cmd

theorem grantRun_still {s u : State} (e : GrantRun s u) : GrantsStill s u := by
  induction e with
  | refl => exact ⟨sitesKept_self s, rfl, rfl, rfl⟩
  | tail _ e ih =>
    obtain ⟨hpool, hphase, _⟩ := grantAct_pool e
    obtain ⟨hsites, hcmd⟩ := grantAct_sites e
    exact ⟨ih.sites.trans hsites, hpool.trans ih.pool, hphase.trans ih.phase, hcmd.trans ih.cmd⟩

/-- Grants and then one act, as the pages see them. -/
def PageStep (s t : State) : Prop := ∃ u, GrantsStill s u ∧ PageAct u t

theorem pageStep_act {s t : State} (h : PageAct s t) : PageStep s t := ⟨s, grantRun_still .refl, h⟩

theorem hostAccess_pages {s t : State} {act : State → State} (ha : ∀ u, PageAct u (act u)) (e : s.hostAccess act = .next t) :
    PageStep s t := by
  obtain ⟨u, hu, rfl⟩ := hostAccess_next s t act e
  exact ⟨u, grantRun_still (endHeld_run hu), ha u⟩

theorem controlWrite_pages {s t : State} {act : State → State} (ha : ∀ u, PageAct u (act u))
    (e : s.controlWrite act = .next t) : PageStep s t := by
  unfold controlWrite at e
  split at e
  · exact hostAccess_pages ha e
  · exact hostAccess_pages ha e
  · cases e; exact pageStep_act (.run .refl)

theorem hostRead_pages {s t : State} {act : State → State} (ha : ∀ u, PageAct u (act u)) (e : s.hostRead act = .next t) :
    PageStep s t := by
  unfold hostRead at e
  split at e
  · exact hostAccess_pages ha e
  · exact hostAccess_pages ha e
  · cases e; exact pageStep_act (.run (plainAct_run .dataLines))

end State

theorem exec_registerWrite (a : BitVec 12) (v : Word) (s : State) : exec (.registerWrite a v) s = s.writeWord a v := rfl

theorem isDiscardedInReset_registerWrite (a : BitVec 12) (v : Word) :
    isDiscardedInReset (.registerWrite a v) = (a ≠ 0x001#12 && a ≠ 0x006#12) := rfl

/-- A host write other than those to GLOBAL_CONTROL and EVENT_MASK is discarded while a reset is in progress (R158). -/
theorem exec_discarded {c : Instr} {s : State} (h : isDiscardedInReset c = true) (hr : s.resetPhase ≠ .none) :
    exec c s = .next s := by
  cases c with
  | slotConfigure | slotFreeze | slotThaw | slotTeardown | cohortSet | linkStart | linkLoad | linkCancel | linkStop
  | handlePin | handleRelease | feedOpen | feedClose | feedAbort | portEnable | portDisable | overflowedClear
  | handleAddrWrite | overreadClear | feedDataWrite | overlengthClear | scheduleWrite | protectedWriteClear
  | commandRejectedClear | slotSelect | eventPop => exact State.hostWrite_reset s _ hr
  | registerWrite a v =>
    rw [isDiscardedInReset_registerWrite, Bool.and_eq_true, decide_eq_true_eq, decide_eq_true_eq] at h
    rw [exec_registerWrite, State.writeWord_hostWrite h.1 h.2, State.hostWrite_reset s _ hr]
  | _ => cases h

/-- A command that a reset does not discard, as the pages see it. -/
theorem exec_pages_kept {c : Instr} {s t : State} (h : isDiscardedInReset c = false) (e : exec c s = .next t) :
    s.PageStep t := by
  have own : ∀ {u : State}, PageAct s u → (Host.Outcome.next u : Result) = .next t → s.PageStep t :=
    fun h e => by cases e; exact State.pageStep_act h
  cases c with
  | pageTake => exact own .pageTake e
  | checkExamine => exact own (.run (State.checkExamine_run s)) e
  | captureTransfer p x => exact own (.run (State.intake_run s p x)) e
  | headTakeStart p => exact own (.run (State.headStart_run s p)) e
  | headTakeWord p => exact own (.run (State.headWord_run s p)) e
  | headDropEntry p => exact own (.run (State.headDrop_run s p)) e
  | headTakeEnd p => exact own (.run (State.headEnd_run s p)) e
  | sourceError p => exact own (.run (State.headError_run s p)) e
  | storeGrant => exact ⟨t, State.grantRun_still (State.grantOne_run e), .run .refl⟩
  | tick ready => exact own (.run (State.timeRun_run (State.tick_run s ready))) e
  | periodExpiry k => exact own (.run (State.timeAct_run (.periodExpiry k))) e
  | linkPlaceWord k => exact own (.run (State.placeNext_run s k)) e
  | wordTaken k => exact own (.run (State.wordTaken_run s k)) e
  | stallAbort k => exact own (.run (State.timeAct_run (.stallAbort k))) e
  | abortWordGiveUp k => exact own (.run (State.timeAct_run (.giveUp k))) e
  | windowExpiry k => exact own (.run (State.timeAct_run (.windowExpiry k))) e
  | feedIdleExpiry => exact own (.run (State.timeAct_run .feedExpiry)) e
  | handleDataRead n => exact State.hostRead_pages (fun u => .run (State.readHandle_run u n)) e
  | eventLost => exact State.hostRead_pages (fun _ => .run (State.plainAct_run .readLost)) e
  | eventMask v => exact State.controlWrite_pages (fun _ => .run (State.plainAct_run (.writeMask v))) e
  | prescale v => exact State.controlWrite_pages (fun _ => .run (State.plainAct_run (.writePrescale v))) e
  | irqEnable b => exact State.controlWrite_pages (fun _ => .run (State.plainAct_run (.writeIrqEnable b))) e
  | resetDevice v => exact State.controlWrite_pages (fun u => State.writeControl_pages u v) e
  | powerOnReset => exact own (State.assertReset_pages s) e
  | resetRelease => exact own .releaseReset e
  | rebuildLinkPage => exact own .rebuildPage e
  | scheduleClear => exact own .clearSchedule e
  | registerWrite a v =>
    rw [exec_registerWrite] at e
    rw [isDiscardedInReset_registerWrite, Bool.and_eq_false_iff, decide_eq_false_iff_not, decide_eq_false_iff_not, not_not,
      not_not] at h
    obtain rfl | rfl := h
    · rw [State.writeWord_control] at e
      exact State.controlWrite_pages (fun u => State.writeControl_pages u v) e
    · rw [State.writeWord_mask] at e
      exact State.controlWrite_pages (fun _ => .run (State.plainAct_run (.writeMask v))) e
  | _ => cases h

/-- A step, as the pages see it: grants, and then moves, an opened allocation, a take, or an act of a reset. -/
theorem step_pages {s t : State} (e : step s = .next t) : ∃ l, State.PageStep { s with pending := l } t := by
  unfold step at e
  split at e
  · cases e; exact ⟨s.pending, State.pageStep_act (.run (State.timeRun_run (State.clockCycle_run s)))⟩
  · rename_i c rest _
    refine ⟨rest, ?_⟩
    generalize { s with pending := rest } = v at e ⊢
    cases hd : isDiscardedInReset c with
    | false => exact exec_pages_kept hd e
    | true =>
      by_cases hr : v.resetPhase = .none
      · obtain ⟨u, hu, act⟩ | run := exec_shape e
        · have hstill := State.grantRun_still hu
          exact ⟨u, hstill, State.act_pages act (hstill.phase.trans hr)⟩
        · exact State.pageStep_act (.run (State.timeRun_run run))
      · rw [exec_discarded hd hr] at e
        cases e; exact State.pageStep_act (.run .refl)

end Sys2Proof.Machine

/-! SUPPORT. The rebuild of the free list (R27) and the page take (R29): what each does to the pool, and that every step keeps
the page link table in canonical form. -/

namespace Sys2Proof.Machine

/-! ### Linking a page -/

theorem Pool.nextOf_linkPage {q : Pool} (hw : Cells.rising none q.next = true) (p r : PageId) :
    (q.linkPage p).nextOf r = if r = p then none else if q.tail = some r then some p else q.nextOf r := by
  have own : ∀ u : Pool, Cells.rising none u.next = true → (u.setNext p none).nextOf r = if r = p then none else u.nextOf r :=
    fun u hu => Pool.nextOf_setNext u p r none hu
  unfold Pool.linkPage
  cases ht : q.tail with
  | none => exact (own { q with head := some p } hw).trans (by simp [Pool.nextOf])
  | some t =>
    have hset : Cells.rising none (q.setNext t (some p)).next = true := by
      show Cells.rising none (Cells.write _ _ _ _) = true
      unfold Cells.write
      split <;> [exact Cells.rising_remove _ _ hw; exact Cells.rising_place _ _ _ hw nofun]
    refine (own (q.setNext t (some p)) hset).trans ?_
    rw [Pool.nextOf_setNext q t r (some p) hw]
    simp only [Option.some.injEq, eq_comm]

theorem Pool.count_linkPage (q : Pool) (p : PageId) : (q.linkPage p).count = q.count + 1 := rfl

theorem Pool.head_linkPage (q : Pool) (p : PageId) :
    (q.linkPage p).head = if q.tail = none then some p else q.head := by
  unfold Pool.linkPage
  cases q.tail <;> rfl

theorem Pool.alloc_linkPage (q : Pool) (p : PageId) : (q.linkPage p).alloc = q.alloc := by
  unfold Pool.linkPage
  cases q.tail <;> rfl

namespace State

/-- TAIL of a free list that the rebuild has brought to page n−1 (R27). -/
theorem linkedUpTo_tail {q : Pool} {n : Nat} (h : linkedUpTo q n) (hn : n ≤ 2048) (p : PageId) :
    q.tail = some p ↔ p.val + 1 = n := by
  obtain ⟨_, hzero, hpages⟩ := h
  have hlast : ∀ r : PageId, r.val + 1 = n → q.tail = some r := fun r e => by
    obtain ⟨_, htail, _⟩ := hpages r
    exact (htail e).1
  refine ⟨fun ht => ?_, hlast p⟩
  cases n with
  | zero => rw [(hzero rfl).2] at ht; cases ht
  | succ m =>
    have hm := hlast ⟨m, by omega⟩ rfl
    rw [ht] at hm
    exact congrArg (· + 1) (congrArg Fin.val (Option.some.inj hm))

/-- One link brings the rebuild one page further (R27). -/
theorem linkedUpTo_linkPage {q : Pool} {n : Nat} (hw : Cells.rising none q.next = true) (hn : n < 2048)
    (h : linkedUpTo q n) : linkedUpTo (q.linkPage ⟨n, hn⟩) (n + 1) := by
  obtain ⟨hcount, hzero, hpages⟩ := h
  have htail : ∀ p : PageId, q.tail = some p ↔ p.val + 1 = n := linkedUpTo_tail ⟨hcount, hzero, hpages⟩ hn.le
  refine ⟨by rw [Pool.count_linkPage, hcount], nofun, fun p => ⟨fun h0 _ => ?_, fun e => ⟨?_, ?_⟩,
    fun p' e hp' => ?_⟩⟩
  · rw [Pool.head_linkPage]
    split
    · rename_i hnone
      have hn0 : n = 0 := by
        by_contra hne
        have := (htail ⟨n - 1, by omega⟩).mpr (by show n - 1 + 1 = n; omega)
        rw [hnone] at this; cases this
      exact congrArg some (Fin.ext (by show n = p.val; omega))
    · rename_i hsome
      exact (hpages p).1 h0 (Nat.pos_of_ne_zero fun e => hsome (hzero e).2)
  · exact congrArg some (Fin.ext (by show n = p.val; omega))
  · rw [Pool.nextOf_linkPage hw, if_pos (Fin.ext (by show p.val = n; omega))]
  · rw [Pool.nextOf_linkPage hw, if_neg fun hp => by have := congrArg Fin.val hp; simp only at this; omega]
    split
    · rename_i ht
      have := (htail p).mp ht
      exact congrArg some (Fin.ext (by show n = p'.val; omega))
    · rename_i ht
      exact (hpages p).2.2 p' e (by have := (htail p).not.mp ht; omega)

/-! ### The work of a reset -/

theorem rebuildPage_running {s : State} {n : Nat} {clearing : Bool} (hr : s.resetPhase = .running n clearing)
    (hn : n < 2048) : s.rebuildPage =
      if n + 1 = 2048 ∧ clearing = false then
        { s with pool := s.pool.linkPage ⟨n, hn⟩, resetPhase := .none, cmd := { s.cmd with state := .idle } }
      else { s with pool := s.pool.linkPage ⟨n, hn⟩, resetPhase := .running (n + 1) clearing } := by
  unfold rebuildPage
  rw [hr]
  simp only [hn, dite_true]
  rfl

/-- With no page left to link, or no reset under way, the rebuild changes nothing (log 1). -/
theorem rebuildPage_idle {s : State} (h : ∀ n clearing, s.resetPhase = .running n clearing → 2048 ≤ n) :
    s.rebuildPage = s := by
  unfold rebuildPage
  split
  · rename_i n clearing hr
    exact dif_neg (Nat.not_lt.mpr (h n clearing hr))
  · rfl
  · rfl

/-- The rebuild changes nothing, or links a page of the reset under way (R27, log 1). -/
theorem rebuildPage_cases (s : State) :
    s.rebuildPage = s ∨ ∃ n clearing, s.resetPhase = .running n clearing ∧ n < 2048 := by
  by_cases hdue : ∃ n clearing, s.resetPhase = .running n clearing ∧ n < 2048
  · exact .inr hdue
  · exact .inl (rebuildPage_idle fun n clearing hr => Nat.not_lt.mp fun hn => hdue ⟨n, clearing, hr, hn⟩)

theorem clearSchedule_running {s : State} {n : Nat} (hr : s.resetPhase = .running n true) : s.clearSchedule =
    if n = 2048 then { s with schedule := [], resetPhase := .none, cmd := { s.cmd with state := .idle } }
    else { s with schedule := [], resetPhase := .running n false } := by
  unfold clearSchedule
  rw [hr]
  rfl

/-- With no clearing under way the clearing changes nothing (log 1, log 15). -/
theorem clearSchedule_idle {s : State} (h : ∀ n, s.resetPhase ≠ .running n true) : s.clearSchedule = s := by
  unfold clearSchedule
  split
  · rename_i n hr
    exact absurd hr (h n)
  all_goals rfl

theorem clearSchedule_pages (s : State) : s.clearSchedule.pool = s.pool ∧ s.clearSchedule.slots = s.slots := by
  by_cases h : ∃ n, s.resetPhase = .running n true
  · obtain ⟨n, hr⟩ := h
    rw [clearSchedule_running hr]
    split <;> exact ⟨rfl, rfl⟩
  · rw [clearSchedule_idle (not_exists.mp h)]; exact ⟨rfl, rfl⟩

/-! ### The page take -/

/-- The free list and the chain being built when page p has gone from the one to the other (R29 steps 1 and 2). -/
def pageMoved (s : State) (last : Option PageId) (p : PageId) : State := (s.takeHead p).chainPage last p

theorem pageMoved_only (s : State) (last : Option PageId) (p : PageId) :
    s.pageMoved last p = { s with pool := (s.pageMoved last p).pool } := by
  unfold pageMoved chainPage takeHead
  cases last <;> rfl

theorem slot_pageMoved (s : State) (last : Option PageId) (p : PageId) (i : SlotId) : (s.pageMoved last p).slot i = s.slot i := by
  rw [pageMoved_only]; rfl

theorem wf_pageMoved {s : State} (hw : Cells.wf Config.pages rebuiltNext s.pool.next = true) (last : Option PageId)
    (p : PageId) : Cells.wf Config.pages rebuiltNext (s.pageMoved last p).pool.next = true := by
  have h1 := Pool.wf_setNext (s.takeHead p).pool p none hw
  unfold pageMoved chainPage
  cases last <;> [exact h1; exact Pool.wf_setNext _ _ _ h1]

/-- The registers of the free list after the move; the allocation context stands. -/
theorem pool_pageMoved (s : State) (last : Option PageId) (p : PageId) :
    (s.pageMoved last p).pool = { s.pool with
      head := if s.pool.tail = some p then none else s.pool.nextOf p
      tail := if s.pool.tail = some p then none else s.pool.tail
      count := s.pool.count - 1
      next := (s.pageMoved last p).pool.next } := by
  unfold pageMoved chainPage takeHead
  cases last <;> rfl

theorem nextOf_pageMoved {s : State} (hw : Cells.wf Config.pages rebuiltNext s.pool.next = true) (last : Option PageId)
    (p r : PageId) : (s.pageMoved last p).pool.nextOf r =
      if last = some r then some p else if r = p then none else s.pool.nextOf r := by
  have h1 := Pool.nextOf_setNext (s.takeHead p).pool p r none (Cells.rising_of_wf hw)
  unfold pageMoved chainPage
  cases last with
  | none => exact h1
  | some l =>
    refine (Pool.nextOf_setNext _ l r (some p) (Cells.rising_of_wf (Pool.wf_setNext (s.takeHead p).pool p none hw))).trans ?_
    rw [h1]
    simp only [Option.some.injEq, eq_comm]
    rfl

end State

/-- The allocation context after a take of page p for a slot with this PPG: none after the last page (R29 steps 3 and 4). -/
def Alloc.after (a : Alloc) (ppg : Nat) (p : PageId) : Option Alloc :=
  if a.remaining ≤ 1 then none
  else if a.taken + 1 = ppg then
    some { a with gen := a.gen + 1, taken := 0, first := none, last := none, remaining := a.remaining - 1 }
  else
    some { a with taken := a.taken + 1, first := some (a.first.getD p), last := some p, remaining := a.remaining - 1 }

namespace State

theorem pageTake_some {s : State} {a : Alloc} {p : PageId} (ha : s.pool.alloc = some a) (hp : s.pool.head = some p) :
    s.pageTake = (s.pageMoved a.last p).advanceAlloc a p := by
  unfold pageTake
  rw [ha, hp]
  rfl

/-- With no allocation in progress or no free page the take changes nothing (log 1, log 22). -/
theorem pageTake_none {s : State} (h : s.pool.alloc = none ∨ s.pool.head = none) : s.pageTake = s := by
  unfold pageTake
  obtain h | h := h <;> rw [h]
  cases s.pool.alloc <;> rfl

/-- The take changes nothing, or moves the page at HEAD and advances the allocation (R29, log 22). -/
theorem pageTake_cases (s : State) : s.pageTake = s ∨ ∃ a p, s.pool.alloc = some a ∧ s.pool.head = some p ∧
    s.pageTake = (s.pageMoved a.last p).advanceAlloc a p := by
  cases ha : s.pool.alloc with
  | none => exact .inl (pageTake_none (.inl ha))
  | some a =>
    cases hp : s.pool.head with
    | none => exact .inl (pageTake_none (.inr hp))
    | some p => exact .inr ⟨a, p, rfl, rfl, pageTake_some ha hp⟩

theorem advanceAlloc_pool (s : State) (a : Alloc) (p : PageId) :
    (s.advanceAlloc a p).pool = { s.pool with alloc := a.after (s.slot a.slot).ppg p } := by
  unfold advanceAlloc Alloc.after
  cases a.first <;> simp only [] <;> split <;> split <;> rfl

theorem slot_configureDone (s : State) (i j : SlotId) :
    (s.configureDone i).slot j = if j = i then { s.slot i with state := .active } else s.slot j :=
  slot_setSlot (s.setPool { s.pool with alloc := none }) i _ j

/-- The slot of the allocation after a take: its generation's HEAD where the chain is complete, ACTIVE after the last page
(R15, R29). -/
theorem advanceAlloc_slot (s : State) (a : Alloc) (p : PageId) :
    (s.advanceAlloc a p).slot a.slot = { s.slot a.slot with
      state := if a.remaining ≤ 1 then .active else (s.slot a.slot).state
      gens := if a.taken + 1 = (s.slot a.slot).ppg then
          Table.put (s.slot a.slot).gens a.gen { (s.slot a.slot).gen a.gen with head := some (a.first.getD p) }
        else (s.slot a.slot).gens } := by
  unfold advanceAlloc
  simp only []
  split <;> split
  · rw [slot_configureDone, if_pos rfl, slot_setSlot_self]
    cases a.first <;> rfl
  · rw [slot_configureDone, if_pos rfl]
  · rw [slot_setPool, slot_setSlot_self]
    cases a.first <;> rfl
  · rfl

theorem advanceAlloc_other (s : State) (a : Alloc) (p : PageId) {j : SlotId} (h : j ≠ a.slot) :
    (s.advanceAlloc a p).slot j = s.slot j := by
  unfold advanceAlloc
  have whole : ∀ x, (s.setSlot a.slot x).slot j = s.slot j := fun x => by rw [slot_setSlot, if_neg h]
  simp only []
  split
  · rw [slot_configureDone, if_neg h]
    split <;> [exact whole _; rfl]
  · split <;> [exact whole _; rfl]

theorem advanceAlloc_gen_eq (s : State) (a : Alloc) (p : PageId) (g : GenId) :
    ((s.advanceAlloc a p).slot a.slot).gen g =
      if g = a.gen ∧ a.taken + 1 = (s.slot a.slot).ppg then
        { (s.slot a.slot).gen a.gen with head := some (a.first.getD p) }
      else (s.slot a.slot).gen g := by
  rw [advanceAlloc_slot]
  unfold Slot.gen
  by_cases h : a.taken + 1 = (s.slot a.slot).ppg
  · simp only [h, if_true, and_true, Table.get_put]
  · simp only [h, if_false, and_false]

/-- The unit and the queue after a take: the command ends with the last page (R154). -/
theorem advanceAlloc_more {s : State} {a : Alloc} (p : PageId) (h : 1 < a.remaining) :
    (s.advanceAlloc a p).cmd = s.cmd ∧ (s.advanceAlloc a p).events = s.events := by
  unfold advanceAlloc
  simp only [show ¬ a.remaining ≤ 1 by omega, if_false]
  split <;> exact ⟨rfl, rfl⟩

theorem advanceAlloc_done {s : State} {a : Alloc} (p : PageId) (h : a.remaining ≤ 1) :
    (s.advanceAlloc a p).cmd = { s.cmd with code := .ok, detail := 0, state := .idle, running := none } ∧
      (s.advanceAlloc a p).events = s.events.take (s.record .commandDone a.slot.val 0 0) := by
  unfold advanceAlloc configureDone endCommand
  simp only [h, if_true]
  split <;> exact ⟨rfl, rfl⟩

end State
end Sys2Proof.Machine

/-! SUPPORT. The work of a reset (O7) and the page take (O12), event by event. -/

namespace Sys2Proof.Machine

namespace State

theorem poolWf_of_memoriesWf {s : State} (h : s.memoriesWf = true) :
    Cells.wf Config.pages rebuiltNext s.pool.next = true := by
  unfold memoriesWf at h
  rw [Bool.and_eq_true, Bool.and_eq_true] at h
  obtain ⟨⟨_, hpool⟩, _⟩ := h
  exact hpool

/-- With every word cleared the schedule memory reads 0 everywhere (R73). -/
theorem scheduleWord_cleared {s : State} (h : s.schedule = []) (a : Nat) : s.scheduleWord a = 0 := by
  unfold scheduleWord
  rw [h]
  rfl

end State

/-- Settles O7, from the equations of the rebuild and of the clearing, one per phase they meet, and the reading rules of
one link. -/
theorem resetWorkStepByStep : Obligations.ResetWorkStepByStep := by
  unfold Obligations.ResetWorkStepByStep
  refine ⟨fun s n clearing hn hr hw hnew => ⟨s.rebuildPage, rfl, ?_⟩, fun s n hr => ⟨s.clearSchedule, rfl, ?_⟩,
    fun s h => congrArg Host.Outcome.next (State.rebuildPage_idle h),
    fun s h => congrArg Host.Outcome.next (State.clearSchedule_idle h)⟩
  · have hnext := Pool.nextOf_linkPage (Cells.rising_of_wf (State.poolWf_of_memoriesWf hw)) ⟨n, hn⟩
    have hpool : s.rebuildPage.pool = s.pool.linkPage ⟨n, hn⟩ := by
      rw [State.rebuildPage_running hr hn]; split <;> rfl
    rw [hpool]
    refine ⟨rfl, by rw [hnext, if_pos rfl], rfl, fun q hq => ⟨?_, ?_⟩, fun h => ?_, fun q hq ht => ?_, fun h0 hc => ?_,
      fun h => ?_, Pool.alloc_linkPage .., ?_⟩
    · rw [hnext, if_neg fun e : q = ⟨n, hn⟩ => hnew (e ▸ hq), if_pos hq]
    · rw [Pool.head_linkPage, if_neg (by rw [hq]; exact nofun)]
    · rw [Pool.head_linkPage, if_pos h]
    · rw [hnext, if_neg fun e => hq (congrArg Fin.val e), if_neg ht]
    · rw [State.rebuildPage_running hr hn, if_pos ⟨by omega, hc⟩]; exact ⟨rfl, rfl⟩
    · have hmore : ¬ (n + 1 = 2048 ∧ clearing = false) := by
        rintro ⟨e, hc⟩
        obtain h | h := h
        · omega
        · rw [hc] at h; cases h
      rw [State.rebuildPage_running hr hn, if_neg hmore]; exact ⟨rfl, rfl⟩
    · rw [State.rebuildPage_running hr hn]; split <;> rfl
  · rw [State.clearSchedule_running hr]
    split <;> rename_i h
    · exact ⟨State.scheduleWord_cleared rfl, fun _ => ⟨rfl, rfl⟩, fun e => absurd h e, rfl⟩
    · exact ⟨State.scheduleWord_cleared rfl, fun e => absurd e h, fun _ => ⟨rfl, rfl⟩, rfl⟩

/-- Settles O12, from the two halves of a take: the page moves from HEAD to the chain, and the allocation advances. -/
theorem pageTakeMovesTheHeadPage : Obligations.PageTakeMovesTheHeadPage := by
  unfold Obligations.PageTakeMovesTheHeadPage
  refine fun s => ⟨fun h => congrArg Host.Outcome.next (State.pageTake_none h), fun a p ha hp hlast hw =>
    ⟨s.pageTake, rfl, ?_⟩⟩
  have honly := State.pageTake_only s
  have hnext := State.nextOf_pageMoved (State.poolWf_of_memoriesWf hw) a.last p
  have hpool := State.pool_pageMoved s a.last p
  have hslot := State.slot_pageMoved s a.last p
  have hmoved := State.pageMoved_only s a.last p
  rw [State.pageTake_some ha hp] at honly ⊢
  generalize hm : s.pageMoved a.last p = m at honly hnext hpool hslot hmoved ⊢
  have hadv := State.advanceAlloc_pool m a p
  have hown := State.advanceAlloc_slot m a p
  have hgen := State.advanceAlloc_gen_eq m a p
  rw [hslot] at hadv hown hgen
  have hcells : ∀ q, (m.advanceAlloc a p).pool.nextOf q = m.pool.nextOf q := fun q => by rw [hadv]; rfl
  refine ⟨?_, fun ht => ?_, fun ht => ?_, ?_, fun l hl => ?_, fun q hq hl => ?_, ?_, fun hfull => ?_, fun g hg => ?_,
    fun hr hfull => ?_, fun hr hfull => ?_, fun hr => ?_, fun hr => ?_, fun j hj => ?_, honly⟩
  · rw [hadv, hpool]
  · rw [hadv, hpool]; simp only [ht, if_true, and_self]
  · rw [hadv, hpool]; simp only [ht, if_false, and_self]
  · rw [hcells, hnext, if_neg hlast, if_pos rfl]
  · rw [hcells, hnext, if_pos hl]
  · rw [hcells, hnext, if_neg hl, if_neg hq]
  · rw [hown]
  · rw [hgen, if_pos ⟨rfl, hfull⟩]
  · rw [hgen, if_neg (by tauto)]
  · rw [hadv, Alloc.after, if_neg (by omega), if_neg hfull]
  · rw [hadv, Alloc.after, if_neg (by omega), if_pos hfull]
  · obtain ⟨hcmd, hev⟩ := State.advanceAlloc_more (s := m) (a := a) p hr
    rw [hown, hcmd, hev, hmoved, if_neg (by omega)]
    exact ⟨rfl, rfl, rfl⟩
  · obtain ⟨hcmd, hev⟩ := State.advanceAlloc_done (s := m) (a := a) p hr
    rw [hadv, hown, hcmd, hev, hmoved, Alloc.after, if_pos hr, if_pos hr]
    exact ⟨rfl, rfl, rfl, rfl⟩
  · rw [State.advanceAlloc_other _ _ _ hj, hslot]

end Sys2Proof.Machine

/-! SUPPORT. The rebuild of the free list (O59): what every step keeps of it, and where it ends. -/

namespace Sys2Proof.Machine
namespace State

/-- During a reset no allocation is open and every slot is UNUSED. -/
theorem rebuildInv_quiet {s : State} (h : s.rebuildInv) (hr : s.resetPhase ≠ .none) :
    s.pool.alloc = none ∧ ∀ i, (s.slot i).state = .unused := by
  unfold rebuildInv at h
  split at h
  · rename_i e; exact absurd e hr
  · obtain ⟨_, hquiet⟩ := h
    exact hquiet
  · obtain ⟨_, _, _, hquiet⟩ := h
    exact hquiet

theorem rebuildInv_running {s : State} {n : Nat} {clearing : Bool} (hr : s.resetPhase = .running n clearing) :
    s.rebuildInv ↔ n ≤ 2048 ∧ ¬ (n = 2048 ∧ clearing = false) ∧ linkedUpTo s.pool n ∧ s.pool.alloc = none ∧
      ∀ i, (s.slot i).state = .unused := by
  unfold rebuildInv
  rw [hr]

theorem rebuildInv_held {s : State} (hr : s.resetPhase = .held) :
    s.rebuildInv ↔ linkedUpTo s.pool 0 ∧ s.pool.alloc = none ∧ ∀ i, (s.slot i).state = .unused := by
  unfold rebuildInv
  rw [hr]

theorem rebuildInv_none {s : State} (hr : s.resetPhase = .none) : s.rebuildInv := by
  unfold rebuildInv
  rw [hr]
  trivial

theorem rebuildInv_kept {s t : State} (h : s.rebuildInv) (hu : ∀ i, (s.slot i).state = .unused → (t.slot i).state = .unused)
    (hp : t.pool = s.pool) (hr : t.resetPhase = s.resetPhase) : t.rebuildInv := by
  unfold rebuildInv at h ⊢
  rw [hr, hp]
  split
  · trivial
  · rename_i e
    rw [e] at h
    obtain ⟨hlinked, halloc, hslots⟩ := h
    exact ⟨hlinked, halloc, fun i => hu i (hslots i)⟩
  · rename_i e
    rw [e] at h
    obtain ⟨hn, hend, hlinked, halloc, hslots⟩ := h
    exact ⟨hn, hend, hlinked, halloc, fun i => hu i (hslots i)⟩

theorem SitesKept.unused {s t : State} (h : SitesKept s t) (i : SlotId) :
    (t.slot i).state = .unused ↔ (s.slot i).state = .unused := (h.site i).unused

theorem pageMove_phase {s t : State} (e : PageMove s t) : t.resetPhase = s.resetPhase := by
  cases e with
  | still _ _ hr => exact hr
  | drainEnd i _ => rw [drainEnd_only]

theorem pageRun_phase {s t : State} (e : PageRun s t) : t.resetPhase = s.resetPhase := by
  induction e with
  | refl => rfl
  | tail _ e ih => exact (pageMove_phase e).trans ih

/-- During a reset no slot drains, so a move keeps the free list that the rebuild has made. -/
theorem pageMove_rebuildInv {s t : State} (h : s.rebuildInv) (e : PageMove s t) : t.rebuildInv := by
  by_cases hr : s.resetPhase = .none
  · exact rebuildInv_none ((pageMove_phase e).trans hr)
  · cases e with
    | still hs hp hphase => exact rebuildInv_kept h (fun i => (hs.unused i).mpr) hp hphase
    | drainEnd i hi =>
      have := (rebuildInv_quiet h hr).2 i
      rw [hi] at this
      cases this

theorem pageRun_rebuildInv {s t : State} (h : s.rebuildInv) (e : PageRun s t) : t.rebuildInv := by
  induction e with
  | refl => exact h
  | tail _ e ih => exact pageMove_rebuildInv ih e

theorem pageTake_rebuildInv {s : State} (h : s.rebuildInv) :
    s.pageTake.rebuildInv ∧ s.pageTake.resetPhase = s.resetPhase := by
  have hphase : s.pageTake.resetPhase = s.resetPhase := by rw [pageTake_only]
  by_cases hr : s.resetPhase = .none
  · exact ⟨rebuildInv_none (hphase.trans hr), hphase⟩
  · rw [pageTake_none (.inl (rebuildInv_quiet h hr).1)]
    exact ⟨h, rfl⟩

theorem resetBegins_rebuildInv {t : State} {next : Cells (Option PageId)} (hs : t.slots = State.reset.slots)
    (hp : t.pool = { head := none, tail := none, count := 0, next := next, alloc := none })
    (hr : t.resetPhase = .held ∨ t.resetPhase = .running 0 false) : t.rebuildInv := by
  have hslots : ∀ i, (t.slot i).state = .unused := fun i => by
    unfold slot
    rw [hs]
    exact congrArg Slot.state (slot_reset i)
  have hlinked : linkedUpTo t.pool 0 := by
    rw [hp]
    exact ⟨rfl, fun _ => ⟨rfl, rfl⟩, fun p => ⟨fun _ h => absurd h (by omega), fun h => absurd h (by omega),
      fun p' _ h => absurd h (by omega)⟩⟩
  have halloc : t.pool.alloc = none := by rw [hp]
  obtain hr | hr := hr
  · exact (rebuildInv_held hr).mpr ⟨hlinked, halloc, hslots⟩
  · exact (rebuildInv_running hr).mpr ⟨by omega, by omega, hlinked, halloc, hslots⟩

theorem releaseReset_rebuildInv {s : State} (h : s.rebuildInv) :
    s.releaseReset.rebuildInv ∧ ((∃ n b, s.resetPhase = .running n b) → s.releaseReset.resetPhase = s.resetPhase) := by
  unfold releaseReset
  split
  · rename_i hr
    obtain ⟨hlinked, halloc, hslots⟩ := (rebuildInv_held hr).mp h
    refine ⟨(rebuildInv_running rfl).mpr ⟨by omega, by omega, hlinked, halloc, hslots⟩, ?_⟩
    rintro ⟨n, b, e⟩
    rw [hr] at e; cases e
  all_goals exact ⟨h, fun _ => rfl⟩

/-- One event of the rebuild (R27): the last one, with the clearing done, leaves the whole free list. -/
theorem rebuildPage_rebuildInv {s : State} (hw : Cells.wf Config.pages rebuiltNext s.pool.next = true)
    (h : s.rebuildInv) : s.rebuildPage.rebuildInv ∧
    (s.resetPhase ≠ .none → s.rebuildPage.resetPhase = .none → linkedUpTo s.rebuildPage.pool 2048) := by
  obtain hidle | ⟨n, clearing, hr, hn⟩ := rebuildPage_cases s
  · rw [hidle]
    exact ⟨h, fun hr e => absurd e hr⟩
  · obtain ⟨_, _, hlinked, halloc, hslots⟩ := (rebuildInv_running hr).mp h
    have hmore := linkedUpTo_linkPage (Cells.rising_of_wf hw) hn hlinked
    rw [rebuildPage_running hr hn]
    split <;> rename_i hlast
    · rw [hlast.1] at hmore
      exact ⟨rebuildInv_none rfl, fun _ _ => hmore⟩
    · have halloc' := (Pool.alloc_linkPage s.pool ⟨n, hn⟩).trans halloc
      exact ⟨(rebuildInv_running rfl).mpr ⟨hn, hlast, hmore, halloc', hslots⟩, fun _ => nofun⟩

/-- The clearing of the schedule memory ends a reset only when the rebuild is done (R73, R159). -/
theorem clearSchedule_rebuildInv {s : State} (h : s.rebuildInv) : s.clearSchedule.rebuildInv ∧
    (s.resetPhase ≠ .none → s.clearSchedule.resetPhase = .none → linkedUpTo s.clearSchedule.pool 2048) := by
  by_cases hdue : ∃ n, s.resetPhase = .running n true
  · obtain ⟨n, hr⟩ := hdue
    obtain ⟨hn, _, hlinked, halloc, hslots⟩ := (rebuildInv_running hr).mp h
    rw [clearSchedule_running hr]
    split <;> rename_i hlast
    · exact ⟨rebuildInv_none rfl, fun _ _ => by subst hlast; exact hlinked⟩
    · exact ⟨(rebuildInv_running rfl).mpr ⟨hn, fun e => hlast e.1, hlinked, halloc, hslots⟩, fun _ => nofun⟩
  · rw [clearSchedule_idle (not_exists.mp hdue)]
    exact ⟨h, fun hr e => absurd e hr⟩

/-- Every act keeps the free list of a reset, and an act that ends one leaves the whole list. -/
theorem pageAct_rebuildInv {s t : State} (hw : Cells.wf Config.pages rebuiltNext s.pool.next = true) (h : s.rebuildInv)
    (e : PageAct s t) :
    t.rebuildInv ∧ ((∃ n b, s.resetPhase = .running n b) → t.resetPhase = .none → linkedUpTo t.pool 2048) := by
  have running : (∃ n b, s.resetPhase = .running n b) → s.resetPhase ≠ .none := by
    rintro ⟨n, b, e⟩ e'
    rw [e] at e'; cases e'
  have same : t.resetPhase = s.resetPhase →
      ((∃ n b, s.resetPhase = .running n b) → t.resetPhase = .none → linkedUpTo t.pool 2048) :=
    fun hphase hrun hnone => absurd (hphase.symm.trans hnone) (running hrun)
  cases e with
  | run e => exact ⟨pageRun_rebuildInv h e, same (pageRun_phase e)⟩
  | slotConfigure _ hr =>
    have hphase : s.slotConfigure.resetPhase = s.resetPhase := by rw [slotConfigure_only]
    exact ⟨rebuildInv_none (hphase.trans hr), same hphase⟩
  | pageTake => exact ⟨(pageTake_rebuildInv h).1, same (pageTake_rebuildInv h).2⟩
  | resetBegins hs hp hr =>
    refine ⟨resetBegins_rebuildInv hs hp hr, fun _ e => ?_⟩
    obtain hr | hr := hr <;> rw [hr] at e <;> cases e
  | releaseReset =>
    obtain ⟨hinv, hphase⟩ := releaseReset_rebuildInv h
    exact ⟨hinv, fun hrun => same (hphase hrun) hrun⟩
  | rebuildPage => exact ⟨(rebuildPage_rebuildInv hw h).1, fun hrun => (rebuildPage_rebuildInv hw h).2 (running hrun)⟩
  | clearSchedule => exact ⟨(clearSchedule_rebuildInv h).1, fun hrun => (clearSchedule_rebuildInv h).2 (running hrun)⟩

end State

/-- Settles O59: grants leave the pool and a reset's progress, and every act that meets them keeps the part of the free list
that the rebuild has linked. -/
theorem rebuildRestoresTheFreeList : Obligations.RebuildRestoresTheFreeList := by
  unfold Obligations.RebuildRestoresTheFreeList
  intro s t hw h e
  obtain ⟨l, u, hu, act⟩ := step_pages e
  have hinv : u.rebuildInv :=
    State.rebuildInv_kept (s := { s with pending := l }) h (fun i => (hu.sites.unused i).mpr) hu.pool hu.phase
  obtain ⟨hkeep, hend⟩ := State.pageAct_rebuildInv (hu.pool ▸ State.poolWf_of_memoriesWf hw) hinv act
  exact ⟨hkeep, fun hrun => hend (by rw [hu.phase]; exact hrun)⟩

end Sys2Proof.Machine

/-! SUPPORT. Where the pages of the store are (R25 to R30): the layout of the free list and the chains, and what the return of
chains and the move of a page make of it. -/

namespace Sys2Proof.Machine

/-! ### The chains as one list -/

/-- The pages on the chains of all generations, slot by slot. -/
def chainsOf (chain : SlotId → GenId → List PageId) : List PageId :=
  (List.finRange 32).flatMap fun i => (List.finRange 5).flatMap (chain i)

theorem mem_chainsOf {chain : SlotId → GenId → List PageId} {i : SlotId} {g : GenId} {p : PageId} (h : p ∈ chain i g) :
    p ∈ chainsOf chain :=
  List.mem_flatMap.mpr ⟨i, List.mem_finRange i, List.mem_flatMap.mpr ⟨g, List.mem_finRange g, h⟩⟩

theorem chainsOf_nil : chainsOf (fun _ _ => []) = [] := by simp [chainsOf]

/-- Two families of lists that differ at one index, by the elements c. -/
theorem flatMap_perm_of_eq_off {α β : Type} [DecidableEq α] {l : List α} (hn : l.Nodup) {i : α} (hi : i ∈ l)
    {f g : α → List β} {c : List β} (hc : (f i).Perm (c ++ g i)) (hoff : ∀ j, j ≠ i → f j = g j) :
    (l.flatMap f).Perm (c ++ l.flatMap g) := by
  have hrest : (l.erase i).flatMap f = (l.erase i).flatMap g :=
    List.flatMap_congr fun j hj => hoff j fun e => (hn.mem_erase_iff.mp hj).1 e
  have split : ∀ h : α → List β, (l.flatMap h).Perm (h i ++ (l.erase i).flatMap h) := fun h =>
    (List.perm_cons_erase hi).flatMap_right h
  have hmid : (f i ++ (l.erase i).flatMap f).Perm (c ++ (g i ++ (l.erase i).flatMap g)) := by
    rw [hrest, ← List.append_assoc]
    exact hc.append_right _
  exact (split f).trans (hmid.trans ((split g).symm.append_left c))

/-- A flatMap passes over the elements with nothing in them. -/
theorem flatMap_filter_eq {α β : Type} {p : α → Bool} {f : α → List β} : ∀ {l : List α},
    (∀ x ∈ l, p x = false → f x = []) → (l.filter p).flatMap f = l.flatMap f
  | [], _ => rfl
  | x :: l, h => by
    have ih := flatMap_filter_eq fun y hy => h y (List.mem_cons_of_mem x hy)
    cases hx : p x with
    | true => rw [List.filter_cons_of_pos hx, List.flatMap_cons, List.flatMap_cons, ih]
    | false =>
      rw [List.filter_cons_of_neg (by rw [hx]; exact Bool.false_ne_true), List.flatMap_cons, h x List.mem_cons_self hx,
        List.nil_append, ih]

/-- The chains of one slot taken away. -/
theorem chainsOf_drop (chain : SlotId → GenId → List PageId) (i : SlotId) :
    (chainsOf chain).Perm ((List.finRange 5).flatMap (chain i) ++ chainsOf (Function.update chain i fun _ => [])) :=
  flatMap_perm_of_eq_off (List.nodup_finRange 32) (List.mem_finRange i)
    (by rw [Function.update_self, List.flatMap_eq_nil_iff.mpr fun _ _ => rfl, List.append_nil])
    (fun j hj => by rw [Function.update_of_ne hj])

/-- One more chain, of a generation that had none. -/
theorem chainsOf_add {chain : SlotId → GenId → List PageId} {i : SlotId} {g : GenId} (c : List PageId) (h : chain i g = []) :
    (chainsOf (Function.update chain i (Function.update (chain i) g c))).Perm (c ++ chainsOf chain) := by
  refine flatMap_perm_of_eq_off (List.nodup_finRange 32) (List.mem_finRange i) ?_
    (fun j hj => by rw [Function.update_of_ne hj])
  rw [Function.update_self]
  exact flatMap_perm_of_eq_off (List.nodup_finRange 5) (List.mem_finRange g) (by rw [Function.update_self, h, List.append_nil])
    (fun k hk => Function.update_of_ne hk ..)

/-! ### The layout of the pages -/

/-- Every page of the store is at one place: on the free list, on the chain that starts at FIRST of the allocation, or on
the chain at HEAD of a generation. -/
structure Layout (q : Pool) (head : SlotId → GenId → Option PageId) (first : Option PageId) (free building : List PageId)
    (chain : SlotId → GenId → List PageId) : Prop where
  listed : freeList q free
  begun : linkedList q first building
  chains : ∀ i g, linkedList q (head i g) (chain i g)
  once : (free ++ building ++ chainsOf chain).Nodup
  every : (free ++ building ++ chainsOf chain).length = 2048

theorem Layout.off {q : Pool} {head : SlotId → GenId → Option PageId} {first : Option PageId} {free building : List PageId}
    {chain : SlotId → GenId → List PageId} (h : Layout q head first free building chain) :
    free.Nodup ∧ building.Nodup ∧ (∀ p ∈ free, p ∉ building ∧ ∀ i g, p ∉ chain i g) ∧
      ∀ p ∈ building, ∀ i g, p ∉ chain i g := by
  obtain ⟨hlists, _, hchain⟩ := List.nodup_append.mp h.once
  obtain ⟨hfree, hbuilding, hoff⟩ := List.nodup_append.mp hlists
  exact ⟨hfree, hbuilding, fun p hp => ⟨fun hb => hoff p hp p hb rfl,
    fun i g hc => hchain p (List.mem_append_left _ hp) p (mem_chainsOf hc) rfl⟩,
    fun p hp i g hc => hchain p (List.mem_append_right _ hp) p (mem_chainsOf hc) rfl⟩

theorem linkedList_alloc {q r : Pool} {f : Option PageId} {l : List PageId} (h : linkedList q f l)
    (hr : r = { q with alloc := r.alloc }) : linkedList r f l :=
  linkedList_congr (fun _ _ => by rw [hr]; rfl) h

theorem freeList_alloc {q r : Pool} {l : List PageId} (h : freeList q l) (hr : r = { q with alloc := r.alloc }) :
    freeList r l := by
  obtain ⟨hlist, htail, hcount⟩ := h
  have hhead : r.head = q.head := by rw [hr]
  exact ⟨hhead ▸ linkedList_alloc hlist hr, by rw [hr]; exact htail, by rw [hr]; exact hcount⟩

/-- Nothing of a layout depends on the allocation's record. -/
theorem Layout.alloc {q r : Pool} {head : SlotId → GenId → Option PageId} {first : Option PageId}
    {free building : List PageId} {chain : SlotId → GenId → List PageId} (h : Layout q head first free building chain)
    (hr : r = { q with alloc := r.alloc }) : Layout r head first free building chain :=
  ⟨freeList_alloc h.listed hr, linkedList_alloc h.begun hr, fun i g => linkedList_alloc (h.chains i g) hr, h.once, h.every⟩

/-- The chain being built becomes that of a generation that had none (R29). -/
theorem Layout.complete {q : Pool} {head : SlotId → GenId → Option PageId} {first : Option PageId}
    {free building : List PageId} {chain : SlotId → GenId → List PageId} (h : Layout q head first free building chain)
    {i : SlotId} {g : GenId} (hbare : chain i g = []) {head' : SlotId → GenId → Option PageId} (hset : head' i g = first)
    (hoff : ∀ j k, ¬ (j = i ∧ k = g) → head' j k = head j k) :
    Layout q head' none free [] (Function.update chain i (Function.update (chain i) g building)) := by
  have hperm : (free ++ [] ++ chainsOf (Function.update chain i (Function.update (chain i) g building))).Perm
      (free ++ building ++ chainsOf chain) := by
    rw [List.append_nil, List.append_assoc]
    exact (chainsOf_add building hbare).append_left free
  refine ⟨h.listed, rfl, fun j k => ?_, hperm.nodup_iff.mpr h.once, hperm.length_eq.trans h.every⟩
  by_cases hj : j = i
  · subst hj
    rw [Function.update_self]
    by_cases hk : k = g
    · subst hk
      rw [Function.update_self, hset]
      exact h.begun
    · rw [Function.update_of_ne hk, hoff j k fun e => hk e.2]
      exact h.chains j k
  · rw [Function.update_of_ne hj, hoff j k fun e => hj e.1]
    exact h.chains j k

namespace State

/-- HEAD of every generation. -/
def heads (s : State) (i : SlotId) (g : GenId) : Option PageId := ((s.slot i).gen g).head

/-! ### A page moves from the free list to the chain being built -/

/-- The free list without the page at HEAD (R29), where the chain being built has none of its pages. -/
theorem freeList_pageMoved {s : State} (hw : Cells.wf Config.pages rebuiltNext s.pool.next = true) {last : Option PageId}
    {p : PageId} {free : List PageId} (hf : freeList s.pool (p :: free)) (hn : (p :: free).Nodup)
    (hlast : ∀ l, last = some l → l ∉ free) : freeList (s.pageMoved last p).pool free := by
  obtain ⟨⟨hhead, hlist⟩, htail, hcount⟩ := hf
  obtain ⟨hp, _⟩ := List.nodup_cons.mp hn
  have hpool := pool_pageMoved s last p
  have hmoved : linkedList (s.pageMoved last p).pool (s.pool.nextOf p) free :=
    linkedList_congr (fun r hr => by
      rw [nextOf_pageMoved hw, if_neg fun e => hlast r e hr, if_neg fun e : r = p => hp (e ▸ hr)]) hlist
  cases free with
  | nil =>
    rw [hpool]
    exact ⟨if_pos htail, if_pos htail, by show s.pool.count - 1 = 0; rw [hcount]; rfl⟩
  | cons x l =>
    rw [List.getLast?_cons_cons] at htail
    have hne : s.pool.tail ≠ some p := fun e => hp (List.mem_of_getLast? (htail.symm.trans e))
    have hhead' : (s.pageMoved last p).pool.head = s.pool.nextOf p := by rw [hpool]; exact if_neg hne
    have htail' : (s.pageMoved last p).pool.tail = s.pool.tail := by rw [hpool]; exact if_neg hne
    refine ⟨hhead' ▸ hmoved, htail'.trans htail, ?_⟩
    rw [hpool]
    show s.pool.count - 1 = _
    rw [hcount, List.length_cons, Nat.add_sub_cancel]

/-- The chain being built with a page added at its end (R29). -/
theorem linkedList_pageMoved {s : State} (hw : Cells.wf Config.pages rebuiltNext s.pool.next = true) {first : Option PageId}
    {p : PageId} {building : List PageId} (hb : linkedList s.pool first building) (hn : building.Nodup) (hp : p ∉ building) :
    linkedList (s.pageMoved building.getLast? p).pool (some (first.getD p)) (building ++ [p]) := by
  have hnext := nextOf_pageMoved hw building.getLast? p
  have hone : linkedList (s.pageMoved building.getLast? p).pool (some p) [p] :=
    ⟨rfl, by rw [hnext, if_neg fun e => hp (List.mem_of_getLast? e), if_pos rfl]; rfl⟩
  cases first with
  | none =>
    have hnil : building = [] := linkedList_unique hb (rfl : linkedList s.pool none [])
    rw [hnil] at hone ⊢
    exact hone
  | some f =>
    have hne : building ≠ [] := fun e => by rw [e] at hb; exact nomatch hb
    have ht := List.getLast?_eq_some_getLast hne
    exact linkedList_join hone hb ht hn (by rw [hnext, if_pos ht]) fun r hr hrt => by
      rw [hnext, if_neg fun e => hrt (Option.some.inj (e.symm.trans ht)), if_neg fun e : r = p => hp (e ▸ hr)]

/-- The pages of the chain being built, the page of HEAD added (R29). -/
theorem layout_pageMoved {s : State} (hw : Cells.wf Config.pages rebuiltNext s.pool.next = true)
    {head : SlotId → GenId → Option PageId} {first : Option PageId} {p : PageId} {free building : List PageId}
    {chain : SlotId → GenId → List PageId} (h : Layout s.pool head first (p :: free) building chain) :
    Layout (s.pageMoved building.getLast? p).pool head (some (first.getD p)) free (building ++ [p]) chain := by
  obtain ⟨hfree, hbuilding, hoff, hoff'⟩ := h.off
  obtain ⟨hp, hpc⟩ := hoff p List.mem_cons_self
  have hperm : (free ++ (building ++ [p]) ++ chainsOf chain).Perm (p :: free ++ building ++ chainsOf chain) := by
    refine List.Perm.append_right _ ?_
    rw [← List.append_assoc]
    exact List.perm_append_singleton p (free ++ building)
  refine ⟨freeList_pageMoved hw h.listed hfree fun l hl hm => ?_, linkedList_pageMoved hw h.begun hbuilding hp, fun i g => ?_,
    hperm.nodup_iff.mpr h.once, hperm.length_eq.trans h.every⟩
  · exact (hoff l (List.mem_cons_of_mem _ hm)).1 (List.mem_of_getLast? hl)
  · refine linkedList_congr (fun r hr => ?_) (h.chains i g)
    rw [nextOf_pageMoved hw, if_neg fun e => hoff' r (List.mem_of_getLast? e) i g hr,
      if_neg fun e : r = p => hpc i g (e ▸ hr)]

/-! ### The chains of a slot return -/

/-- Returned chains change NEXT of no page outside them and the free list they join (R30). -/
theorem nextOf_returnChains {i : SlotId} {chain : GenId → List PageId} : ∀ (l : List GenId) (s : State)
    (free : List PageId), l.Nodup → Cells.wf Config.pages rebuiltNext s.pool.next = true → freeList s.pool free →
    (∀ g ∈ l, chain g ≠ [] ∧ (chain g).length = (s.slot i).ppg ∧
      linkedList s.pool ((s.slot i).gen g).head (chain g)) →
    (free ++ l.flatMap chain).Nodup → ∀ p, p ∉ free ++ l.flatMap chain →
    (l.foldl (fun t g => t.returnChain i g) s).pool.nextOf p = s.pool.nextOf p
  | [], _, _, _, _, _, _, _, _, _ => rfl
  | g :: l, s, free, hn, hw, hf, hc, hd, p, hp => by
    obtain ⟨hg, hl⟩ := List.nodup_cons.mp hn
    obtain ⟨hne, hlen, hlink⟩ := hc g List.mem_cons_self
    rw [List.flatMap_cons, ← List.append_assoc] at hd hp
    have hfree := freeList_returnChains [g] s free (List.nodup_singleton g) hw hf
      (fun k hk => hc k (List.mem_cons.mpr (.inl (List.mem_singleton.mp hk)))) (by
        rw [List.flatMap_singleton]; exact (List.nodup_append.mp hd).1)
    rw [List.flatMap_singleton, List.foldl_cons, List.foldl_nil] at hfree
    obtain ⟨f, hh⟩ : ∃ f, ((s.slot i).gen g).head = some f := by
      cases hcg : chain g with
      | nil => exact absurd hcg hne
      | cons f c => rw [hcg] at hlink; exact ⟨f, hlink.1⟩
    have hpool := returnChain_some hh
    rw [hh] at hlink
    have hkeep : ∀ r, r ∉ free → (s.returnChain i g).pool.nextOf r = s.pool.nextOf r := by
      rw [hpool]
      exact (Pool.linked_appendChain (s.slot i).ppg (Cells.rising_of_wf hw) hf.1 hf.2.1 hlink (List.nodup_append.mp hd).1).2.2
    refine (nextOf_returnChains l _ _ hl (by rw [hpool]; exact Pool.wf_appendChain _ _ _ hw) hfree (fun k hk => ?_) hd p hp).trans
      (hkeep p fun hm => hp (List.mem_append_left _ (List.mem_append_left _ hm)))
    obtain ⟨hne', hlen', hlink'⟩ := hc k (List.mem_cons_of_mem _ hk)
    have hppg : ((s.returnChain i g).slot i).ppg = (s.slot i).ppg := by rw [returnChain_slot]
    have hkg : k ≠ g := fun e => hg (e ▸ hk)
    rw [hppg, returnChain_gen, if_neg hkg]
    refine ⟨hne', hlen', linkedList_congr (fun r hr => hkeep r fun hm => ?_) hlink'⟩
    exact (List.nodup_append.mp hd).2.2 r (List.mem_append_left _ hm) r (List.mem_flatMap.mpr ⟨k, hk, hr⟩) rfl

/-- The pages after the end of a drain: the slot's chains stand behind the pages of the free list (R20, R30). -/
theorem layout_drainEnd {s : State} (hw : Cells.wf Config.pages rebuiltNext s.pool.next = true) {first : Option PageId}
    {free building : List PageId} {chain : SlotId → GenId → List PageId}
    (h : Layout s.pool s.heads first free building chain) (i : SlotId)
    (hbuilt : ∀ g : GenId, g.val < (s.slot i).depth → chain i g ≠ [] ∧ (chain i g).length = (s.slot i).ppg)
    (hbare : ∀ g : GenId, ¬ g.val < (s.slot i).depth → chain i g = []) :
    Layout (s.drainEnd i).pool (s.drainEnd i).heads first (free ++ (List.finRange 5).flatMap (chain i)) building
      (Function.update chain i fun _ => []) := by
  have hback := flatMap_filter_eq (l := List.finRange 5) (f := chain i) (p := fun g => decide (g.val < (s.slot i).depth))
    fun g _ hg => hbare g (of_decide_eq_false hg)
  have hperm : (free ++ (List.finRange 5).flatMap (chain i) ++ building ++ chainsOf (Function.update chain i fun _ => [])).Perm
      (free ++ building ++ chainsOf chain) := by
    have hmove := ((chainsOf_drop chain i).append_left (free ++ building)).symm
    refine List.Perm.trans ?_ hmove
    simp only [List.append_assoc]
    refine List.Perm.append_left free ?_
    rw [← List.append_assoc, ← List.append_assoc]
    exact List.perm_append_comm.append_right _
  have honce := hperm.nodup_iff.mpr h.once
  obtain ⟨hlists, _, hoffChains⟩ := List.nodup_append.mp honce
  obtain ⟨hfree, _, hoffBuilding⟩ := List.nodup_append.mp hlists
  have hgiven : ∀ g ∈ (List.finRange 5).filter fun g : GenId => g.val < (s.slot i).depth,
      chain i g ≠ [] ∧ (chain i g).length = (s.slot i).ppg ∧ linkedList s.pool ((s.slot i).gen g).head (chain i g) :=
    fun g hg => have hd := hbuilt g (by simpa using hg); ⟨hd.1, hd.2, h.chains i g⟩
  have hdrained := freeList_returnChains _ s free ((List.nodup_finRange 5).filter _) hw h.listed hgiven
    (by rw [hback]; exact hfree)
  have hnext := nextOf_returnChains _ s free ((List.nodup_finRange 5).filter _) hw h.listed hgiven
    (by rw [hback]; exact hfree)
  rw [← drainEnd_pool, hback] at hdrained hnext
  refine ⟨hdrained, linkedList_congr (fun p hp => hnext p fun hm => hoffBuilding p hm p hp rfl) h.begun, fun j g => ?_, honce,
    hperm.length_eq.trans h.every⟩
  by_cases hj : j = i
  · subst hj
    rw [Function.update_self]
    show (((s.drainEnd j).slot j).gen g).head = none
    rw [drainEnd_gen]
    show (if g.val < (s.slot j).depth then none else ((s.slot j).gen g).head) = none
    split <;> [rfl; skip]
    rename_i hg
    have hlink := h.chains j g
    rw [hbare g hg] at hlink
    exact hlink
  · have hsame : (s.drainEnd i).heads j g = s.heads j g := by unfold heads; rw [drainEnd_other s i j hj]
    rw [Function.update_of_ne hj, hsame]
    refine linkedList_congr (fun p hp => hnext p fun hm => ?_) (h.chains j g)
    exact hoffChains p (List.mem_append_left _ hm) p (mem_chainsOf (i := j) (g := g) (by rwa [Function.update_of_ne hj])) rfl

end State
end Sys2Proof.Machine

/-! SUPPORT. Every page at one place (O60): the invariant through the acts that the pages see. -/

namespace Sys2Proof.Machine
namespace State

/-! ### The two readings of pagesInv -/

/-- The slots as pagesInv wants them in every phase: CONFIGURING is the slot of the allocation, and a slot in use has a PPG
and at most five generations. -/
def SlotsSized (s : State) : Prop :=
  ∀ i, ((s.slot i).state = .configuring ↔ ∃ a, s.pool.alloc = some a ∧ a.slot = i) ∧
    ((s.slot i).state ≠ .unused → 1 ≤ (s.slot i).ppg ∧ (s.slot i).depth ≤ 5)

/-- Outside a reset: the layout of the pages, a chain of PPG pages for exactly the generations that have one, and the
allocation in progress. -/
structure Placed (s : State) (free building : List PageId) (chain : SlotId → GenId → List PageId) : Prop where
  layout : Layout s.pool s.heads (s.pool.alloc.bind Alloc.first) free building chain
  built : ∀ i g, s.hasChain i g → (chain i g).length = (s.slot i).ppg
  bare : ∀ i g, ¬ s.hasChain i g → chain i g = []
  idle : s.pool.alloc = none → building = []
  alloc : ∀ a, s.pool.alloc = some a → s.allocOk a building free

theorem allocOk_iff (s : State) (a : Alloc) (building free : List PageId) : s.allocOk a building free ↔
    a.gen.val < (s.slot a.slot).depth ∧ linkedList s.pool a.first building ∧ a.last = building.getLast? ∧
      a.taken = building.length ∧ a.taken < (s.slot a.slot).ppg ∧
      a.remaining + a.gen.val * (s.slot a.slot).ppg + a.taken = (s.slot a.slot).depth * (s.slot a.slot).ppg ∧
      a.remaining ≤ free.length := .rfl

theorem pagesInv_iff_placed {s : State} (hr : s.resetPhase = .none) :
    s.pagesInv ↔ s.SlotsSized ∧ ∃ free building chain, s.Placed free building chain := by
  unfold pagesInv
  rw [hr]
  refine and_congr_right fun _ => exists_congr fun free => exists_congr fun building => exists_congr fun chain => ?_
  constructor
  · rintro ⟨hlist, hchains, hidle, halloc, honce, hevery⟩
    refine ⟨⟨hlist, ?_, fun i g => (hchains i g).1, honce, hevery⟩, fun i g hc => ?_, fun i g hc => ?_, hidle, halloc⟩
    · cases ha : s.pool.alloc with
      | none => rw [hidle ha]; rfl
      | some a => obtain ⟨_, hlink, _⟩ := halloc a ha; exact hlink
    · obtain ⟨_, hbuilt, _⟩ := hchains i g
      exact hbuilt hc
    · obtain ⟨_, _, hbare⟩ := hchains i g
      exact hbare hc
  · rintro ⟨hl, hbuilt, hbare, hidle, halloc⟩
    exact ⟨hl.listed, fun i g => ⟨hl.chains i g, hbuilt i g, hbare i g⟩, hidle, halloc, hl.once, hl.every⟩

theorem pagesInv_iff_reset {s : State} (hr : s.resetPhase ≠ .none) :
    s.pagesInv ↔ s.SlotsSized ∧ ∀ i g, s.heads i g = none := by
  unfold pagesInv
  split
  · rfl
  · rfl
  · rename_i e; exact absurd e hr

theorem hasChain_iff (s : State) (i : SlotId) (g : GenId) : s.hasChain i g ↔
    ((s.slot i).state = .configuring ∧ ∃ a, s.pool.alloc = some a ∧ a.slot = i ∧ g < a.gen) ∨
      ((s.slot i).state ≠ .unused ∧ (s.slot i).state ≠ .configuring ∧ g.val < (s.slot i).depth) := by
  unfold hasChain
  cases (s.slot i).state <;> simp

theorem not_hasChain_unused {s : State} {i : SlotId} (h : (s.slot i).state = .unused) (g : GenId) : ¬ s.hasChain i g := by
  unfold hasChain
  rw [h]
  exact id

/-! ### What leaves the pages -/

theorem slotsSized_kept {s t : State} (h : s.SlotsSized) (hs : SitesKept s t) (hp : t.pool = s.pool) : t.SlotsSized := by
  intro i
  obtain ⟨hu, hc, hd, hppg, _⟩ := hs.site i
  rw [hc, hp, hd, hppg, Ne, hu]
  exact h i

theorem hasChain_kept {s t : State} (hs : SitesKept s t) (hp : t.pool = s.pool) (i : SlotId) (g : GenId) :
    t.hasChain i g ↔ s.hasChain i g := by
  obtain ⟨hu, hc, hd, _, _⟩ := hs.site i
  rw [hasChain_iff, hasChain_iff, Ne, Ne, hu, hc, hp, hd]

theorem placed_kept {s t : State} {free building : List PageId} {chain : SlotId → GenId → List PageId}
    (h : s.Placed free building chain) (hs : SitesKept s t) (hp : t.pool = s.pool) : t.Placed free building chain where
  layout := by
    have hheads : t.heads = s.heads := funext fun i => funext fun g => (hs.site i).head g
    rw [hheads, hp]; exact h.layout
  built i g hc := by rw [(hs.site i).ppg]; exact h.built i g ((hasChain_kept hs hp i g).mp hc)
  bare i g hc := h.bare i g ((hasChain_kept hs hp i g).not.mp hc)
  idle ha := h.idle (hp ▸ ha)
  alloc a ha := by
    rw [allocOk_iff, (hs.site a.slot).depth, (hs.site a.slot).ppg, hp]
    exact h.alloc a (hp ▸ ha)

theorem pagesInv_kept {s t : State} (h : s.pagesInv) (hs : SitesKept s t) (hp : t.pool = s.pool)
    (hr : t.resetPhase = s.resetPhase) : t.pagesInv := by
  by_cases hn : s.resetPhase = .none
  · obtain ⟨hslots, free, building, chain, hplaced⟩ := (pagesInv_iff_placed hn).mp h
    exact (pagesInv_iff_placed (hr.trans hn)).mpr
      ⟨slotsSized_kept hslots hs hp, free, building, chain, placed_kept hplaced hs hp⟩
  · obtain ⟨hslots, hheads⟩ := (pagesInv_iff_reset hn).mp h
    exact (pagesInv_iff_reset (hr ▸ hn)).mpr
      ⟨slotsSized_kept hslots hs hp, fun i g => ((hs.site i).head g).trans (hheads i g)⟩

/-! ### The end of a drain -/

theorem slotsSized_drainEnd {s : State} (h : s.SlotsSized) {i : SlotId} (hi : (s.slot i).state = .draining) :
    (s.drainEnd i).SlotsSized := by
  intro j
  rw [drainEnd_alloc]
  by_cases hj : j = i
  · subst hj
    have hu : ((s.drainEnd j).slot j).state = .unused := by rw [drainEnd_slot]
    have hno : ¬ ∃ a, s.pool.alloc = some a ∧ a.slot = j := (h j).1.not.mp (by rw [hi]; exact nofun)
    exact ⟨iff_of_false (by rw [hu]; exact nofun) hno, fun e => absurd hu e⟩
  · rw [drainEnd_other s i j hj]; exact h j

theorem placed_drainEnd {s : State} (hw : Cells.wf Config.pages rebuiltNext s.pool.next = true) (hslots : s.SlotsSized)
    {free building : List PageId} {chain : SlotId → GenId → List PageId} (h : s.Placed free building chain) {i : SlotId}
    (hi : (s.slot i).state = .draining) : (s.drainEnd i).Placed (free ++ (List.finRange 5).flatMap (chain i)) building
      (Function.update chain i fun _ => []) := by
  have hhas : ∀ g, s.hasChain i g ↔ g.val < (s.slot i).depth := fun g => by unfold hasChain; rw [hi]
  obtain ⟨hppg, _⟩ := (hslots i).2 (by rw [hi]; exact nofun)
  have hoffAlloc : ∀ a, s.pool.alloc = some a → a.slot ≠ i := fun a ha e => by
    have := (hslots i).1.mpr ⟨a, ha, e⟩
    rw [hi] at this; cases this
  have hlayout := layout_drainEnd hw h.layout i
    (fun g hg => have hlen := h.built i g ((hhas g).mpr hg)
      ⟨fun e => by rw [e, List.length_nil] at hlen; omega, hlen⟩)
    (fun g hg => h.bare i g ((hhas g).not.mpr hg))
  have hu : ((s.drainEnd i).slot i).state = .unused := by rw [drainEnd_slot]
  have hother : ∀ j g, j ≠ i → ((s.drainEnd i).hasChain j g ↔ s.hasChain j g) := fun j g hj => by
    rw [hasChain_iff, hasChain_iff, drainEnd_other s i j hj, drainEnd_alloc]
  refine ⟨by rw [drainEnd_alloc]; exact hlayout, fun j g hc => ?_, fun j g hc => ?_,
    fun ha => h.idle (by rwa [drainEnd_alloc] at ha), fun a ha => ?_⟩
  · have hj : j ≠ i := fun e => not_hasChain_unused (e ▸ hu) g hc
    rw [Function.update_of_ne hj, drainEnd_other s i j hj]
    exact h.built j g ((hother j g hj).mp hc)
  · by_cases hj : j = i
    · rw [hj, Function.update_self]
    · rw [Function.update_of_ne hj]
      exact h.bare j g ((hother j g hj).not.mp hc)
  · rw [drainEnd_alloc] at ha
    obtain ⟨hgen, _, hlast, htaken, hroom, hcount, hfree⟩ := h.alloc a ha
    have hbegun := hlayout.begun
    rw [ha] at hbegun
    rw [allocOk_iff, drainEnd_other s i a.slot (hoffAlloc a ha)]
    exact ⟨hgen, hbegun, hlast, htaken, hroom, hcount, by rw [List.length_append]; omega⟩

/-- A move keeps the pages at their places; during a reset no slot drains. -/
theorem pageMove_pagesInv {s t : State} (hw : Cells.wf Config.pages rebuiltNext s.pool.next = true) (hb : s.rebuildInv)
    (h : s.pagesInv) (e : PageMove s t) : t.pagesInv := by
  cases e with
  | still hs hp hr => exact pagesInv_kept h hs hp hr
  | drainEnd i hi =>
    have hr : s.resetPhase = .none := by
      by_contra hr
      have hu := (rebuildInv_quiet hb hr).2 i
      rw [hi] at hu; cases hu
    obtain ⟨hslots, free, building, chain, hplaced⟩ := (pagesInv_iff_placed hr).mp h
    exact (pagesInv_iff_placed ((pageMove_phase (.drainEnd i hi)).trans hr)).mpr
      ⟨slotsSized_drainEnd hslots hi, _, _, _, placed_drainEnd hw hslots hplaced hi⟩

theorem wf_drainEnd {s : State} (hw : Cells.wf Config.pages rebuiltNext s.pool.next = true) (i : SlotId) :
    Cells.wf Config.pages rebuiltNext (s.drainEnd i).pool.next = true := by
  rw [drainEnd_pool]
  refine foldl_keeps (fun t : State => Cells.wf Config.pages rebuiltNext t.pool.next = true) _ _ (fun t g _ ht => ?_) s hw
  cases hh : ((t.slot i).gen g).head with
  | none => unfold returnChain; simp only [hh]; exact ht
  | some f => rw [returnChain_some hh]; exact Pool.wf_appendChain _ _ _ ht

theorem pageMove_wf {s t : State} (hw : Cells.wf Config.pages rebuiltNext s.pool.next = true) (e : PageMove s t) :
    Cells.wf Config.pages rebuiltNext t.pool.next = true := by
  cases e with
  | still _ hp _ => rw [hp]; exact hw
  | drainEnd i _ => exact wf_drainEnd hw i

theorem pageRun_wf {s t : State} (hw : Cells.wf Config.pages rebuiltNext s.pool.next = true) (e : PageRun s t) :
    Cells.wf Config.pages rebuiltNext t.pool.next = true := by
  induction e with
  | refl => exact hw
  | tail _ e ih => exact pageMove_wf ih e

theorem pageRun_pagesInv {s t : State} (hw : Cells.wf Config.pages rebuiltNext s.pool.next = true) (hb : s.rebuildInv)
    (h : s.pagesInv) (e : PageRun s t) : t.pagesInv := by
  induction e with
  | refl => exact h
  | tail run e ih => exact pageMove_pagesInv (pageRun_wf hw run) (pageRun_rebuildInv hb run) ih e

/-! ### SLOT_CONFIGURE opens the allocation -/

/-- SLOT_CONFIGURE accepts a configuration whose pages the free list has, or leaves the slots and the pool (R13, R14). -/
theorem slotConfigure_cases (s : State) :
    (s.slotConfigure.slots = s.slots ∧ s.slotConfigure.pool = s.pool) ∨
      ∃ i a, (s.slot i).state = .unused ∧ configureArgs (s.arg 1) (s.arg 2) (s.arg 3) = .ok a ∧
        a.depth * pagesFor a.length ≤ s.pool.count ∧ s.slotConfigure = s.acceptConfigure i a := by
  unfold slotConfigure
  split <;> [exact .inl ⟨rfl, rfl⟩; skip]
  rename_i i _
  split <;> [exact .inl ⟨rfl, rfl⟩; skip]
  rename_i hu
  split <;> [exact .inl ⟨rfl, rfl⟩; skip]
  rename_i a ha
  split <;> [exact .inl ⟨rfl, rfl⟩; skip]
  rename_i hc
  exact .inr ⟨i, a, not_not.mp hu, ha, Nat.not_lt.mp hc, rfl⟩

theorem acceptConfigure_pool (s : State) (i : SlotId) (a : ConfigureArgs) : (s.acceptConfigure i a).pool =
    { s.pool with alloc := some { slot := i, gen := 0, taken := 0, first := none, last := none,
                                  remaining := a.depth * pagesFor a.length } } := by
  unfold acceptConfigure joinCohort
  cases a.cohort <;> rfl

/-- The sizes of an accepted configuration (R13). -/
theorem configureArgs_sizes {a1 a2 a3 : Word} {a : ConfigureArgs} (h : configureArgs a1 a2 a3 = .ok a) :
    1 ≤ pagesFor a.length ∧ 2 ≤ a.depth ∧ a.depth ≤ 5 := by
  unfold configureArgs at h
  split at h <;> [cases h; skip]
  split at h <;> [cases h; skip]
  rename_i hlen
  split at h <;> [cases h; skip]
  rename_i hdepth
  split at h <;> [cases h; skip]
  split at h <;> [cases h; skip]
  split at h <;> [cases h; skip]
  cases h
  obtain ⟨hone, _⟩ := not_not.mp hlen
  obtain ⟨htwo, hfive⟩ := not_not.mp hdepth
  refine ⟨?_, htwo, hfive⟩
  show 1 ≤ (lengthArg a2 + 31) / 32
  omega

theorem acceptConfigure_pagesInv {s : State} (hr : s.resetPhase = .none) (hnone : s.pool.alloc = none) (h : s.pagesInv)
    {i : SlotId} {a : ConfigureArgs} (hu : (s.slot i).state = .unused)
    (hargs : configureArgs (s.arg 1) (s.arg 2) (s.arg 3) = .ok a) (hfits : a.depth * pagesFor a.length ≤ s.pool.count)
    (hphase : (s.acceptConfigure i a).resetPhase = .none) : (s.acceptConfigure i a).pagesInv := by
  obtain ⟨hppg, hdepth, hfive⟩ := configureArgs_sizes hargs
  obtain ⟨hslots, free, building, chain, hl, hbuilt, hbare, hidle, _⟩ := (pagesInv_iff_placed hr).mp h
  obtain rfl := hidle hnone
  have hslot := acceptConfigure_slot s i a
  have hpool := acceptConfigure_pool s i a
  have hown : (s.acceptConfigure i a).slot i = (s.slot i).configured a := by rw [hslot, if_pos rfl]
  have hother : ∀ j, j ≠ i → (s.acceptConfigure i a).slot j = s.slot j := fun j hj => by rw [hslot, if_neg hj]
  have hquiet : ∀ j, (s.slot j).state ≠ .configuring := fun j e => by
    obtain ⟨b, hb, _⟩ := (hslots j).1.mp e
    rw [hnone] at hb; cases hb
  have hhas : ∀ j g, (s.acceptConfigure i a).hasChain j g ↔ s.hasChain j g := fun j g => by
    by_cases hj : j = i
    · subst hj
      refine iff_of_false (fun hc => ?_) (not_hasChain_unused hu g)
      obtain ⟨_, b, hb, _, hg⟩ | ⟨_, hc, _⟩ := (hasChain_iff _ j g).mp hc
      · rw [hpool] at hb
        obtain rfl := Option.some.inj hb
        exact absurd hg (Fin.not_lt_zero g)
      · rw [hown] at hc; exact hc rfl
    · rw [hasChain_iff, hasChain_iff, hother j hj]
      simp only [hquiet j, false_and]
  refine (pagesInv_iff_placed hphase).mpr ⟨fun j => ?_, free, [], chain, ?_, fun j g hc => ?_, fun j g hc => ?_, fun _ => rfl,
    fun b hb => ?_⟩
  · rw [hpool]
    by_cases hj : j = i
    · subst hj
      rw [hown]
      exact ⟨iff_of_true rfl ⟨_, rfl, rfl⟩, fun _ => ⟨hppg, hfive⟩⟩
    · rw [hother j hj]
      refine ⟨iff_of_false (hquiet j) ?_, (hslots j).2⟩
      rintro ⟨b, hb, e⟩
      obtain rfl := Option.some.inj hb
      exact hj e.symm
  · have hheads : (s.acceptConfigure i a).heads = s.heads := funext fun j => funext fun g => by
      unfold heads
      by_cases hj : j = i
      · subst hj
        have hlink := hl.chains j g
        rw [hbare j g (not_hasChain_unused hu g)] at hlink
        rw [hown, gen_configured]
        exact hlink.symm
      · rw [hother j hj]
    rw [hheads]
    have hmoved := hl.alloc (r := (s.acceptConfigure i a).pool) (by rw [hpool])
    rw [hnone] at hmoved
    rw [hpool] at hmoved ⊢
    exact hmoved
  · have hj : j ≠ i := fun e => not_hasChain_unused (e ▸ hu) g ((hhas j g).mp hc)
    rw [hother j hj]
    exact hbuilt j g ((hhas j g).mp hc)
  · exact hbare j g ((hhas j g).not.mp hc)
  · rw [hpool] at hb
    obtain rfl := Option.some.inj hb
    rw [allocOk_iff, hown]
    refine ⟨show 0 < a.depth by omega, rfl, rfl, rfl, hppg, ?_, ?_⟩
    · show a.depth * pagesFor a.length + 0 * pagesFor a.length + 0 = a.depth * pagesFor a.length
      omega
    · rw [← hl.listed.2.2]; exact hfits

end State
end Sys2Proof.Machine

/-! SUPPORT. A page take, the course of a reset, and O60. -/

namespace Sys2Proof.Machine
namespace State

/-! ### The numbers of an allocation -/

/-- The take of the last page completes the chain of the last generation. -/
theorem last_take {remaining taken gen ppg depth : Nat} (hgen : gen < depth) (htaken : taken < ppg)
    (hcount : remaining + gen * ppg + taken = depth * ppg) (h : remaining ≤ 1) : taken + 1 = ppg ∧ depth = gen + 1 := by
  obtain ⟨k, rfl⟩ := Nat.exists_eq_add_of_le (Nat.succ_le_of_lt hgen)
  rw [Nat.add_mul, Nat.succ_mul] at hcount
  have hk : k = 0 := by
    by_contra hk
    have : ppg ≤ k * ppg := Nat.le_mul_of_pos_left ppg (Nat.pos_of_ne_zero hk)
    omega
  subst hk
  rw [Nat.zero_mul] at hcount
  omega

/-- After a chain that is not the last the allocation goes on with a generation of the slot. -/
theorem next_take {remaining taken gen ppg depth : Nat} (hgen : gen < depth)
    (hcount : remaining + gen * ppg + taken = depth * ppg) (h : 1 < remaining) (hfull : taken + 1 = ppg) :
    gen + 1 < depth ∧ remaining - 1 + (gen + 1) * ppg + 0 = depth * ppg := by
  obtain ⟨k, rfl⟩ := Nat.exists_eq_add_of_le (Nat.succ_le_of_lt hgen)
  rw [Nat.add_mul, Nat.succ_mul] at hcount
  have hk : k ≠ 0 := by
    rintro rfl
    rw [Nat.zero_mul] at hcount
    omega
  rw [Nat.add_mul (gen.succ), Nat.succ_mul]
  omega

/-! ### A page take -/

/-- A take as pagesInv sees it: one page more on the chain being built, of a slot that is CONFIGURING. -/
structure Takes (s : State) (a : Alloc) (p : PageId) (free building : List PageId) (chain : SlotId → GenId → List PageId) :
    Prop where
  sized : s.SlotsSized
  placed : s.Placed (p :: free) building chain
  alloc : s.pool.alloc = some a
  wf : Cells.wf Config.pages rebuiltNext s.pool.next = true

section
variable {s : State} {a : Alloc} {p : PageId} {free building : List PageId} {chain : SlotId → GenId → List PageId}

theorem Takes.configuring (h : Takes s a p free building chain) (j : SlotId) :
    (s.slot j).state = .configuring ↔ j = a.slot := by
  rw [(h.sized j).1, h.alloc]
  exact ⟨fun ⟨b, hb, e⟩ => by obtain rfl := Option.some.inj hb; exact e.symm, fun e => ⟨a, rfl, e.symm⟩⟩

theorem Takes.hasChain (h : Takes s a p free building chain) (g : GenId) : s.hasChain a.slot g ↔ g < a.gen := by
  rw [hasChain_iff]
  have hc := (h.configuring a.slot).mpr rfl
  constructor
  · rintro (⟨_, b, hb, _, hg⟩ | ⟨_, hn, _⟩)
    · rw [h.alloc] at hb; obtain rfl := Option.some.inj hb; exact hg
    · exact absurd hc hn
  · exact fun hg => .inl ⟨hc, a, h.alloc, rfl, hg⟩

theorem Takes.bare (h : Takes s a p free building chain) : chain a.slot a.gen = [] :=
  h.placed.bare _ _ ((h.hasChain a.gen).not.mpr (lt_irrefl _))

/-- The layout once the page has moved, the allocation's record apart. -/
theorem Takes.moved (h : Takes s a p free building chain) :
    Layout (s.pageMoved a.last p).pool s.heads (some (a.first.getD p)) free (building ++ [p]) chain := by
  obtain ⟨_, _, hlast, _⟩ := h.placed.alloc a h.alloc
  have hl := h.placed.layout
  rw [h.alloc] at hl
  rw [hlast]
  exact layout_pageMoved h.wf hl

theorem heads_advanceAlloc (m : State) (a : Alloc) (p : PageId) (j : SlotId) (k : GenId) : (m.advanceAlloc a p).heads j k =
    if j = a.slot ∧ k = a.gen ∧ a.taken + 1 = (m.slot a.slot).ppg then some (a.first.getD p) else m.heads j k := by
  unfold heads
  by_cases hj : j = a.slot
  · subst hj
    rw [advanceAlloc_gen_eq]
    by_cases hk : k = a.gen ∧ a.taken + 1 = (m.slot a.slot).ppg
    · rw [if_pos hk, if_pos ⟨rfl, hk⟩]
    · rw [if_neg hk, if_neg fun e => hk e.2]
  · rw [advanceAlloc_other m a p hj, if_neg fun e => hj e.1]

/-- The descriptor of every slot after a take, as pagesInv reads it. -/
theorem takenSlot (s : State) (a : Alloc) (p : PageId) (j : SlotId) :
    let t := (s.pageMoved a.last p).advanceAlloc a p
    (t.slot j).ppg = (s.slot j).ppg ∧ (t.slot j).depth = (s.slot j).depth ∧
      (t.slot j).state = if j = a.slot ∧ a.remaining ≤ 1 then .active else (s.slot j).state := by
  intro t
  by_cases hj : j = a.slot
  · subst hj
    have hown := advanceAlloc_slot (s.pageMoved a.last p) a p
    rw [slot_pageMoved] at hown
    rw [hown]
    exact ⟨rfl, rfl, by simp only [true_and]⟩
  · have hsame : t.slot j = s.slot j := (advanceAlloc_other _ a p hj).trans (slot_pageMoved s a.last p j)
    rw [hsame, if_neg fun e => hj e.1]
    exact ⟨rfl, rfl, rfl⟩

/-- The slots after a take: the allocation goes on with the same slot, or its slot is ACTIVE. -/
theorem Takes.sized_after (h : Takes s a p free building chain) : ((s.pageMoved a.last p).advanceAlloc a p).SlotsSized := by
  intro j
  obtain ⟨hppg, hdepth, hstate⟩ := takenSlot s a p j
  have hslot : ∀ n b, a.after n p = some b → b.slot = a.slot := fun n b e => by
    unfold Alloc.after at e
    split at e <;> [cases e; split at e] <;> (obtain rfl := Option.some.inj e; rfl)
  rw [hppg, hdepth, hstate, advanceAlloc_pool]
  show (_ ↔ ∃ b, a.after _ p = some b ∧ b.slot = j) ∧ _
  refine ⟨?_, fun hu => (h.sized j).2 ?_⟩
  · constructor
    · intro hc
      split at hc <;> [cases hc; rename_i hmore]
      have hj := (h.configuring j).mp hc
      have hr : ¬ a.remaining ≤ 1 := fun e => hmore ⟨hj, e⟩
      obtain ⟨b, hb⟩ : ∃ b, a.after ((s.pageMoved a.last p).slot a.slot).ppg p = some b := by
        unfold Alloc.after
        rw [if_neg hr]
        split <;> exact ⟨_, rfl⟩
      exact ⟨b, hb, (hslot _ b hb).trans hj.symm⟩
    · rintro ⟨b, hb, rfl⟩
      rw [hslot _ b hb]
      have hr : ¬ a.remaining ≤ 1 := fun e => by unfold Alloc.after at hb; rw [if_pos e] at hb; cases hb
      rw [if_neg fun e => hr e.2]
      exact (h.configuring a.slot).mpr rfl
  · split at hu
    · rename_i e; rw [e.1, (h.configuring a.slot).mpr rfl]; exact nofun
    · exact hu

/-- A generation of another slot has its chain as before the take. -/
theorem Takes.hasChain_other (h : Takes s a p free building chain) {j : SlotId} (hj : j ≠ a.slot) (g : GenId) :
    ((s.pageMoved a.last p).advanceAlloc a p).hasChain j g ↔ s.hasChain j g := by
  obtain ⟨_, hdepth, hstate⟩ := takenSlot s a p j
  have hc : (s.slot j).state ≠ .configuring := fun e => hj ((h.configuring j).mp e)
  rw [hasChain_iff, hasChain_iff, hdepth, hstate, if_neg fun e => hj e.1]
  simp only [hc, false_and]

theorem gen_succ_val {g : GenId} (h : g.val + 1 < 5) : (g + 1).val = g.val + 1 :=
  Fin.val_add_one_of_lt (Fin.lt_def.mpr (by show g.val < 4; omega))

/-- The generations of the slot with a chain after a take that completes one: those up to GEN (R29). -/
theorem Takes.hasChain_whole (h : Takes s a p free building chain) (hfull : a.taken + 1 = (s.slot a.slot).ppg) (g : GenId) :
    ((s.pageMoved a.last p).advanceAlloc a p).hasChain a.slot g ↔ g.val ≤ a.gen.val := by
  obtain ⟨hgen, _, _, _, hroom, hcount, _⟩ := h.placed.alloc a h.alloc
  have hconf := (h.configuring a.slot).mpr rfl
  obtain ⟨_, hfive⟩ := (h.sized a.slot).2 (by rw [hconf]; exact nofun)
  obtain ⟨_, hdepth, hstate⟩ := takenSlot s a p a.slot
  rw [hasChain_iff, hdepth, hstate, advanceAlloc_pool, slot_pageMoved]
  by_cases hr : a.remaining ≤ 1
  · obtain ⟨_, hd⟩ := last_take hgen hroom hcount hr
    rw [if_pos ⟨rfl, hr⟩, hd]
    exact ⟨fun e => by obtain ⟨hc, _⟩ | ⟨_, _, hg⟩ := e <;> [cases hc; omega],
      fun hg => .inr ⟨nofun, nofun, by omega⟩⟩
  · obtain ⟨hd, _⟩ := next_take hgen hcount (by omega) hfull
    rw [if_neg fun e => hr e.2, hconf, Alloc.after, if_neg hr, if_pos hfull]
    have hval := gen_succ_val (g := a.gen) (by omega)
    constructor
    · rintro (⟨_, b, hb, _, hg⟩ | ⟨_, hn, _⟩)
      · obtain rfl := Option.some.inj hb
        have := Fin.lt_def.mp hg
        rw [hval] at this
        omega
      · exact absurd rfl hn
    · exact fun hg => .inl ⟨rfl, _, rfl, rfl, Fin.lt_def.mpr (by rw [hval]; omega)⟩

/-- A take that completes a chain. -/
theorem Takes.placed_whole (h : Takes s a p free building chain) (hfull : a.taken + 1 = (s.slot a.slot).ppg) :
    ((s.pageMoved a.last p).advanceAlloc a p).Placed free []
      (Function.update chain a.slot (Function.update (chain a.slot) a.gen (building ++ [p]))) := by
  obtain ⟨hgen, _, _, htaken, hroom, hcount, hfree⟩ := h.placed.alloc a h.alloc
  rw [List.length_cons] at hfree
  have hhas := h.hasChain_whole hfull
  have hother := fun j hj g => h.hasChain_other (j := j) hj g
  have hppg := fun j => (takenSlot s a p j).1
  have hdepth := (takenSlot s a p a.slot).2.1
  have hheads := heads_advanceAlloc (s.pageMoved a.last p) a p
  have hpool := advanceAlloc_pool (s.pageMoved a.last p) a p
  have hsame : (s.pageMoved a.last p).heads = s.heads := funext fun j => funext fun k => by
    unfold heads
    rw [slot_pageMoved]
  rw [slot_pageMoved, hsame] at hheads
  rw [slot_pageMoved] at hpool
  generalize (s.pageMoved a.last p).advanceAlloc a p = t at hhas hother hppg hdepth hheads hpool ⊢
  have hlayout := (h.moved.complete (head' := t.heads) h.bare (by rw [hheads, if_pos ⟨rfl, rfl, hfull⟩])
    (fun j k e => by rw [hheads, if_neg fun e' => e ⟨e'.1, e'.2.1⟩])).alloc (r := t.pool) (by rw [hpool])
  refine ⟨?_, fun j g hc => ?_, fun j g hc => ?_, fun _ => rfl, fun b hb => ?_⟩
  · have hfirst : t.pool.alloc.bind Alloc.first = none := by
      rw [hpool]
      unfold Alloc.after
      by_cases hr : a.remaining ≤ 1
      · rw [if_pos hr]; rfl
      · rw [if_neg hr, if_pos hfull]; rfl
    rw [hfirst]; exact hlayout
  · rw [hppg]
    by_cases hj : j = a.slot
    · subst hj
      rw [Function.update_self]
      by_cases hg : g = a.gen
      · rw [hg, Function.update_self, List.length_append, ← htaken]; exact hfull
      · rw [Function.update_of_ne hg]
        exact h.placed.built _ _ ((h.hasChain g).mpr (lt_of_le_of_ne (Fin.le_def.mpr ((hhas g).mp hc)) hg))
    · rw [Function.update_of_ne hj]
      exact h.placed.built j g ((hother j hj g).mp hc)
  · by_cases hj : j = a.slot
    · subst hj
      have hg := (hhas g).not.mp hc
      rw [Function.update_self, Function.update_of_ne fun e : g = a.gen => hg (le_of_eq (congrArg Fin.val e))]
      exact h.placed.bare _ _ ((h.hasChain g).not.mpr fun e => hg (Fin.le_def.mp e.le))
    · rw [Function.update_of_ne hj]
      exact h.placed.bare j g ((hother j hj g).not.mp hc)
  · rw [hpool] at hb
    have hr : ¬ a.remaining ≤ 1 := fun e => by rw [Alloc.after, if_pos e] at hb; cases hb
    rw [Alloc.after, if_neg hr, if_pos hfull] at hb
    obtain ⟨hd, hcount'⟩ := next_take hgen hcount (by omega) hfull
    obtain rfl := Option.some.inj hb
    obtain ⟨_, hfive⟩ := (h.sized a.slot).2 (by rw [(h.configuring a.slot).mpr rfl]; exact nofun)
    have hval := gen_succ_val (g := a.gen) (by omega)
    rw [allocOk_iff, hppg, hdepth]
    refine ⟨by show (a.gen + 1).val < _; rw [hval]; exact hd, rfl, rfl, rfl,
      by show 0 < (s.slot a.slot).ppg; omega, ?_, by show a.remaining - 1 ≤ _; omega⟩
    show a.remaining - 1 + (a.gen + 1).val * _ + 0 = _
    rw [hval]; exact hcount'

/-- A take that leaves the chain being built incomplete. -/
theorem Takes.placed_partial (h : Takes s a p free building chain) (hfull : a.taken + 1 ≠ (s.slot a.slot).ppg) :
    ((s.pageMoved a.last p).advanceAlloc a p).Placed free (building ++ [p]) chain := by
  obtain ⟨hgen, _, _, htaken, hroom, hcount, hfree⟩ := h.placed.alloc a h.alloc
  rw [List.length_cons] at hfree
  have hr : ¬ a.remaining ≤ 1 := fun e => hfull (last_take hgen hroom hcount e).1
  generalize ht : (s.pageMoved a.last p).advanceAlloc a p = t
  have hpool : t.pool = { (s.pageMoved a.last p).pool with alloc := some { a with
      taken := a.taken + 1, first := some (a.first.getD p), last := some p, remaining := a.remaining - 1 } } := by
    rw [← ht, advanceAlloc_pool, slot_pageMoved, Alloc.after, if_neg hr, if_neg hfull]
  have hslot : ∀ j, (t.slot j).ppg = (s.slot j).ppg ∧ (t.slot j).depth = (s.slot j).depth ∧
      (t.slot j).state = (s.slot j).state := fun j => by
    obtain ⟨hppg, hdepth, hstate⟩ := takenSlot s a p j
    rw [if_neg fun e => hr e.2, ht] at hstate
    exact ⟨ht ▸ hppg, ht ▸ hdepth, hstate⟩
  have hheads : t.heads = s.heads := funext fun j => funext fun k => by
    rw [← ht, heads_advanceAlloc, slot_pageMoved, if_neg fun e => hfull e.2.2]
    unfold heads
    rw [slot_pageMoved]
  have hhas : ∀ j g, t.hasChain j g ↔ s.hasChain j g := fun j g => by
    by_cases hj : j = a.slot
    · subst hj
      rw [h.hasChain, hasChain_iff, (hslot a.slot).2.2, (h.configuring a.slot).mpr rfl, hpool]
      constructor
      · rintro (⟨_, b, hb, _, hg⟩ | ⟨_, hn, _⟩)
        · obtain rfl := Option.some.inj hb
          exact hg
        · exact absurd rfl hn
      · exact fun hg => .inl ⟨rfl, _, rfl, rfl, hg⟩
    · exact ht ▸ h.hasChain_other hj g
  have hlayout := h.moved.alloc (r := t.pool) (by rw [hpool])
  refine ⟨?_, fun j g hc => ?_, fun j g hc => h.placed.bare j g ((hhas j g).not.mp hc), fun e => ?_, fun b hb => ?_⟩
  · have hfirst : t.pool.alloc.bind Alloc.first = some (a.first.getD p) := by rw [hpool]; rfl
    rw [hfirst, hheads]; exact hlayout
  · rw [(hslot j).1]; exact h.placed.built j g ((hhas j g).mp hc)
  · rw [hpool] at e; cases e
  · have hbegun := hlayout.begun
    rw [hpool] at hb
    obtain rfl := Option.some.inj hb
    rw [allocOk_iff, (hslot a.slot).1, (hslot a.slot).2.1]
    refine ⟨hgen, hbegun, ?_, ?_, ?_, ?_, ?_⟩
    · exact List.getLast?_concat.symm
    · rw [List.length_append, ← htaken]; rfl
    · show a.taken + 1 < _; omega
    · show a.remaining - 1 + a.gen.val * _ + (a.taken + 1) = _; omega
    · show a.remaining - 1 ≤ _; omega

end

theorem pageTake_pagesInv {s : State} (hw : Cells.wf Config.pages rebuiltNext s.pool.next = true) (hb : s.rebuildInv)
    (h : s.pagesInv) : s.pageTake.pagesInv := by
  obtain hidle | ⟨a, p, ha, hp, htaken⟩ := pageTake_cases s
  · rw [hidle]; exact h
  have hr : s.resetPhase = .none := by
    by_contra hr
    have hnone := (rebuildInv_quiet hb hr).1
    rw [ha] at hnone
    cases hnone
  have hphase : s.pageTake.resetPhase = .none := by rw [pageTake_only]; exact hr
  obtain ⟨hsized, free, building, chain, hplaced⟩ := (pagesInv_iff_placed hr).mp h
  refine (pagesInv_iff_placed hphase).mpr ?_
  rw [htaken]
  obtain ⟨free, rfl⟩ : ∃ l, free = p :: l := by
    have hlist := hplaced.layout.listed.1
    rw [hp] at hlist
    cases free with
    | nil => exact nomatch hlist
    | cons x l => exact ⟨l, by rw [Option.some.inj hlist.1]⟩
  have htake : Takes s a p free building chain := ⟨hsized, hplaced, ha, hw⟩
  refine ⟨htake.sized_after, ?_⟩
  by_cases hfull : a.taken + 1 = (s.slot a.slot).ppg
  · exact ⟨_, _, _, htake.placed_whole hfull⟩
  · exact ⟨_, _, _, htake.placed_partial hfull⟩

/-! ### The course of a reset -/

theorem slotsSized_unused {s : State} (hu : ∀ i, (s.slot i).state = .unused) (ha : s.pool.alloc = none) : s.SlotsSized := by
  intro i
  rw [hu i, ha]
  exact ⟨iff_of_false nofun (fun ⟨_, e, _⟩ => nomatch e), fun e => absurd rfl e⟩

/-- The end of a reset: every page is on the free list (R27). -/
theorem pagesInv_rebuilt {s : State} (hr : s.resetPhase = .none) (hl : linkedUpTo s.pool 2048)
    (hu : ∀ i, (s.slot i).state = .unused) (ha : s.pool.alloc = none) (hh : ∀ i g, s.heads i g = none) : s.pagesInv := by
  refine (pagesInv_iff_placed hr).mpr ⟨slotsSized_unused hu ha, List.finRange 2048, [], fun _ _ => [],
    ⟨freeList_of_linkedUpTo hl, by rw [ha]; rfl, hh, ?_, ?_⟩, fun i g hc => absurd hc (not_hasChain_unused (hu i) g),
    fun _ _ _ => rfl, fun _ => rfl, fun a e => by rw [ha] at e; cases e⟩
  · rw [chainsOf_nil, List.append_nil, List.append_nil]; exact List.nodup_finRange 2048
  · rw [chainsOf_nil, List.append_nil, List.append_nil]; exact List.length_finRange

/-- Reset work that touches no slot and not the allocation: the chains stay away until the free list is whole. -/
theorem resetWork_pagesInv {s t : State} (hr : s.resetPhase ≠ .none) (h : s.pagesInv) (hs : t.slots = s.slots)
    (hb : s.rebuildInv) (ha : t.pool.alloc = s.pool.alloc) (hend : t.resetPhase = .none → linkedUpTo t.pool 2048) :
    t.pagesInv := by
  obtain ⟨hnone, hunused⟩ := rebuildInv_quiet hb hr
  have hslot : ∀ i, t.slot i = s.slot i := fun i => by unfold slot; rw [hs]
  have hheads : ∀ i g, t.heads i g = none := fun i g => by
    unfold heads
    rw [hslot]; exact ((pagesInv_iff_reset hr).mp h).2 i g
  have hu : ∀ i, (t.slot i).state = .unused := fun i => by rw [hslot]; exact hunused i
  by_cases hphase : t.resetPhase = .none
  · exact pagesInv_rebuilt hphase (hend hphase) hu (ha.trans hnone) hheads
  · exact (pagesInv_iff_reset hphase).mpr ⟨slotsSized_unused hu (ha.trans hnone), hheads⟩

theorem rebuildPage_alloc (s : State) : s.rebuildPage.slots = s.slots ∧ s.rebuildPage.pool.alloc = s.pool.alloc := by
  obtain hidle | ⟨n, clearing, hr, hn⟩ := rebuildPage_cases s
  · rw [hidle]
    exact ⟨rfl, rfl⟩
  · rw [rebuildPage_running hr hn]
    split <;> exact ⟨rfl, Pool.alloc_linkPage ..⟩

/-- Every act keeps each page at one place; SLOT_CONFIGURE meets no allocation in progress. -/
theorem pageAct_pagesInv {s t : State} (hw : Cells.wf Config.pages rebuiltNext s.pool.next = true) (hb : s.rebuildInv)
    (hidle : s.resetPhase = .none → s.cmd.state = .idle → s.pool.alloc = none) (h : s.pagesInv) (e : PageAct s t) :
    t.pagesInv := by
  cases e with
  | run e => exact pageRun_pagesInv hw hb h e
  | slotConfigure hcmd hr =>
    have hphase : s.slotConfigure.resetPhase = s.resetPhase := by rw [slotConfigure_only]
    obtain ⟨hs, hp⟩ | ⟨i, a, hu, hargs, hfits, heq⟩ := slotConfigure_cases s
    · exact pagesInv_kept h (sitesKept_of_slots hs) hp hphase
    · rw [heq] at hphase ⊢
      exact acceptConfigure_pagesInv hr (hidle hr hcmd) h hu hargs hfits (hphase.trans hr)
  | pageTake => exact pageTake_pagesInv hw hb h
  | resetBegins hs hp hr =>
    have hslot : ∀ i, t.slot i = Slot.reset := fun i => by unfold slot; rw [hs]; exact slot_reset i
    have hphase : t.resetPhase ≠ .none := by obtain hr | hr := hr <;> rw [hr] <;> exact nofun
    refine (pagesInv_iff_reset hphase).mpr ⟨slotsSized_unused (fun i => by rw [hslot]; rfl) (by rw [hp]), fun i g => ?_⟩
    unfold heads
    rw [hslot, gen_reset]
    rfl
  | releaseReset =>
    unfold releaseReset
    split <;> [rename_i hr; exact h; exact h]
    exact resetWork_pagesInv (by rw [hr]; exact nofun) h rfl hb rfl nofun
  | rebuildPage =>
    by_cases hr : s.resetPhase = .none
    · rw [rebuildPage_idle fun n clearing e => by rw [hr] at e; cases e]; exact h
    · obtain ⟨hs, ha⟩ := rebuildPage_alloc s
      exact resetWork_pagesInv hr h hs hb ha ((rebuildPage_rebuildInv hw hb).2 hr)
  | clearSchedule =>
    by_cases hr : s.resetPhase = .none
    · rw [clearSchedule_idle fun n e => by rw [hr] at e; cases e]; exact h
    · obtain ⟨hp, hs⟩ := clearSchedule_pages s
      exact resetWork_pagesInv hr h hs hb (congrArg Pool.alloc hp) ((clearSchedule_rebuildInv hb).2 hr)

/-- An IDLE unit has no allocation in progress (R154). -/
theorem alloc_none_of_idle {s : State} (h : s.unitInv) (hc : s.cmd.state = .idle) : s.pool.alloc = none := by
  unfold unitInv at h
  split at h
  · assumption
  · assumption
  · rw [hc] at h; cases h.1
  · assumption
  · assumption
  · exact h.elim

end State

/-- Settles O60: grants leave the pages, and an act moves them at most from the free list to the chain being built, from
there to a generation, and back with the end of a drain. -/
theorem freeListAndChainsHoldEveryPage : Obligations.FreeListAndChainsHoldEveryPage := by
  unfold Obligations.FreeListAndChainsHoldEveryPage
  intro s t hw hunit hb h e
  obtain ⟨l, u, hu, act⟩ := step_pages e
  have hbu : u.rebuildInv :=
    State.rebuildInv_kept (s := { s with pending := l }) hb (fun i => (hu.sites.unused i).mpr) hu.pool hu.phase
  have hpu : u.pagesInv := State.pagesInv_kept (s := { s with pending := l }) h hu.sites hu.pool hu.phase
  refine State.pageAct_pagesInv (hu.pool ▸ State.poolWf_of_memoriesWf hw) hbu (fun _ hc => ?_) hpu act
  rw [hu.pool]
  exact State.alloc_none_of_idle hunit (hu.cmd ▸ hc)

end Sys2Proof.Machine

/-! SUPPORT. The bounds of the queues and counters (R40, R144): every operation that offers an event, or writes a port or the feed,
keeps them. -/

namespace Sys2Proof.Machine

theorem saturate16_le (n : Nat) : saturate16 n ≤ 65535 := Nat.min_le_right _ _

/-- A FIFO and a WORD_INDEX within their sizes (R40). -/
def Port.Fits (x : Port) : Prop := x.fifo.length ≤ Config.fifoDepth ∧ x.wordIndex ≤ 65535

namespace State

theorem queueInv_iff (s : State) : s.queueInv ↔ s.events.records.length ≤ Config.queueDepth ∧ s.events.lost ≤ 255 ∧
    s.feed.wordIndex ≤ 65535 ∧ ∀ p, (s.port p).Fits := .rfl

/-- What is not the event queue, a port or the feed has no part in the bounds. -/
theorem queueInv_frame {s t : State} (h : s.queueInv) (he : t.events = s.events) (hf : t.feed = s.feed) (hp : t.ports = s.ports) :
    t.queueInv := by
  rw [queueInv_iff] at h ⊢
  unfold port
  rw [he, hf, hp]
  exact h

theorem queueInv_offer {s : State} (h : s.queueInv) (k : EventKind) (o : Nat) (a : Word) (r : BitVec 4) :
    (s.offer k o a r).queueInv := by
  obtain ⟨hrecords, hlost, hfeed, hports⟩ := h
  obtain ⟨hr, hl⟩ := s.events.take_bounds (s.record k o a r) hrecords hlost
  exact ⟨hr, hl, hfeed, hports⟩

theorem queueInv_setPort {s : State} (h : s.queueInv) (p : PortId) {x : Port} (hx : x.Fits) : (s.setPort p x).queueInv := by
  obtain ⟨hrecords, hlost, hfeed, hports⟩ := h
  refine ⟨hrecords, hlost, hfeed, fun r => ?_⟩
  rw [port_setPort]
  split <;> [exact hx; exact hports r]

theorem queueInv_setFeed {s : State} (h : s.queueInv) {x : Feed} (hx : x.wordIndex ≤ 65535) : (s.setFeed x).queueInv := by
  obtain ⟨hrecords, hlost, _, hports⟩ := h
  exact ⟨hrecords, hlost, hx, hports⟩

theorem queueInv_port {s : State} (h : s.queueInv) (p : PortId) : (s.port p).Fits := by
  obtain ⟨_, _, _, hports⟩ := h
  exact hports p

theorem queueInv_feed {s : State} (h : s.queueInv) : s.feed.wordIndex ≤ 65535 := by
  obtain ⟨_, _, hfeed, _⟩ := h
  exact hfeed

/-! ### The slot table and the cohort unit -/

theorem abandon_queueInv {s : State} (h : s.queueInv) (i : SlotId) (g : GenId) (w : AbandonReason) :
    (s.abandon i g w).queueInv := by
  unfold abandon
  split <;> [exact queueInv_offer (s := s.setSlot i _) h ..; exact h]

theorem dropSeal_queueInv {s : State} (h : s.queueInv) (i : SlotId) (w : AbandonReason) : (s.dropSeal i w).queueInv := by
  unfold dropSeal
  split <;> [exact h; exact queueInv_offer (s := s.setSlot i _) h ..]

theorem publishSeals_queueInv {s : State} (h : s.queueInv) (set : BitVec 32) (e : BitVec 16) (b : Bool) :
    (s.publishSeals set e b).queueInv := by
  rw [publishSeals_only]; exact h

theorem discardSeals_queueInv {s : State} (h : s.queueInv) (set : BitVec 32) : (s.discardSeals set).queueInv :=
  foldl_keeps queueInv _ allSlots (fun t i _ ht => by split <;> [exact dropSeal_queueInv ht i _; exact ht]) s h

theorem fullPublish_queueInv {s : State} (h : s.queueInv) (c : CohortId) : (s.fullPublish c).queueInv :=
  queueInv_offer (s := setCohort _ c _) (publishSeals_queueInv h _ _ false) ..

theorem sealReport_queueInv {s : State} (h : s.queueInv) (c : CohortId) (i : SlotId) (b : Bool) :
    (s.sealReport c i b).queueInv := by
  unfold sealReport
  simp only []
  split
  · split <;> [exact fullPublish_queueInv (s := s.setCohort c _) h c; exact h]
  · split <;> [exact h; skip]
    split <;> [exact fullPublish_queueInv (s := s.setCohort c _) h c; exact h]

theorem leaveCohort_queueInv {s : State} (h : s.queueInv) (i : SlotId) (c : Option CohortId) :
    (s.leaveCohort i c).queueInv := by
  unfold leaveCohort
  split <;> [skip; exact h]
  unfold depart
  simp only []
  split <;> [exact h; skip]
  split <;> [exact h; skip]
  split <;> [exact fullPublish_queueInv (s := s.setCohort _ _) h _; exact h]

theorem complete_queueInv {s : State} (h : s.queueInv) (i : SlotId) (g : GenId) (n : Nat) : (s.complete i g n).queueInv := by
  unfold complete
  simp only []
  split <;> [skip; exact h]
  split <;> [exact h; skip]
  unfold sealGen
  simp only []
  split
  · exact sealReport_queueInv (s := s.setSlot i _) h ..
  · exact sealReport_queueInv (queueInv_offer (s := s.setSlot i _) h ..) ..

theorem windowExpiry_queueInv {s : State} (h : s.queueInv) (c : CohortId) : (s.windowExpiry c).queueInv := by
  unfold windowExpiry
  split <;> [skip; exact h]
  split
  · exact queueInv_offer (s := setCohort _ c _) (publishSeals_queueInv h _ _ true) ..
  · exact queueInv_offer (s := setCohort _ c _) (discardSeals_queueInv h _) ..

theorem requestTarget_queueInv {s : State} (h : s.queueInv) (i : SlotId) (stamp : Tick) (tag : BitVec 8) :
    (s.requestTarget i stamp tag).queueInv := by
  unfold requestTarget
  simp only []
  split <;> [exact h; exact queueInv_offer (s := s.setSlot i _) h ..]

/-! ### Drains, pins and frames -/

theorem drainCheck_queueInv {s : State} (h : s.queueInv) (i : SlotId) : (s.drainCheck i).queueInv := by
  unfold drainCheck
  split <;> [skip; exact h]
  unfold drainEnd
  refine queueInv_offer (s := setSlot _ i _) ?_ ..
  rw [forgetSlot_only, returnChains_only]
  exact h

theorem release_queueInv {s : State} (h : s.queueInv) (i : SlotId) (g : GenId) : (s.release i g).queueInv :=
  drainCheck_queueInv (s := s.setSlot i _) h i

theorem releasePins_queueInv {s : State} (h : s.queueInv) (k : LinkId) : (s.releasePins k).queueInv :=
  foldl_keeps queueInv _ (s.link k).pinSet (fun _ p _ ht => release_queueInv ht p.slot p.gen) s h

theorem abortFrame_queueInv {s : State} (h : s.queueInv) (k : LinkId) (w : AbortReason) : (s.abortFrame k w).queueInv := by
  unfold abortFrame
  simp only []
  split <;> [exact h; skip]
  exact queueInv_offer (s := setLink _ k _) (releasePins_queueInv (s := s.setLink k _) h k) ..

theorem advanceCursor_queueInv {s : State} (h : s.queueInv) (k : LinkId) (n : Nat) : (s.advanceCursor k n).queueInv := by
  unfold advanceCursor
  simp only []
  split <;> [exact h; exact queueInv_offer (by exact h) ..]

theorem linkOff_queueInv {s : State} (h : s.queueInv) (k : LinkId) (r : BitVec 4) : (s.linkOff k r).queueInv :=
  queueInv_offer (s := s.setLink k _) h ..

theorem frameDone_queueInv {s : State} (h : s.queueInv) (k : LinkId) (r : BitVec 4) : (s.frameDone k r).queueInv := by
  unfold frameDone
  simp only []
  split <;> [exact h; skip]
  rename_i f _
  have hc := advanceCursor_queueInv h k f.next
  split <;> [exact linkOff_queueInv hc k r; skip]
  split <;> [exact queueInv_offer (s := setLink _ k _) hc ..; exact hc]

theorem giveUp_queueInv {s : State} (h : s.queueInv) (k : LinkId) : (s.giveUp k).queueInv := by
  unfold giveUp
  split <;> [exact frameDone_queueInv (s := s.clearAbortWord k) h k 1; exact h]

theorem stallAbort_queueInv {s : State} (h : s.queueInv) (k : LinkId) : (s.stallAbort k).queueInv := by
  unfold stallAbort
  split <;> [exact abortFrame_queueInv h k _; exact h]

theorem periodExpiry_queueInv {s : State} (h : s.queueInv) (k : LinkId) : (s.periodExpiry k).queueInv := by
  unfold periodExpiry
  simp only []
  split <;> [skip; exact h]
  split
  · rw [frameBegin_only]; exact h
  · exact queueInv_offer (by exact h) ..

theorem itemDone_queueInv {s : State} (h : s.queueInv) (k : LinkId) (it : Item) : (s.itemDone k it).queueInv := by
  unfold itemDone
  simp only []
  split <;> split <;> [exact queueInv_offer (s := s.setLink k _) h ..; exact queueInv_offer h ..; exact h; exact h]

theorem presentRead_queueInv {s : State} (h : s.queueInv) (k : LinkId) : (s.presentRead k).queueInv := by
  rw [presentRead_only]; exact h

theorem wordTaken_queueInv {s : State} (h : s.queueInv) (k : LinkId) : (s.wordTaken k).queueInv := by
  unfold wordTaken
  simp only []
  split
  · exact h
  · exact h
  · exact frameDone_queueInv (s := s.clearAbortWord k) h k 0
  · split <;> [skip; exact h]
    split
    · exact frameDone_queueInv (releasePins_queueInv (s := s.setLink k _) h k) k 0
    · unfold afterTake
      split
      · exact presentRead_queueInv (itemDone_queueInv (s := s.setLink k _) h k _) k
      · exact presentRead_queueInv (s := s.setLink k _) h k

theorem linkStop_queueInv {s : State} (h : s.queueInv) : s.linkStop.queueInv := by
  unfold linkStop
  split <;> [exact h; skip]
  rename_i k _
  split <;> [exact h; skip]
  split <;> [exact h; skip]
  split <;> [exact linkOff_queueInv h k 0; skip]
  unfold stopFrame
  simp only []
  split <;> [exact abortFrame_queueInv h k .stop; exact h]

theorem handleRelease_queueInv {s : State} (h : s.queueInv) : s.handleRelease.queueInv := by
  unfold handleRelease
  split <;> [exact h; skip]
  rename_i n _
  simp only []
  split <;> [exact release_queueInv (s := s.setHandle n _) h _ _; exact h; exact h]

/-! ### Capture ports -/

theorem abandonMembers_queueInv {s : State} (h : s.queueInv) (l : List FillMember) (w : AbandonReason) :
    (s.abandonMembers l w).queueInv :=
  foldl_keeps queueInv _ l (fun _ m _ ht => abandon_queueInv ht m.slot m.gen w) s h

theorem giveUpBlock_queueInv {s : State} (h : s.queueInv) (p : PortId) (w : AbandonReason) : (s.giveUpBlock p w).queueInv :=
  have ht := abandonMembers_queueInv h (s.port p).fill w
  queueInv_setPort ht p (queueInv_port ht p)

theorem giveUpOpen_queueInv {s : State} (h : s.queueInv) (p : PortId) (w : AbandonReason) :
    (if (s.port p).state = .inBlock then s.giveUpBlock p w else s).queueInv := by
  split <;> [exact giveUpBlock_queueInv h p w; exact h]

/-- The FIFO without its head entry is no longer. -/
theorem leaveEntry_queueInv {s : State} (h : s.queueInv) (p : PortId) : (s.leaveEntry p).queueInv := by
  unfold leaveEntry
  split <;> [exact h; skip]
  rename_i e l hl
  have hlen : l.length ≤ Config.fifoDepth := by
    have := (queueInv_port h p).1
    rw [hl, List.length_cons] at this
    omega
  split
  · have ht := giveUpOpen_queueInv h p .captureOverflow
    exact queueInv_setPort ht p ⟨hlen, (queueInv_port ht p).2⟩
  · exact queueInv_setPort h p ⟨hlen, (queueInv_port h p).2⟩

theorem endBlock_queueInv {s : State} (h : s.queueInv) (p : PortId) : (s.endBlock p).queueInv :=
  have ht : (s.completeMembers (s.port p).fill).queueInv :=
    foldl_keeps queueInv _ (s.port p).fill (fun _ _ _ ht => complete_queueInv ht ..) s h
  queueInv_setPort ht p (queueInv_port ht p)

theorem finishWord_queueInv {s : State} (h : s.queueInv) (p : PortId) : (s.finishWord p).queueInv := by
  unfold finishWord
  split <;> [exact h; skip]
  have ht := queueInv_setPort h p
    (x := { s.port p with wordIndex := saturate16 (s.port p).wordIndex, writing := false, due := [] })
    ⟨(queueInv_port h p).1, saturate16_le _⟩
  simp only []
  split
  · exact leaveEntry_queueInv (endBlock_queueInv ht p) p
  · exact leaveEntry_queueInv ht p

theorem presentWrite_queueInv {s : State} (h : s.queueInv) (p : PortId) : (s.presentWrite p).queueInv := by
  unfold presentWrite
  simp only []
  split <;> [exact queueInv_setPort h p (queueInv_port h p); exact h]

theorem takeWord_queueInv {s : State} (h : s.queueInv) (p : PortId) : (s.takeWord p).queueInv := by
  unfold takeWord
  simp only []
  split
  · exact finishWord_queueInv h p
  · exact presentWrite_queueInv (by exact queueInv_setPort h p (queueInv_port h p)) p

theorem afterRequest_queueInv {s : State} (h : s.queueInv) (p : PortId) : (s.afterRequest p).queueInv := by
  unfold afterRequest
  split <;> [exact presentWrite_queueInv h p; skip]
  split <;> [exact finishWord_queueInv h p; exact h]

theorem offerBlock_queueInv {s : State} (h : s.queueInv) (p : PortId) (e : FifoEntry) (i : SlotId) :
    (s.offerBlock p e i).queueInv := by
  unfold offerBlock
  simp only []
  split <;> [skip; exact h]
  split <;> [skip; exact h]
  have ht := requestTarget_queueInv (s := s.setSlot i { s.slot i with decCount := 0 }) h i e.arrived e.tag
  unfold keepBlock
  split <;> [exact queueInv_setPort ht p (queueInv_port ht p); exact ht]

theorem offerToSlots_queueInv {s : State} (h : s.queueInv) (p : PortId) (e : FifoEntry) : (s.offerToSlots p e).queueInv :=
  foldl_keeps queueInv _ allSlots (fun _ i _ ht => offerBlock_queueInv ht p e i) s h

theorem beginBlock_queueInv {s : State} (h : s.queueInv) (p : PortId) (e : FifoEntry) : (s.beginBlock p e).queueInv := by
  unfold beginBlock
  simp only []
  have hu := giveUpOpen_queueInv h p .missingEnd
  generalize (if (s.port p).state = .inBlock then s.giveUpBlock p .missingEnd else s) = u at hu ⊢
  have hv := queueInv_setPort hu p (x := { u.port p with blocksSeen := (u.port p).blocksSeen + 1, wordIndex := 0 })
    ⟨(queueInv_port hu p).1, Nat.zero_le _⟩
  have hw := offerToSlots_queueInv hv p e
  generalize State.offerToSlots _ p e = w at hw ⊢
  exact queueInv_setPort hw p (queueInv_port hw p)

theorem headStart_queueInv {s : State} (h : s.queueInv) (p : PortId) : (s.headStart p).queueInv := by
  unfold headStart
  split <;> [exact h; skip]
  split <;> [skip; exact h]
  split <;> [exact beginBlock_queueInv h p _; exact takeWord_queueInv (beginBlock_queueInv h p _) p]

theorem headError_queueInv {s : State} (h : s.queueInv) (p : PortId) : (s.headError p).queueInv := by
  unfold headError
  split <;> [exact h; skip]
  split <;> [skip; exact h]
  have hu := giveUpBlock_queueInv h p .sourceError
  exact leaveEntry_queueInv (by exact queueInv_setPort hu p (queueInv_port hu p)) p

theorem enablePort_queueInv {s : State} (h : s.queueInv) (p : PortId) : (s.enablePort p).queueInv := by
  unfold enablePort
  split <;> [exact h; exact queueInv_setPort h p (queueInv_port h p)]

theorem disablePort_queueInv {s : State} (h : s.queueInv) (p : PortId) : (s.disablePort p).queueInv := by
  unfold disablePort
  split <;> [skip; exact h]
  exact queueInv_setPort (giveUpOpen_queueInv h p .portDisabled) p ⟨Nat.zero_le _, Nat.zero_le _⟩

theorem writeEnables_queueInv {s : State} (h : s.queueInv) (v : Word) : (s.writeEnables v).queueInv :=
  foldl_keeps queueInv _ allPorts (fun _ p _ ht => by
    split <;> [exact enablePort_queueInv ht p; exact disablePort_queueInv ht p]) s h

theorem length_markTail : ∀ l : List FifoEntry, (markTail l).length = l.length
  | [] => rfl
  | [_] => rfl
  | _ :: f :: l => congrArg (· + 1) (length_markTail (f :: l))

/-- A transfer enters a FIFO that has room, or marks its tail (R39, R40). -/
theorem intake_queueInv {s : State} (h : s.queueInv) (p : PortId) (x : Transfer) : (s.intake p x).queueInv := by
  obtain ⟨hfifo, hindex⟩ := queueInv_port h p
  unfold intake
  simp only []
  split <;> [exact h; skip]
  split
  · rename_i hroom
    refine queueInv_setPort h p ⟨?_, hindex⟩
    rw [List.length_append]
    exact hroom
  · refine queueInv_setPort h p ⟨?_, hindex⟩
    rw [length_markTail]
    exact hfifo

/-! ### The feed, the teardown, and commands that take time -/

theorem feedOpen_queueInv {s : State} (h : s.queueInv) : s.feedOpen.queueInv := by
  unfold feedOpen
  split <;> [exact h; skip]
  rename_i i _
  split <;> [exact h; skip]
  split <;> [exact h; skip]
  split <;> [exact h; skip]
  split <;> [exact h; skip]
  split <;> [exact h; skip]
  have ht := requestTarget_queueInv h i s.now ((s.arg 1).setWidth 8)
  unfold openFeed
  simp only []
  split <;> [exact queueInv_setFeed ht (Nat.zero_le _); exact ht]

theorem setFeedIdle_queueInv {s : State} (h : s.queueInv) : (s.setFeed { s.feed with state := .idle }).queueInv :=
  queueInv_setFeed h (queueInv_feed h)

theorem feedClose_queueInv {s : State} (h : s.queueInv) : s.feedClose.queueInv := by
  unfold feedClose
  split <;> [exact h; exact complete_queueInv (setFeedIdle_queueInv h) _ _ _]

theorem feedAbort_queueInv {s : State} (h : s.queueInv) : s.feedAbort.queueInv := by
  unfold feedAbort
  split <;> [exact h; exact abandon_queueInv (setFeedIdle_queueInv h) _ _ _]

theorem feedExpiry_queueInv {s : State} (h : s.queueInv) : s.feedExpiry.queueInv := by
  unfold feedExpiry
  split <;> [exact queueInv_offer (abandon_queueInv (setFeedIdle_queueInv h) _ _ _) ..; exact h]

theorem writeFeed_queueInv {s : State} (h : s.queueInv) (v : Word) : (s.writeFeed v).queueInv := by
  unfold writeFeed
  simp only []
  split <;> [exact h; skip]
  split <;> [exact queueInv_setFeed h (queueInv_feed h); exact queueInv_setFeed h (saturate16_le _)]

theorem abandonFilling_queueInv {s : State} (h : s.queueInv) (i : SlotId) : (s.abandonFilling i).queueInv := by
  unfold abandonFilling
  split <;> [skip; exact h]
  rename_i g _
  have ha := abandon_queueInv h i g .teardown
  unfold dropWriter
  split
  · exact queueInv_setPort ha _ (queueInv_port ha _)
  · split <;> [exact queueInv_offer (setFeedIdle_queueInv ha) ..; exact ha]

theorem revokeHandles_queueInv {s : State} (h : s.queueInv) (i : SlotId) : (s.revokeHandles i).queueInv := by
  refine foldl_keeps queueInv _ allHandles (fun t n _ ht => ?_) s h
  unfold revokeHandle
  simp only []
  split <;> [exact queueInv_offer (by exact ht) ..; exact ht]

theorem teardownBegun_queueInv {s : State} (h : s.queueInv) (i : SlotId) : (s.teardownBegun i).queueInv := by
  have hd := dropSeal_queueInv (abandonFilling_queueInv h i) i .teardown
  unfold teardownBegun
  simp only []
  generalize (s.abandonFilling i).dropSeal i .teardown = u at hd ⊢
  exact hd

theorem slotTeardown_queueInv {s : State} (h : s.queueInv) : s.slotTeardown.queueInv := by
  unfold slotTeardown
  split <;> [exact h; skip]
  rename_i i _
  split <;> [skip; exact h]
  rw [acceptTeardown_eq]
  have hb := teardownBegun_queueInv h i
  have hr : (if (s.arg 1 ≠ 0 : Bool) then (s.teardownBegun i).revokeHandles i else s.teardownBegun i).queueInv := by
    split <;> [exact revokeHandles_queueInv hb i; exact hb]
  exact leaveCohort_queueInv (drainCheck_queueInv hr i) i _

theorem endCommand_queueInv {s : State} (h : s.queueInv) (o : Nat) (c : ResultCode) (d : Word) :
    (s.endCommand o c d).queueInv := queueInv_offer (s := s.result c d) h ..

theorem checkFail_queueInv {s : State} (h : s.queueInv) (k : LinkId) (w : CheckFailure) (n : Nat) :
    (s.checkFail k w n).queueInv := endCommand_queueInv (s := { s with check := none }) h ..

theorem checkStart_queueInv {s : State} (h : s.queueInv) (k : LinkId) (c : LongCommand) (p : Program) :
    (s.checkStart k c p).queueInv := by
  unfold checkStart
  split <;> [exact h; exact checkFail_queueInv h k _ _]

theorem linkStart_queueInv {s : State} (h : s.queueInv) : s.linkStart.queueInv := by
  unfold linkStart
  split <;> [exact h; skip]
  split <;> [exact h; skip]
  split <;> [exact h; skip]
  split <;> [exact h; skip]
  split <;> [exact h; exact checkStart_queueInv (s := s.startCommand .start) h _ _ _]

theorem linkLoad_queueInv {s : State} (h : s.queueInv) : s.linkLoad.queueInv := by
  unfold linkLoad
  split <;> [exact h; skip]
  split <;> [exact h; skip]
  split <;> [exact h; exact checkStart_queueInv (s := s.startCommand .load) h _ _ _]

theorem checkPass_queueInv {s : State} (h : s.queueInv) (c : Check) : (s.checkPass c).queueInv := by
  unfold checkPass
  refine endCommand_queueInv ?_ ..
  split <;> [skip; exact h; exact h]
  unfold startLink
  split <;> exact h

theorem checkExamine_queueInv {s : State} (h : s.queueInv) : s.checkExamine.queueInv := by
  unfold checkExamine
  split <;> [exact h; skip]
  rename_i c _
  have hitem : ∀ e, (s.examineItem c e).queueInv := fun e => by
    unfold examineItem
    simp only []
    split <;> [exact checkFail_queueInv h _ _ _; skip]
    split <;> [exact checkFail_queueInv h _ _ _; skip]
    split <;> [exact checkFail_queueInv h _ _ _; skip]
    split <;> [exact checkFail_queueInv h _ _ _; exact h]
  simp only []
  split
  · exact checkFail_queueInv h _ _ _
  · unfold examineEnd
    split <;> [exact checkFail_queueInv h _ _ _; skip]
    split <;> [exact checkPass_queueInv h c; exact h]
  · exact hitem _
  · exact hitem _

theorem pageTake_queueInv {s : State} (h : s.queueInv) : s.pageTake.queueInv := by
  obtain hidle | ⟨a, p, _, _, htaken⟩ := pageTake_cases s
  · rw [hidle]; exact h
  have hm : (s.pageMoved a.last p).queueInv := by rw [pageMoved_only]; exact h
  rw [htaken, advanceAlloc_only]
  by_cases hr : a.remaining ≤ 1
  · rw [(advanceAlloc_done p hr).2]
    exact queueInv_offer hm ..
  · rw [(advanceAlloc_more p (by omega)).2]
    exact hm

/-! ### Grants, resets and acts -/

theorem grantAct_queueInv {s t : State} (h : s.queueInv) (e : GrantAct s t) : t.queueInv := by
  have freed : ∀ p : PortId, (s.setPort p { s.port p with req := none }).queueInv :=
    fun p => queueInv_setPort h p (queueInv_port h p)
  cases e with
  | idle => exact h
  | portWrite r p q a hq hf ha =>
    refine afterRequest_queueInv (s := State.granted _ r) ?_ p
    exact queueInv_frame (freed p) rfl rfl rfl
  | portWithdraw p q hq hf => exact afterRequest_queueInv (freed p) p
  | feedWrite r q a hq hf ha =>
    refine queueInv_frame (s := (s.setFeed { s.feed with wordIndex := saturate16 s.feed.wordIndex, req := none })) ?_ rfl rfl rfl
    exact queueInv_setFeed h (saturate16_le _)
  | feedWithdraw q hq hf => exact queueInv_setFeed h (queueInv_feed h)
  | linkRead r k q w hq hw => rw [presentRead_only, placeWord_only]; exact h
  | handleRead r n q w hq hw => exact h

/-- The blocks as either reset leaves them: an empty queue, empty FIFOs, and no word of a feed. -/
theorem resetBlocks_queueInv (s : State) (phase : ResetPhase) : (s.resetBlocks phase).queueInv := by
  refine ⟨Nat.zero_le _, Nat.zero_le _, Nat.zero_le _, fun p => ?_⟩
  show (State.reset.port p).Fits
  rw [port_reset]
  exact ⟨Nat.zero_le _, Nat.zero_le _⟩

theorem timeAct_queueInv {s t : State} (h : s.queueInv) (e : TimeAct s t) : t.queueInv := by
  cases e with
  | stallAbort k => exact stallAbort_queueInv h k
  | giveUp k => exact giveUp_queueInv h k
  | periodExpiry k => exact periodExpiry_queueInv h k
  | windowExpiry c => exact windowExpiry_queueInv h c
  | feedExpiry => exact feedExpiry_queueInv h
  | advanceTime ready => rw [(advanceTime_spec ready s).2]; exact h
  | countCycle => exact h

theorem plainAct_queueInv {s t : State} (h : s.queueInv) (e : PlainAct s t) : t.queueInv := by
  cases e with
  | popEvent =>
    obtain ⟨hrecords, hrest⟩ := h
    refine ⟨?_, hrest⟩
    show (s.events.records.drop 1).length ≤ _
    rw [List.length_drop]
    omega
  | readLost =>
    obtain ⟨hrecords, _, hrest⟩ := h
    exact ⟨hrecords, Nat.zero_le _, hrest⟩
  | writeSchedule e second v =>
    unfold writeSchedule
    split <;> [split; skip] <;> exact h
  | _ => exact h

theorem act_queueInv {s t : State} (h : s.queueInv) (e : Act s t) : t.queueInv := by
  cases e with
  | plain e => exact plainAct_queueInv h e
  | time e => exact timeAct_queueInv h e
  | slotConfigure => rw [slotConfigure_only]; exact h
  | slotFreeze => rw [slotFreeze_only]; exact h
  | slotThaw => rw [slotThaw_only]; exact h
  | slotTeardown => exact slotTeardown_queueInv h
  | cohortSet => rw [cohortSet_only]; exact h
  | linkStart => exact linkStart_queueInv h
  | linkLoad => exact linkLoad_queueInv h
  | linkCancel => rw [linkCancel_only]; exact h
  | linkStop => exact linkStop_queueInv h
  | handlePin => rw [handlePin_only]; exact h
  | handleRelease => exact handleRelease_queueInv h
  | feedOpen => exact feedOpen_queueInv h
  | feedClose => exact feedClose_queueInv h
  | feedAbort => exact feedAbort_queueInv h
  | pageTake => exact pageTake_queueInv h
  | checkExamine => exact checkExamine_queueInv h
  | intake p x => exact intake_queueInv h p x
  | headStart p => exact headStart_queueInv h p
  | headWord p => obtain e | e := headWord_eq s p <;> rw [e] <;> [exact h; exact takeWord_queueInv h p]
  | headDrop p => obtain e | e := headDrop_eq s p <;> rw [e] <;> [exact h; exact leaveEntry_queueInv h p]
  | headEnd p => obtain e | e := headEnd_eq s p <;> rw [e] <;> [exact h; exact takeWord_queueInv h p]
  | headError p => exact headError_queueInv h p
  | enablePort p => exact enablePort_queueInv h p
  | disablePort p => exact disablePort_queueInv h p
  | writeEnables v => exact writeEnables_queueInv h v
  | clearOverflowed p b => exact queueInv_setPort h p (queueInv_port h p)
  | placeNext k => rw [placeNext_only]; exact h
  | wordTaken k => exact wordTaken_queueInv h k
  | readHandle n => rw [readHandle_only]; exact h
  | writeFeed v => exact writeFeed_queueInv h v
  | writeControl v =>
    unfold writeControl
    simp only []
    split <;> [skip; exact h]
    unfold startDeviceReset
    split <;> [exact resetBlocks_queueInv _ _; exact h; exact h]
  | assertReset => exact resetBlocks_queueInv s .held
  | releaseReset => unfold releaseReset; split <;> exact h
  | rebuildPage =>
    obtain hidle | ⟨n, clearing, hr, hn⟩ := rebuildPage_cases s
    · rw [hidle]; exact h
    · rw [rebuildPage_running hr hn]
      split <;> exact h
  | clearSchedule =>
    by_cases hdue : ∃ n, s.resetPhase = .running n true
    · obtain ⟨n, hr⟩ := hdue
      rw [clearSchedule_running hr]
      split <;> exact h
    · rw [clearSchedule_idle (not_exists.mp hdue)]
      exact h
  | writeHandleAddr | clearOverread | clearOverlength => exact h

end State
end Sys2Proof.Machine

/-! SUPPORT. The three memories stay in canonical form (R25), and O51. -/

namespace Sys2Proof.Machine
namespace State

/-! ### The page link table -/

theorem pageTake_wf {s : State} (hw : Cells.wf Config.pages rebuiltNext s.pool.next = true) :
    Cells.wf Config.pages rebuiltNext s.pageTake.pool.next = true := by
  obtain hidle | ⟨a, p, _, _, htaken⟩ := pageTake_cases s
  · rw [hidle]; exact hw
  rw [htaken, advanceAlloc_pool]
  exact wf_pageMoved hw a.last p

theorem pageAct_wf {s t : State} (hw : Cells.wf Config.pages rebuiltNext s.pool.next = true) (e : PageAct s t) :
    Cells.wf Config.pages rebuiltNext t.pool.next = true := by
  cases e with
  | run e => exact pageRun_wf hw e
  | slotConfigure _ _ =>
    obtain ⟨_, hp⟩ | ⟨i, a, _, _, _, heq⟩ := slotConfigure_cases s
    · rw [hp]; exact hw
    · rw [heq, acceptConfigure_pool]; exact hw
  | pageTake => exact pageTake_wf hw
  | resetBegins _ hp _ => rw [hp]; exact hw
  | releaseReset => unfold releaseReset; split <;> exact hw
  | rebuildPage =>
    obtain hidle | ⟨n, clearing, hr, hn⟩ := rebuildPage_cases s
    · rw [hidle]; exact hw
    · have hlink := Pool.wf_linkPage s.pool ⟨n, hn⟩ hw
      rw [rebuildPage_running hr hn]
      split <;> exact hlink
  | clearSchedule => rw [(clearSchedule_pages s).1]; exact hw

/-! ### The store and the schedule memory -/

/-- The store and the schedule memory in canonical form. -/
structure WordsWf (s : State) : Prop where
  store : Cells.wf Config.storeWords unknownWord s.store = true
  schedule : Cells.wf 2048 clearedWord s.schedule = true

theorem memoriesWf_iff (s : State) :
    s.memoriesWf = true ↔ s.WordsWf ∧ Cells.wf Config.pages rebuiltNext s.pool.next = true := by
  unfold memoriesWf
  rw [Bool.and_eq_true, Bool.and_eq_true]
  exact ⟨fun ⟨⟨h1, h2⟩, h3⟩ => ⟨⟨h1, h3⟩, h2⟩, fun ⟨⟨h1, h3⟩, h2⟩ => ⟨⟨h1, h2⟩, h3⟩⟩

theorem grantAct_schedule {s t : State} (e : GrantAct s t) : t.schedule = s.schedule := by
  cases e with
  | portWrite => rw [afterRequest_only]; rfl
  | portWithdraw => rw [afterRequest_only]; rfl
  | linkRead => rw [presentRead_only, placeWord_only]; rfl
  | idle | feedWrite | feedWithdraw | handleRead => rfl

theorem timeAct_schedule {s t : State} (e : TimeAct s t) : t.schedule = s.schedule := by
  cases e with
  | stallAbort k => rw [stallAbort_only]
  | giveUp k => rw [giveUp_only]
  | periodExpiry k => rw [periodExpiry_only]
  | windowExpiry c => rw [(windowExpiry_spec s c).1]
  | feedExpiry => rw [feedExpiry_only]
  | advanceTime ready => rw [(advanceTime_spec ready s).2]
  | countCycle => rfl

theorem plainAct_schedule {s t : State} (h : Cells.wf 2048 clearedWord s.schedule = true) (e : PlainAct s t) :
    Cells.wf 2048 clearedWord t.schedule = true := by
  cases e with
  | writeSchedule e second v =>
    unfold writeSchedule
    split <;> [(split <;> exact h); exact wf_scheduleWrite s.schedule e second _ h]
  | _ => exact h

theorem slotTeardown_schedule (s : State) : s.slotTeardown.schedule = s.schedule := by
  unfold slotTeardown
  split <;> [rfl; skip]
  split <;> [skip; rfl]
  rename_i i _ _
  rw [acceptTeardown_eq]
  show State.schedule (State.leaveCohort _ _ _) = _
  rw [leaveCohort_only, drainCheck_only]
  split <;> [rw [revokeHandles_only, teardownBegun_only]; rw [teardownBegun_only]]

theorem writeControl_schedule (s : State) (v : Word) : (s.writeControl v).schedule = s.schedule := by
  unfold writeControl
  simp only []
  split <;> [skip; rfl]
  unfold startDeviceReset
  split <;> rfl

/-- Only a schedule write that is taken and the clearing of a power-on reset write the schedule memory (R71, R73). -/
theorem act_schedule {s t : State} (e : Act s t) (h : Cells.wf 2048 clearedWord s.schedule = true) :
    Cells.wf 2048 clearedWord t.schedule = true := by
  have same : t.schedule = s.schedule → Cells.wf 2048 clearedWord t.schedule = true := fun e => e ▸ h
  cases e with
  | plain e => exact plainAct_schedule h e
  | clearSchedule =>
    by_cases hdue : ∃ n, s.resetPhase = .running n true
    · obtain ⟨n, hr⟩ := hdue
      rw [clearSchedule_running hr]
      split <;> rfl
    · rw [clearSchedule_idle (not_exists.mp hdue)]; exact h
  | time e => exact same (timeAct_schedule e)
  | slotConfigure => exact same (by rw [slotConfigure_only])
  | slotFreeze => exact same (by rw [slotFreeze_only])
  | slotThaw => exact same (by rw [slotThaw_only])
  | slotTeardown => exact same (slotTeardown_schedule s)
  | cohortSet => exact same (by rw [cohortSet_only])
  | linkStart => exact same (by rw [linkStart_only])
  | linkLoad => exact same (by rw [linkLoad_only])
  | linkCancel => exact same (by rw [linkCancel_only])
  | linkStop => exact same (by rw [linkStop_only])
  | handlePin => exact same (by rw [handlePin_only])
  | handleRelease => exact same (by rw [handleRelease_only])
  | feedOpen => exact same (by rw [feedOpen_only])
  | feedClose => exact same (by rw [feedClose_only])
  | feedAbort => exact same (by rw [feedAbort_only])
  | pageTake => exact same (by rw [pageTake_only])
  | checkExamine => exact same (by rw [checkExamine_only])
  | intake p x => exact same (by rw [intake_only])
  | headStart p => exact same (by rw [headStart_only])
  | headWord p => exact same (by obtain e | e := headWord_eq s p <;> rw [e]; rw [takeWord_only])
  | headDrop p => exact same (by obtain e | e := headDrop_eq s p <;> rw [e]; rw [leaveEntry_only])
  | headEnd p => exact same (by obtain e | e := headEnd_eq s p <;> rw [e]; rw [takeWord_only])
  | headError p => exact same (by rw [headError_only])
  | enablePort p => exact same (by rw [enablePort_only])
  | disablePort p => exact same (by rw [disablePort_only])
  | writeEnables v => exact same (by rw [writeEnables_only])
  | placeNext k => exact same (by rw [placeNext_only])
  | wordTaken k => exact same (by rw [wordTaken_only])
  | readHandle n => exact same (by rw [readHandle_only])
  | writeFeed v => exact same (by rw [writeFeed_only])
  | writeControl v => exact same (writeControl_schedule s v)
  | releaseReset => exact same (by unfold releaseReset; split <;> rfl)
  | rebuildPage =>
    obtain hidle | ⟨n, clearing, hr, hn⟩ := rebuildPage_cases s
    · rw [hidle]; exact h
    · rw [rebuildPage_running hr hn]
      split <;> exact h
  | clearOverflowed | writeHandleAddr | clearOverread | clearOverlength | assertReset => exact h

/-- A grant writes the store at a word of a generation, which lies in it (R25, R32). -/
theorem grantAct_wordsWf {s t : State} (h : s.WordsWf) (e : GrantAct s t) : t.WordsWf := by
  refine ⟨?_, grantAct_schedule e ▸ h.schedule⟩
  obtain ⟨_, _, hs | ⟨i, g, w, a, v, _, ha, hs⟩⟩ := grantAct_pool e
  · rw [hs]; exact h.store
  · rw [hs]; exact wf_storeWord s a v h.store (s.wordAddress_lt i g w a ha)

theorem act_wordsWf {s t : State} (h : s.WordsWf) (e : Act s t) : t.WordsWf :=
  ⟨act_store e ▸ h.store, act_schedule e h.schedule⟩

end State

/-- Settles O51: the page link table through the acts that the pages see, the other two memories and the queues through every
grant and every act. -/
theorem memoriesAndQueuesKeepTheirForm : Obligations.MemoriesAndQueuesKeepTheirForm := by
  unfold Obligations.MemoriesAndQueuesKeepTheirForm
  refine fun s t e => ⟨fun h => ?_, fun h => ?_⟩
  · obtain ⟨hwords, hpool⟩ := (State.memoriesWf_iff s).mp h
    obtain ⟨l, u, hu, act⟩ := step_pages e
    refine (State.memoriesWf_iff t).mpr ⟨?_, State.pageAct_wf (hu.pool ▸ hpool) act⟩
    exact step_keeps_of_acts State.WordsWf (fun _ _ h => ⟨h.store, h.schedule⟩) (fun _ _ => State.grantAct_wordsWf)
      (fun _ _ => State.act_wordsWf) hwords e
  · exact step_keeps_of_acts State.queueInv (fun _ _ h => h) (fun _ _ => State.grantAct_queueInv)
      (fun _ _ => State.act_queueInv) h e

end Sys2Proof.Machine

/-! SUPPORT. The arbiter's choice (O26). -/

namespace Sys2Proof.Machine

/-! ### The ring -/

/-- How far after LAST_GRANTED a ring position stands, the position right after it being at 0 (R33). -/
def ringDistance (last r : Fin 21) : Nat := (r.val + 20 - last.val) % 21

theorem length_ringAfter (last : Fin 21) : (ringAfter last).length = 21 := by
  unfold ringAfter
  rw [List.length_map, List.length_range]

theorem ringAfter_getElem (last : Fin 21) {n : Nat} (h : n < (ringAfter last).length) :
    (ringAfter last)[n].val = (last.val + 1 + n) % 21 := by
  simp [ringAfter]

theorem ringDistance_getElem (last : Fin 21) {n : Nat} (h : n < (ringAfter last).length) :
    ringDistance last (ringAfter last)[n] = n := by
  unfold ringDistance
  rw [ringAfter_getElem]
  have := last.isLt
  rw [length_ringAfter] at h
  omega

theorem ringDistance_lt (last r : Fin 21) : ringDistance last r < (ringAfter last).length := by
  rw [length_ringAfter]
  exact Nat.mod_lt _ (by decide)

theorem getElem_ringDistance (last r : Fin 21) : (ringAfter last)[ringDistance last r]'(ringDistance_lt last r) = r := by
  refine Fin.ext ?_
  rw [ringAfter_getElem]
  unfold ringDistance
  have := last.isLt
  have := r.isLt
  omega

theorem mem_ringAfter (last r : Fin 21) : r ∈ ringAfter last :=
  List.mem_of_getElem (getElem_ringDistance last r)

/-- The first position of the ring that meets a test is the nearest one that does. -/
theorem ring_find_some {last r : Fin 21} {f : Fin 21 → Bool} (h : (ringAfter last).find? f = some r) :
    f r = true ∧ ∀ q, f q = true → ringDistance last r ≤ ringDistance last q := by
  obtain ⟨hr, n, hn, hrn, hbefore⟩ := List.find?_eq_some_iff_getElem.mp h
  refine ⟨hr, fun q hq => ?_⟩
  rw [← hrn, ringDistance_getElem]
  by_contra hlt
  have := hbefore (ringDistance last q) (Nat.lt_of_not_le hlt)
  rw [getElem_ringDistance, hq] at this
  cases this

theorem ring_find_none {last : Fin 21} {f : Fin 21 → Bool} : (ringAfter last).find? f = none ↔ ∀ q, f q = false := by
  rw [List.find?_eq_none]
  exact ⟨fun h q => Bool.eq_false_iff.mpr (h q (mem_ringAfter last q)), fun h q _ => Bool.eq_false_iff.mp (h q)⟩

namespace State

/-! ### The choice -/

/-- A capture port waits for the store port. -/
def captureWaits (s : State) (r : Fin 21) : Bool := r.val < 12 && s.waiting r

theorem captureWaits_iff (s : State) (r : Fin 21) : s.captureWaits r = true ↔ r.val < 12 ∧ s.waiting r = true := by
  unfold captureWaits
  rw [Bool.and_eq_true, decide_eq_true_eq]

theorem capturePreferred_iff (s : State) : s.capturePreferred = true ↔ ∃ p, 24 < (s.port p).fifo.length := by
  unfold capturePreferred
  rw [List.any_eq_true]
  exact ⟨fun ⟨p, _, hp⟩ => ⟨p, of_decide_eq_true hp⟩, fun ⟨p, hp⟩ => ⟨p, mem_allPorts p, decide_eq_true hp⟩⟩

/-- While a FIFO holds more than 24 words, a waiting capture port is looked for first (R34). -/
theorem nextGrant_preferred {s : State} (hp : s.capturePreferred = true) (hw : ∃ r, s.captureWaits r = true) :
    s.nextGrant = (ringAfter s.lastGranted).find? s.captureWaits := by
  have hsome : (ringAfter s.lastGranted).find? s.captureWaits ≠ none := fun e => by
    obtain ⟨r, hr⟩ := hw
    rw [ring_find_none.mp e r] at hr
    cases hr
  unfold nextGrant
  simp only [hp, if_true]
  split
  · rename_i e; exact e.symm
  · rename_i e; exact absurd e hsome

/-- Otherwise the first waiting request of the ring is the arbiter's choice (R33). -/
theorem nextGrant_plain {s : State} (h : ¬ (s.capturePreferred = true ∧ ∃ r, s.captureWaits r = true)) :
    s.nextGrant = (ringAfter s.lastGranted).find? s.waiting := by
  unfold nextGrant
  simp only []
  split
  · rename_i r e
    split at e
    · rename_i hp
      exact absurd ⟨hp, r, (ring_find_some (f := s.captureWaits) e).1⟩ h
    · cases e
  · rfl

theorem nextGrant_none (s : State) : s.nextGrant = none ↔ ∀ r, s.waiting r = false := by
  by_cases hp : s.capturePreferred = true ∧ ∃ r, s.captureWaits r = true
  · obtain ⟨r, hr⟩ := hp.2
    rw [nextGrant_preferred hp.1 hp.2, ring_find_none]
    refine iff_of_false (fun h => ?_) fun h => ?_
    · rw [h r] at hr; cases hr
    · have := ((s.captureWaits_iff r).mp hr).2
      rw [h r] at this; cases this
  · rw [nextGrant_plain hp, ring_find_none]

end State

/-- Settles O26: the first position of the ring that meets a test is the nearest, and the test is that of the capture ports
exactly while they are preferred and one of them waits. -/
theorem arbiterFollowsTheRing : Obligations.ArbiterFollowsTheRing := by
  unfold Obligations.ArbiterFollowsTheRing
  intro s distance preferred
  have hpreferred : preferred ↔ s.capturePreferred = true ∧ ∃ r, s.captureWaits r = true := by
    rw [s.capturePreferred_iff]
    exact and_congr_right fun _ => exists_congr fun r => (s.captureWaits_iff r).symm
  refine ⟨s.nextGrant_none, fun r hr => ?_⟩
  by_cases hp : preferred
  · obtain ⟨hfull, hwaits⟩ := hpreferred.mp hp
    rw [State.nextGrant_preferred hfull hwaits] at hr
    obtain ⟨hfound, hfirst⟩ := ring_find_some hr
    obtain ⟨hcapture, hwaiting⟩ := (s.captureWaits_iff r).mp hfound
    exact ⟨hwaiting, fun _ => hcapture, fun q hq hlt => hfirst q ((s.captureWaits_iff q).mpr ⟨hlt hp, hq⟩)⟩
  · rw [State.nextGrant_plain (hpreferred.not.mp hp)] at hr
    obtain ⟨hwaiting, hfirst⟩ := ring_find_some hr
    exact ⟨hwaiting, fun h => absurd h hp, fun q hq _ => hfirst q hq⟩

end Sys2Proof.Machine

/-! SUPPORT. Granted reads (O27): who stands at a ring position, the read a link presents, and the grant of a link and of a
handle. -/

namespace Sys2Proof.Machine

/-! ### The requesters -/

theorem requesterAt_port {r : Fin 21} {p : PortId} (h : r.val = p.val) : requesterAt r = .port p := by
  unfold requesterAt
  rw [dif_pos (by omega)]
  exact congrArg Requester.port (Fin.ext h)

theorem requesterAt_link {r : Fin 21} {k : LinkId} (h : r.val = 12 + k.val) : requesterAt r = .link k := by
  unfold requesterAt
  rw [dif_neg (by omega), dif_pos (by omega)]
  exact congrArg Requester.link (Fin.ext (by show r.val - 12 = k.val; omega))

theorem requesterAt_handle {r : Fin 21} {n : HandleId} (h : r.val = 18 + n.val) : requesterAt r = .handle n := by
  unfold requesterAt
  rw [dif_neg (by omega), dif_neg (by omega), dif_pos (by omega)]
  exact congrArg Requester.handle (Fin.ext (by show r.val - 18 = n.val; omega))

theorem requesterAt_feed {r : Fin 21} (h : r.val = 20) : requesterAt r = .feed := by
  unfold requesterAt
  rw [dif_neg (by omega), dif_neg (by omega), dif_neg (by omega)]

/-! ### The pins of a frame -/

/-- A link's pin on a slot, where the pin set names the slot once (R96). -/
theorem Link.pinOn_eq_some {l : Link} {p : PinEntry} (hp : p ∈ l.pinSet) (hn : (l.pinSet.map PinEntry.slot).Nodup) :
    l.pinOn p.slot = some p := by
  unfold Link.pinOn
  cases hf : l.pinSet.find? fun x => decide (x.slot = p.slot) with
  | none => exact absurd (decide_eq_true rfl) (List.find?_eq_none.mp hf p hp)
  | some x =>
    have hslot : x.slot = p.slot := of_decide_eq_true (List.find?_some (p := fun x : PinEntry => decide (x.slot = p.slot)) hf)
    exact congrArg some (List.inj_on_of_nodup_map hn (List.mem_of_find?_eq_some hf) hp hslot)

theorem Link.pinOn_eq_none {l : Link} {i : SlotId} (h : ∀ p ∈ l.pinSet, p.slot ≠ i) : l.pinOn i = none := by
  unfold Link.pinOn
  exact List.find?_eq_none.mpr fun p hp e => h p hp (of_decide_eq_true e)

namespace State

/-! ### The read a link presents -/

/-- A link with room in its buffer presents the read of its next word, a data word of a pinned slot (R33, R100; log 13). -/
theorem presentRead_data {s : State} {k : LinkId} {f : Frame} {i : SlotId} {pos : Nat} {p : PinEntry}
    (hf : (s.link k).frame = some f) (hline : (s.link k).line ≠ .abort) (hreq : (s.link k).req = none)
    (hroom : (s.link k).buffer.length < Config.bufferDepth) (hw : frameWord k (s.link k) f f.placed = some (.data i pos))
    (hp : (s.link k).pinOn i = some p) :
    s.presentRead k = s.setLink k { s.link k with req := some { slot := i, gen := p.gen, pos := pos } } := by
  unfold presentRead
  simp only [hf, hw, hp]
  exact if_pos ⟨hline, hreq, hroom⟩

/-- With an aborted frame, a full buffer, or a next word that is not a data word of a pinned slot a link presents nothing. -/
theorem presentRead_idle {s : State} {k : LinkId} {f : Frame} (hf : (s.link k).frame = some f)
    (h : (s.link k).line = .abort ∨ Config.bufferDepth ≤ (s.link k).buffer.length ∨
      ∀ i pos, frameWord k (s.link k) f f.placed = some (.data i pos) → (s.link k).pinOn i = none) :
    s.presentRead k = s := by
  unfold presentRead
  simp only [hf]
  split <;> [skip; rfl]
  rename_i hopen
  obtain ⟨hline, _, hroom⟩ := hopen
  obtain h | h | h := h
  · exact absurd h hline
  · omega
  · split
    · rename_i i pos hw
      rw [h i pos hw]
    all_goals rfl

/-- What a link without a request holds after it has presented its next read. -/
theorem presentRead_presents {s : State} {k : LinkId} (hreq : (s.link k).req = none) :
    presentsRead k none ((s.presentRead k).link k) := by
  refine ⟨nofun, fun _ f hf => ?_⟩
  obtain ⟨q, hq⟩ := presentRead_req s k
  have hlink : (s.presentRead k).link k = { s.link k with req := ((s.presentRead k).link k).req } := by
    rw [hq, link_setLink_self]
  have hword : frameWord k ((s.presentRead k).link k) f f.placed = frameWord k (s.link k) f f.placed := by
    rw [hlink]; rfl
  have hf' : (s.link k).frame = some f := by rw [hlink] at hf; exact hf
  intro next
  refine ⟨fun i pos p hn hline hroom hp hi hnodup => ?_, fun h => ?_⟩
  · rw [hlink] at hline hroom hp hnodup
    subst hi
    rw [presentRead_data hf' hline hreq hroom (hword.symm.trans hn) (Link.pinOn_eq_some hp hnodup), link_setLink_self]
  · rw [presentRead_idle hf' ?_]
    · exact hreq
    rw [hlink] at h
    obtain h | h | h := h
    · exact .inl h
    · exact .inr (.inl h)
    · exact .inr (.inr fun i pos hw => Link.pinOn_eq_none (h i pos (hword.trans hw)))

/-! ### The grants -/

theorem readFor_ok {s : State} {q : ReadReq} {a : Nat} (h : s.wordAddress q.slot q.gen q.pos = some a) :
    s.readFor q = .ok (s.readStore a) := by
  unfold readFor
  rw [h]

theorem grantAt_handle {s : State} {r : Fin 21} {n : HandleId} {q : ReadReq} {a : Nat} (hr : r.val = 18 + n.val)
    (hq : (s.handle n).req = some q) (ha : s.wordAddress q.slot q.gen q.pos = some a) :
    s.grantAt r = .done { (s.setHandle n { s.handle n with req := none, addr := (s.handle n).addr + 1 }) with
      busRead := s.readStore a, lastGranted := r } := by
  unfold grantAt
  rw [requesterAt_handle hr]
  simp only [hq]
  unfold grantHandle
  rw [readFor_ok ha]
  rfl

theorem grantAt_link {s : State} {r : Fin 21} {k : LinkId} {q : ReadReq} {a : Nat} (hr : r.val = 12 + k.val)
    (hq : (s.link k).req = some q) (ha : s.wordAddress q.slot q.gen q.pos = some a) :
    s.grantAt r = .done ((((s.setLink k { s.link k with req := none }).placeWord k (s.readStore a) false).presentRead k).granted
      r) := by
  unfold grantAt
  rw [requesterAt_link hr]
  simp only [hq]
  unfold grantLink
  rw [readFor_ok ha]

end State

theorem addr_succ (a : BitVec 10) : a + 1 = BitVec.ofNat 10 ((a.toNat + 1) % 1024) := by
  refine BitVec.eq_of_toNat_eq ?_
  rw [BitVec.toNat_add, BitVec.toNat_ofNat]
  exact (Nat.mod_mod _ _).symm

/-- Settles O27: the grant of a handle returns the word to the host; the grant of a link places it and presents the next
read. -/
theorem grantedReadsReturnTheStoredWord : Obligations.GrantedReadsReturnTheStoredWord := by
  unfold Obligations.GrantedReadsReturnTheStoredWord
  intro s r q a hnext ha w
  refine ⟨fun n hr hq => ?_, fun k f hr hq hf => ?_⟩
  · refine ⟨_, State.grantOne_done s _ r hnext (State.grantAt_handle hr hq ha), ?_, rfl, fun g hg => ?_, rfl⟩
    · show (s.setHandle n _).handle n = _
      rw [State.handle_setHandle_self, addr_succ]
    · show (s.setHandle n _).handle g = _
      rw [State.handle_setHandle, if_neg hg]
  · refine ⟨_, State.grantOne_done s _ r hnext (State.grantAt_link hr hq ha), ?_⟩
    have hplace := State.placeWord_frame (s.setLink k { s.link k with req := none }) k w false f
      (by rw [State.link_setLink_self]; exact hf)
    rw [hplace, State.link_setLink_self]
    generalize hu : State.setLink (s.setLink k _) k _ = u
    have huk : u.link k = { s.link k with
        req := none, buffer := (s.link k).buffer ++ [w], frame := some { f with placed := f.placed + 1, crc := crcWord f.crc w }
        line := if (s.link k).line = .abort then .abort else .drive } := by
      rw [← hu, State.link_setLink_self]; rfl
    have huj : ∀ j, j ≠ k → u.link j = s.link j := fun j hj => by
      rw [← hu, State.link_setLink, if_neg hj, State.link_setLink, if_neg hj]
    have honly : u = { s with links := u.links } := by rw [← hu]; rfl
    have hreads := State.presentRead_presents (s := u) (k := k) (by rw [huk])
    obtain ⟨q', hq'⟩ := State.presentRead_req u k
    rw [hq'] at hreads ⊢
    rw [State.link_setLink_self, huk] at hreads
    have hlink : ((u.setLink k { u.link k with req := q' }).granted r).link k = { u.link k with req := q' } :=
      State.link_setLink_self u k _
    rw [hlink, huk]
    refine ⟨rfl, rfl, rfl, hreads, fun j hj => ?_, ?_⟩
    · show (u.setLink k _).link j = _
      rw [State.link_setLink, if_neg hj, huj j hj]
    · rw [honly]; rfl

end Sys2Proof.Machine

/-! SUPPORT. The completion of a block's members one after the other, and what the end of a head's word comes to (R43, R45,
R48). -/

namespace Sys2Proof.Machine
namespace State

/-! ### Seals through a completion -/

/-- No generation is SEALED that was not. -/
structure NoNewSeal (s t : State) : Prop where
  earlier : ∀ j x, ((t.slot j).gen x).state = .sealed → ((s.slot j).gen x).state = .sealed

theorem noNewSeal_of_slots {s t : State} (h : t.slots = s.slots) : NoNewSeal s t :=
  ⟨fun j x => by unfold slot; rw [h]; exact id⟩

theorem NoNewSeal.trans {s t u : State} (h : NoNewSeal s t) (h' : NoNewSeal t u) : NoNewSeal s u :=
  ⟨fun j x => h.earlier j x ∘ h'.earlier j x⟩

theorem NoNewSeal.oneSeal {s t : State} (h : NoNewSeal s t) (ho : s.oneSeal) : t.oneSeal :=
  fun j x y hx hy => ho j x y (h.earlier j x hx) (h.earlier j y hy)

/-- A publish makes a generation READY (R6, R8). -/
theorem noNewSeal_published (s : State) (i : SlotId) (g : GenId) (y : Gen) (e : BitVec 16) (b : Bool) :
    NoNewSeal s (s.setSlot i ((s.slot i).published g y e b)) := by
  refine ⟨fun j x h => ?_⟩
  rw [slot_setSlot] at h
  split at h <;> [skip; exact h]
  rename_i hj
  subst hj
  rw [gen_published] at h
  split at h <;> [cases h; exact h]

theorem publishSeal_noNewSeal (s : State) (i : SlotId) (e : BitVec 16) (b : Bool) : NoNewSeal s (s.publishSeal i e b) := by
  unfold publishSeal
  split <;> [exact noNewSeal_of_slots rfl; exact noNewSeal_published ..]

theorem fullPublish_noNewSeal (s : State) (c : CohortId) : NoNewSeal s (s.fullPublish c) := by
  have hseals : NoNewSeal s (s.publishSeals (s.cohort c).sealed (s.cohort c).epoch false) := by
    refine foldl_rel NoNewSeal _ (fun _ => noNewSeal_of_slots rfl) (fun _ _ _ => .trans) (fun t i => ?_) allSlots s
    split <;> [exact publishSeal_noNewSeal ..; exact noNewSeal_of_slots rfl]
  exact hseals.trans (noNewSeal_of_slots rfl)

theorem sealReport_noNewSeal (s : State) (c : CohortId) (i : SlotId) (b : Bool) : NoNewSeal s (s.sealReport c i b) := by
  have publish : ∀ k, NoNewSeal s ((s.setCohort c k).fullPublish c) := fun k =>
    NoNewSeal.trans (t := s.setCohort c k) (noNewSeal_of_slots rfl) (fullPublish_noNewSeal _ c)
  unfold sealReport
  simp only []
  split
  · split <;> [exact publish _; exact noNewSeal_of_slots rfl]
  · split <;> [exact noNewSeal_of_slots rfl; skip]
    split <;> [exact publish _; exact noNewSeal_of_slots rfl]

/-- A slot replaced by one with at most one seal. -/
theorem oneSeal_setSlot {s : State} (ho : s.oneSeal) (i : SlotId) {x : Slot} (g : GenId)
    (hx : ∀ a, (x.gen a).state = .sealed → a = g) : (s.setSlot i x).oneSeal := by
  intro j a b ha hb
  rw [slot_setSlot] at ha hb
  split at ha
  · rename_i hj
    rw [if_pos hj] at hb
    exact (hx a ha).trans (hx b hb).symm
  · rename_i hj
    rw [if_neg hj] at hb
    exact ho j a b ha hb

/-- A completion leaves no slot with two seals: an older seal is superseded (R4, R7). -/
theorem complete_oneSeal {s : State} (ho : s.oneSeal) {i : SlotId} {g : GenId} (n : Nat)
    (hf : ((s.slot i).gen g).state = .filling) : (s.complete i g n).oneSeal := by
  cases hc : (s.slot i).cohort with
  | none => rw [complete_publish s i g n hf hc]; exact (noNewSeal_published ..).oneSeal ho
  | some c =>
    by_cases hs : ∃ o, ((s.slot i).gen o).state = .sealed
    · obtain ⟨o, hs⟩ := hs
      rw [complete_supersede n hf hc hs (ho i)]
      refine ((noNewSeal_of_slots rfl).trans (sealReport_noNewSeal ..)).oneSeal
        (oneSeal_setSlot ho i (x := (s.withSeal i g n).setGen o (Slot.emptied ((s.slot i).gen o))) g fun a ha => ?_)
      rw [Slot.gen_setGen] at ha
      split at ha <;> [cases ha; rename_i hao]
      rw [gen_withSeal] at ha
      split at ha <;> [assumption; exact absurd (ho i a o ha hs) hao]
    · rw [complete_seal n hf hc fun o h => hs ⟨o, h⟩]
      refine (sealReport_noNewSeal ..).oneSeal (oneSeal_setSlot ho i g fun a ha => ?_)
      rw [gen_withSeal] at ha
      split at ha <;> [assumption; exact absurd ⟨a, ha⟩ hs]

/-! ### The members of a block, one after the other -/

/-- The completion of the first member leaves the others ready (R4, §3.2). -/
theorem blockReady_complete {s : State} {m : FillMember} {l : List FillMember} (h : s.blockReady (m :: l)) (n : Nat) :
    (s.complete m.slot m.gen n).blockReady l := by
  obtain ⟨hn, hf, ho⟩ := h
  obtain ⟨hm, hn⟩ := List.nodup_cons.mp hn
  refine ⟨hn, fun x hx => ?_, complete_oneSeal ho n (hf m List.mem_cons_self)⟩
  refine ((complete_fillEnds s m.slot m.gen n).filling x.slot x.gen).mpr ⟨hf x (List.mem_cons_of_mem _ hx), fun e => ?_⟩
  have hslot : x.slot = m.slot := congrArg Prod.fst (List.mem_singleton.mp e)
  exact hm (hslot ▸ List.mem_map_of_mem hx)

theorem completeMembers_completesAll : ∀ (l : List FillMember) (s : State), s.blockReady l →
    s.completesAll l (s.completeMembers l)
  | [], _, _ => rfl
  | m :: l, s, h => by
    obtain ⟨_, hf, ho⟩ := id h
    exact ⟨_, complete_completes _ (hf m List.mem_cons_self) ho, completeMembers_completesAll l _ (blockReady_complete h _)⟩

/-- The ports have no part in a completion. -/
theorem completes_ports {s u : State} {P : Table 12 Port} {i : SlotId} {g : GenId} {n : Nat}
    (h : ({ s with ports := P } : State).completes u i g n) : s.completes { u with ports := s.ports } i g n := by
  obtain ⟨honly, hrest⟩ := h
  exact ⟨by rw [honly], hrest⟩

theorem completesAll_ports : ∀ (l : List FillMember) {s u : State} {P : Table 12 Port},
    ({ s with ports := P } : State).completesAll l u → s.completesAll l { u with ports := s.ports }
  | [], s, u, P, h => by
    have hu : u = { s with ports := P } := h
    rw [hu]
    rfl
  | m :: l, s, u, P, h => by
    obtain ⟨w, hm, hl⟩ := h
    exact ⟨_, completes_ports hm, completesAll_ports l (s := { w with ports := s.ports }) (P := w.ports) hl⟩

/-! ### The head finishes with a word -/

theorem finishWord_eq {s : State} {p : PortId} {e : FifoEntry} {l : List FifoEntry} (hfifo : (s.port p).fifo = e :: l) :
    s.finishWord p = (if e.last then (s.wordDone p).endBlock p else s.wordDone p).leaveEntry p := by
  unfold finishWord
  split
  · rename_i h; rw [hfifo] at h; cases h
  · rename_i h; rw [hfifo] at h; cases h; rfl

theorem port_wordDone (s : State) (p : PortId) : (s.wordDone p).port p = { s.port p with
    wordIndex := saturate16 (s.port p).wordIndex, writing := false, due := [] } := port_setPort_self ..

/-- An entry leaves the FIFO outside a block: a BREAK mark leaves the port in DISCARD (R48). -/
theorem leaveEntry_outside {s : State} {p : PortId} {e : FifoEntry} {l : List FifoEntry} (hfifo : (s.port p).fifo = e :: l)
    (hstate : (s.port p).state ≠ .inBlock) : s.leaveEntry p = s.setPort p { s.port p with
      fifo := l, state := if e.brk then .discard else (s.port p).state, begun := false } := by
  unfold leaveEntry
  simp only [hfifo, if_neg hstate]
  split <;> rfl

/-- A BREAK mark in an open block gives the block up (R48). -/
theorem leaveEntry_marked {s : State} {p : PortId} {e : FifoEntry} {l : List FifoEntry} (hfifo : (s.port p).fifo = e :: l)
    (hstate : (s.port p).state = .inBlock) (hb : e.brk = true) :
    s.leaveEntry p = (s.giveUpBlock p .captureOverflow).setPort p { s.port p with
      fill := [], due := [], fifo := l, state := .discard, begun := false } := by
  unfold leaveEntry
  simp only [hfifo, hb, hstate, if_true]
  rw [giveUpBlock_port, if_pos rfl]

/-- What the end of the head's word comes to in an open block whose members can complete (R43, R45, R48). -/
theorem finishWord_finishes {s : State} {p : PortId} {e : FifoEntry} {l : List FifoEntry} (hfifo : (s.port p).fifo = e :: l)
    (hblock : (s.port p).state = .inBlock) (hready : s.blockReady (s.port p).fill) :
    s.finishesWord (s.finishWord p) p e l := by
  have hport := port_wordDone s p
  have hfifo' : ((s.wordDone p).port p).fifo = e :: l := by rw [hport]; exact hfifo
  have hblock' : ((s.wordDone p).port p).state = .inBlock := by rw [hport]; exact hblock
  have hfill : ((s.wordDone p).port p).fill = (s.port p).fill := by rw [hport]
  obtain ⟨hn, hf, _⟩ := id hready
  refine ⟨(finishWord_port s p).1, fun hlast hbrk => ?_, fun hlast => ?_, fun hlast hbrk => ?_⟩
  · rw [finishWord_eq hfifo, if_neg (by rw [hlast]; exact Bool.false_ne_true), leaveEntry_plain _ p e l hfifo' hbrk, hport,
      port_setPort_self]
    exact ⟨rfl, rfl⟩
  · have hend : ((s.wordDone p).endBlock p).port p = { (s.wordDone p).port p with fill := [], due := [], state := .idle } := by
      rw [endBlock_port, if_pos rfl]
    rw [finishWord_eq hfifo, if_pos hlast, leaveEntry_outside (by rw [hend]; exact hfifo') (by rw [hend]; exact nofun), hend,
      hport, port_setPort_self]
    refine ⟨rfl, { (s.wordDone p).completeMembers (s.port p).fill with ports := s.ports }, ?_, ?_⟩
    · exact completesAll_ports _ (P := (s.wordDone p).ports) (completeMembers_completesAll _ (s.wordDone p) hready)
    · unfold endBlock
      rw [hfill]
      rfl
  · rw [finishWord_eq hfifo, if_neg (by rw [hlast]; exact Bool.false_ne_true), leaveEntry_marked hfifo' hblock' hbrk, hport,
      port_setPort_self]
    refine ⟨rfl, ?_, ?_⟩
    · exact abandonsAll_of_members (s := s.wordDone p) hn hf .captureOverflow
        (by rw [← hfill]; rfl) (by rw [← hfill]; rfl)
    · rw [giveUpBlock_only]; rfl

end State
end Sys2Proof.Machine

/-! SUPPORT. The grant of a write (O28): a request in its fill stores its word, any other is withdrawn, and the
requester goes on. -/

namespace Sys2Proof.Machine
namespace State

/-- A request's generation is FILLING in the fill that the request names (R35). -/
def InFill (s : State) (q : WriteReq) : Prop :=
  ((s.slot q.slot).gen q.gen).state = .filling ∧ ((s.slot q.slot).gen q.gen).fill = q.fill

theorem sameFill_iff (s : State) (q : WriteReq) : s.sameFill q = true ↔ s.InFill q := by
  unfold sameFill InFill
  rw [Bool.and_eq_true, decide_eq_true_eq, decide_eq_true_eq]

/-! ### The written word -/

theorem slot_writeInto (s : State) (a : Nat) (q : WriteReq) (i : SlotId) : (s.writeInto a q).slot i =
    if i = q.slot then (s.slot q.slot).setGen q.gen { (s.slot q.slot).gen q.gen with
      words := ((s.slot q.slot).gen q.gen).words + 1 } else s.slot i :=
  slot_setSlot (s.storeWord a q.word) q.slot _ i

/-- A word written into a generation changes neither OFFSET nor anything else of a slot but WORDS (R43). -/
theorem offset_writeInto (s : State) (a : Nat) (q : WriteReq) (i : SlotId) :
    ((s.writeInto a q).slot i).offset = (s.slot i).offset := by
  rw [slot_writeInto]
  split <;> [(rename_i e; rw [e]; rfl); rfl]

/-- What a granted write stores, whatever becomes of its requester. -/
theorem writesWord_of_writeInto {s u t : State} {r : Fin 21} {q : WriteReq} {a : Nat} (hstore : u.store = s.store)
    (hslots : u.slots = s.slots) (ht : t.store = (u.writeInto a q).store) (hts : t.slots = (u.writeInto a q).slots)
    (hr : t.lastGranted = r) : s.writesWord t r q a := by
  have hslot : ∀ i, t.slot i = if i = q.slot then (s.slot q.slot).setGen q.gen { (s.slot q.slot).gen q.gen with
      words := ((s.slot q.slot).gen q.gen).words + 1 } else s.slot i := fun i => by
    have hu : ∀ j, u.slot j = s.slot j := fun j => by unfold slot; rw [hslots]
    have hti : t.slot i = (u.writeInto a q).slot i := by unfold slot; rw [hts]
    rw [hti, slot_writeInto, hu, hu]
  have hread : ∀ b, t.readStore b = if b = a then q.word else s.readStore b := fun b => by
    rw [readStore_congr ht b, ← readStore_congr hstore b]
    exact readStore_storeWord u a b q.word
  refine ⟨by rw [hread, if_pos rfl], fun b hb => by rw [hread, if_neg hb], ?_, fun g hg => ?_, ?_,
    fun i hi => by rw [hslot, if_neg hi], hr⟩
  · rw [hslot, if_pos rfl, Slot.gen_setGen, if_pos rfl]
  · rw [hslot, if_pos rfl, Slot.gen_setGen, if_neg hg]
  · rw [hslot, if_pos rfl]; rfl

/-! ### The port goes on -/

/-- What a capture port does with its request granted or withdrawn, v being the state without the request: it presents the
next due write, finishes with the word, or has nothing to do (R43). -/
structure GoesOn (s v t : State) (p : PortId) : Prop where
  presents : ∀ m rest e l, (s.port p).due = m :: rest → (s.port p).fifo = e :: l →
    t.port p = { s.port p with due := rest, req := some (s.writeFor p e m) } ∧
    (∀ x, x ≠ p → t.port x = s.port x) ∧ t = { v with ports := t.ports }
  finishes : ∀ e l, (s.port p).due = [] → (s.port p).writing = true → (s.port p).state = .inBlock →
    (s.port p).fifo = e :: l → v.blockReady (s.port p).fill → v.finishesWord t p e l
  rests : (s.port p).due = [] → (s.port p).writing = false → t = v

theorem presentWrite_next {s : State} {p : PortId} {m : FillMember} {rest : List FillMember} {e : FifoEntry}
    {l : List FifoEntry} (hreq : (s.port p).req = none) (hdue : (s.port p).due = m :: rest) (hfifo : (s.port p).fifo = e :: l) :
    s.presentWrite p = s.setPort p { s.port p with due := rest, req := some (s.writeFor p e m) } := by
  unfold presentWrite
  simp only [hreq, hdue, hfifo]
  rfl

theorem afterRequest_goesOn {s v : State} {p : PortId} (hport : v.port p = { s.port p with req := none })
    (hother : ∀ x, x ≠ p → v.port x = s.port x) (hoffset : ∀ i, (v.slot i).offset = (s.slot i).offset) :
    s.GoesOn v (v.afterRequest p) p := by
  have hdueEq : (v.port p).due = (s.port p).due := by rw [hport]
  have hfifoEq : (v.port p).fifo = (s.port p).fifo := by rw [hport]
  have hwritingEq : (v.port p).writing = (s.port p).writing := by rw [hport]
  refine ⟨fun m rest e l hdue hfifo => ?_, fun e l hdue hwriting hblock hfifo hready => ?_, fun hdue hwriting => ?_⟩
  · have hafter : v.afterRequest p = v.presentWrite p := by
      unfold afterRequest
      rw [hdueEq, hdue]
    have hwrite : v.writeFor p e m = s.writeFor p e m := by
      unfold writeFor
      rw [hport, hoffset]
    rw [hafter, presentWrite_next (by rw [hport]) (hdueEq.trans hdue) (hfifoEq.trans hfifo), port_setPort_self, hport, hwrite]
    exact ⟨rfl, fun x hx => by rw [port_setPort, if_neg hx, hother x hx], rfl⟩
  · have hafter : v.afterRequest p = v.finishWord p := by
      unfold afterRequest
      rw [hdueEq, hdue]
      exact if_pos (hwritingEq.trans hwriting)
    rw [hafter]
    exact finishWord_finishes (hfifoEq.trans hfifo) (by rw [hport]; exact hblock) (by rw [hport]; exact hready)
  · unfold afterRequest
    rw [hdueEq, hdue]
    exact if_neg (by rw [hwritingEq, hwriting]; exact Bool.false_ne_true)

/-! ### The grants of writes -/

/-- The port without its waiting request. -/
def freedPort (s : State) (p : PortId) : State := s.setPort p { s.port p with req := none }

/-- The feed without its waiting request. -/
def freedFeed (s : State) : State := s.setFeed { s.feed with req := none }

theorem grantAt_port {s : State} {r : Fin 21} {p : PortId} {q : WriteReq} (hr : r.val = p.val)
    (hq : (s.port p).req = some q) : s.grantAt r = s.grantPort r p q := by
  unfold grantAt
  rw [requesterAt_port hr]
  simp only [hq]

theorem grantAt_feed {s : State} {r : Fin 21} {q : WriteReq} (hr : r.val = 20) (hq : s.feed.req = some q) :
    s.grantAt r = s.grantFeed r q := by
  unfold grantAt
  rw [requesterAt_feed hr]
  simp only [hq]

theorem grantPort_current {s : State} {r : Fin 21} {p : PortId} {q : WriteReq} {a : Nat} (hc : s.InFill q)
    (ha : s.wordAddress q.slot q.gen q.pos = some a) :
    s.grantPort r p q = .done ((((s.freedPort p).writeInto a q).granted r).afterRequest p) := by
  unfold grantPort
  simp only [(s.sameFill_iff q).mpr hc, if_true, ha]
  rfl

theorem grantPort_stale {s : State} {r : Fin 21} {p : PortId} {q : WriteReq} (hc : ¬ s.InFill q) :
    s.grantPort r p q = .withdrawn ((s.freedPort p).afterRequest p) := by
  unfold grantPort
  exact if_neg ((s.sameFill_iff q).not.mpr hc)

theorem grantFeed_current {s : State} {r : Fin 21} {q : WriteReq} {a : Nat} (hc : s.InFill q)
    (ha : s.wordAddress q.slot q.gen q.pos = some a) : s.grantFeed r q =
      .done (((s.freedFeed.writeInto a q).setFeed { s.feed with req := none, wordIndex := saturate16 s.feed.wordIndex }).granted
        r) := by
  unfold grantFeed
  simp only [(s.sameFill_iff q).mpr hc, if_true, ha]
  rfl

theorem grantFeed_stale {s : State} {r : Fin 21} {q : WriteReq} (hc : ¬ s.InFill q) :
    s.grantFeed r q = .withdrawn s.freedFeed := by
  unfold grantFeed
  exact if_neg ((s.sameFill_iff q).not.mpr hc)

/-- Without the feed's request nobody waits, if nobody but the feed did. -/
theorem waiting_freedFeed {s : State} {r : Fin 21} (hr : r.val = 20) (h : ∀ x : Fin 21, x ≠ r → s.waiting x = false)
    (x : Fin 21) : s.freedFeed.waiting x = false := by
  by_cases hx : x = r
  · unfold waiting
    rw [requesterAt_feed (hx ▸ hr)]
    rfl
  · have hw := h x hx
    unfold waiting at hw ⊢
    cases hreq : requesterAt x <;> rw [hreq] at hw
    case feed => rfl
    all_goals exact hw

end State

/-- Settles O28: the feed's request and a port's, each granted in its fill or withdrawn; a port then goes on. -/
theorem writeGrantsStoreOrWithdraw : Obligations.WriteGrantsStoreOrWithdraw := by
  unfold Obligations.WriteGrantsStoreOrWithdraw
  refine fun s => ⟨fun h => s.grantOne_none (s.nextGrant_none.mpr h), fun r q hnext => ?_⟩
  intro current
  refine ⟨fun hr hq => ?_, ?_⟩
  · have hgrant := State.grantAt_feed hr hq
    refine ⟨fun a hc ha => ?_, fun hc => ?_⟩
    · rw [State.grantFeed_current hc ha] at hgrant
      exact ⟨_, s.grantOne_done _ r hnext hgrant, State.writesWord_of_writeInto (u := s.freedFeed) rfl rfl rfl rfl rfl, rfl⟩
    · rw [State.grantFeed_stale hc] at hgrant
      have hagain : exec .storeGrant s = s.freedFeed.grantOne := s.grantOne_withdrawn _ r hnext hgrant
      exact ⟨hagain, fun h => hagain.trans (s.freedFeed.grantOne_none (s.freedFeed.nextGrant_none.mpr
        (State.waiting_freedFeed hr h)))⟩
  · intro p hr hq goesOn freed
    have hgrant := State.grantAt_port hr hq
    have goes : ∀ v t : State, s.GoesOn v t p → goesOn v t := fun v t h => ⟨h.presents, h.finishes, h.rests⟩
    have hport : (s.freedPort p).port p = { s.port p with req := none } := State.port_setPort_self ..
    have hother : ∀ x, x ≠ p → (s.freedPort p).port x = s.port x := fun x hx =>
      (State.port_setPort s p _ x).trans (if_neg hx)
    refine ⟨fun a hc ha => ?_, fun hc => ?_⟩
    · rw [State.grantPort_current hc ha] at hgrant
      refine ⟨((s.freedPort p).writeInto a q).granted r, _, s.grantOne_done _ r hnext hgrant,
        State.writesWord_of_writeInto (u := s.freedPort p) rfl rfl rfl rfl rfl, ⟨hport, hother⟩, rfl, goes _ _ ?_⟩
      exact State.afterRequest_goesOn hport hother fun i => State.offset_writeInto (s.freedPort p) a q i
    · rw [State.grantPort_stale hc] at hgrant
      have hagain : exec .storeGrant s = ((s.freedPort p).afterRequest p).grantOne := s.grantOne_withdrawn _ r hnext hgrant
      refine ⟨s.freedPort p, (s.freedPort p).afterRequest p, hagain, ⟨hport, hother⟩, rfl,
        goes _ _ (State.afterRequest_goesOn hport hother fun _ => rfl), ?_, ?_, fun h => ?_⟩
      · rw [State.afterRequest_only]; rfl
      · rw [State.afterRequest_only]; rfl
      · exact hagain.trans (State.grantOne_none _ ((State.nextGrant_none _).mpr h))

end Sys2Proof.Machine

/-! SUPPORT. What a capture port does with a transfer (O19) and with a write of its ENABLE (O25): each changes that port
alone. -/

namespace Sys2Proof.Machine

/-- The BREAK mark is set on the last entry alone (R39). -/
theorem markTail_append (f : FifoEntry) : ∀ l : List FifoEntry, markTail (l ++ [f]) = l ++ [{ f with brk := true }]
  | [] => rfl
  | [_] => rfl
  | a :: b :: l => congrArg (a :: ·) (markTail_append f (b :: l))

namespace State

/-- A port's context replaced, as the statements about ports say it. -/
theorem setPort_frame (s : State) (p : PortId) (q : Port) : (s.setPort p q).port p = q ∧
    (∀ r, r ≠ p → (s.setPort p q).port r = s.port r) ∧ s.setPort p q = { s with ports := (s.setPort p q).ports } :=
  ⟨port_setPort_self .., fun r hr => (port_setPort s p q r).trans (if_neg hr), rfl⟩

/-! ### The intake -/

/-- The transfers that the intake ignores: ENABLE is clear, or a START is awaited and this is none (R39). -/
def ignores (s : State) (p : PortId) (x : Transfer) : Prop :=
  (s.port p).enable = false ∨ ((s.port p).awaitStart = true ∧ x.start = false)

theorem intake_ignored {s : State} {p : PortId} {x : Transfer} (h : s.ignores p x) : s.intake p x = s := if_pos h

theorem intake_queued {s : State} {p : PortId} {x : Transfer} (h : ¬ s.ignores p x)
    (hroom : (s.port p).fifo.length < Config.fifoDepth) : s.intake p x = s.setPort p { s.port p with
      awaitStart := false, fifo := (s.port p).fifo ++ [entryFor x s.now] } :=
  (if_neg h).trans (if_pos hroom)

theorem intake_lost {s : State} {p : PortId} {x : Transfer} (h : ¬ s.ignores p x)
    (hfull : Config.fifoDepth ≤ (s.port p).fifo.length) : s.intake p x = s.setPort p { s.port p with
      awaitStart := false, fifo := markTail (s.port p).fifo, overflowed := true } :=
  (if_neg h).trans (if_neg (Nat.not_lt.mpr hfull))

/-! ### ENABLE -/

theorem enablePort_set {s : State} {p : PortId} (h : (s.port p).enable = true) : s.enablePort p = s := if_pos h

theorem enablePort_clear {s : State} {p : PortId} (h : (s.port p).enable = false) :
    s.enablePort p = s.setPort p { s.port p with enable := true, awaitStart := true } :=
  if_neg (by rw [h]; exact Bool.false_ne_true)

theorem disablePort_clear {s : State} {p : PortId} (h : (s.port p).enable = false) : s.disablePort p = s :=
  if_neg (by rw [h]; exact Bool.false_ne_true)

/-- A disable outside a block (R49). -/
theorem disablePort_outside {s : State} {p : PortId} (hen : (s.port p).enable = true)
    (hstate : (s.port p).state ≠ .inBlock) : s.disablePort p = s.setPort p { s.port p with
      enable := false, fifo := [], state := .idle, wordIndex := 0, begun := false, writing := false, due := [] } := by
  unfold disablePort
  rw [if_pos hen, if_neg hstate]

end State

/-- Settles O19: a transfer that is not ignored is queued where the FIFO has room, and lost with the tail marked where it
has none. -/
theorem intakeQueuesOrLosesATransfer : Obligations.IntakeQueuesOrLosesATransfer := by
  unfold Obligations.IntakeQueuesOrLosesATransfer
  intro s p x q e
  refine ⟨fun h => congrArg Host.Outcome.next (State.intake_ignored h), fun hen hawait => ?_⟩
  have hnot : ¬ s.ignores p x := by
    rintro (h | ⟨ha, hs⟩)
    · cases h.symm.trans hen
    · rcases hawait with h | h
      · cases h.symm.trans ha
      · cases h.symm.trans hs
  refine ⟨s.intake p x, rfl, ?_⟩
  rcases Nat.lt_or_ge (s.port p).fifo.length Config.fifoDepth with hroom | hfull
  · rw [State.intake_queued hnot hroom]
    obtain ⟨hport, hframe⟩ := s.setPort_frame p _
    exact ⟨fun _ => hport, fun _ _ h => absurd hroom (Nat.not_lt.mpr h), hframe⟩
  · rw [State.intake_lost hnot hfull]
    obtain ⟨hport, hframe⟩ := s.setPort_frame p _
    refine ⟨fun h => absurd h (Nat.not_lt.mpr hfull), fun l f _ hfifo => ?_, hframe⟩
    have hmark : markTail (s.port p).fifo = l ++ [{ f with brk := true }] :=
      (congrArg markTail hfifo).trans (markTail_append f l)
    rw [← hmark]
    exact hport

/-- Settles O25: a host write of ENABLE that is taken at once, by the value ENABLE holds. -/
theorem portEnableAndDisable : Obligations.PortEnableAndDisable := by
  unfold Obligations.PortEnableAndDisable
  intro s p hfree
  have henable : exec (.portEnable p) s = .next (s.enablePort p) := s.hostWrite_free _ hfree
  have hdisable : exec (.portDisable p) s = .next (s.disablePort p) := s.hostWrite_free _ hfree
  rw [henable, hdisable]
  refine ⟨fun h => ?_, fun h => ?_, fun h => ?_, fun h hstate => ?_⟩
  · rw [State.enablePort_set h]
  · rw [State.disablePort_clear h]
  · exact ⟨_, congrArg Host.Outcome.next (State.enablePort_clear h), s.setPort_frame p _⟩
  · exact ⟨_, congrArg Host.Outcome.next (State.disablePort_outside h hstate), s.setPort_frame p _⟩

end Sys2Proof.Machine

/-! SUPPORT. The word at a port's head (R43 to R45, R48): taken for its due members or finished with at once, and when each
command of the head has nothing to do. -/

namespace Sys2Proof.Machine

theorem Slot.wants_eq (x : Slot) (i : Nat) : x.wants i = decide (x.offset ≤ i ∧ i < x.offset + x.length) :=
  (Bool.decide_and ..).symm

namespace State

theorem dueMembers_eq (s : State) (l : List FillMember) (i : Nat) :
    s.dueMembers l i = l.filter fun m => (s.slot m.slot).wants i :=
  (List.filter_congr fun _ _ => Slot.wants_eq ..).symm

theorem dueMembers_nil {s : State} {l : List FillMember} {i : Nat} (h : ∀ m ∈ l, ¬ ((s.slot m.slot).offset ≤ i ∧
    i < (s.slot m.slot).offset + (s.slot m.slot).length)) : s.dueMembers l i = [] :=
  List.filter_eq_nil_iff.mpr fun m hm hd => h m hm (of_decide_eq_true hd)

/-! ### A word that is taken -/

/-- A port with a request still waiting presents none (R33; log 12). -/
theorem presentWrite_waits {s : State} {p : PortId} (h : (s.port p).req ≠ none) : s.presentWrite p = s := by
  unfold presentWrite
  simp only []
  split
  · rename_i hreq _ _
    exact absurd hreq h
  · rfl

/-- A word due to members: their writes are presented one at a time (R33, R43). -/
theorem takeWord_presents {s : State} {p : PortId} {e : FifoEntry} {l : List FifoEntry} {m : FillMember}
    {rest : List FillMember} (hfifo : (s.port p).fifo = e :: l)
    (hdue : s.dueMembers (s.port p).fill (s.port p).wordIndex = m :: rest) :
    s.presentsWrites (s.takeWord p) p e m rest := by
  have htake : s.takeWord p =
      (s.setPort p { s.port p with writing := true, due := m :: rest }).presentWrite p := by
    rw [dueMembers_eq] at hdue
    unfold takeWord
    simp only [hdue]
  rw [htake]
  generalize hu : s.setPort p { s.port p with writing := true, due := m :: rest } = u
  have hport : u.port p = { s.port p with writing := true, due := m :: rest } := by rw [← hu, port_setPort_self]
  have hother : ∀ r, r ≠ p → u.port r = s.port r := fun r hr => by rw [← hu, port_setPort, if_neg hr]
  have hpresented : (s.port p).req = none → u.presentWrite p =
      s.setPort p { s.port p with writing := true, due := rest, req := some (s.writeFor p e m) } := fun hreq => by
    have hwrite : u.writeFor p e m = s.writeFor p e m := by unfold writeFor; rw [hport, ← hu, slot_setPort]
    rw [presentWrite_next (by rw [hport]; exact hreq) (by rw [hport]) (by rw [hport]; exact hfifo), hport, hwrite, ← hu,
      setPort_setPort]
  have hwaits : (s.port p).req ≠ none → u.presentWrite p = u := fun hreq =>
    presentWrite_waits (by rw [hport]; exact hreq)
  refine ⟨fun hreq => ?_, fun hreq => ?_, fun r hr => ?_, ?_⟩
  · rw [hpresented hreq, port_setPort_self]
  · rw [hwaits hreq, hport]
  · by_cases hreq : (s.port p).req = none
    · rw [hpresented hreq, port_setPort, if_neg hr]
    · rw [hwaits hreq, hother r hr]
  · rw [presentWrite_only, ← hu]
    rfl

theorem takeWord_finishes {s : State} {p : PortId} (hdue : s.dueMembers (s.port p).fill (s.port p).wordIndex = []) :
    s.takeWord p = s.finishWord p := by
  rw [dueMembers_eq] at hdue
  unfold takeWord
  simp only [hdue]

/-- The head finishes with an unmarked word that is no END: its port alone changes (R43). -/
theorem finishWord_plain {s : State} {p : PortId} {e : FifoEntry} {l : List FifoEntry} (hfifo : (s.port p).fifo = e :: l)
    (hlast : e.last = false) (hbrk : e.brk = false) : s.finishWord p = s.setPort p { s.port p with
      fifo := l, wordIndex := min ((s.port p).wordIndex + 1) 65535, writing := false, due := [], begun := false } := by
  rw [finishWord_eq hfifo, if_neg (by rw [hlast]; exact Bool.false_ne_true),
    leaveEntry_plain _ p e l (by rw [port_wordDone]; exact hfifo) hbrk, port_wordDone]
  exact setPort_setPort ..

/-! ### The commands of the head -/

theorem headWord_takes {s : State} {p : PortId} {e : FifoEntry} {l : List FifoEntry} (hfifo : (s.port p).fifo = e :: l)
    (hblock : (s.port p).state = .inBlock) (hstart : e.start = false) (hlast : e.last = false)
    (hw : (s.port p).writing = false) : s.headWord p = s.takeWord p := by
  unfold headWord
  simp only [hfifo]
  exact if_pos ⟨hblock, hstart, hlast, hw⟩

theorem headWord_other {s : State} {p : PortId} (h : ∀ e l, (s.port p).fifo = e :: l → (s.port p).state ≠ .inBlock ∨
    e.start = true ∨ e.last = true ∨ (s.port p).writing = true) : s.headWord p = s := by
  unfold headWord
  split <;> [rfl; skip]
  rename_i e l hfifo
  refine if_neg fun ⟨hblock, hstart, hlast, hw⟩ => ?_
  simpa [hblock, hstart, hlast, hw] using h e l hfifo

theorem headDrop_leaves {s : State} {p : PortId} {e : FifoEntry} {l : List FifoEntry} (hfifo : (s.port p).fifo = e :: l)
    (hstate : (s.port p).state ≠ .inBlock) (hstart : e.start = false) (hw : (s.port p).writing = false) :
    s.headDrop p = s.leaveEntry p := by
  unfold headDrop
  simp only [hfifo]
  exact if_pos ⟨hstate, hstart, hw⟩

theorem headDrop_other {s : State} {p : PortId} (h : ∀ e l, (s.port p).fifo = e :: l → (s.port p).state = .inBlock ∨
    e.start = true ∨ (s.port p).writing = true) : s.headDrop p = s := by
  unfold headDrop
  split <;> [rfl; skip]
  rename_i e l hfifo
  refine if_neg fun ⟨hstate, hstart, hw⟩ => ?_
  simpa [hstate, hstart, hw] using h e l hfifo

theorem headEnd_takes {s : State} {p : PortId} {e : FifoEntry} {l : List FifoEntry} (hfifo : (s.port p).fifo = e :: l)
    (hblock : (s.port p).state = .inBlock) (hlast : e.last = true) (herr : e.error = false)
    (hbegun : (s.port p).begun = e.start) (hw : (s.port p).writing = false) : s.headEnd p = s.takeWord p := by
  unfold headEnd
  simp only [hfifo]
  exact if_pos ⟨hblock, hlast, herr, hbegun, hw⟩

theorem headEnd_other {s : State} {p : PortId} (h : ∀ e l, (s.port p).fifo = e :: l → (s.port p).state ≠ .inBlock ∨
    e.last = false ∨ e.error = true ∨ (s.port p).begun ≠ e.start ∨ (s.port p).writing = true) : s.headEnd p = s := by
  unfold headEnd
  split <;> [rfl; skip]
  rename_i e l hfifo
  refine if_neg fun ⟨hblock, hlast, herr, hbegun, hw⟩ => ?_
  simpa [hblock, hlast, herr, hbegun, hw] using h e l hfifo

end State

/-- Settles O22: a word of the open block is finished with or presented, and an entry outside a block leaves the FIFO. -/
theorem headWordsOutsideAndInsideWindows : Obligations.HeadWordsOutsideAndInsideWindows := by
  unfold Obligations.HeadWordsOutsideAndInsideWindows
  refine ⟨fun s p => ⟨fun h => congrArg Host.Outcome.next (State.headWord_other h),
    fun h => congrArg Host.Outcome.next (State.headDrop_other h)⟩, fun s p e l hfifo hstart hw => ⟨?_, ?_⟩, ?_⟩
  · intro hblock hlast hbrk hnone
    have hword := (State.headWord_takes hfifo hblock hstart hlast hw).trans
      ((State.takeWord_finishes (State.dueMembers_nil hnone)).trans (State.finishWord_plain hfifo hlast hbrk))
    obtain ⟨hport, hframe⟩ := s.setPort_frame p _
    exact ⟨_, congrArg Host.Outcome.next hword, hport.trans (by simp only [hw]), hframe⟩
  · intro hstate
    have hdrop := (State.headDrop_leaves hfifo hstate hstart hw).trans (State.leaveEntry_outside hfifo hstate)
    exact ⟨_, congrArg Host.Outcome.next hdrop, s.setPort_frame p _⟩
  · intro s p e l m rest hfifo hstart hlast hw hblock hdue
    exact ⟨_, congrArg Host.Outcome.next (State.headWord_takes hfifo hblock hstart hlast hw),
      State.takeWord_presents hfifo hdue⟩

end Sys2Proof.Machine

/-! SUPPORT. The end of a block whose members stand in slots without a cohort (O23): each publishes in its own slot (R6, R45). -/

namespace Sys2Proof.Machine
namespace State

/-- The members of a list, each in a slot of its own without a cohort, have completed: each slot has published its generation
with the words written into it, and nothing else has changed (R3, R6). -/
structure PublishesAll (s t : State) (l : List FillMember) : Prop where
  member : ∀ m ∈ l, t.slot m.slot = (s.slot m.slot).published m.gen
    ((s.slot m.slot).completed ((s.slot m.slot).gen m.gen) ((s.slot m.slot).gen m.gen).words) 0 false
  other : ∀ i, i ∉ l.map FillMember.slot → t.slot i = s.slot i
  only : t = { s with slots := t.slots }

theorem completeMembers_publishesAll : ∀ (l : List FillMember) (s : State), (l.map FillMember.slot).Nodup →
    (∀ m ∈ l, ((s.slot m.slot).gen m.gen).state = .filling ∧ (s.slot m.slot).cohort = none) →
    PublishesAll s (s.completeMembers l) l
  | [], _, _, _ => ⟨nofun, fun _ _ => rfl, rfl⟩
  | m :: l, s, hn, hf => by
    obtain ⟨hm, hn⟩ := List.nodup_cons.mp hn
    obtain ⟨hfilling, hcohort⟩ := hf m List.mem_cons_self
    have hne : ∀ n ∈ l, n.slot ≠ m.slot := fun n hn' e => hm (e ▸ List.mem_map_of_mem hn')
    have hfirst := complete_publish s m.slot m.gen ((s.slot m.slot).gen m.gen).words hfilling hcohort
    have hfold : s.completeMembers (m :: l) =
        (s.complete m.slot m.gen ((s.slot m.slot).gen m.gen).words).completeMembers l := rfl
    rw [hfold, hfirst]
    generalize hx : (s.slot m.slot).published m.gen _ 0 false = x
    have hkept : ∀ n ∈ l, (s.setSlot m.slot x).slot n.slot = s.slot n.slot := fun n hn' => by
      rw [slot_setSlot, if_neg (hne n hn')]
    obtain ⟨hmember, hother, honly⟩ := completeMembers_publishesAll l (s.setSlot m.slot x) hn fun n hn' => by
      rw [hkept n hn']
      exact hf n (List.mem_cons_of_mem _ hn')
    refine ⟨fun n hn' => ?_, fun i hi => ?_, by rw [honly]; rfl⟩
    · obtain rfl | hn' := List.mem_cons.mp hn'
      · rw [hother _ hm, slot_setSlot_self, hx]
      · rw [hmember n hn', hkept n hn']
    · obtain ⟨him, hil⟩ := not_or.mp fun h => hi (List.mem_cons.mpr h)
      rw [hother i hil, slot_setSlot, if_neg him]

/-- The head finishes with an unmarked END: the members complete and the port is IDLE (R45). -/
theorem finishWord_end {s : State} {p : PortId} {e : FifoEntry} {l : List FifoEntry} (hfifo : (s.port p).fifo = e :: l)
    (hlast : e.last = true) (hbrk : e.brk = false) :
    s.finishWord p = ((s.wordDone p).completeMembers (s.port p).fill).setPort p { s.port p with
      fifo := l, wordIndex := min ((s.port p).wordIndex + 1) 65535, state := .idle, writing := false, fill := [], due := []
      begun := false } := by
  have hend : ((s.wordDone p).endBlock p).port p = { s.port p with
      wordIndex := min ((s.port p).wordIndex + 1) 65535, state := .idle, writing := false, fill := [], due := [] } := by
    rw [endBlock_port, if_pos rfl, port_wordDone]
    rfl
  have hfill : ((s.wordDone p).port p).fill = (s.port p).fill := by rw [port_wordDone]
  rw [finishWord_eq hfifo, if_pos hlast, leaveEntry_plain _ p e l (by rw [hend]; exact hfifo) hbrk, hend]
  unfold endBlock
  simp only [setPort_setPort]
  rw [hfill]

end State

/-- Settles O23: an END's word is presented to its due members; due to none, the members complete in the FILL set's order. -/
theorem blockEndPublishes : Obligations.BlockEndPublishes := by
  unfold Obligations.BlockEndPublishes
  refine ⟨fun s p h => congrArg Host.Outcome.next (State.headEnd_other h), ?_⟩
  intro s p e l hfifo hlast herr hbegun hw hblock
  have htakes : exec (.headTakeEnd p) s = .next (s.takeWord p) :=
    congrArg Host.Outcome.next (State.headEnd_takes hfifo hblock hlast herr hbegun hw)
  refine ⟨fun m rest hdue => ⟨_, htakes, State.takeWord_presents hfifo hdue⟩, fun hdue hready => ?_,
    fun hbrk hn hmembers => ?_⟩
  · rw [State.takeWord_finishes hdue] at htakes
    exact ⟨_, htakes, State.finishWord_finishes hfifo hblock hready⟩
  · rw [State.takeWord_finishes (State.dueMembers_nil fun m hm => (hmembers m hm).1),
      State.finishWord_end hfifo hlast hbrk] at htakes
    obtain ⟨hmember, hother, honly⟩ := State.completeMembers_publishesAll (s.port p).fill (s.wordDone p) hn
      fun m hm => (hmembers m hm).2
    generalize (s.wordDone p).completeMembers (s.port p).fill = u at hmember hother honly htakes
    refine ⟨_, htakes, (State.port_setPort_self ..).trans (by simp only [hw]), fun m hm => ?_, hother,
      fun r hr => ?_, by rw [honly]; rfl⟩
    · rw [State.slot_setPort, hmember m hm]
      refine ⟨?_, ?_, fun g hg => ?_⟩
      · exact (gen_published ..).trans (if_pos rfl)
      · rw [← State.seqAfter, seqAfter_eq]
        rfl
      · exact (gen_published ..).trans (if_neg hg)
    · rw [State.port_setPort, if_neg hr, honly]
      exact (State.port_setPort s p _ r).trans (if_neg hr)

end Sys2Proof.Machine

/-! SUPPORT. The offer of a block to one slot and to all (R41, R42): what becomes of the slot, of the FILL set and of the
queue. -/

namespace Sys2Proof.Machine
namespace Slot

/-- The slot is offered the blocks of the port: it is ACTIVE and bound to it (R41). -/
abbrev Bound (x : Slot) (p : PortId) : Prop := x.state = .active ∧ x.source = .port p

/-- The slot keeps the next block of the port, which its decimation does not skip (R42). -/
abbrev Keeps (x : Slot) (p : PortId) : Prop := x.state = .active ∧ x.source = .port p ∧ x.decCount + 1 = x.decimate

/-- The slot after a block of the port, begun by the entry e, is offered to it (R4, R5, R42). -/
def offered (x : Slot) (p : PortId) (e : FifoEntry) : Slot :=
  if x.Bound p then
    if x.decCount + 1 = x.decimate then
      match x.target with
      | some g => { x.setGen g (filled (x.gen g) e.arrived e.tag) with decCount := 0 }
      | none => { x with decCount := 0, overruns := saturate16 x.overruns }
    else { x with decCount := x.decCount + 1 }
  else x

variable {x : Slot} {p : PortId} {e : FifoEntry}

theorem Keeps.bound : x.Keeps p → x.Bound p
  | ⟨ha, hsrc, _⟩ => ⟨ha, hsrc⟩

theorem Keeps.due : x.Keeps p → x.decCount + 1 = x.decimate
  | ⟨_, _, hd⟩ => hd

theorem not_keeps_of_unbound (h : ¬ x.Bound p) : ¬ x.Keeps p := fun k => h k.bound

theorem not_keeps_of_skips (h : x.decCount + 1 ≠ x.decimate) : ¬ x.Keeps p := fun k => h k.due

theorem offered_unbound (h : ¬ x.Bound p) : x.offered p e = x := if_neg h

theorem offered_skips (h : x.Bound p) (hd : x.decCount + 1 ≠ x.decimate) :
    x.offered p e = { x with decCount := x.decCount + 1 } := (if_pos h).trans (if_neg hd)

theorem offered_fills (h : x.Keeps p) {g : GenId} (hg : x.target = some g) :
    x.offered p e = { x.setGen g (filled (x.gen g) e.arrived e.tag) with decCount := 0 } := by
  unfold offered
  rw [if_pos h.bound, if_pos h.due, hg]

theorem offered_overruns (h : x.Keeps p) (hg : x.target = none) :
    x.offered p e = { x with decCount := 0, overruns := saturate16 x.overruns } := by
  unfold offered
  rw [if_pos h.bound, if_pos h.due, hg]

theorem gen_offered_fills (h : x.Keeps p) {g : GenId} (hg : x.target = some g) (k : GenId) :
    (x.offered p e).gen k = if k = g then filled (x.gen g) e.arrived e.tag else x.gen k := by
  rw [offered_fills h hg]
  exact gen_setGen x g k _

/-- The offer leaves the slot's window (R43). -/
theorem offered_window (x : Slot) (p : PortId) (e : FifoEntry) :
    (x.offered p e).offset = x.offset ∧ (x.offered p e).length = x.length := by
  unfold offered
  split
  · split
    · split <;> exact ⟨rfl, rfl⟩
    · exact ⟨rfl, rfl⟩
  · exact ⟨rfl, rfl⟩

end Slot

namespace State

/-- A slot's descriptor replaced twice. -/
theorem setSlot_setSlot (s : State) (i : SlotId) (x y : Slot) : (s.setSlot i x).setSlot i y = s.setSlot i y := by
  unfold setSlot Table.put
  simp only [Vector.set_set]

/-! ### One slot -/

/-- The member by which a slot joins the FILL set of the next block of the port, if it does (R41; log 9). -/
def joins (s : State) (p : PortId) (i : SlotId) : Option FillMember :=
  if (s.slot i).Keeps p then
    (s.slot i).target.map fun g => { slot := i, gen := g, fill := ((s.slot i).gen g).fill + 1 }
  else none

/-- The slots of a list that keep the next block of the port and have no writer target for it (R5). -/
def overrunSlots (s : State) (p : PortId) (l : List SlotId) : List SlotId :=
  l.filter fun i => (s.slot i).Keeps p ∧ (s.slot i).target = none

/-- The record of a slot's overrun (R5). -/
def overrunRecord (s : State) (i : SlotId) : EventRecord := s.record .slotOverrun i.val (s.slot i).newestSeq 0

theorem joins_none_of_not_keeps {s : State} {p : PortId} {i : SlotId} (h : ¬ (s.slot i).Keeps p) : s.joins p i = none :=
  if_neg h

theorem joins_eq_some {s : State} {p : PortId} {i : SlotId} {m : FillMember} (h : s.joins p i = some m) :
    (s.slot i).Keeps p ∧ m.slot = i ∧ (s.slot i).target = some m.gen := by
  unfold joins at h
  split at h <;> [rename_i hk; cases h]
  obtain ⟨g, hg, rfl⟩ := Option.map_eq_some_iff.mp h
  exact ⟨hk, rfl, hg⟩

variable {s : State} {p : PortId} {e : FifoEntry} {i : SlotId}

theorem offerBlock_unbound (h : ¬ (s.slot i).Bound p) : s.offerBlock p e i = s := if_neg h

theorem offerBlock_skips (h : (s.slot i).Bound p) (hd : (s.slot i).decCount + 1 ≠ (s.slot i).decimate) :
    s.offerBlock p e i = s.setSlot i ((s.slot i).offered p e) := by
  rw [Slot.offered_skips h hd]
  exact (if_pos h).trans (if_neg hd)

theorem offerBlock_keeps (h : (s.slot i).Keeps p) :
    s.offerBlock p e i = (s.setSlot i { s.slot i with decCount := 0 }).keepBlock p e i :=
  (if_pos h.bound).trans (if_pos h.due)

/-- A slot with a writer target fills it and joins the FILL set (R4, R41). -/
theorem offerBlock_fills (h : (s.slot i).Keeps p) {g : GenId} (hg : (s.slot i).target = some g) :
    s.offerBlock p e i = (s.setSlot i ((s.slot i).offered p e)).addMember p
      { slot := i, gen := g, fill := ((s.slot i).gen g).fill + 1 } := by
  rw [offerBlock_keeps h, Slot.offered_fills h hg]
  generalize hu : s.setSlot i { s.slot i with decCount := 0 } = u
  have hslot : u.slot i = { s.slot i with decCount := 0 } := by rw [← hu, slot_setSlot_self]
  have htarget : (u.slot i).target = some g := by rw [hslot]; exact hg
  unfold keepBlock targetFill
  simp only [htarget]
  rw [requestTarget_some htarget, hslot, ← hu, setSlot_setSlot]
  rfl

/-- A slot without a writer target counts an overrun and reports it (R5). -/
theorem offerBlock_overruns (h : (s.slot i).Keeps p) (hg : (s.slot i).target = none) :
    s.offerBlock p e i = (s.setSlot i ((s.slot i).offered p e)).offer .slotOverrun i.val (s.slot i).newestSeq 0 := by
  rw [offerBlock_keeps h, Slot.offered_overruns h hg]
  generalize hu : s.setSlot i { s.slot i with decCount := 0 } = u
  have hslot : u.slot i = { s.slot i with decCount := 0 } := by rw [← hu, slot_setSlot_self]
  have htarget : (u.slot i).target = none := by rw [hslot]; exact hg
  unfold keepBlock
  simp only [htarget]
  rw [requestTarget_none htarget, hslot, ← hu, setSlot_setSlot]
  rfl

/-! ### All slots -/

/-- The block that the entry e begins has been offered to the slots of a list, in the list's order (R41, R42). -/
structure Offered (s t : State) (p : PortId) (e : FifoEntry) (l : List SlotId) : Prop where
  slot : ∀ i ∈ l, t.slot i = (s.slot i).offered p e
  other : ∀ i, i ∉ l → t.slot i = s.slot i
  port : t.port p = { s.port p with fill := (s.port p).fill ++ l.filterMap (s.joins p) }
  ports : ∀ r, r ≠ p → t.port r = s.port r
  events : t.events = s.events.takeAll ((s.overrunSlots p l).map s.overrunRecord)
  only : t = { s with slots := t.slots, ports := t.ports, events := t.events }

/-- An offer that no member comes of, and no overrun. -/
theorem offered_quiet {t : State} (hslot : t.slot i = (s.slot i).offered p e) (hother : ∀ j, j ≠ i → t.slot j = s.slot j)
    (honly : t = { s with slots := t.slots }) (hk : ¬ (s.slot i).Keeps p) : Offered s t p e [i] := by
  have hports : t.ports = s.ports := by rw [honly]
  have hport : ∀ r, t.port r = s.port r := fun r => by unfold port; rw [hports]
  refine ⟨fun j hj => ?_, fun j hj => hother j fun h => hj (List.mem_singleton.mpr h), ?_, fun r _ => hport r, ?_,
    by rw [honly]⟩
  · rw [List.mem_singleton.mp hj, hslot]
  · rw [hport, List.filterMap_cons_none (joins_none_of_not_keeps hk), List.filterMap_nil, List.append_nil]
  · have hnone : s.overrunSlots p [i] = [] := by simp [overrunSlots, hk]
    rw [hnone, honly]
    rfl

theorem offerBlock_offered (s : State) (p : PortId) (e : FifoEntry) (i : SlotId) :
    Offered s (s.offerBlock p e i) p e [i] := by
  have hother : ∀ (x : Slot) (j : SlotId), j ≠ i → (s.setSlot i x).slot j = s.slot j := fun x j hj =>
    (slot_setSlot s i x j).trans (if_neg hj)
  by_cases hb : (s.slot i).Bound p
  swap
  · rw [offerBlock_unbound hb]
    exact offered_quiet (Slot.offered_unbound hb).symm (fun _ _ => rfl) rfl (Slot.not_keeps_of_unbound hb)
  by_cases hd : (s.slot i).decCount + 1 = (s.slot i).decimate
  swap
  · rw [offerBlock_skips hb hd]
    exact offered_quiet (slot_setSlot_self ..) (hother _) rfl (Slot.not_keeps_of_skips hd)
  have hk : (s.slot i).Keeps p := ⟨hb.1, hb.2, hd⟩
  cases hg : (s.slot i).target with
  | some g =>
    have hjoins : s.joins p i = some { slot := i, gen := g, fill := ((s.slot i).gen g).fill + 1 } := by
      unfold joins
      rw [if_pos hk, hg]
      rfl
    have hnone : s.overrunSlots p [i] = [] := by simp [overrunSlots, hg]
    rw [offerBlock_fills hk hg]
    refine ⟨fun j hj => ?_, fun j hj => hother _ j fun h => hj (List.mem_singleton.mpr h), ?_, fun r hr => ?_, ?_, rfl⟩
    · rw [List.mem_singleton.mp hj]
      exact slot_setSlot_self ..
    · rw [List.filterMap_cons_some hjoins]
      exact port_setPort_self ..
    · exact (port_setPort _ p _ r).trans (if_neg hr)
    · rw [hnone]
      rfl
  | none =>
    have hjoins : s.joins p i = none := by
      unfold joins
      rw [if_pos hk, hg]
      rfl
    have hone : s.overrunSlots p [i] = [i] := List.filter_cons_of_pos (decide_eq_true ⟨hk, hg⟩)
    rw [offerBlock_overruns hk hg]
    refine ⟨fun j hj => ?_, fun j hj => hother _ j fun h => hj (List.mem_singleton.mpr h), ?_, fun _ _ => rfl, ?_, rfl⟩
    · rw [List.mem_singleton.mp hj]
      exact slot_setSlot_self ..
    · rw [List.filterMap_cons_none hjoins, List.filterMap_nil, List.append_nil]
      rfl
    · rw [hone]
      rfl

/-- A slot that the first offer left alone is offered the block as it stood. -/
theorem Offered.cons {u t : State} {l : List SlotId} (h : Offered s u p e [i]) (h' : Offered u t p e l) (hi : i ∉ l) :
    Offered s t p e (i :: l) := by
  have hkept : ∀ j ∈ l, u.slot j = s.slot j := fun j hj =>
    h.other j fun hji => hi (List.mem_singleton.mp hji ▸ hj)
  have hjoins : l.filterMap (u.joins p) = l.filterMap (s.joins p) := List.filterMap_congr fun j hj => by
    unfold joins
    rw [hkept j hj]
  have hslots : u.overrunSlots p l = s.overrunSlots p l := List.filter_congr fun j hj => by rw [hkept j hj]
  have hrecords : (u.overrunSlots p l).map u.overrunRecord = (s.overrunSlots p l).map s.overrunRecord := by
    rw [hslots]
    refine List.map_congr_left fun j hj => ?_
    have hnow : u.now = s.now := by rw [h.only]; rfl
    unfold overrunRecord record
    rw [hkept j (List.mem_of_mem_filter hj), hnow]
  refine ⟨fun j hj => ?_, fun j hj => ?_, ?_, fun r hr => (h'.ports r hr).trans (h.ports r hr), ?_, ?_⟩
  · obtain rfl | hj := List.mem_cons.mp hj
    · rw [h'.other j hi, h.slot j List.mem_cons_self]
    · rw [h'.slot j hj, hkept j hj]
  · obtain ⟨hji, hjl⟩ := not_or.mp fun hm => hj (List.mem_cons.mpr hm)
    rw [h'.other j hjl, h.other j fun hm => hji (List.mem_singleton.mp hm)]
  · have hsplit : (i :: l).filterMap (s.joins p) = [i].filterMap (s.joins p) ++ l.filterMap (s.joins p) :=
      List.filterMap_append (l := [i])
    rw [h'.port, h.port, hjoins, hsplit, List.append_assoc]
  · have hsplit : s.overrunSlots p (i :: l) = s.overrunSlots p [i] ++ s.overrunSlots p l :=
      List.filter_append [i] l
    rw [h'.events, h.events, hrecords, hsplit, List.map_append, EventQueue.takeAll_append]
  · rw [h'.only, h.only]

theorem foldl_offered (p : PortId) (e : FifoEntry) : ∀ (l : List SlotId) (s : State), l.Nodup →
    Offered s (l.foldl (fun t i => t.offerBlock p e i) s) p e l
  | [], s, _ => ⟨nofun, fun _ _ => rfl, by rw [List.filterMap_nil, List.append_nil]; rfl, fun _ _ => rfl, rfl, rfl⟩
  | i :: l, s, hn => by
    obtain ⟨hi, hn⟩ := List.nodup_cons.mp hn
    exact (offerBlock_offered s p e i).cons (foldl_offered p e l _ hn) hi

theorem offerToSlots_offered (s : State) (p : PortId) (e : FifoEntry) : Offered s (s.offerToSlots p e) p e allSlots :=
  foldl_offered p e allSlots s (List.nodup_finRange 32)

end State
end Sys2Proof.Machine

/-! SUPPORT. The start of a block out of a block, and O20 (R41 to R44, R48). -/

namespace Sys2Proof.Machine
namespace State

/-! ### Steps 1 to 4 of R41 -/

/-- The FILL set of the block that a START out of a block begins (R41). -/
def newMembers (s : State) (p : PortId) : List FillMember := allSlots.filterMap (s.joins p)

/-- The block that the entry e begins is counted and offered, and the port is in it (R41). -/
structure BlockBegun (s u : State) (p : PortId) (e : FifoEntry) : Prop where
  slot : ∀ i, u.slot i = (s.slot i).offered p e
  port : u.port p = { s.port p with
    state := .inBlock, blocksSeen := (s.port p).blocksSeen + 1, wordIndex := 0, fill := s.newMembers p, begun := true }
  ports : ∀ r, r ≠ p → u.port r = s.port r
  events : u.events = s.events.takeAll ((s.overrunSlots p allSlots).map s.overrunRecord)

theorem beginBlock_begun {s : State} {p : PortId} (e : FifoEntry) (hstate : (s.port p).state ≠ .inBlock)
    (hfill : (s.port p).fill = []) : BlockBegun s (s.beginBlock p e) p e := by
  generalize hv : s.setPort p { s.port p with blocksSeen := (s.port p).blocksSeen + 1, wordIndex := 0 } = v
  have hbegin : s.beginBlock p e = (v.offerToSlots p e).setPort p { (v.offerToSlots p e).port p with
      state := .inBlock, begun := true } := by
    unfold beginBlock
    simp only [if_neg hstate, hv]
  have hvport : v.port p = { s.port p with blocksSeen := (s.port p).blocksSeen + 1, wordIndex := 0 } := by
    rw [← hv, port_setPort_self]
  have hoffer := offerToSlots_offered v p e
  rw [hbegin]
  refine ⟨fun i => ?_, ?_, fun r hr => ?_, ?_⟩
  · rw [slot_setPort, hoffer.slot i (List.mem_finRange i), ← hv, slot_setPort]
  · rw [port_setPort_self, hoffer.port, hvport]
    simp only [hfill, List.nil_append]
    rw [← hv]
    rfl
  · rw [port_setPort, if_neg hr, hoffer.ports r hr, ← hv, port_setPort, if_neg hr]
  · rw [events_setPort, hoffer.events, ← hv]
    rfl

variable {s u : State} {p : PortId} {e : FifoEntry}

theorem mem_newMembers {m : FillMember} (h : m ∈ s.newMembers p) :
    (s.slot m.slot).Keeps p ∧ (s.slot m.slot).target = some m.gen := by
  obtain ⟨i, _, hi⟩ := List.mem_filterMap.mp h
  obtain ⟨hk, rfl, hg⟩ := joins_eq_some hi
  exact ⟨hk, hg⟩

/-- Each member of a new FILL set has a slot of its own (§3.2). -/
theorem nodup_newMembers (s : State) (p : PortId) : ((s.newMembers p).map FillMember.slot).Nodup := by
  have hslot : ∀ i j, j ∈ (s.joins p i).map FillMember.slot → j = i := fun i j h => by
    obtain ⟨m, hm, rfl⟩ := Option.map_eq_some_iff.mp h
    obtain ⟨_, hslot, _⟩ := joins_eq_some hm
    exact hslot
  unfold newMembers
  rw [List.map_filterMap]
  exact (List.nodup_finRange 32).filterMap fun i j k hi hj => (hslot i k hi).symm.trans (hslot j k hj)

/-- The members of the block just begun are FILLING (R4). -/
theorem BlockBegun.filling (h : BlockBegun s u p e) : ∀ m ∈ s.newMembers p, ((u.slot m.slot).gen m.gen).state = .filling :=
  fun m hm => by
    obtain ⟨hk, hg⟩ := mem_newMembers hm
    rw [h.slot, Slot.gen_offered_fills hk hg, if_pos rfl]
    rfl

/-- The offer leaves the windows, and so the members that a word is due to (R43). -/
theorem BlockBegun.dueMembers (h : BlockBegun s u p e) (l : List FillMember) (n : Nat) :
    u.dueMembers l n = s.dueMembers l n :=
  List.filter_congr fun m _ => by
    obtain ⟨hoffset, hlength⟩ := Slot.offered_window (s.slot m.slot) p e
    rw [h.slot, hoffset, hlength]

/-! ### A word that is no END -/

/-- The head finishes with a marked word that is no END: the open block is given up (R43, R48). -/
theorem finishWord_marked {l : List FifoEntry} (hfifo : (s.port p).fifo = e :: l) (hblock : (s.port p).state = .inBlock)
    (hlast : e.last = false) (hbrk : e.brk = true) :
    s.finishWord p = ((s.wordDone p).giveUpBlock p .captureOverflow).setPort p { s.port p with
      fifo := l, state := .discard, wordIndex := min ((s.port p).wordIndex + 1) 65535, writing := false, fill := [], due := []
      begun := false } := by
  have hport := port_wordDone s p
  rw [finishWord_eq hfifo, if_neg (by rw [hlast]; exact Bool.false_ne_true),
    leaveEntry_marked (by rw [hport]; exact hfifo) (by rw [hport]; exact hblock) hbrk, hport]
  rfl

/-- The end of the head's word in an open block whose members are FILLING, where the entry is no END (R43, R48). -/
theorem finishWord_finishes_of_not_last {l : List FifoEntry} (hfifo : (s.port p).fifo = e :: l)
    (hblock : (s.port p).state = .inBlock) (hlast : e.last = false) (hn : ((s.port p).fill.map FillMember.slot).Nodup)
    (hf : ∀ m ∈ (s.port p).fill, ((s.slot m.slot).gen m.gen).state = .filling) :
    s.finishesWord (s.finishWord p) p e l := by
  refine ⟨(finishWord_port s p).1, fun _ hbrk => ?_, fun h => absurd (hlast.symm.trans h) Bool.false_ne_true,
    fun _ hbrk => ?_⟩
  · rw [finishWord_plain hfifo hlast hbrk, port_setPort_self]
    exact ⟨rfl, rfl⟩
  · rw [finishWord_marked hfifo hblock hlast hbrk, port_setPort_self]
    have hfill : ((s.wordDone p).port p).fill = (s.port p).fill := by rw [port_wordDone]
    refine ⟨rfl, ?_, by rw [giveUpBlock_only]; rfl⟩
    exact abandonsAll_of_members (s := s.wordDone p) hn hf .captureOverflow (by rw [← hfill]; rfl) (by rw [← hfill]; rfl)

/-! ### HEAD_TAKE_START -/

theorem headStart_takes {l : List FifoEntry} (hfifo : (s.port p).fifo = e :: l) (hstart : e.start = true)
    (hbegun : (s.port p).begun = false) (hw : (s.port p).writing = false) :
    s.headStart p = if e.last then s.beginBlock p e else (s.beginBlock p e).takeWord p := by
  unfold headStart
  simp only [hfifo]
  exact if_pos ⟨hstart, hbegun, hw⟩

theorem headStart_other (h : ∀ e l, (s.port p).fifo = e :: l →
    e.start = false ∨ (s.port p).begun = true ∨ (s.port p).writing = true) : s.headStart p = s := by
  unfold headStart
  split <;> [rfl; skip]
  rename_i e l hfifo
  refine if_neg fun ⟨hstart, hbegun, hw⟩ => ?_
  simpa [hstart, hbegun, hw] using h e l hfifo

end State

/-- Settles O20: the block begun is the state u; its word 0 is then finished with or presented, unless the entry is an END. -/
theorem blockStartOffersTheBlock : Obligations.BlockStartOffersTheBlock := by
  unfold Obligations.BlockStartOffersTheBlock
  refine ⟨fun s p h => congrArg Host.Outcome.next (State.headStart_other h), ?_⟩
  intro s p e l hfifo hstart hbegun hw hstate hfill keeps newestSeq members
  have hnext : exec (.headTakeStart p) s = .next (if e.last then s.beginBlock p e else (s.beginBlock p e).takeWord p) :=
    congrArg Host.Outcome.next (State.headStart_takes hfifo hstart hbegun hw)
  have hu := State.beginBlock_begun e hstate hfill
  have honly := s.beginBlock_only p e
  generalize s.beginBlock p e = u at hnext hu honly
  have hufifo : (u.port p).fifo = e :: l := by rw [hu.port]; exact hfifo
  have hufill : (u.port p).fill = members := by rw [hu.port]; rfl
  have hdue : u.dueMembers (u.port p).fill (u.port p).wordIndex = s.dueMembers members 0 := by
    rw [hu.dueMembers, hufill, hu.port]
  refine ⟨u, _, hnext, hu.port, hu.events, fun i hi => ?_, fun i ha hsrc hd => ?_, fun i hk => ⟨fun hg => ?_, fun g hg => ?_⟩,
    hu.ports, honly, fun hlast => if_pos hlast, fun hlast hnone => ?_, fun m rest hlast hsome => ?_⟩
  · rw [hu.slot, Slot.offered_unbound fun ⟨ha, hsrc⟩ => hi.elim (· ha) (· hsrc)]
  · rw [hu.slot, Slot.offered_skips ⟨ha, hsrc⟩ hd]
  · rw [hu.slot, Slot.offered_overruns hk hg]
    rfl
  · refine ⟨?_, ?_, fun k hne => ?_⟩
    · rw [hu.slot, Slot.offered_fills hk hg]
      rfl
    · rw [hu.slot, Slot.gen_offered_fills hk hg, if_pos rfl]
      rfl
    · rw [hu.slot, Slot.gen_offered_fills hk hg, if_neg hne]
  · rw [if_neg (by rw [hlast]; exact Bool.false_ne_true), State.takeWord_finishes (hdue.trans hnone)]
    refine State.finishWord_finishes_of_not_last hufifo (by rw [hu.port]) hlast ?_ ?_
    · rw [hufill]
      exact s.nodup_newMembers p
    · rw [hufill]
      exact hu.filling
  · rw [if_neg (by rw [hlast]; exact Bool.false_ne_true)]
    exact State.takeWord_presents hufifo (hdue.trans hsome)

end Sys2Proof.Machine

/-! SUPPORT. One slot as slotInv and the cohort unit see it (R2 to R4, R22, R55, R57): what slotInv says of it, and the changes
that keep it and leave the slot's part in its cohort as it is. -/

namespace Sys2Proof.Machine
namespace Slot

/-- What slotInv says of one slot (R2 to R4, R22). -/
structure Sound (x : Slot) : Prop where
  pinned : ∀ g, 0 < (x.gen g).pins → (x.gen g).state = .ready
  newest : ∀ g, x.newest = some g → (x.gen g).state = .ready
  unused : x.state = .unused → ∀ g, (x.gen g).pins = 0
  nextSeq : x.nextSeq ≠ 0
  overruns : x.overruns ≤ 65535
  abandons : x.abandons ≤ 65535

/-- A FILLING generation stands in an ACTIVE or FROZEN slot (§3.2). -/
def FillsLive (x : Slot) : Prop := ∀ g, (x.gen g).state = .filling → x.live

/-- The slot is in the states in which MEMBERS of its cohort names it (R55). -/
def joined (x : Slot) : Prop := x.state = .configuring ∨ x.live

/-- A generation that is not READY has no pin and is not NEWEST. -/
theorem Sound.of_not_ready {x : Slot} (h : x.Sound) {g : GenId} (hg : (x.gen g).state ≠ .ready) :
    (x.gen g).pins = 0 ∧ x.newest ≠ some g :=
  ⟨Nat.eq_zero_of_not_pos fun hp => hg (h.pinned g hp), fun e => hg (h.newest g e)⟩

/-- Records with the same states and no more pins, in a slot with the same NEWEST. -/
theorem Sound.of_gens {x y : Slot} (h : x.Sound)
    (hg : ∀ g, (y.gen g).state = (x.gen g).state ∧ (y.gen g).pins ≤ (x.gen g).pins) (hn : y.newest = x.newest)
    (hu : y.state = .unused → ∀ g, (y.gen g).pins = 0) (hq : y.nextSeq = x.nextSeq) (ho : y.overruns ≤ 65535)
    (ha : y.abandons ≤ 65535) : y.Sound where
  pinned g hp := (hg g).1.trans (h.pinned g (Nat.lt_of_lt_of_le hp (hg g).2))
  newest g e := (hg g).1.trans (h.newest g (hn ▸ e))
  unused := hu
  nextSeq := hq ▸ h.nextSeq
  overruns := ho
  abandons := ha

/-- One record replaced by one that has no pin and is not NEWEST, or is READY. -/
theorem Sound.setGen {x : Slot} (h : x.Sound) (g : GenId) (y : Gen) (hp : 0 < y.pins → y.state = .ready)
    (hn : x.newest = some g → y.state = .ready) (hu : x.state = .unused → y.pins = 0) : (x.setGen g y).Sound where
  pinned k := by rw [gen_setGen]; split <;> [exact hp; exact h.pinned k]
  newest k e := by rw [gen_setGen]; split <;> [(rename_i hk; exact hn (hk ▸ e)); exact h.newest k e]
  unused e k := by rw [gen_setGen]; split <;> [exact hu e; exact h.unused e k]
  nextSeq := h.nextSeq
  overruns := h.overruns
  abandons := h.abandons

/-- A record that is not READY replaced by one with the same PINS. -/
theorem Sound.replace {x : Slot} (h : x.Sound) {g : GenId} (hg : (x.gen g).state ≠ .ready) (y : Gen)
    (hy : y.pins = (x.gen g).pins) : (x.setGen g y).Sound := by
  obtain ⟨hpins, hnewest⟩ := h.of_not_ready hg
  rw [hpins] at hy
  exact h.setGen g y (fun hp => absurd hy (Nat.ne_of_gt hp)) (fun e => absurd e hnewest) (fun _ => hy)

/-- The content of a generation that is not READY is thrown away (R9). -/
theorem Sound.abandoned {x : Slot} (h : x.Sound) {g : GenId} (hg : (x.gen g).state ≠ .ready) : (x.abandoned g).Sound := by
  have hr := h.replace hg (emptied (x.gen g)) rfl
  exact hr.of_gens (fun _ => ⟨rfl, le_refl _⟩) rfl hr.unused rfl h.overruns (Nat.min_le_right _ _)

/-- NEXT_SEQ and EPOCH wrap to 1, never to 0 (R3, R60). -/
theorem nextSeqAfter_ne_zero (w : Word) : nextSeqAfter w ≠ 0 := by
  unfold nextSeqAfter
  split <;> [decide; skip]
  bv_omega

/-- A generation that is not READY is published (R3, R6, R8). -/
theorem Sound.published {x : Slot} (h : x.Sound) {g : GenId} (hg : (x.gen g).state ≠ .ready) {y : Gen}
    (hy : y.pins = (x.gen g).pins) (e : BitVec 16) (b : Bool) : (x.published g y e b).Sound where
  pinned k := by rw [gen_published]; split <;> [exact fun _ => rfl; exact h.pinned k]
  newest k hk := by rw [gen_published, if_pos (Option.some.inj hk).symm]
  unused hu k := by
    rw [gen_published]
    split <;> [exact hy.trans (h.of_not_ready hg).1; exact h.unused hu k]
  nextSeq := nextSeqAfter_ne_zero _
  overruns := h.overruns
  abandons := h.abandons

/-- A change of a slot that slotInv survives and that leaves the slot's part in its cohort: COHORT, whether it is CONFIGURING
and whether it is ACTIVE or FROZEN, and which generations are SEALED. -/
structure Steady (x y : Slot) : Prop where
  cohort : y.cohort = x.cohort
  configuring : y.state = .configuring ↔ x.state = .configuring
  live : y.live ↔ x.live
  seals : ∀ g, (y.gen g).state = .sealed ↔ (x.gen g).state = .sealed
  fills : x.FillsLive → y.FillsLive
  sound : x.Sound → y.Sound

theorem Steady.refl (x : Slot) : x.Steady x := ⟨rfl, .rfl, .rfl, fun _ => .rfl, id, id⟩

theorem Steady.trans {x y z : Slot} (h : x.Steady y) (h' : y.Steady z) : x.Steady z where
  cohort := h'.cohort.trans h.cohort
  configuring := h'.configuring.trans h.configuring
  live := h'.live.trans h.live
  seals g := (h'.seals g).trans (h.seals g)
  fills := h'.fills ∘ h.fills
  sound := h'.sound ∘ h.sound

theorem Steady.joined {x y : Slot} (h : x.Steady y) : y.joined ↔ x.joined := or_congr h.configuring h.live

/-- Fields of the slot that do not matter here. -/
theorem steady_of_fields {x y : Slot} (hg : y.gens = x.gens) (hs : y.state = x.state) (hc : y.cohort = x.cohort)
    (hx : x.Sound → y.Sound) : x.Steady y := by
  have hgen : ∀ g, y.gen g = x.gen g := fun g => by unfold Slot.gen; rw [hg]
  have hlive : y.live ↔ x.live := by unfold Slot.live; rw [hs]
  exact ⟨hc, by rw [hs], hlive, fun g => by rw [hgen], fun h g hf => hlive.mpr (h g (hgen g ▸ hf)), hx⟩

/-- One record replaced by one that is SEALED where the old one is, and FILLING where the old one is or may be. -/
theorem steady_setGen {x : Slot} (g : GenId) (y : Gen) (hs : y.state = .sealed ↔ (x.gen g).state = .sealed)
    (hf : y.state = .filling → (x.gen g).state = .filling ∨ x.live) (hx : x.Sound → (x.setGen g y).Sound) :
    x.Steady (x.setGen g y) where
  cohort := rfl
  configuring := .rfl
  live := .rfl
  seals k := by rw [gen_setGen]; split <;> [(rename_i e; rw [e]; exact hs); rfl]
  fills h k hk := by
    rw [gen_setGen] at hk
    split at hk <;> [exact (hf hk).elim (h g) id; exact h k hk]
  sound := hx

/-- PINS that do not rise, WORDS and HEAD of one record. -/
theorem steady_sameState {x : Slot} (g : GenId) (y : Gen) (hs : y.state = (x.gen g).state) (hp : y.pins ≤ (x.gen g).pins) :
    x.Steady (x.setGen g y) :=
  steady_setGen g y (by rw [hs]) (fun e => .inl (hs ▸ e)) fun h =>
    h.setGen g y (fun hy => hs.trans (h.pinned g (Nat.lt_of_lt_of_le hy hp))) (fun e => hs.trans (h.newest g e))
      (fun e => Nat.le_zero.mp (h.unused e g ▸ hp))

/-- The content of a FILLING generation is thrown away (R9). -/
theorem steady_abandoned {x : Slot} {g : GenId} (hg : (x.gen g).state = .filling) : x.Steady (x.abandoned g) := by
  have hs : (x.gen g).state ≠ .ready := by rw [hg]; decide
  refine (steady_setGen g (emptied (x.gen g)) (by rw [hg]; exact ⟨nofun, nofun⟩) nofun fun h => h.replace hs _ rfl).trans ?_
  exact steady_of_fields rfl rfl rfl fun h =>
    h.of_gens (fun _ => ⟨rfl, le_refl _⟩) rfl h.unused rfl h.overruns (Nat.min_le_right _ _)

/-- What the choice of a writer target excludes: a pinned generation, NEWEST where every NEWEST is READY, and a seal (R4). -/
theorem target_free {x : Slot} {g : GenId} (h : x.target = some g) : ((x.gen g).state = .empty ∨ (x.gen g).state = .ready) ∧
    (x.Sound → (x.gen g).pins = 0 ∧ x.newest ≠ some g) := by
  unfold target at h
  split at h
  · rename_i k hk
    have hempty := List.find?_some hk
    simp only [Option.some.injEq, Bool.and_eq_true, decide_eq_true_eq] at h hempty
    have he : (x.gen g).state = .empty := h ▸ hempty.2
    exact ⟨.inl he, fun hx => hx.of_not_ready (by rw [he]; decide)⟩
  · have hm := (oldest_some (allGens_ascending.filter _) h).1
    obtain ⟨_, hready, hpins, hnewest⟩ := (mem_reusables x g).mp hm
    exact ⟨.inr hready, fun _ => ⟨hpins, hnewest⟩⟩

/-- A granted writer target in an ACTIVE slot becomes FILLING (R4). -/
theorem steady_filled {x : Slot} {g : GenId} (h : x.target = some g) (hl : x.live) (stamp : Tick) (tag : BitVec 8) :
    x.Steady (x.setGen g (filled (x.gen g) stamp tag)) := by
  obtain ⟨hs, hfree⟩ := target_free h
  refine steady_setGen g _ (iff_of_false nofun ?_) (fun _ => .inr hl) fun hx => ?_
  · obtain e | e := hs <;> rw [e] <;> decide
  · obtain ⟨hpins, hnewest⟩ := hfree hx
    exact hx.setGen g _ (fun hp => absurd hpins (Nat.ne_of_gt hp)) (fun e => absurd e hnewest) (fun _ => hpins)

/-- A pin added to a granted generation (R10). -/
theorem steady_pinned {x : Slot} {g : GenId} (h : x.pinAnswer = .granted g) (n : Nat) : x.Steady (x.setPins g n) := by
  obtain ⟨hnewest, hstate⟩ := State.pinAnswer_granted h
  refine steady_setGen g _ .rfl .inl fun hx => hx.setGen g _ (fun _ => hx.newest g hnewest) (hx.newest g) fun hu => ?_
  obtain e | e := hstate <;> rw [e] at hu <;> cases hu

/-- ACTIVE and FROZEN change places (R16, R17). -/
theorem steady_frozen {x : Slot} (hx : x.live) {st : SlotState} (hst : st = .active ∨ st = .frozen) :
    x.Steady { x with state := st } where
  cohort := rfl
  configuring := by
    refine iff_of_false (fun e => ?_) (fun e => ?_)
    · obtain h | h := hst <;> rw [h] at e <;> cases e
    · obtain h | h := hx <;> rw [h] at e <;> cases e
  live := iff_of_true hst hx
  seals _ := .rfl
  fills _ _ _ := hst
  sound h := h.of_gens (fun _ => ⟨rfl, le_refl _⟩) rfl (fun e => by obtain h | h := hst <;> rw [h] at e <;> cases e) rfl
    h.overruns h.abandons

/-- The drain of an unpinned slot ends: the slot is UNUSED, and its records keep all but HEAD (R20). -/
theorem steady_drained {x y : Slot} (hd : x.state = .draining) (hu : ∀ g, (x.gen g).pins = 0)
    (hy : y = { x with state := .unused, gens := y.gens })
    (hg : ∀ g, (y.gen g).state = (x.gen g).state ∧ (y.gen g).pins = (x.gen g).pins) : x.Steady y := by
  have hstate : y.state = .unused := by rw [hy]
  have hx : ¬ x.live := fun h => by unfold Slot.live at h; rw [hd] at h; obtain e | e := h <;> cases e
  have hyl : ¬ y.live := fun h => by unfold Slot.live at h; rw [hstate] at h; obtain e | e := h <;> cases e
  refine ⟨by rw [hy], by rw [hstate, hd]; exact ⟨nofun, nofun⟩, iff_of_false hyl hx, fun g => by rw [(hg g).1],
    fun h g hf => absurd (h g ((hg g).1 ▸ hf)) hx, fun h => ?_⟩
  exact h.of_gens (fun g => ⟨(hg g).1, (hg g).2.le⟩) (by rw [hy]) (fun _ g => (hg g).2.trans (hu g)) (by rw [hy])
    (by rw [hy]; exact h.overruns) (by rw [hy]; exact h.abandons)

end Slot
end Sys2Proof.Machine

/-! SUPPORT. The acts as the slots, the cohorts and the allocation see them (chapters 1 and 4): steady changes of slots,
completions, window expiries and COHORT_SET, one after the other, or one of the acts that open, end or clear a membership. -/

namespace Sys2Proof.Machine
namespace State

/-- The allocation in progress is of the slot (R28). -/
def allocates (s : State) (i : SlotId) : Prop := ∃ a, s.pool.alloc = some a ∧ a.slot = i

/-- Every slot changes steadily, no cohort changes, and no other slot's allocation is opened. -/
structure Steady (s t : State) : Prop where
  slot : ∀ i, (s.slot i).Steady (t.slot i)
  cohorts : t.cohorts = s.cohorts
  alloc : ∀ i, t.allocates i → s.allocates i

theorem Steady.trans {s t u : State} (h : s.Steady t) (h' : t.Steady u) : s.Steady u :=
  ⟨fun i => (h.slot i).trans (h'.slot i), h'.cohorts.trans h.cohorts, fun i => h.alloc i ∘ h'.alloc i⟩

theorem steady_of_eq {s t : State} (hs : t.slots = s.slots) (hc : t.cohorts = s.cohorts)
    (ha : t.pool.alloc = s.pool.alloc) : s.Steady t :=
  ⟨fun i => by unfold State.slot; rw [hs]; exact .refl _, hc, fun i h => by unfold allocates at h ⊢; rwa [ha] at h⟩

theorem steady_self (s : State) : s.Steady s := steady_of_eq rfl rfl rfl

/-- A steady change and then a change of other parts. -/
theorem Steady.thenEq {s t u : State} (h : s.Steady t) (hs : u.slots = t.slots) (hc : u.cohorts = t.cohorts)
    (ha : u.pool.alloc = t.pool.alloc) : s.Steady u := h.trans (steady_of_eq hs hc ha)

theorem steady_foldl {α : Type} {f : State → α → State} (hf : ∀ (t : State) x, t.Steady (f t x)) (l : List α) (s : State) :
    s.Steady (l.foldl f s) := foldl_rel Steady f steady_self (fun _ _ _ => .trans) hf l s

theorem steady_setSlot (s : State) (i : SlotId) {x : Slot} (hx : (s.slot i).Steady x) : s.Steady (s.setSlot i x) :=
  ⟨fun j => by rw [slot_setSlot]; split <;> [(rename_i e; rw [e]; exact hx); exact .refl _], rfl, fun _ => id⟩

/-! ### Ports and the feed -/

theorem abandon_steady (s : State) (i : SlotId) (g : GenId) (w : AbandonReason) : s.Steady (s.abandon i g w) := by
  unfold abandon
  split
  · rename_i h
    exact (steady_setSlot s i (Slot.steady_abandoned h)).thenEq rfl rfl rfl
  · exact steady_self s

theorem abandonMembers_steady (s : State) (l : List FillMember) (w : AbandonReason) : s.Steady (s.abandonMembers l w) :=
  steady_foldl (fun t m => by exact abandon_steady t m.slot m.gen w) l s

theorem giveUpBlock_steady (s : State) (p : PortId) (w : AbandonReason) : s.Steady (s.giveUpBlock p w) :=
  (abandonMembers_steady s (s.port p).fill w).thenEq rfl rfl rfl

theorem giveUpOpen_steady (s : State) (p : PortId) (w : AbandonReason) :
    s.Steady (if (s.port p).state = .inBlock then s.giveUpBlock p w else s) := by
  split <;> [exact giveUpBlock_steady s p w; exact steady_self s]

theorem leaveEntry_steady (s : State) (p : PortId) : s.Steady (s.leaveEntry p) := by
  unfold leaveEntry
  split <;> [exact steady_self s; skip]
  split <;> [exact (giveUpOpen_steady s p .captureOverflow).thenEq rfl rfl rfl; exact steady_of_eq rfl rfl rfl]

theorem requestTarget_steady (s : State) (i : SlotId) (hl : (s.slot i).live) (stamp : Tick) (tag : BitVec 8) :
    s.Steady (s.requestTarget i stamp tag) := by
  cases h : (s.slot i).target with
  | some g => rw [requestTarget_some h]; exact steady_setSlot s i (Slot.steady_filled h hl stamp tag)
  | none =>
    rw [requestTarget_none h]
    refine (steady_setSlot s i (x := { s.slot i with overruns := saturate16 (s.slot i).overruns }) ?_).thenEq rfl rfl rfl
    exact Slot.steady_of_fields rfl rfl rfl fun h =>
      h.of_gens (fun _ => ⟨rfl, le_refl _⟩) rfl h.unused rfl (Nat.min_le_right _ _) h.abandons

theorem offerBlock_steady (s : State) (p : PortId) (e : FifoEntry) (i : SlotId) : s.Steady (s.offerBlock p e i) := by
  have count : ∀ n, s.Steady (s.setSlot i { s.slot i with decCount := n }) := fun n =>
    steady_setSlot s i (Slot.steady_of_fields rfl rfl rfl fun h =>
      h.of_gens (fun _ => ⟨rfl, le_refl _⟩) rfl h.unused rfl h.overruns h.abandons)
  unfold offerBlock
  simp only []
  split <;> [skip; exact steady_self s]
  rename_i hact
  split <;> [skip; exact count _]
  have hl : ((s.setSlot i { s.slot i with decCount := 0 }).slot i).live := by rw [slot_setSlot_self]; exact .inl hact.1
  have hr := (count 0).trans (requestTarget_steady _ i hl e.arrived e.tag)
  unfold keepBlock
  split <;> [exact hr.thenEq rfl rfl rfl; exact hr]

theorem beginBlock_steady (s : State) (p : PortId) (e : FifoEntry) : s.Steady (s.beginBlock p e) := by
  have hu := giveUpOpen_steady s p .missingEnd
  unfold beginBlock
  simp only []
  generalize (if (s.port p).state = .inBlock then s.giveUpBlock p .missingEnd else s) = u at hu ⊢
  generalize hv : u.setPort p _ = v
  have hsv : s.Steady v := hu.thenEq (by rw [← hv]; rfl) (by rw [← hv]; rfl) (by rw [← hv]; rfl)
  have ho : v.Steady (v.offerToSlots p e) := steady_foldl (fun t i => offerBlock_steady t p e i) allSlots v
  generalize v.offerToSlots p e = w at ho ⊢
  exact (hsv.trans ho).thenEq rfl rfl rfl

theorem headError_steady (s : State) (p : PortId) : s.Steady (s.headError p) := by
  unfold headError
  split <;> [exact steady_self s; skip]
  split <;> [skip; exact steady_self s]
  have hu := giveUpBlock_steady s p .sourceError
  simp only []
  generalize s.giveUpBlock p .sourceError = u at hu ⊢
  exact (hu.thenEq (u := u.setPort p { u.port p with state := .idle }) rfl rfl rfl).trans (leaveEntry_steady _ p)

theorem disablePort_steady (s : State) (p : PortId) : s.Steady (s.disablePort p) := by
  unfold disablePort
  split <;> [exact (giveUpOpen_steady s p .portDisabled).thenEq rfl rfl rfl; exact steady_self s]

theorem writeEnables_steady (s : State) (v : Word) : s.Steady (s.writeEnables v) :=
  steady_foldl (fun t p => by
    split <;> [(rw [enablePort_only]; exact steady_of_eq rfl rfl rfl); exact disablePort_steady t p]) allPorts s

theorem feedOpen_steady (s : State) : s.Steady s.feedOpen := by
  unfold feedOpen
  split <;> [exact steady_of_eq rfl rfl rfl; skip]
  split <;> [exact steady_of_eq rfl rfl rfl; skip]
  split <;> [exact steady_of_eq rfl rfl rfl; skip]
  split <;> [exact steady_of_eq rfl rfl rfl; skip]
  split <;> [exact steady_of_eq rfl rfl rfl; skip]
  rename_i i _ _ _ _ hact
  split <;> [exact steady_of_eq rfl rfl rfl; skip]
  have hr := requestTarget_steady s i (.inl (not_not.mp hact)) s.now ((s.arg 1).setWidth 8)
  unfold openFeed
  simp only []
  split <;> exact hr.thenEq rfl rfl rfl

/-- The feed's session given up (R134, R135). -/
theorem abandonFeed_steady (s : State) (w : AbandonReason) :
    s.Steady ((s.setFeed { s.feed with state := .idle }).abandon s.feed.slot s.feed.gen w) :=
  Steady.trans (t := s.setFeed { s.feed with state := .idle }) (steady_of_eq rfl rfl rfl) (abandon_steady ..)

theorem feedAbort_steady (s : State) : s.Steady s.feedAbort := by
  unfold feedAbort
  split <;> [exact steady_of_eq rfl rfl rfl; exact (abandonFeed_steady s .feedAbort).thenEq rfl rfl rfl]

theorem feedExpiry_steady (s : State) : s.Steady s.feedExpiry := by
  unfold feedExpiry
  split <;> [exact (abandonFeed_steady s .feedTimeout).thenEq rfl rfl rfl; exact steady_self s]

theorem writeInto_steady (s : State) (a : Nat) (q : WriteReq) : s.Steady (s.writeInto a q) :=
  Steady.trans (t := s.storeWord a q.word) (steady_of_eq rfl rfl rfl)
    (steady_setSlot _ q.slot (Slot.steady_sameState q.gen _ rfl (le_refl _)))

/-! ### Pins, drains and links -/

theorem drainCheck_steady (s : State) (i : SlotId) : s.Steady (s.drainCheck i) := by
  unfold drainCheck
  split <;> [skip; exact steady_self s]
  rename_i h
  refine ⟨fun j => ?_, by rw [drainEnd_only], fun j h => by unfold allocates at h ⊢; rwa [drainEnd_alloc] at h⟩
  by_cases e : j = i
  · rw [e]
    exact Slot.steady_drained h.1 ((unpinned_iff _).mp h.2) (drainEnd_slot s i) fun g => by
      rw [drainEnd_gen]; exact ⟨rfl, rfl⟩
  · rw [drainEnd_other s i j e]; exact .refl _

/-- One pin less (R11, R19). -/
theorem unpin_steady (s : State) (i : SlotId) (g : GenId) :
    s.Steady (s.setSlot i ((s.slot i).setPins g (((s.slot i).gen g).pins - 1))) :=
  steady_setSlot s i (Slot.steady_sameState g _ rfl (Nat.sub_le _ _))

theorem release_steady (s : State) (i : SlotId) (g : GenId) : s.Steady (s.release i g) :=
  (unpin_steady s i g).trans (drainCheck_steady _ i)

theorem releasePins_steady (s : State) (k : LinkId) : s.Steady (s.releasePins k) :=
  Steady.thenEq (t := (s.link k).pinSet.foldl (fun t p => t.release p.slot p.gen) s)
    (steady_foldl (fun t p => by exact release_steady t p.slot p.gen) _ s) rfl rfl rfl

theorem abortFrame_steady (s : State) (k : LinkId) (w : AbortReason) : s.Steady (s.abortFrame k w) := by
  unfold abortFrame
  simp only []
  split <;> [exact steady_self s; skip]
  generalize hu : s.setLink k _ = u
  have hsu : s.Steady u := steady_of_eq (by rw [← hu]; rfl) (by rw [← hu]; rfl) (by rw [← hu]; rfl)
  exact (hsu.trans (releasePins_steady u k)).thenEq rfl rfl rfl

theorem frameDone_steady (s : State) (k : LinkId) (r : BitVec 4) : s.Steady (s.frameDone k r) := by
  rw [frameDone_only]; exact steady_of_eq rfl rfl rfl

theorem wordTaken_steady (s : State) (k : LinkId) : s.Steady (s.wordTaken k) := by
  unfold wordTaken
  simp only []
  split
  · exact steady_self s
  · exact steady_self s
  · exact Steady.trans (t := s.clearAbortWord k) (steady_of_eq rfl rfl rfl) (frameDone_steady _ k 0)
  · split <;> [skip; exact steady_self s]
    split
    · generalize hu : s.setLink k _ = u
      have hsu : s.Steady u := steady_of_eq (by rw [← hu]; rfl) (by rw [← hu]; rfl) (by rw [← hu]; rfl)
      exact hsu.trans ((releasePins_steady u k).trans (frameDone_steady _ k 0))
    · unfold afterTake
      split <;> rw [presentRead_only] <;> [rw [itemDone_only]; skip] <;> exact steady_of_eq rfl rfl rfl

theorem linkStop_steady (s : State) : s.Steady s.linkStop := by
  unfold linkStop
  split <;> [exact steady_of_eq rfl rfl rfl; skip]
  rename_i k _
  split <;> [exact steady_of_eq rfl rfl rfl; skip]
  split <;> [exact steady_of_eq rfl rfl rfl; skip]
  split <;> [exact steady_of_eq rfl rfl rfl; skip]
  unfold stopFrame
  simp only []
  split
  · exact (abortFrame_steady s k .stop).thenEq rfl rfl rfl
  · exact steady_of_eq rfl rfl rfl

/-- A pin granted (R10). -/
theorem addPin_steady (s : State) {i : SlotId} {g : GenId} (h : (s.slot i).pinAnswer = .granted g) :
    s.Steady (s.addPin i g) := steady_setSlot s i (Slot.steady_pinned h _)

theorem claimPins_steady (s : State) (k : LinkId) (l : List SlotId) : s.Steady (s.claimPins k l) := by
  refine steady_foldl (fun t i => ?_) l s
  unfold claimPin
  split <;> [(rename_i h; exact (addPin_steady t h).thenEq rfl rfl rfl); exact steady_self t; exact steady_self t]

theorem periodExpiry_steady (s : State) (k : LinkId) : s.Steady (s.periodExpiry k) := by
  unfold periodExpiry
  simp only []
  split <;> [skip; exact steady_self s]
  split <;> [skip; exact steady_of_eq rfl rfl rfl]
  generalize hu : s.setLink k _ = u
  have hsu : s.Steady u := steady_of_eq (by rw [← hu]; rfl) (by rw [← hu]; rfl) (by rw [← hu]; rfl)
  unfold frameBegin
  simp only []
  rw [placeWord_only]
  exact (hsu.trans (claimPins_steady u k _)).thenEq rfl rfl rfl

theorem stallAbort_steady (s : State) (k : LinkId) : s.Steady (s.stallAbort k) := by
  unfold stallAbort
  split <;> [exact abortFrame_steady s k .stall; exact steady_self s]

theorem handlePin_steady (s : State) : s.Steady s.handlePin := by
  unfold handlePin
  split <;> [exact steady_of_eq rfl rfl rfl; skip]
  split <;> [exact steady_of_eq rfl rfl rfl; skip]
  split <;> [exact steady_of_eq rfl rfl rfl; skip]
  split <;> [(rename_i h; exact (addPin_steady s h).thenEq rfl rfl rfl); exact steady_of_eq rfl rfl rfl;
    exact steady_of_eq rfl rfl rfl]

theorem handleRelease_steady (s : State) : s.Steady s.handleRelease := by
  unfold handleRelease
  split <;> [exact steady_of_eq rfl rfl rfl; skip]
  simp only []
  split <;> [skip; exact steady_of_eq rfl rfl rfl; exact steady_of_eq rfl rfl rfl]
  generalize hu : s.setHandle _ _ = u
  have hsu : s.Steady u := steady_of_eq (by rw [← hu]; rfl) (by rw [← hu]; rfl) (by rw [← hu]; rfl)
  exact (hsu.trans (release_steady u _ _)).thenEq rfl rfl rfl

theorem revokeHandles_steady (s : State) (i : SlotId) : s.Steady (s.revokeHandles i) := by
  refine steady_foldl (fun t n => ?_) allHandles s
  unfold revokeHandle
  simp only []
  split <;> [exact (unpin_steady t i _).thenEq rfl rfl rfl; exact steady_self t]

/-! ### Slot commands -/

theorem slotFreeze_steady (s : State) : s.Steady s.slotFreeze := by
  unfold slotFreeze
  split <;> [exact steady_of_eq rfl rfl rfl; skip]
  split <;> [skip; exact steady_of_eq rfl rfl rfl]
  rename_i i _ h
  exact (steady_setSlot s i (Slot.steady_frozen (.inl h) (.inr rfl))).thenEq rfl rfl rfl

theorem slotThaw_steady (s : State) : s.Steady s.slotThaw := by
  unfold slotThaw
  split <;> [exact steady_of_eq rfl rfl rfl; skip]
  split <;> [skip; exact steady_of_eq rfl rfl rfl]
  rename_i i _ h
  exact (steady_setSlot s i (Slot.steady_frozen (.inr h) (.inl rfl))).thenEq rfl rfl rfl

theorem abandonFilling_steady (s : State) (i : SlotId) : s.Steady (s.abandonFilling i) := by
  have hw : ∀ t : State, t.Steady (t.dropWriter i) := fun t => by
    unfold dropWriter
    split <;> [exact steady_of_eq rfl rfl rfl; skip]
    split <;> exact steady_of_eq rfl rfl rfl
  unfold abandonFilling
  split <;> [exact (abandon_steady s i _ _).trans (hw _); exact steady_self s]

end State
end Sys2Proof.Machine

namespace Sys2Proof.Machine

/-- A move of the slots and cohorts: a steady change, the completion of a generation (R6, R7), the expiry of a window (R62,
R63), or COHORT_SET (R67). -/
inductive CohortMove (s : State) : State → Prop
  | steady {t : State} (h : s.Steady t) : CohortMove s t
  | complete (i : SlotId) (g : GenId) (n : Nat) : CohortMove s (s.complete i g n)
  | windowExpiry (c : CohortId) : CohortMove s (s.windowExpiry c)
  | cohortSet : CohortMove s s.cohortSet

/-- Any number of such moves. -/
def CohortRun : State → State → Prop := Relation.ReflTransGen CohortMove

/-- One act of the part as slots and cohorts see it: moves, an accepted SLOT_CONFIGURE or SLOT_TEARDOWN, a page take, or the
start of a reset. -/
inductive CohortAct (s : State) : State → Prop
  | run {t : State} (h : CohortRun s t) : CohortAct s t
  | configure (i : SlotId) (a : ConfigureArgs) (hi : (s.slot i).state = .unused) : CohortAct s (s.acceptConfigure i a)
  | teardown (i : SlotId) (force : Bool) (hi : (s.slot i).live) : CohortAct s (s.acceptTeardown i force)
  | pageTake : CohortAct s s.pageTake
  | reset {t : State} (hs : t.slots = State.reset.slots) (hc : t.cohorts = State.reset.cohorts)
      (ha : t.pool.alloc = none) : CohortAct s t

namespace State

theorem Steady.run {s t : State} (h : s.Steady t) : CohortRun s t := .single (.steady h)

theorem cohortRun_of_eq {s t : State} (hs : t.slots = s.slots) (hc : t.cohorts = s.cohorts)
    (ha : t.pool.alloc = s.pool.alloc) : CohortRun s t := (steady_of_eq hs hc ha).run

/-- A run and then a change of other parts. -/
theorem cohortRun_thenEq {s t u : State} (h : CohortRun s t) (hs : u.slots = t.slots) (hc : u.cohorts = t.cohorts)
    (ha : u.pool.alloc = t.pool.alloc) : CohortRun s u := h.trans (cohortRun_of_eq hs hc ha)

/-- An act that leaves slots, cohorts and the allocation. -/
theorem cohortAct_of_eq {s t : State} (hs : t.slots = s.slots) (hc : t.cohorts = s.cohorts)
    (ha : t.pool.alloc = s.pool.alloc) : CohortAct s t := .run (cohortRun_of_eq hs hc ha)

/-! ### The end of a block -/

theorem completeMembers_cohortRun (s : State) (l : List FillMember) : CohortRun s (s.completeMembers l) :=
  foldl_run (fun _ _ => .single (by exact .complete ..)) l s

theorem endBlock_cohortRun (s : State) (p : PortId) : CohortRun s (s.endBlock p) :=
  cohortRun_thenEq (completeMembers_cohortRun s (s.port p).fill) rfl rfl rfl

theorem finishWord_cohortRun (s : State) (p : PortId) : CohortRun s (s.finishWord p) := by
  unfold finishWord
  split <;> [exact .refl; skip]
  simp only []
  generalize hu : s.setPort p _ = u
  have hsu : CohortRun s u := cohortRun_of_eq (by rw [← hu]; rfl) (by rw [← hu]; rfl) (by rw [← hu]; rfl)
  split
  · exact hsu.trans ((endBlock_cohortRun u p).trans (leaveEntry_steady _ p).run)
  · exact hsu.trans (leaveEntry_steady u p).run

theorem presentWrite_cohortRun (s : State) (p : PortId) : CohortRun s (s.presentWrite p) := by
  rw [presentWrite_only]; exact cohortRun_of_eq rfl rfl rfl

theorem takeWord_cohortRun (s : State) (p : PortId) : CohortRun s (s.takeWord p) := by
  unfold takeWord
  simp only []
  split
  · exact finishWord_cohortRun s p
  · rw [presentWrite_only]; exact cohortRun_of_eq rfl rfl rfl

theorem afterRequest_cohortRun (s : State) (p : PortId) : CohortRun s (s.afterRequest p) := by
  unfold afterRequest
  split
  · exact presentWrite_cohortRun s p
  · split <;> [exact finishWord_cohortRun s p; exact .refl]

theorem headStart_cohortRun (s : State) (p : PortId) : CohortRun s (s.headStart p) := by
  unfold headStart
  split <;> [exact .refl; skip]
  split <;> [skip; exact .refl]
  have hb := fun e => (beginBlock_steady s p e).run
  split
  · exact hb _
  · exact (hb _).trans (takeWord_cohortRun _ p)

theorem feedClose_cohortRun (s : State) : CohortRun s s.feedClose := by
  unfold feedClose
  split <;> [exact cohortRun_of_eq rfl rfl rfl; skip]
  generalize hu : s.setFeed _ = u
  have hsu : CohortRun s u := cohortRun_of_eq (by rw [← hu]; rfl) (by rw [← hu]; rfl) (by rw [← hu]; rfl)
  exact cohortRun_thenEq (hsu.tail (.complete ..)) rfl rfl rfl

/-! ### Grants and acts -/

theorem grantAct_cohortRun {s t : State} (e : GrantAct s t) : CohortRun s t := by
  cases e with
  | idle => exact .refl
  | portWrite r p q a hq hf ha =>
    generalize hu : s.setPort p _ = u
    have hsu : s.Steady u := steady_of_eq (by rw [← hu]; rfl) (by rw [← hu]; rfl) (by rw [← hu]; rfl)
    have hw := (hsu.trans (writeInto_steady u a q)).thenEq (u := (u.writeInto a q).granted r) rfl rfl rfl
    exact hw.run.trans (afterRequest_cohortRun _ p)
  | portWithdraw p q hq hf =>
    exact Relation.ReflTransGen.trans (b := s.setPort p _) (cohortRun_of_eq rfl rfl rfl) (afterRequest_cohortRun _ p)
  | feedWrite r q a hq hf ha =>
    generalize hu : s.setFeed _ = u
    have hsu : s.Steady u := steady_of_eq (by rw [← hu]; rfl) (by rw [← hu]; rfl) (by rw [← hu]; rfl)
    exact cohortRun_thenEq (hsu.trans (writeInto_steady u a q)).run rfl rfl rfl
  | feedWithdraw q hq hf => exact cohortRun_of_eq rfl rfl rfl
  | linkRead r k q w hq hw => rw [presentRead_only, placeWord_only]; exact cohortRun_of_eq rfl rfl rfl
  | handleRead r n q w hq hw => exact cohortRun_of_eq rfl rfl rfl

theorem timeAct_cohortRun {s t : State} (e : TimeAct s t) : CohortRun s t := by
  cases e with
  | stallAbort k => exact (stallAbort_steady s k).run
  | giveUp k => rw [giveUp_only]; exact cohortRun_of_eq rfl rfl rfl
  | periodExpiry k => exact (periodExpiry_steady s k).run
  | windowExpiry c => exact .single (.windowExpiry c)
  | feedExpiry => exact (feedExpiry_steady s).run
  | advanceTime ready => rw [(advanceTime_spec ready s).2]; exact cohortRun_of_eq rfl rfl rfl
  | countCycle => exact cohortRun_of_eq rfl rfl rfl

theorem slotConfigure_cohortAct (s : State) : CohortAct s s.slotConfigure := by
  unfold slotConfigure
  split <;> [exact cohortAct_of_eq rfl rfl rfl; skip]
  split <;> [exact cohortAct_of_eq rfl rfl rfl; skip]
  rename_i hu
  split <;> [exact cohortAct_of_eq rfl rfl rfl; skip]
  split <;> [exact cohortAct_of_eq rfl rfl rfl; exact .configure _ _ (not_not.mp hu)]

theorem slotTeardown_cohortAct (s : State) : CohortAct s s.slotTeardown := by
  unfold slotTeardown
  split <;> [exact cohortAct_of_eq rfl rfl rfl; skip]
  split <;> [(rename_i h; exact .teardown _ _ h); exact cohortAct_of_eq rfl rfl rfl]

theorem writeControl_cohortAct (s : State) (v : Word) : CohortAct s (s.writeControl v) := by
  unfold writeControl
  simp only []
  split <;> [skip; exact cohortAct_of_eq rfl rfl rfl]
  unfold startDeviceReset
  split <;> [exact .reset rfl rfl rfl; exact cohortAct_of_eq rfl rfl rfl; exact cohortAct_of_eq rfl rfl rfl]

theorem releaseReset_cohortRun (s : State) : CohortRun s s.releaseReset := by
  unfold releaseReset; split <;> exact cohortRun_of_eq rfl rfl rfl

theorem rebuildPage_cohortRun (s : State) : CohortRun s s.rebuildPage := by
  obtain ⟨hslots, halloc⟩ := rebuildPage_alloc s
  refine cohortRun_of_eq hslots ?_ halloc
  unfold rebuildPage
  split <;> [skip; rfl; rfl]
  split <;> [skip; rfl]
  simp only []
  split <;> rfl

theorem clearSchedule_cohortRun (s : State) : CohortRun s s.clearSchedule := by
  obtain ⟨hpool, hslots⟩ := clearSchedule_pages s
  refine cohortRun_of_eq hslots ?_ (congrArg Pool.alloc hpool)
  unfold clearSchedule
  split <;> [skip; rfl; rfl; rfl]
  simp only []
  split <;> rfl

/-- Every act of the part, as slots and cohorts see it. -/
theorem act_cohortAct {s t : State} (e : Act s t) : CohortAct s t := by
  cases e with
  | plain e => rw [plainAct_only e]; exact cohortAct_of_eq rfl rfl rfl
  | time e => exact .run (timeAct_cohortRun e)
  | slotConfigure => exact slotConfigure_cohortAct s
  | slotFreeze => exact .run (slotFreeze_steady s).run
  | slotThaw => exact .run (slotThaw_steady s).run
  | slotTeardown => exact slotTeardown_cohortAct s
  | cohortSet => exact .run (.single .cohortSet)
  | linkStart => rw [linkStart_only]; exact cohortAct_of_eq rfl rfl rfl
  | linkLoad => rw [linkLoad_only]; exact cohortAct_of_eq rfl rfl rfl
  | linkCancel => rw [linkCancel_only]; exact cohortAct_of_eq rfl rfl rfl
  | linkStop => exact .run (linkStop_steady s).run
  | handlePin => exact .run (handlePin_steady s).run
  | handleRelease => exact .run (handleRelease_steady s).run
  | feedOpen => exact .run (feedOpen_steady s).run
  | feedClose => exact .run (feedClose_cohortRun s)
  | feedAbort => exact .run (feedAbort_steady s).run
  | pageTake => exact .pageTake
  | checkExamine => rw [checkExamine_only]; exact cohortAct_of_eq rfl rfl rfl
  | intake p x => rw [intake_only]; exact cohortAct_of_eq rfl rfl rfl
  | headStart p => exact .run (headStart_cohortRun s p)
  | headWord p => obtain e | e := headWord_eq s p <;> rw [e] <;> [exact .run .refl; exact .run (takeWord_cohortRun s p)]
  | headDrop p => obtain e | e := headDrop_eq s p <;> rw [e] <;> [exact .run .refl; exact .run (leaveEntry_steady s p).run]
  | headEnd p => obtain e | e := headEnd_eq s p <;> rw [e] <;> [exact .run .refl; exact .run (takeWord_cohortRun s p)]
  | headError p => exact .run (headError_steady s p).run
  | enablePort p => rw [enablePort_only]; exact cohortAct_of_eq rfl rfl rfl
  | disablePort p => exact .run (disablePort_steady s p).run
  | writeEnables v => exact .run (writeEnables_steady s v).run
  | placeNext k => rw [placeNext_only]; exact cohortAct_of_eq rfl rfl rfl
  | wordTaken k => exact .run (wordTaken_steady s k).run
  | readHandle n => rw [readHandle_only]; exact cohortAct_of_eq rfl rfl rfl
  | writeFeed v => rw [writeFeed_only]; exact cohortAct_of_eq rfl rfl rfl
  | clearOverflowed | writeHandleAddr | clearOverread | clearOverlength => exact cohortAct_of_eq rfl rfl rfl
  | writeControl v => exact writeControl_cohortAct s v
  | assertReset => exact .reset rfl rfl rfl
  | releaseReset => exact .run (releaseReset_cohortRun s)
  | rebuildPage => exact .run (rebuildPage_cohortRun s)
  | clearSchedule => exact .run (clearSchedule_cohortRun s)

end State

/-- A property of slots, cohorts and the allocation that every move and every act keeps is kept by every step. -/
theorem step_keeps_of_cohortActs (P : State → Prop) (hq : ∀ s l, P s → P { s with pending := l })
    (hm : ∀ s t, P s → CohortMove s t → P t) (ha : ∀ s t, P s → CohortAct s t → P t) {s t : State} (h : P s)
    (e : step s = .next t) : P t :=
  step_keeps_of_acts P hq (fun _ _ hs e => run_keeps P hm hs (State.grantAct_cohortRun e))
    (fun s t hs e => ha s t hs (State.act_cohortAct e)) h e

end Sys2Proof.Machine

/-! SUPPORT. What the operations of chapter 4 come to: seals taken from a cohort, a seal reported to it, a member that leaves it;
and that every step keeps cohortInv and slotInv (O53). -/

namespace Sys2Proof.Machine
namespace Slot

/-- The seal that a slot names is published or thrown away (R8). -/
structure SealTaken (x y : Slot) : Prop where
  cohort : y.cohort = x.cohort
  state : y.state = x.state
  seals : ∀ g, (y.gen g).state = .sealed → (x.gen g).state = .sealed ∧ x.sealedGen ≠ some g
  fills : ∀ g, (y.gen g).state = .filling → (x.gen g).state = .filling
  sound : x.Sound → y.Sound

theorem sealTaken_none {x : Slot} (h : x.sealedGen = none) : x.SealTaken x :=
  ⟨rfl, rfl, fun _ hg => ⟨hg, by rw [h]; nofun⟩, fun _ => id, id⟩

theorem sealTaken_published {x : Slot} {g : GenId} (h : x.sealedGen = some g) (e : BitVec 16) (b : Bool) :
    x.SealTaken (x.published g (x.gen g) e b) where
  cohort := rfl
  state := rfl
  seals k hk := by
    rw [gen_published] at hk
    split at hk <;> [cases hk; (rename_i hne; exact ⟨hk, fun e => hne (Option.some.inj (h.symm.trans e)).symm⟩)]
  fills k hk := by rw [gen_published] at hk; split at hk <;> [cases hk; exact hk]
  sound hx := hx.published (by rw [State.sealedGen_spec _ _ h]; decide) rfl e b

theorem gen_abandoned (x : Slot) (g k : GenId) :
    (x.abandoned g).gen k = if k = g then emptied (x.gen g) else x.gen k := gen_setGen x g k _

theorem sealTaken_abandoned {x : Slot} {g : GenId} (h : x.sealedGen = some g) : x.SealTaken (x.abandoned g) where
  cohort := rfl
  state := rfl
  seals k hk := by
    rw [gen_abandoned] at hk
    split at hk <;> [cases hk; (rename_i hne; exact ⟨hk, fun e => hne (Option.some.inj (h.symm.trans e)).symm⟩)]
  fills k hk := by rw [gen_abandoned] at hk; split at hk <;> [cases hk; exact hk]
  sound hx := hx.abandoned (by rw [State.sealedGen_spec _ _ h]; decide)

/-- A FILLING generation of a slot is sealed, and a seal that the slot names is superseded (R7). -/
structure SealedBy (x : Slot) (g : GenId) (y : Slot) : Prop where
  cohort : y.cohort = x.cohort
  state : y.state = x.state
  sealed : (y.gen g).state = .sealed
  others : ∀ k, k ≠ g → (y.gen k).state = .sealed → (x.gen k).state = .sealed ∧ x.sealedGen ≠ some k
  fills : ∀ k, (y.gen k).state = .filling → (x.gen k).state = .filling
  sound : x.Sound → y.Sound

/-- The slot with a FILLING generation just sealed. -/
theorem sealedBy_first {x : Slot} {g : GenId} (hg : (x.gen g).state = .filling) (h : x.sealedGen = none) (n : Nat) :
    x.SealedBy g (x.setGen g { x.completed (x.gen g) n with state := .sealed }) where
  cohort := rfl
  state := rfl
  sealed := by rw [gen_setGen, if_pos rfl]
  others k hne hk := by rw [gen_setGen, if_neg hne] at hk; exact ⟨hk, by rw [h]; nofun⟩
  fills k hk := by rw [gen_setGen] at hk; split at hk <;> [cases hk; exact hk]
  sound hx := hx.replace (by rw [hg]; decide) _ rfl

/-- The same where an older seal is superseded. -/
theorem sealedBy_supersedes {x : Slot} {g o : GenId} (hg : (x.gen g).state = .filling) (h : x.sealedGen = some o) (n : Nat) :
    x.SealedBy g ((x.setGen g { x.completed (x.gen g) n with state := .sealed }).setGen o (emptied (x.gen o))) := by
  have ho := State.sealedGen_spec _ _ h
  have hne : g ≠ o := fun e => by rw [e, ho] at hg; cases hg
  have hgen : ∀ k, (((x.setGen g { x.completed (x.gen g) n with state := .sealed }).setGen o (emptied (x.gen o))).gen k) =
      if k = o then emptied (x.gen o) else if k = g then { x.completed (x.gen g) n with state := .sealed } else x.gen k :=
    fun k => by rw [gen_setGen, gen_setGen]
  refine ⟨rfl, rfl, ?_, fun k hk hs => ?_, fun k hk => ?_, fun hx => ?_⟩
  · rw [hgen, if_neg hne, if_pos rfl]
  · rw [hgen, if_neg hk] at hs
    split at hs <;> [cases hs; (rename_i hko; exact ⟨hs, fun e => hko (Option.some.inj (h.symm.trans e)).symm⟩)]
  · rw [hgen] at hk
    split at hk <;> [cases hk; skip]
    split at hk <;> [cases hk; exact hk]
  · have hseal := hx.replace (g := g) (by rw [hg]; decide) { x.completed (x.gen g) n with state := .sealed } rfl
    have hold : (x.setGen g { x.completed (x.gen g) n with state := .sealed }).gen o = x.gen o := by
      rw [gen_setGen, if_neg hne.symm]
    exact hseal.replace (by rw [hold, ho]; decide) _ (by rw [hold]; rfl)

end Slot

/-- What cohortInv says of one cohort (R56, R60). -/
structure Cohort.Sound (k : Cohort) : Prop where
  gathers : k.state = .gathering ↔ k.sealed ≠ 0
  epoch : k.epoch ≠ 0
  window : k.window ≤ Config.longestWindow

theorem nextEpochAfter_ne_zero (e : BitVec 16) : nextEpochAfter e ≠ 0 := by
  unfold nextEpochAfter
  split <;> [decide; skip]
  bv_omega

/-- A set with a slot added is not empty. -/
theorem or_slotBit_ne_zero (w : BitVec 32) (i : SlotId) : w ||| slotBit i ≠ 0 := fun e => by
  have h : (w ||| slotBit i).getLsbD i.val = true := by rw [BitVec.getLsbD_or, State.getLsbD_slotBit]; simp
  rw [e] at h
  simp at h

/-- A cohort that gathers, with one seal more (R57). -/
theorem Cohort.Sound.gathering {k : Cohort} (h : k.Sound) (i : SlotId) (d : Tick) :
    Cohort.Sound { k with sealed := k.sealed ||| slotBit i, state := .gathering, deadline := d } :=
  ⟨iff_of_true rfl (or_slotBit_ne_zero k.sealed i), h.epoch, h.window⟩

/-- A cohort without one of its members (R64). -/
def Cohort.without (k : Cohort) (i : SlotId) : Cohort :=
  { k with members := k.members &&& ~~~ slotBit i, sealed := k.sealed &&& ~~~ slotBit i }

namespace State

theorem slotInv_iff (s : State) : s.slotInv ↔ ∀ i, (s.slot i).Sound :=
  ⟨fun h i => by
    obtain ⟨hpinned, hnewest, hunused, hseq, ho, ha⟩ := h i
    exact ⟨hpinned, hnewest, hunused, hseq, ho, ha⟩,
  fun h i => ⟨(h i).pinned, (h i).newest, (h i).unused, (h i).nextSeq, (h i).overruns, (h i).abandons⟩⟩

theorem cohortInv_iff (s : State) : s.cohortInv ↔ ∀ c, (s.cohort c).Sound :=
  ⟨fun h c => by
    obtain ⟨hg, he, hw⟩ := h c
    exact ⟨hg, he, hw⟩,
  fun h c => ⟨(h c).gathers, (h c).epoch, (h c).window⟩⟩

/-! ### Seals taken from a cohort (R60, R62, R63) -/

theorem publishSeal_taken (s : State) (j : SlotId) (e : BitVec 16) (b : Bool) :
    (s.slot j).SealTaken ((s.publishSeal j e b).slot j) := by
  unfold publishSeal
  split
  · rename_i h; exact Slot.sealTaken_none h
  · rename_i h; rw [slot_setSlot_self]; exact Slot.sealTaken_published h e b

theorem dropSeal_taken (s : State) (j : SlotId) (w : AbandonReason) : (s.slot j).SealTaken ((s.dropSeal j w).slot j) := by
  unfold dropSeal
  split
  · rename_i h; exact Slot.sealTaken_none h
  · rename_i h; rw [slot_offer, slot_setSlot_self]; exact Slot.sealTaken_abandoned h

/-- A slot of the set is as the discard of its own seal leaves it (R63). -/
theorem discardSeals_slot (s : State) (set : BitVec 32) (j : SlotId) (h : set.getLsbD j.val = true) :
    (s.discardSeals set).slot j = (s.dropSeal j .cohortDiscard).slot j := by
  have key := foldl_slot (fun i : SlotId => i) (fun t i => if set.getLsbD i.val then t.dropSeal i .cohortDiscard else t)
    (fun t i j hj => by
      show (if set.getLsbD i.val then t.dropSeal i .cohortDiscard else t).slot j = t.slot j
      split <;> [exact dropSeal_other _ _ _ _ hj; rfl])
    (fun t u i hi => by
      show (if set.getLsbD i.val then t.dropSeal i .cohortDiscard else t).slot i =
        (if set.getLsbD i.val then u.dropSeal i .cohortDiscard else u).slot i
      change t.slot i = u.slot i at hi
      split <;> [rw [dropSeal_slot, dropSeal_slot, hi]; exact hi])
    allSlots (by rw [List.map_id']; exact List.nodup_finRange 32) j (List.mem_finRange j) s
  rw [if_pos h] at key
  exact key

/-- The seals that SEALED of a cohort names are taken: the cohort is OPEN with SEALED empty and the given EPOCH, the slots of
SEALED give up their seals, and other slots and cohorts are as they were. -/
structure SealsTaken (s t : State) (c : CohortId) (epoch : BitVec 16) : Prop where
  cohort : ∀ d, t.cohort d =
    if d = c then { s.cohort c with sealed := 0, epoch := epoch, state := .idle } else s.cohort d
  inside : ∀ j, (s.cohort c).sealed.getLsbD j.val = true → (s.slot j).SealTaken (t.slot j)
  outside : ∀ j, (s.cohort c).sealed.getLsbD j.val = false → t.slot j = s.slot j
  pool : t.pool = s.pool

theorem fullPublish_taken (s : State) (c : CohortId) :
    SealsTaken s (s.fullPublish c) c (nextEpochAfter (s.cohort c).epoch) where
  cohort := fullPublish_cohort s c
  inside j hj := by
    have h : (s.fullPublish c).slot j = (s.publishSeal j (s.cohort c).epoch false).slot j := publishSeals_slot s _ _ _ j hj
    rw [h]; exact publishSeal_taken ..
  outside _ := fullPublish_slot_other
  pool := by rw [fullPublish_only]

theorem partialPublish_cohort (s : State) (c d : CohortId) : (s.partialPublish c).cohort d =
    if d = c then { s.cohort c with sealed := 0, epoch := nextEpochAfter (s.cohort c).epoch, state := .idle }
    else s.cohort d := by
  unfold partialPublish
  simp only []
  rw [publishSeals_only, cohort_offer, cohort_setCohort]
  rfl

theorem partialPublish_slot (s : State) (c : CohortId) (j : SlotId) : (s.partialPublish c).slot j =
    if (s.cohort c).sealed.getLsbD j.val = true then (s.publishSeal j (s.cohort c).epoch true).slot j else s.slot j := by
  have h : (s.partialPublish c).slot j = (s.publishSeals (s.cohort c).sealed (s.cohort c).epoch true).slot j := rfl
  rw [h]
  split
  · rename_i hj; exact publishSeals_slot s _ _ _ j hj
  · rename_i hj; exact publishSeals_other s _ _ _ j (by simpa using hj)

theorem partialPublish_taken (s : State) (c : CohortId) :
    SealsTaken s (s.partialPublish c) c (nextEpochAfter (s.cohort c).epoch) where
  cohort := partialPublish_cohort s c
  inside j hj := by rw [partialPublish_slot, if_pos hj]; exact publishSeal_taken ..
  outside j hj := by rw [partialPublish_slot, hj]; rfl
  pool := by unfold partialPublish; simp only []; rw [publishSeals_only]; rfl

theorem cohortDiscard_cohort (s : State) (c d : CohortId) : (s.cohortDiscard c).cohort d =
    if d = c then { s.cohort c with sealed := 0, epoch := (s.cohort c).epoch, state := .idle } else s.cohort d := by
  unfold cohortDiscard
  simp only []
  rw [discardSeals_only, cohort_offer, cohort_setCohort]
  rfl

theorem cohortDiscard_slot (s : State) (c : CohortId) (j : SlotId) : (s.cohortDiscard c).slot j =
    if (s.cohort c).sealed.getLsbD j.val = true then (s.dropSeal j .cohortDiscard).slot j else s.slot j := by
  have h : (s.cohortDiscard c).slot j = (s.discardSeals (s.cohort c).sealed).slot j := rfl
  rw [h]
  split
  · rename_i hj; exact discardSeals_slot s _ j hj
  · rename_i hj; exact discardSeals_other s _ j (by simpa using hj)

theorem cohortDiscard_taken (s : State) (c : CohortId) : SealsTaken s (s.cohortDiscard c) c (s.cohort c).epoch where
  cohort := cohortDiscard_cohort s c
  inside j hj := by rw [cohortDiscard_slot, if_pos hj]; exact dropSeal_taken ..
  outside j hj := by rw [cohortDiscard_slot, hj]; rfl
  pool := by unfold cohortDiscard; simp only []; rw [discardSeals_only]; rfl

/-- A window expiry changes nothing, or takes the cohort's seals with EPOCH kept or advanced (R62, R63). -/
theorem windowExpiry_cases (s : State) (c : CohortId) : s.windowExpiry c = s ∨
    ∃ epoch, SealsTaken s (s.windowExpiry c) c epoch ∧
      (epoch = (s.cohort c).epoch ∨ epoch = nextEpochAfter (s.cohort c).epoch) := by
  unfold windowExpiry
  split <;> [skip; exact .inl rfl]
  split
  · exact .inr ⟨_, partialPublish_taken s c, .inr rfl⟩
  · exact .inr ⟨_, cohortDiscard_taken s c, .inl rfl⟩

/-! ### A seal reported to a cohort, and a member that leaves -/

/-- A report changes nothing where it only supersedes; else SEALED names the slot, and the cohort gathers, or publishes in full
(R57 to R60). -/
theorem sealReport_cases (s : State) (c : CohortId) (i : SlotId) (b : Bool) :
    (b = true ∧ s.sealReport c i b = s) ∨
    (∃ d, s.sealReport c i b = s.setCohort c { s.cohort c with
      sealed := (s.cohort c).sealed ||| slotBit i, state := .gathering, deadline := d }) ∨
    s.sealReport c i b =
      (s.setCohort c { s.cohort c with sealed := (s.cohort c).sealed ||| slotBit i }).fullPublish c := by
  unfold sealReport
  simp only []
  split
  · split <;> [exact .inr (.inr rfl); exact .inr (.inl ⟨_, rfl⟩)]
  · rename_i hg
    split <;> [(rename_i hb; exact .inl ⟨hb, rfl⟩); skip]
    split <;> [exact .inr (.inr rfl); exact .inr (.inl ⟨(s.cohort c).deadline, by rw [hg]⟩)]

theorem setCohort_setCohort (s : State) (c : CohortId) (k l : Cohort) : (s.setCohort c k).setCohort c l = s.setCohort c l := by
  unfold setCohort Table.put
  simp only [Vector.set_set]

/-- A departure leaves the cohort without the slot, OPEN where no seal is left, or the cohort then publishes in full (R64). -/
theorem depart_cases (s : State) (c : CohortId) (i : SlotId) :
    s.depart c i = s.setCohort c { (s.cohort c).without i with
      state := if ((s.cohort c).without i).sealed = 0 then .idle else (s.cohort c).state } ∨
    s.depart c i = (s.setCohort c ((s.cohort c).without i)).fullPublish c := by
  unfold depart
  simp only []
  split
  · rename_i hi
    exact .inl (by rw [hi, ite_self]; unfold Cohort.without; rw [hi])
  · split
    · rename_i hz
      have hz' : ((s.cohort c).without i).sealed = 0 := hz
      exact .inl (by rw [setCohort_setCohort, if_pos hz']; rfl)
    · split <;> [exact .inr rfl; skip]
      rename_i hz _
      exact .inl (by rw [if_neg (show ¬ ((s.cohort c).without i).sealed = 0 from hz)]; rfl)

/-- A generation of slot i has been sealed, and the cohort is still to be told; `b` says whether an older seal was superseded
(R7). -/
structure SealsMember (s u : State) (i : SlotId) (g : GenId) (b : Bool) : Prop where
  slot : (s.slot i).SealedBy g (u.slot i)
  other : ∀ j, j ≠ i → u.slot j = s.slot j
  cohorts : u.cohorts = s.cohorts
  pool : u.pool = s.pool
  older : b = true → ∃ o, ((s.slot i).gen o).state = .sealed

theorem sealsMember_setSlot {s : State} {i : SlotId} {g : GenId} {b : Bool} {y : Slot} (h : (s.slot i).SealedBy g y)
    (hb : b = true → ∃ o, ((s.slot i).gen o).state = .sealed) : SealsMember s (s.setSlot i y) i g b where
  slot := by rw [slot_setSlot_self]; exact h
  other j hj := by rw [slot_setSlot, if_neg hj]
  cohorts := rfl
  pool := rfl
  older := hb

theorem sealsMember_of_eq {s u v : State} {i : SlotId} {g : GenId} {b : Bool} (h : SealsMember s u i g b)
    (hs : v.slots = u.slots) (hc : v.cohorts = u.cohorts) (hp : v.pool = u.pool) : SealsMember s v i g b := by
  have hslot : ∀ j, v.slot j = u.slot j := fun j => by unfold State.slot; rw [hs]
  exact ⟨by rw [hslot]; exact h.slot, fun j hj => by rw [hslot]; exact h.other j hj, hc.trans h.cohorts, hp.trans h.pool,
    h.older⟩

/-- A completion changes slots steadily, or seals the FILLING generation of a cohort's slot and reports it (R6, R7). -/
theorem complete_cases (s : State) (i : SlotId) (g : GenId) (n : Nat) : s.Steady (s.complete i g n) ∨
    ∃ c u b, (s.slot i).cohort = some c ∧ ((s.slot i).gen g).state = .filling ∧ SealsMember s u i g b ∧
      s.complete i g n = u.sealReport c i b := by
  by_cases hf : ((s.slot i).gen g).state = .filling
  case neg => exact .inl (by unfold complete; simp only [hf, if_false]; exact steady_self s)
  cases hc : (s.slot i).cohort with
  | none =>
    left
    rw [complete_publish s i g n hf hc]
    refine steady_setSlot s i ⟨rfl, .rfl, .rfl, fun k => ?_, fun h k hk => ?_, fun h => ?_⟩
    · rw [gen_published]
      split <;> [(rename_i e; rw [e, hf]; exact ⟨nofun, nofun⟩); rfl]
    · rw [gen_published] at hk
      split at hk <;> [cases hk; exact h k hk]
    · exact h.published (y := (s.slot i).completed ((s.slot i).gen g) n) (by rw [hf]; decide) rfl 0 false
  | some c =>
    right
    unfold complete
    simp only [hf, hc, if_true]
    unfold sealGen
    simp only []
    split
    · rename_i hn
      exact ⟨c, _, false, rfl, trivial, sealsMember_setSlot (Slot.sealedBy_first hf hn n) nofun, rfl⟩
    · rename_i o ho
      have hy := Slot.sealedBy_supersedes hf ho n
      generalize Slot.setGen _ o _ = y at hy ⊢
      refine ⟨c, (s.setSlot i y).offer .cohortSuperseded i.val (BitVec.ofNat 32 c.val) 0, true, rfl, trivial,
        sealsMember_of_eq (sealsMember_setSlot hy fun _ => ⟨o, sealedGen_spec _ _ ho⟩) rfl rfl rfl, rfl⟩

/-- COHORT_SET leaves the cohorts, or gives one a WINDOW in range and a POLICY (R67). -/
theorem cohortSet_cases (s : State) : s.cohortSet.cohorts = s.cohorts ∨
    ∃ c w p, w ≤ Config.longestWindow ∧
      s.cohortSet.cohorts = (s.setCohort c { s.cohort c with window := w, policy := p }).cohorts := by
  unfold cohortSet
  split <;> [exact .inl rfl; skip]
  split <;> [exact .inl rfl; skip]
  split <;> [exact .inl rfl; skip]
  rename_i hw
  split <;> [exact .inl rfl; exact .inr ⟨_, _, _, Nat.not_lt.mp hw, rfl⟩]

/-! ### cohortInv -/

theorem cohortInv_of_cohorts {s t : State} (h : s.cohortInv) (hc : t.cohorts = s.cohorts) : t.cohortInv := by
  unfold cohortInv cohort at h ⊢
  rwa [hc]

theorem cohortInv_setCohort {s : State} (h : s.cohortInv) {c : CohortId} {k : Cohort} (hk : k.Sound) :
    (s.setCohort c k).cohortInv := by
  rw [cohortInv_iff] at h ⊢
  intro d
  rw [cohort_setCohort]
  split <;> [exact hk; exact h d]

/-- The cohort whose seals are taken is sound with an EPOCH that is not 0, whatever STATE and SEALED were. -/
theorem SealsTaken.cohortInv {s t : State} {c : CohortId} {epoch : BitVec 16} (h : SealsTaken s t c epoch)
    (hs : ∀ d, d ≠ c → (s.cohort d).Sound) (hw : (s.cohort c).window ≤ Config.longestWindow) (he : epoch ≠ 0) :
    t.cohortInv := by
  rw [cohortInv_iff]
  intro d
  rw [h.cohort]
  split
  · exact ⟨iff_of_false nofun (not_not.mpr rfl), he, hw⟩
  · rename_i hd; exact hs d hd

theorem setCohort_fullPublish_cohortInv {s : State} (h : s.cohortInv) (c : CohortId) {k : Cohort}
    (hw : k.window = (s.cohort c).window) : ((s.setCohort c k).fullPublish c).cohortInv := by
  rw [cohortInv_iff] at h
  refine (fullPublish_taken (s.setCohort c k) c).cohortInv (fun d hd => ?_) ?_ (nextEpochAfter_ne_zero _)
  · rw [cohort_setCohort, if_neg hd]; exact h d
  · rw [cohort_setCohort_self, hw]; exact (h c).window

theorem sealReport_cohortInv {s : State} (h : s.cohortInv) (c : CohortId) (i : SlotId) (b : Bool) :
    (s.sealReport c i b).cohortInv := by
  obtain ⟨_, e⟩ | ⟨d, e⟩ | e := sealReport_cases s c i b <;> rw [e]
  · exact h
  · exact cohortInv_setCohort h (((cohortInv_iff s).mp h c).gathering i d)
  · exact setCohort_fullPublish_cohortInv h c rfl

theorem depart_cohortInv {s : State} (h : s.cohortInv) (c : CohortId) (i : SlotId) : (s.depart c i).cohortInv := by
  obtain e | e := depart_cases s c i <;> rw [e]
  · have hk := (cohortInv_iff s).mp h c
    refine cohortInv_setCohort h ⟨?_, hk.epoch, hk.window⟩
    show ite _ _ _ = _ ↔ ((s.cohort c).without i).sealed ≠ 0
    split
    · rename_i hz; exact iff_of_false nofun (not_not.mpr hz)
    · rename_i hz
      refine iff_of_true (hk.gathers.mpr fun h0 => hz ?_) hz
      show (s.cohort c).sealed &&& ~~~ slotBit i = 0
      rw [h0]; exact BitVec.zero_and
  · exact setCohort_fullPublish_cohortInv h c rfl

theorem leaveCohort_cohortInv {s : State} (h : s.cohortInv) (i : SlotId) (c : Option CohortId) :
    (s.leaveCohort i c).cohortInv := by
  unfold leaveCohort
  split <;> [exact depart_cohortInv h _ i; exact h]

theorem cohortMove_cohortInv {s t : State} (h : s.cohortInv) (e : CohortMove s t) : t.cohortInv := by
  have hk := (cohortInv_iff s).mp h
  cases e with
  | steady e => exact cohortInv_of_cohorts h e.cohorts
  | complete i g n =>
    obtain e | ⟨c, u, b, _, _, hu, e⟩ := complete_cases s i g n
    · exact cohortInv_of_cohorts h e.cohorts
    · rw [e]; exact sealReport_cohortInv (cohortInv_of_cohorts h hu.cohorts) c i b
  | windowExpiry c =>
    obtain e | ⟨epoch, e, hepoch⟩ := windowExpiry_cases s c
    · rw [e]; exact h
    · refine e.cohortInv (fun d _ => hk d) (hk c).window ?_
      obtain rfl | rfl := hepoch <;> [exact (hk c).epoch; exact nextEpochAfter_ne_zero _]
  | cohortSet =>
    obtain e | ⟨c, w, p, hw, e⟩ := cohortSet_cases s
    · exact cohortInv_of_cohorts h e
    · exact cohortInv_of_cohorts (cohortInv_setCohort (c := c)
        (k := { s.cohort c with window := w, policy := p }) h ⟨(hk c).gathers, (hk c).epoch, hw⟩) e

/-- The changes of an accepted teardown up to the departure from the cohort (R18). -/
def teardownLeft (s : State) (i : SlotId) (force : Bool) : State := ((s.teardownBegun i).revokedIf i force).drainCheck i

theorem acceptTeardown_left (s : State) (i : SlotId) (force : Bool) :
    s.acceptTeardown i force = ((s.teardownLeft i force).leaveCohort i (s.slot i).cohort).result .ok 0 := rfl

theorem teardownLeft_steady (s : State) (i : SlotId) (force : Bool) : (s.teardownBegun i).Steady (s.teardownLeft i force) := by
  have hr : (s.teardownBegun i).Steady ((s.teardownBegun i).revokedIf i force) := by
    unfold revokedIf
    split <;> [exact revokeHandles_steady _ i; exact steady_self _]
  exact hr.trans (drainCheck_steady _ i)

theorem teardownLeft_cohorts (s : State) (i : SlotId) (force : Bool) : (s.teardownLeft i force).cohorts = s.cohorts :=
  (teardownLeft_steady s i force).cohorts.trans (by rw [teardownBegun_only])

theorem cohortAct_cohortInv {s t : State} (h : s.cohortInv) (e : CohortAct s t) : t.cohortInv := by
  cases e with
  | run e => exact run_keeps cohortInv (fun _ _ => cohortMove_cohortInv) h e
  | configure i a hi =>
    unfold acceptConfigure joinCohort
    have hk := (cohortInv_iff s).mp h
    split
    · rename_i c _
      refine cohortInv_of_cohorts (cohortInv_setCohort (c := c) (k := { s.cohort c with
        members := (s.cohort c).members ||| slotBit i }) h ⟨(hk c).gathers, (hk c).epoch, (hk c).window⟩) rfl
    · exact cohortInv_of_cohorts h rfl
  | teardown i force hi =>
    have hw := leaveCohort_cohortInv (cohortInv_of_cohorts h (teardownLeft_cohorts s i force)) i (s.slot i).cohort
    rw [acceptTeardown_left]
    exact cohortInv_of_cohorts hw rfl
  | pageTake => exact cohortInv_of_cohorts h (by rw [pageTake_only])
  | reset hs hc ha => exact cohortInv_of_cohorts cohortInv_reset hc

/-! ### slotInv -/

theorem slotInv_of_slots {s t : State} (h : s.slotInv) (hs : t.slots = s.slots) : t.slotInv := by
  unfold slotInv slot at h ⊢
  rwa [hs]

theorem Steady.slotInv {s t : State} (h : s.Steady t) (hs : s.slotInv) : t.slotInv :=
  (slotInv_iff t).mpr fun i => (h.slot i).sound ((slotInv_iff s).mp hs i)

theorem SealsTaken.slotInv {s t : State} {c : CohortId} {epoch : BitVec 16} (h : SealsTaken s t c epoch) (hs : s.slotInv) :
    t.slotInv := by
  rw [slotInv_iff] at hs ⊢
  intro j
  cases hj : (s.cohort c).sealed.getLsbD j.val with
  | true => exact (h.inside j hj).sound (hs j)
  | false => rw [h.outside j hj]; exact hs j

theorem slotInv_setSlot {s : State} (h : s.slotInv) {i : SlotId} {x : Slot} (hx : x.Sound) : (s.setSlot i x).slotInv := by
  rw [slotInv_iff] at h ⊢
  intro j
  rw [slot_setSlot]
  split <;> [exact hx; exact h j]

theorem setCohort_fullPublish_slotInv {s : State} (h : s.slotInv) (c : CohortId) (k : Cohort) :
    ((s.setCohort c k).fullPublish c).slotInv :=
  (fullPublish_taken (s.setCohort c k) c).slotInv (slotInv_of_slots h rfl)

theorem sealReport_slotInv {s : State} (h : s.slotInv) (c : CohortId) (i : SlotId) (b : Bool) :
    (s.sealReport c i b).slotInv := by
  obtain ⟨_, e⟩ | ⟨d, e⟩ | e := sealReport_cases s c i b <;> rw [e]
  · exact h
  · exact slotInv_of_slots h rfl
  · exact setCohort_fullPublish_slotInv h c _

theorem leaveCohort_slotInv {s : State} (h : s.slotInv) (i : SlotId) (c : Option CohortId) :
    (s.leaveCohort i c).slotInv := by
  unfold leaveCohort
  split <;> [skip; exact h]
  obtain e | e := depart_cases s _ i <;> rw [e]
  · exact slotInv_of_slots h rfl
  · exact setCohort_fullPublish_slotInv h _ _

/-- Steps 1 to 3 of a teardown (R18). -/
theorem teardownBegun_slotInv {s : State} (h : s.slotInv) (i : SlotId) : (s.teardownBegun i).slotInv := by
  have ha := (abandonFilling_steady s i).slotInv h
  unfold teardownBegun
  simp only []
  generalize s.abandonFilling i = u at ha ⊢
  have hx := (dropSeal_taken u i .teardown).sound ((slotInv_iff u).mp ha i)
  have hd : (u.dropSeal i .teardown).slotInv := (slotInv_iff _).mpr fun j => by
    by_cases e : j = i
    · rw [e]; exact hx
    · rw [dropSeal_other u i j _ e]; exact (slotInv_iff u).mp ha j
  exact slotInv_setSlot hd (hx.of_gens (fun _ => ⟨rfl, le_refl _⟩) rfl nofun rfl hx.overruns hx.abandons)

/-- A slot just configured (R14). -/
theorem configured_sound (x : Slot) (a : ConfigureArgs) : (x.configured a).Sound where
  pinned g hp := by rw [gen_configured] at hp; exact absurd hp (lt_irrefl 0)
  newest g e := nomatch e
  unused e := nomatch e
  nextSeq := by show (1 : Word) ≠ 0; decide
  overruns := Nat.zero_le _
  abandons := Nat.zero_le _

/-- A page taken for a slot's chain leaves all of the slot's records but HEAD (R29). -/
theorem advanceAlloc_gens (s : State) (a : Alloc) (p : PageId) (g : GenId) :
    (((s.advanceAlloc a p).slot a.slot).gen g).state = ((s.slot a.slot).gen g).state ∧
      (((s.advanceAlloc a p).slot a.slot).gen g).pins = ((s.slot a.slot).gen g).pins := by
  rw [advanceAlloc_gen_eq]
  split <;> [(rename_i e; rw [e.1]; exact ⟨rfl, rfl⟩); exact ⟨rfl, rfl⟩]

theorem advanceAlloc_slotInv {s : State} (h : s.slotInv) (a : Alloc) (p : PageId) : (s.advanceAlloc a p).slotInv := by
  rw [slotInv_iff] at h ⊢
  intro j
  by_cases e : j = a.slot
  · rw [e]
    have hg := advanceAlloc_gens s a p
    have hx := advanceAlloc_slot s a p
    have hs := h a.slot
    generalize (s.advanceAlloc a p).slot a.slot = y at hg hx ⊢
    refine hs.of_gens (fun g => ⟨(hg g).1, (hg g).2.le⟩) (by rw [hx]) (fun hu g => (hg g).2.trans (hs.unused ?_ g)) (by rw [hx])
      (by rw [hx]; exact hs.overruns) (by rw [hx]; exact hs.abandons)
    rw [hx] at hu
    simp only [] at hu
    split at hu <;> [cases hu; exact hu]
  · rw [advanceAlloc_other s a p e]; exact h j

theorem pageTake_slotInv {s : State} (h : s.slotInv) : s.pageTake.slotInv := by
  obtain e | ⟨a, p, _, _, e⟩ := pageTake_cases s <;> rw [e]
  · exact h
  · exact advanceAlloc_slotInv (slotInv_of_slots h (by rw [pageMoved_only])) a p

theorem cohortMove_slotInv {s t : State} (h : s.slotInv) (e : CohortMove s t) : t.slotInv := by
  cases e with
  | steady e => exact e.slotInv h
  | complete i g n =>
    obtain e | ⟨c, u, b, _, _, hu, e⟩ := complete_cases s i g n
    · exact e.slotInv h
    · rw [e]
      refine sealReport_slotInv ((slotInv_iff u).mpr fun j => ?_) c i b
      by_cases e : j = i
      · rw [e]; exact hu.slot.sound ((slotInv_iff s).mp h i)
      · rw [hu.other j e]; exact (slotInv_iff s).mp h j
  | windowExpiry c =>
    obtain e | ⟨epoch, e, _⟩ := windowExpiry_cases s c
    · rw [e]; exact h
    · exact e.slotInv h
  | cohortSet => exact slotInv_of_slots h (by rw [cohortSet_only])

theorem cohortAct_slotInv {s t : State} (h : s.slotInv) (e : CohortAct s t) : t.slotInv := by
  cases e with
  | run e => exact run_keeps slotInv (fun _ _ => cohortMove_slotInv) h e
  | configure i a hi =>
    have hx := slotInv_setSlot (i := i) h (configured_sound (s.slot i) a)
    unfold acceptConfigure joinCohort
    split <;> exact slotInv_of_slots hx rfl
  | teardown i force hi =>
    have hw := leaveCohort_slotInv ((teardownLeft_steady s i force).slotInv (teardownBegun_slotInv h i)) i (s.slot i).cohort
    rw [acceptTeardown_left]
    exact slotInv_of_slots hw rfl
  | pageTake => exact pageTake_slotInv h
  | reset hs hc ha => exact slotInv_of_slots slotInv_reset hs

end State

/-- Settles O53: moves of slots and cohorts keep each slot and each cohort sound, and so do the acts that open, end or clear a
membership. -/
theorem cohortsAndSlotsStayConsistent : Obligations.CohortsAndSlotsStayConsistent := by
  unfold Obligations.CohortsAndSlotsStayConsistent
  exact fun s t e =>
    ⟨fun h => step_keeps_of_cohortActs State.cohortInv (fun _ _ h => State.cohortInv_of_cohorts h rfl)
      (fun _ _ => State.cohortMove_cohortInv) (fun _ _ => State.cohortAct_cohortInv) h e,
    fun h => step_keeps_of_cohortActs State.slotInv (fun _ _ h => State.slotInv_of_slots h rfl)
      (fun _ _ => State.cohortMove_slotInv) (fun _ _ => State.cohortAct_slotInv) h e⟩

end Sys2Proof.Machine

/-! SUPPORT. MEMBERS and SEALED name exactly the slots they should (R4, R55, R57): what that says of one slot and its bits, and
that every step keeps it (O55). -/

namespace Sys2Proof.Machine
namespace Slot

/-- The slot as memberInv, sealInv and the last clause of fillInv see it; `m` and `z` are its bits of MEMBERS and SEALED of each
cohort. -/
structure Agrees (m z : CohortId → Bool) (x : Slot) : Prop where
  members : ∀ c, m c = true ↔ x.cohort = some c ∧ x.joined
  sealed : ∀ c, z c = true ↔ x.cohort = some c ∧ ∃ g, (x.gen g).state = .sealed
  one : ∀ g h, (x.gen g).state = .sealed → (x.gen h).state = .sealed → g = h
  home : ∀ g, (x.gen g).state = .sealed → x.cohort ≠ none ∧ x.live
  fills : x.FillsLive

section
variable {m z z' : CohortId → Bool} {x y : Slot}

theorem Agrees.steady (h : x.Agrees m z) (hs : x.Steady y) : y.Agrees m z where
  members c := by rw [hs.cohort, hs.joined]; exact h.members c
  sealed c := by simp only [hs.cohort, hs.seals]; exact h.sealed c
  one g k hg hk := h.one g k ((hs.seals g).mp hg) ((hs.seals k).mp hk)
  home g hg := by rw [hs.cohort, hs.live]; exact h.home g ((hs.seals g).mp hg)
  fills := hs.fills h.fills

/-- One bit less of SEALED, and the seal that it stood for is gone (R60, R62, R63). -/
theorem Agrees.sealTaken (h : x.Agrees m z) (ht : x.SealTaken y) {c : CohortId} (hc : z c = true)
    (hz : ∀ d, z' d = true ↔ d ≠ c ∧ z d = true) : y.Agrees m z' := by
  obtain ⟨hcohort, o, ho⟩ := (h.sealed c).mp hc
  have hsome : x.sealedGen = some o := State.sealedGen_some x o ho fun a b => h.one a b
  have hnone : ∀ g, (y.gen g).state ≠ .sealed := fun g hg => by
    obtain ⟨hs, hne⟩ := ht.seals g hg
    exact hne (hsome.trans (congrArg some (h.one o g ho hs)))
  have hlive : y.live ↔ x.live := by unfold Slot.live; rw [ht.state]
  refine ⟨fun d => ?_, fun d => ?_, fun g _ hg => absurd hg (hnone g), fun g hg => absurd hg (hnone g), fun g hg => ?_⟩
  · rw [ht.cohort, show y.joined ↔ x.joined from or_congr (by rw [ht.state]) hlive]; exact h.members d
  · refine iff_of_false (fun hd => ?_) fun ⟨_, g, hg⟩ => hnone g hg
    obtain ⟨hne, hd⟩ := (hz d).mp hd
    exact hne (Option.some.inj (((h.sealed d).mp hd).1.symm.trans hcohort))
  · exact hlive.mpr (h.fills g (ht.fills g hg))

/-- A FILLING generation of a cohort's slot is sealed, and the slot's bit of SEALED is set (R7, R57). -/
theorem Agrees.sealedBy (h : x.Agrees m z) {g : GenId} (hy : x.SealedBy g y) (hg : (x.gen g).state = .filling) {c : CohortId}
    (hc : x.cohort = some c) (hz : ∀ d, z' d = true ↔ d = c ∨ z d = true) : y.Agrees m z' := by
  have honly : ∀ k, (y.gen k).state = .sealed → k = g := fun k hk => by
    by_contra hne
    obtain ⟨hs, ho⟩ := hy.others k hne hk
    exact ho (State.sealedGen_some x k hs fun a b => h.one a b)
  have hlive : y.live ↔ x.live := by unfold Slot.live; rw [hy.state]
  refine ⟨fun d => ?_, fun d => ?_, fun a b ha hb => (honly a ha).trans (honly b hb).symm, fun k _ => ?_, fun k hk => ?_⟩
  · rw [hy.cohort, show y.joined ↔ x.joined from or_congr (by rw [hy.state]) hlive]; exact h.members d
  · rw [hz, hy.cohort, hc]
    refine ⟨fun hd => ⟨hd.elim (fun e => by rw [e]) fun hd => hc ▸ ((h.sealed d).mp hd).1, g, hy.sealed⟩,
      fun ⟨e, _⟩ => .inl (Option.some.inj e).symm⟩
  · exact ⟨by rw [hy.cohort, hc]; nofun, hlive.mpr (h.fills g hg)⟩
  · exact hlive.mpr (h.fills k (hy.fills k hk))

/-- A slot without seals and fills whose bits of SEALED are clear. -/
theorem agrees_blank (hm : ∀ c, m c = true ↔ x.cohort = some c ∧ x.joined) (hz : ∀ c, z c = false)
    (hs : ∀ g, (x.gen g).state ≠ .sealed) (hf : ∀ g, (x.gen g).state ≠ .filling) : x.Agrees m z where
  members := hm
  sealed c := iff_of_false (by rw [hz]; nofun) fun ⟨_, g, hg⟩ => hs g hg
  one g _ hg := absurd hg (hs g)
  home g hg := absurd hg (hs g)
  fills g hg := absurd hg (hf g)

/-- A slot that is neither ACTIVE nor FROZEN has no seal and no fill, and no SEALED names it. -/
theorem Agrees.not_live (h : x.Agrees m z) (hx : ¬ x.live) :
    (∀ c, z c = false) ∧ (∀ g, (x.gen g).state ≠ .sealed) ∧ ∀ g, (x.gen g).state ≠ .filling := by
  have hs : ∀ g, (x.gen g).state ≠ .sealed := fun g hg => hx (h.home g hg).2
  exact ⟨fun c => Bool.eq_false_iff.mpr fun hc => by obtain ⟨_, g, hg⟩ := (h.sealed c).mp hc; exact hs g hg, hs,
    fun g hg => hx (h.fills g hg)⟩

theorem not_live_of_state {st : SlotState} (h : x.state = st) (ha : st ≠ .active) (hf : st ≠ .frozen) : ¬ x.live := fun hl =>
  hl.elim (fun e => ha (h.symm.trans e)) fun e => hf (h.symm.trans e)

/-- A CONFIGURING slot takes a page, and stays CONFIGURING or becomes ACTIVE (R15, R29). -/
theorem Agrees.advance (h : x.Agrees m z) (hx : x.state = .configuring) (hy : y.joined) (hc : y.cohort = x.cohort)
    (hg : ∀ g, (y.gen g).state = (x.gen g).state) : y.Agrees m z := by
  obtain ⟨hz, hs, hf⟩ := h.not_live (not_live_of_state hx nofun nofun)
  refine agrees_blank (fun c => ?_) hz (fun g => by rw [hg]; exact hs g) fun g => by rw [hg]; exact hf g
  rw [h.members c, hc]
  exact and_congr_right fun _ => iff_of_true (.inl hx) hy

/-- A slot just configured, and its bit of the cohort it joins (R14, R65). -/
theorem agrees_configured (x : Slot) (a : ConfigureArgs) (hm : ∀ c, m c = true ↔ a.cohort = some c)
    (hz : ∀ c, z c = false) : (x.configured a).Agrees m z :=
  agrees_blank (fun c => (hm c).trans (and_iff_left (.inl rfl)).symm) hz (fun g => by rw [State.gen_configured]; nofun)
    fun g => by rw [State.gen_configured]; nofun

/-- The slot after steps 1 to 3 of a teardown: DRAINING, in no cohort, without a fill and without a seal (R18). -/
structure Left (x : Slot) : Prop where
  state : x.state = .draining
  cohort : x.cohort = none
  fills : ∀ g, (x.gen g).state ≠ .filling
  seals : ∀ g, (x.gen g).state ≠ .sealed

theorem Left.agrees (h : x.Left) (hm : ∀ c, m c = false) (hz : ∀ c, z c = false) : x.Agrees m z :=
  agrees_blank (fun c => iff_of_false (by rw [hm]; nofun) fun e => by rw [h.cohort] at e; cases e.1) hz h.seals h.fills

end

end Slot

theorem Alloc.after_some {a b : Alloc} {n : Nat} {p : PageId} (h : a.after n p = some b) :
    b.slot = a.slot ∧ 1 < a.remaining := by
  unfold Alloc.after at h
  split at h <;> [cases h; skip]
  split at h <;> cases h <;> exact ⟨rfl, by omega⟩

namespace State

/-- The bit of a slot in a set of each cohort, MEMBERS or SEALED. -/
def bits (s : State) (f : Cohort → BitVec 32) (i : SlotId) (c : CohortId) : Bool := (f (s.cohort c)).getLsbD i.val

/-- What memberInv, sealInv and the last clause of fillInv say together, slot by slot. -/
structure Sealing (s : State) : Prop where
  alloc : ∀ i, s.allocates i → (s.slot i).state = .configuring
  agrees : ∀ i, (s.slot i).Agrees (s.bits Cohort.members i) (s.bits Cohort.sealed i)

theorem sealing_iff (s : State) : s.Sealing ↔ s.memberInv ∧ s.sealInv ∧ ∀ i, (s.slot i).FillsLive := by
  refine ⟨fun h => ⟨⟨fun a ha => h.alloc _ ⟨a, ha, rfl⟩, fun c i => (h.agrees i).members c⟩,
    fun i => ⟨(h.agrees i).sealed, (h.agrees i).one, (h.agrees i).home⟩, fun i => (h.agrees i).fills⟩,
    fun ⟨⟨ha, hm⟩, hs, hf⟩ => ⟨fun i ⟨a, he, hi⟩ => hi ▸ ha a he, fun i => ?_⟩⟩
  obtain ⟨hsealed, hone, hhome⟩ := hs i
  exact ⟨fun c => hm c i, hsealed, hone, hhome, hf i⟩

theorem Sealing.of_bits {s t : State} (h : s.Sealing) (hs : t.slots = s.slots) (ha : ∀ i, t.allocates i → s.allocates i)
    (hm : ∀ c, (t.cohort c).members = (s.cohort c).members) (hz : ∀ c, (t.cohort c).sealed = (s.cohort c).sealed) :
    t.Sealing := by
  have hslot : ∀ i, t.slot i = s.slot i := fun i => by unfold State.slot; rw [hs]
  have hmb : t.bits Cohort.members = s.bits Cohort.members := by unfold bits; simp only [hm]
  have hzb : t.bits Cohort.sealed = s.bits Cohort.sealed := by unfold bits; simp only [hz]
  exact ⟨fun i hi => by rw [hslot]; exact h.alloc i (ha i hi), fun i => by rw [hslot, hmb, hzb]; exact h.agrees i⟩

theorem Sealing.of_eq {s t : State} (h : s.Sealing) (hs : t.slots = s.slots) (hc : t.cohorts = s.cohorts)
    (ha : ∀ i, t.allocates i → s.allocates i) : t.Sealing :=
  h.of_bits hs ha (fun c => by unfold State.cohort; rw [hc]) fun c => by unfold State.cohort; rw [hc]

/-! ### The moves -/

theorem bits_of_cohorts {s t : State} (h : t.cohorts = s.cohorts) : t.bits = s.bits := by
  unfold bits State.cohort; rw [h]

theorem Sealing.steady {s t : State} (h : s.Sealing) (e : s.Steady t) : t.Sealing where
  alloc i hi := (e.slot i).configuring.mpr (h.alloc i (e.alloc i hi))
  agrees i := by
    rw [bits_of_cohorts e.cohorts]
    exact (h.agrees i).steady (e.slot i)

theorem allocates_of_pool {s t : State} (h : t.pool = s.pool) (i : SlotId) : t.allocates i ↔ s.allocates i := by
  unfold allocates; rw [h]

theorem Sealing.taken {s t : State} (h : s.Sealing) {c : CohortId} {epoch : BitVec 16} (e : SealsTaken s t c epoch) :
    t.Sealing := by
  have hm : t.bits Cohort.members = s.bits Cohort.members := by
    funext i d; unfold bits; rw [e.cohort]; split <;> [(rename_i hd; rw [hd]); rfl]
  have hz : ∀ i d, t.bits Cohort.sealed i d = true ↔ d ≠ c ∧ s.bits Cohort.sealed i d = true := fun i d => by
    unfold bits
    rw [e.cohort]
    split <;> rename_i hd <;> simp [hd]
  refine ⟨fun i hi => ?_, fun i => ?_⟩
  · have hs := h.alloc i ((allocates_of_pool e.pool i).mp hi)
    cases hb : s.bits Cohort.sealed i c with
    | true => rw [(e.inside i hb).state]; exact hs
    | false => rw [e.outside i hb]; exact hs
  · rw [hm]
    cases hb : s.bits Cohort.sealed i c with
    | true => exact (h.agrees i).sealTaken (e.inside i hb) hb (hz i)
    | false =>
      rw [e.outside i hb, show t.bits Cohort.sealed i = s.bits Cohort.sealed i from funext fun d => ?_]
      · exact h.agrees i
      · by_cases hd : d = c
        · rw [hd, hb]; exact Bool.eq_false_iff.mpr fun ht => ((hz i c).mp ht).1 rfl
        · exact Bool.eq_iff_iff.mpr ((hz i d).trans (and_iff_right hd))

/-- The cohort with the slot added to SEALED. -/
def bitSealed (s : State) (c : CohortId) (i : SlotId) : State :=
  s.setCohort c { s.cohort c with sealed := (s.cohort c).sealed ||| slotBit i }

theorem bitSealed_members (s : State) (c d : CohortId) (i : SlotId) :
    ((s.bitSealed c i).cohort d).members = (s.cohort d).members := by
  unfold bitSealed
  rw [cohort_setCohort]
  split <;> [(rename_i e; rw [e]); rfl]

theorem bits_bitSealed (s : State) (c d : CohortId) (i j : SlotId) :
    (s.bitSealed c i).bits Cohort.sealed j d = true ↔ (d = c ∧ j = i) ∨ s.bits Cohort.sealed j d = true := by
  unfold bits bitSealed
  rw [cohort_setCohort]
  split
  · rename_i e
    rw [e, BitVec.getLsbD_or, getLsbD_slotBit, Bool.or_eq_true, decide_eq_true_eq, or_comm]
    exact or_congr_left ⟨fun h => ⟨rfl, h.symm⟩, fun h => h.2.symm⟩
  · rename_i e; simp [e]

/-- A sealed generation and its slot's bit of SEALED come together (R7, R57). -/
theorem Sealing.sealsMember {s u : State} (h : s.Sealing) {i : SlotId} {g : GenId} {b : Bool} {c : CohortId}
    (hc : (s.slot i).cohort = some c) (hf : ((s.slot i).gen g).state = .filling) (e : SealsMember s u i g b) :
    (u.bitSealed c i).Sealing := by
  have hslot : ∀ j, (u.bitSealed c i).slot j = u.slot j := fun _ => rfl
  have hm : (u.bitSealed c i).bits Cohort.members = s.bits Cohort.members := by
    rw [← bits_of_cohorts e.cohorts]; unfold bits; simp only [bitSealed_members]
  have hz := bits_bitSealed u c
  rw [bits_of_cohorts e.cohorts] at hz
  refine ⟨fun j hj => ?_, fun j => ?_⟩
  · have hs := h.alloc j ((allocates_of_pool (s := s) (t := u.bitSealed c i) e.pool j).mp hj)
    rw [hslot]
    by_cases ej : j = i
    · rw [ej, e.slot.state, ← ej]; exact hs
    · rw [e.other j ej]; exact hs
  · rw [hslot, hm]
    by_cases ej : j = i
    · subst ej
      exact (h.agrees j).sealedBy e.slot hf hc fun d => (hz d j j).trans (or_congr_left (and_iff_left rfl))
    · rw [e.other j ej, show (u.bitSealed c i).bits Cohort.sealed j = s.bits Cohort.sealed j from
        funext fun d => Bool.eq_iff_iff.mpr ((hz d i j).trans (or_iff_right fun hd => ej hd.2))]
      exact h.agrees j

/-- A set that has the slot already. -/
theorem or_slotBit_of_mem {w : BitVec 32} {i : SlotId} (h : w.getLsbD i.val = true) : w ||| slotBit i = w := by
  refine BitVec.eq_of_getLsbD_eq fun n hn => ?_
  have hb := getLsbD_slotBit i ⟨n, hn⟩
  rw [BitVec.getLsbD_or, show (slotBit i).getLsbD n = _ from hb]
  by_cases e : i = ⟨n, hn⟩
  · rw [show w.getLsbD n = true by rw [e] at h; exact h]; rfl
  · simp [e]

/-- A seal report to a state that is right but for the slot's bit of SEALED (R57 to R60). -/
theorem Sealing.sealReport {u : State} {c : CohortId} {i : SlotId} {b : Bool} (h : (u.bitSealed c i).Sealing)
    (hb : b = true → u.bits Cohort.sealed i c = true) : (u.sealReport c i b).Sealing := by
  have hm := bitSealed_members u c
  obtain ⟨ht, e⟩ | ⟨d, e⟩ | e := sealReport_cases u c i b <;> rw [e]
  · refine h.of_bits rfl (fun _ => id) (fun d => (hm d i).symm) fun d => ?_
    unfold bitSealed
    rw [cohort_setCohort]
    split <;> [(rename_i ed; rw [ed]; exact (or_slotBit_of_mem (hb ht)).symm); rfl]
  · refine h.of_bits rfl (fun _ => id) (fun d => ?_) fun d => ?_ <;> unfold bitSealed <;>
      rw [cohort_setCohort, cohort_setCohort] <;> split <;> rfl
  · exact h.taken (fullPublish_taken _ c)

theorem Sealing.move {s t : State} (h : s.Sealing) (e : CohortMove s t) : t.Sealing := by
  cases e with
  | steady e => exact h.steady e
  | complete i g n =>
    obtain e | ⟨c, u, b, hc, hf, hu, e⟩ := complete_cases s i g n
    · exact h.steady e
    · rw [e]
      refine (h.sealsMember hc hf hu).sealReport fun hb => ?_
      rw [bits_of_cohorts hu.cohorts]
      exact ((h.agrees i).sealed c).mpr ⟨hc, hu.older hb⟩
  | windowExpiry c =>
    obtain e | ⟨epoch, e, _⟩ := windowExpiry_cases s c
    · rw [e]; exact h
    · exact h.taken e
  | cohortSet =>
    have hslots : s.cohortSet.slots = s.slots := by rw [cohortSet_only]
    have hpool : s.cohortSet.pool = s.pool := by rw [cohortSet_only]
    have ha := fun i => (allocates_of_pool hpool i).mp
    obtain e | ⟨c, w, p, _, e⟩ := cohortSet_cases s
    · exact h.of_eq hslots e ha
    · have hk : ∀ d, s.cohortSet.cohort d = (s.setCohort c { s.cohort c with window := w, policy := p }).cohort d :=
        fun d => congrArg (fun m : Table 4 Cohort => m.get d) e
      refine h.of_bits hslots ha (fun d => ?_) fun d => ?_ <;> rw [hk, cohort_setCohort] <;>
        split <;> [(rename_i ed; rw [ed]); rfl; (rename_i ed; rw [ed]); rfl]

/-! ### A slot joins a cohort -/

theorem acceptConfigure_cohort (s : State) (i : SlotId) (a : ConfigureArgs) (c : CohortId) :
    (s.acceptConfigure i a).cohort c = if a.cohort = some c then { s.cohort c with
      members := (s.cohort c).members ||| slotBit i } else s.cohort c := by
  have hk : (s.acceptConfigure i a).cohort c = ((s.setSlot i ((s.slot i).configured a)).joinCohort i a.cohort).cohort c := rfl
  rw [hk]
  unfold joinCohort
  cases a.cohort with
  | none => rfl
  | some d =>
    show ((s.setSlot i ((s.slot i).configured a)).setCohort d _).cohort c = _
    rw [cohort_setCohort]
    by_cases e : c = d
    · rw [if_pos e, if_pos (by rw [e]), e]; rfl
    · rw [if_neg e, if_neg fun h => e (Option.some.inj h).symm]; rfl

theorem acceptConfigure_sealedBit (s : State) (i : SlotId) (a : ConfigureArgs) :
    (s.acceptConfigure i a).bits Cohort.sealed = s.bits Cohort.sealed := by
  funext j c; unfold bits; rw [acceptConfigure_cohort]; split <;> rfl

theorem acceptConfigure_memberBit (s : State) (i : SlotId) (a : ConfigureArgs) (j : SlotId) (c : CohortId) :
    (s.acceptConfigure i a).bits Cohort.members j c = true ↔
      (a.cohort = some c ∧ j = i) ∨ s.bits Cohort.members j c = true := by
  unfold bits
  rw [acceptConfigure_cohort]
  split
  · rename_i e
    rw [BitVec.getLsbD_or, getLsbD_slotBit, Bool.or_eq_true, decide_eq_true_eq, or_comm]
    exact or_congr_left ⟨fun h => ⟨e, h.symm⟩, fun h => h.2.symm⟩
  · rename_i e; simp [e]

theorem Sealing.acceptConfigure {s : State} (h : s.Sealing) {i : SlotId} (a : ConfigureArgs)
    (hi : (s.slot i).state = .unused) : (s.acceptConfigure i a).Sealing := by
  refine ⟨fun j hj => ?_, fun j => ?_⟩
  · obtain ⟨b, hb, e⟩ := hj
    rw [acceptConfigure_pool] at hb
    cases hb
    rw [acceptConfigure_slot, if_pos e.symm]
    rfl
  · rw [acceptConfigure_slot, acceptConfigure_sealedBit]
    split
    · rename_i e
      subst e
      obtain ⟨hz, _, _⟩ := (h.agrees j).not_live (Slot.not_live_of_state hi nofun nofun)
      have hm : ∀ c, ¬ s.bits Cohort.members j c = true := fun c hc => by
        obtain ⟨_, e | e⟩ := ((h.agrees j).members c).mp hc
        · rw [hi] at e; cases e
        · exact Slot.not_live_of_state hi nofun nofun e
      refine Slot.agrees_configured _ a (fun c => (acceptConfigure_memberBit s j a j c).trans ?_) hz
      exact (or_iff_left (hm c)).trans (and_iff_left rfl)
    · rename_i e
      rw [show (s.acceptConfigure i a).bits Cohort.members j = s.bits Cohort.members j from
        funext fun c => Bool.eq_iff_iff.mpr ((acceptConfigure_memberBit s i a j c).trans (or_iff_right fun h => e h.2))]
      exact h.agrees j

/-! ### A page for the slot of the allocation -/

theorem Sealing.advanceAlloc {s : State} (h : s.Sealing) {a : Alloc} (p : PageId) (ha : (s.slot a.slot).state = .configuring) :
    (s.advanceAlloc a p).Sealing := by
  have hc : (s.advanceAlloc a p).cohorts = s.cohorts := by rw [advanceAlloc_only]
  refine ⟨fun j ⟨b, hb, e⟩ => ?_, fun j => ?_⟩
  · rw [advanceAlloc_pool] at hb
    obtain ⟨hslot, hmore⟩ := Alloc.after_some hb
    rw [← e, hslot, advanceAlloc_slot, ← ha]
    exact if_neg (by omega)
  · rw [bits_of_cohorts hc]
    by_cases e : j = a.slot
    · rw [e]
      refine (h.agrees a.slot).advance ha ?_ ?_ fun g => (advanceAlloc_gens s a p g).1
      · rw [advanceAlloc_slot]
        unfold Slot.joined Slot.live
        simp only [ha]
        split <;> simp
      · rw [advanceAlloc_slot]
    · rw [advanceAlloc_other s a p e]; exact h.agrees j

theorem Sealing.pageTake {s : State} (h : s.Sealing) : s.pageTake.Sealing := by
  obtain e | ⟨a, p, ha, _, e⟩ := pageTake_cases s <;> rw [e]
  · exact h
  have honly := pageMoved_only s a.last p
  have hslots : (s.pageMoved a.last p).slots = s.slots := by rw [honly]
  have halloc : (s.pageMoved a.last p).pool.alloc = s.pool.alloc := by
    unfold pageMoved chainPage takeHead; cases a.last <;> rfl
  have hm : (s.pageMoved a.last p).Sealing :=
    h.of_eq hslots (by rw [honly]) fun i hi => by unfold allocates at hi ⊢; rwa [halloc] at hi
  exact hm.advanceAlloc p (hm.alloc _ ⟨a, halloc.trans ha, rfl⟩)

/-! ### A slot leaves its cohort -/

theorem sealedGen_iff {x : Slot} (h : ∀ a b, (x.gen a).state = .sealed → (x.gen b).state = .sealed → a = b) (g : GenId) :
    (x.gen g).state = .sealed ↔ x.sealedGen = some g :=
  ⟨fun hg => sealedGen_some x g hg h, fun hg => sealedGen_spec x g hg⟩

theorem fillingGen_iff {s : State} (h : s.fillInv) (i : SlotId) (g : GenId) :
    ((s.slot i).gen g).state = .filling ↔ (s.slot i).fillingGen = some g := by
  refine ⟨fun hg => ?_, fun hg => fillingGen_spec _ g hg⟩
  cases hk : (s.slot i).fillingGen with
  | none => exact absurd hg (fillingGen_none hk g)
  | some k => rw [fillInv_filling_unique h hg (fillingGen_spec _ k hk)]

theorem teardownBegun_left {s : State} (hf : s.fillInv) (h : s.Sealing) (i : SlotId) :
    ((s.teardownBegun i).slot i).Left := by
  have hfill := fillingGen_iff hf i
  have hseal := sealedGen_iff (h.agrees i).one
  have hslot := (teardownBegun_spec hfill hseal).slot
  have hgen : ∀ g, ((s.teardownBegun i).slot i).gen g = (((s.slot i).without (s.slot i).fillingGen).without
      (s.slot i).sealedGen).gen g := fun g => by rw [hslot]; rfl
  have hnone : ∀ g, (((s.teardownBegun i).slot i).gen g).state ≠ .filling ∧
      (((s.teardownBegun i).slot i).gen g).state ≠ .sealed := fun g => by
    rw [hgen, Slot.gen_without]
    split <;> [exact ⟨nofun, nofun⟩; (rename_i hs; rw [Slot.gen_without])]
    split <;> [exact ⟨nofun, nofun⟩; (rename_i hw; exact ⟨fun e => hw ((hfill g).mp e), fun e => hs ((hseal g).mp e)⟩)]
  exact ⟨by rw [hslot], by rw [hslot], fun g => (hnone g).1, fun g => (hnone g).2⟩

/-- Up to the departure, the slots are as they should be when the bits of the torn slot are cleared (R18, R64). -/
theorem teardownLeft_agrees {s : State} (hf : s.fillInv) (h : s.Sealing) (i : SlotId) (force : Bool) (j : SlotId) :
    ((s.teardownLeft i force).slot j).Agrees (fun c => s.bits Cohort.members j c && decide (i ≠ j))
      (fun c => s.bits Cohort.sealed j c && decide (i ≠ j)) := by
  refine Slot.Agrees.steady ?_ ((teardownLeft_steady s i force).slot j)
  by_cases e : i = j
  · subst e
    exact (teardownBegun_left hf h i).agrees (by simp) (by simp)
  · rw [(teardownBegun_spec (fillingGen_iff hf i) (sealedGen_iff (h.agrees i).one)).other j (Ne.symm e)]
    simpa [e] using h.agrees j

/-- The slot of the allocation is CONFIGURING, and so it is not the torn one. -/
theorem teardownLeft_alloc {s : State} (hf : s.fillInv) (h : s.Sealing) {i : SlotId} (hi : (s.slot i).live) (force : Bool)
    {j : SlotId} (hj : (s.teardownLeft i force).allocates j) : ((s.teardownLeft i force).slot j).state = .configuring := by
  have hb : (s.teardownBegun i).pool = s.pool := by rw [teardownBegun_only]
  have hs := h.alloc j ((allocates_of_pool hb j).mp ((teardownLeft_steady s i force).alloc j hj))
  have hne : j ≠ i := fun e => Slot.not_live_of_state hs nofun nofun (e ▸ hi)
  rw [((teardownLeft_steady s i force).slot j).configuring,
    (teardownBegun_spec (fillingGen_iff hf i) (sealedGen_iff (h.agrees i).one)).other j hne]
  exact hs

/-- To clear a bit that is clear changes nothing. -/
theorem bits_cleared {s : State} {f : Cohort → BitVec 32} {i : SlotId} {d : CohortId} (h : s.bits f i d = false) (j : SlotId) :
    s.bits f j d = (s.bits f j d && decide (i ≠ j)) := by
  by_cases e : i = j
  · rw [← e, h]; rfl
  · simp [e]

/-- The bits after a member's departure, where no other cohort has the slot (R64). -/
theorem bits_without {s : State} {f : Cohort → BitVec 32} {c : CohortId} {i : SlotId}
    (hw : f ((s.cohort c).without i) = f (s.cohort c) &&& ~~~ slotBit i) (h : ∀ d, d ≠ c → s.bits f i d = false)
    (j : SlotId) : (s.setCohort c ((s.cohort c).without i)).bits f j = fun d => s.bits f j d && decide (i ≠ j) := by
  funext d
  by_cases e : d = c
  · subst e
    unfold bits
    rw [cohort_setCohort_self, hw]
    exact getLsbD_leave _ i j
  · refine Eq.trans ?_ (bits_cleared (h d e) j)
    unfold bits
    rw [cohort_setCohort, if_neg e]

/-- A departure from a state that is right but for the bits of the slot that leaves (R64). -/
theorem Sealing.depart {s : State} {c : CohortId} {i : SlotId} (h : (s.setCohort c ((s.cohort c).without i)).Sealing) :
    (s.depart c i).Sealing := by
  obtain e | e := depart_cases s c i <;> rw [e]
  · refine h.of_bits rfl (fun _ => id) (fun d => ?_) fun d => ?_ <;> rw [cohort_setCohort, cohort_setCohort] <;> split <;> rfl
  · exact h.taken (fullPublish_taken _ c)

/-- No cohort has a bit of a slot but the one that its COHORT names. -/
theorem Sealing.bits_false {s : State} (h : s.Sealing) {i : SlotId} {d : CohortId} (hd : (s.slot i).cohort ≠ some d) :
    s.bits Cohort.members i d = false ∧ s.bits Cohort.sealed i d = false :=
  ⟨Bool.eq_false_iff.mpr fun e => hd (((h.agrees i).members d).mp e).1,
    Bool.eq_false_iff.mpr fun e => hd (((h.agrees i).sealed d).mp e).1⟩

theorem Sealing.acceptTeardown {s : State} (hf : s.fillInv) (h : s.Sealing) {i : SlotId} (hi : (s.slot i).live)
    (force : Bool) : (s.acceptTeardown i force).Sealing := by
  have ha := fun j => teardownLeft_alloc hf h hi force (j := j)
  have hx := teardownLeft_agrees hf h i force
  have hcohorts := teardownLeft_cohorts s i force
  have hbits := bits_of_cohorts hcohorts
  rw [acceptTeardown_left]
  generalize s.teardownLeft i force = u at ha hx hbits ⊢
  rw [← hbits] at hx
  have hclear : ∀ d, (s.slot i).cohort ≠ some d → u.bits Cohort.members i d = false ∧ u.bits Cohort.sealed i d = false :=
    fun d hd => by rw [hbits]; exact h.bits_false hd
  refine Sealing.of_eq (s := u.leaveCohort i (s.slot i).cohort) ?_ rfl rfl fun _ => id
  cases hc : (s.slot i).cohort with
  | none =>
    have hnone : ∀ d, u.bits Cohort.members i d = false ∧ u.bits Cohort.sealed i d = false := fun d =>
      hclear d (by rw [hc]; nofun)
    refine ⟨ha, fun j => ?_⟩
    have hj := hx j
    simp only [← bits_cleared (hnone _).1 j, ← bits_cleared (hnone _).2 j] at hj
    exact hj
  | some c =>
    have hother : ∀ d, d ≠ c → u.bits Cohort.members i d = false ∧ u.bits Cohort.sealed i d = false := fun d hd =>
      hclear d (by rw [hc]; exact fun e => hd (Option.some.inj e).symm)
    refine Sealing.depart ⟨ha, fun j => ?_⟩
    rw [bits_without rfl fun d hd => (hother d hd).1, bits_without rfl fun d hd => (hother d hd).2]
    exact hx j

/-! ### The acts and the step -/

theorem sealing_reset : State.reset.Sealing :=
  (sealing_iff _).mpr ⟨memberInv_reset, sealInv_reset, fun i g hg => by rw [slot_reset, gen_reset] at hg; cases hg⟩

theorem Sealing.act {s t : State} (hf : s.fillInv) (h : s.Sealing) (e : CohortAct s t) : t.Sealing := by
  cases e with
  | run e => exact run_keeps Sealing (fun _ _ => Sealing.move) h e
  | configure i a hi => exact h.acceptConfigure a hi
  | teardown i force hi => exact h.acceptTeardown hf hi force
  | pageTake => exact h.pageTake
  | reset hs hc ha => exact sealing_reset.of_eq hs hc fun i ⟨a, e, _⟩ => by rw [ha] at e; cases e

theorem sealing_of_fillInv {s : State} (hf : s.fillInv) (hm : s.memberInv) (hz : s.sealInv) : s.Sealing := by
  obtain ⟨_, _, hfill⟩ := hf
  exact (sealing_iff s).mpr ⟨hm, hz, fun i g => (hfill i g).2⟩

end State

/-- Settles O55: with the fills in live slots, each slot agrees with its bits of MEMBERS and SEALED; moves and acts keep that. -/
theorem membersAndSealsAreNamedExactly : Obligations.MembersAndSealsAreNamedExactly := by
  unfold Obligations.MembersAndSealsAreNamedExactly
  intro s t _ hf hm hz e
  have ht : t.fillInv ∧ t.Sealing := step_keeps_of_acts (fun s => s.fillInv ∧ s.Sealing)
    (fun _ _ ⟨hf, h⟩ => ⟨State.fillInv_frame hf rfl rfl rfl, h.of_eq rfl rfl fun _ => id⟩)
    (fun _ _ ⟨hf, h⟩ e => ⟨State.grantAct_fillInv hf e, run_keeps State.Sealing (fun _ _ => State.Sealing.move) h
      (State.grantAct_cohortRun e)⟩)
    (fun _ _ ⟨hf, h⟩ e => ⟨State.act_fillInv hf e, h.act hf (State.act_cohortAct e)⟩)
    ⟨hf, State.sealing_of_fillInv hf hm hz⟩ e
  obtain ⟨hm, hz, _⟩ := (State.sealing_iff t).mp ht.2
  exact ⟨hm, hz⟩

end Sys2Proof.Machine

/-! SUPPORT. COHORT_SET and the window expiry, as their statements say them (R62, R63, R67). -/

namespace Sys2Proof.Machine

theorem policyArg_none {w : Word} (h : 1 < w.toNat) : policyArg w = none := by
  unfold policyArg
  rw [if_neg (by rintro rfl; exact absurd h (by decide)), if_neg (by rintro rfl; exact absurd h (by decide))]

theorem policyArg_some {w : Word} (h : w.toNat ≤ 1) :
    policyArg w = some (if w.toNat = 0 then .publish else .discard) := by
  unfold policyArg
  by_cases h0 : w.toNat = 0
  · rw [if_pos h0, if_pos (BitVec.eq_of_toNat_eq h0)]
  · have h1 : w = 1 := BitVec.eq_of_toNat_eq (show w.toNat = 1 by omega)
    rw [if_neg h0, h1]
    rfl

namespace State

/-! ### The window -/

theorem windowDue_iff (s : State) (c : CohortId) : s.windowDue c = true ↔
    (s.cohort c).state = .gathering ∧ (s.cohort c).window ≠ 0 ∧ s.timebase.counter = (s.cohort c).deadline := by
  unfold windowDue now
  simp only [Bool.and_eq_true, decide_eq_true_eq, and_assoc]

theorem windowExpiry_notDue {s : State} {c : CohortId} (h : ¬ s.windowDue c = true) : s.windowExpiry c = s := if_neg h

theorem windowExpiry_publish {s : State} {c : CohortId} (h : s.windowDue c = true) (hp : (s.cohort c).policy = .publish) :
    s.windowExpiry c = s.partialPublish c := by
  unfold windowExpiry; rw [if_pos h, hp]

theorem windowExpiry_discard {s : State} {c : CohortId} (h : s.windowDue c = true) (hp : (s.cohort c).policy = .discard) :
    s.windowExpiry c = s.cohortDiscard c := by
  unfold windowExpiry; rw [if_pos h, hp]

theorem partialPublish_events (s : State) (c : CohortId) : (s.partialPublish c).events =
    s.events.take (s.record .cohortTimeout c.val ((s.cohort c).epoch.setWidth 32) 0) := by
  unfold partialPublish
  simp only []
  rw [publishSeals_only]
  rfl

/-- A slot that discards its one seal (R63). -/
theorem dropSeal_abandoned {s : State} {j : SlotId} {x : GenId} (hx : ((s.slot j).gen x).state = .sealed)
    (hu : ∀ a b, ((s.slot j).gen a).state = .sealed → ((s.slot j).gen b).state = .sealed → a = b) (w : AbandonReason) :
    (s.dropSeal j w).slot j = (s.slot j).abandoned x := by
  rw [dropSeal_slot, sealedGen_some _ x hx hu]
  rfl

/-- The cohort after an expiry that is due (R62, R63). -/
theorem windowExpiry_cohort {s : State} {c : CohortId} (h : s.windowDue c = true) :
    (s.windowExpiry c).cohort c = { s.cohort c with
      state := .idle, sealed := 0,
      epoch := if (s.cohort c).policy = .discard then (s.cohort c).epoch
               else if (s.cohort c).epoch.toNat = 65535 then 1 else (s.cohort c).epoch + 1 } := by
  cases hp : (s.cohort c).policy with
  | publish => rw [windowExpiry_publish h hp, partialPublish_cohort, if_pos rfl, if_neg nofun, nextEpochAfter_eq]
  | discard => rw [windowExpiry_discard h hp, cohortDiscard_cohort, if_pos rfl, if_pos rfl]

theorem windowExpiry_slot_other {s : State} {c : CohortId} {i : SlotId} (h : (s.cohort c).sealed.getLsbD i.val = false) :
    (s.windowExpiry c).slot i = s.slot i := by
  obtain e | ⟨epoch, e, _⟩ := windowExpiry_cases s c
  · rw [e]
  · exact e.outside i h

/-- The slots of SEALED publish under PARTIAL (R62). -/
theorem windowExpiry_published {s : State} {c : CohortId} (h : s.windowDue c = true) (hp : (s.cohort c).policy = .publish)
    {i : SlotId} (hi : (s.cohort c).sealed.getLsbD i.val = true) {g : GenId} (hg : ((s.slot i).gen g).state = .sealed)
    (hu : ∀ a b, ((s.slot i).gen a).state = .sealed → ((s.slot i).gen b).state = .sealed → a = b) :
    (s.windowExpiry c).slot i = (s.slot i).published g ((s.slot i).gen g) (s.cohort c).epoch true := by
  rw [windowExpiry_publish h hp, partialPublish_slot, if_pos hi, publishSeal_slot hg hu]

/-- The slots of SEALED throw their seals away under DISCARD (R63). -/
theorem windowExpiry_abandoned {s : State} {c : CohortId} (h : s.windowDue c = true) (hp : (s.cohort c).policy = .discard)
    {i : SlotId} (hi : (s.cohort c).sealed.getLsbD i.val = true) {g : GenId} (hg : ((s.slot i).gen g).state = .sealed)
    (hu : ∀ a b, ((s.slot i).gen a).state = .sealed → ((s.slot i).gen b).state = .sealed → a = b) :
    (s.windowExpiry c).slot i = (s.slot i).abandoned g := by
  rw [windowExpiry_discard h hp, cohortDiscard_slot, if_pos hi, dropSeal_abandoned hg hu]

/-! ### The records of a discard -/

/-- One slot's part in the discard of a set of seals (R63). -/
def discardSeal (set : BitVec 32) (t : State) (i : SlotId) : State :=
  if set.getLsbD i.val then t.dropSeal i .cohortDiscard else t

theorem discardSeals_eq (s : State) (set : BitVec 32) : s.discardSeals set = allSlots.foldl (discardSeal set) s := rfl

theorem discardSeal_out {set : BitVec 32} {i : SlotId} (h : ¬ set.getLsbD i.val = true) (s : State) :
    s.discardSeal set i = s := if_neg h

/-- The records of the discard at some slots, each with at most the seal that `gen` names. -/
theorem discardSeals_foldl_events (set : BitVec 32) (gen : SlotId → GenId) : ∀ (l : List SlotId) (s : State), l.Nodup →
    (∀ i ∈ l, set.getLsbD i.val = true → ∀ g, ((s.slot i).gen g).state = .sealed ↔ g = gen i) →
    (l.foldl (discardSeal set) s).events = s.events.takeAll ((l.filter fun i : SlotId => set.getLsbD i.val).map fun i =>
      s.record .genAbandoned i.val (BitVec.ofNat 32 ((s.slot i).gen (gen i)).words) 8)
  | [], _, _, _ => rfl
  | i :: l, s, hn, hg => by
    obtain ⟨hi, hn⟩ := List.nodup_cons.mp hn
    by_cases hb : set.getLsbD i.val = true
    case neg =>
      rw [List.foldl_cons, discardSeal_out hb, List.filter_cons, if_neg hb]
      exact discardSeals_foldl_events set gen l s hn fun j hj => hg j (List.mem_cons_of_mem i hj)
    have hstep : s.discardSeal set i = s.dropSeal i .cohortDiscard := if_pos hb
    have hother : ∀ j ∈ l, (s.dropSeal i .cohortDiscard).slot j = s.slot j := fun j hj =>
      dropSeal_other s i j _ fun e => hi (e ▸ hj)
    have hseal : (s.slot i).sealedGen = some (gen i) := Slot.sealedGen_eq fun g =>
      (hg i List.mem_cons_self hb g).trans ⟨fun e => by rw [e], fun e => (Option.some.inj e).symm⟩
    have hevents : (s.dropSeal i .cohortDiscard).events = s.events.take
        (s.record .genAbandoned i.val (BitVec.ofNat 32 ((s.slot i).gen (gen i)).words) 8) := by
      rw [dropSeal_events, hseal]; rfl
    have hrecord : ∀ k o a r, (s.dropSeal i .cohortDiscard).record k o a r = s.record k o a r := fun _ _ _ _ => by
      rw [dropSeal_only]; rfl
    rw [List.foldl_cons, hstep, List.filter_cons, if_pos hb, List.map_cons, EventQueue.takeAll_cons, ← hevents]
    refine (discardSeals_foldl_events set gen l _ hn fun j hj hj' => ?_).trans
      (congrArg _ (List.map_congr_left fun j hj => ?_))
    · rw [hother j hj]; exact hg j (List.mem_cons_of_mem i hj) hj'
    · rw [hother j (List.mem_of_mem_filter hj), hrecord]

/-- The records of an expiry under DISCARD (R63). -/
theorem cohortDiscard_events {s : State} {c : CohortId} {gen : SlotId → GenId}
    (hg : ∀ i, (s.cohort c).sealed.getLsbD i.val = true → ∀ g, ((s.slot i).gen g).state = .sealed ↔ g = gen i) :
    (s.cohortDiscard c).events = (s.events.takeAll
      (((List.finRange 32).filter fun i : SlotId => (s.cohort c).sealed.getLsbD i.val).map fun i =>
        s.record .genAbandoned i.val (BitVec.ofNat 32 ((s.slot i).gen (gen i)).words) 8)).take
      (s.record .cohortTimeout c.val 0 0) := by
  have hseals := discardSeals_foldl_events (s.cohort c).sealed gen allSlots s (List.nodup_finRange 32) fun i _ => hg i
  rw [← discardSeals_eq] at hseals
  have hnow : (s.discardSeals (s.cohort c).sealed).now = s.now := by rw [discardSeals_only]; rfl
  have hevents : (s.cohortDiscard c).events = (s.discardSeals (s.cohort c).sealed).events.take
      ((s.discardSeals (s.cohort c).sealed).record .cohortTimeout c.val 0 0) := rfl
  rw [hevents, hseals]
  unfold record
  rw [hnow]
  rfl

end State

/-- Settles O16: the tests in the order of R67, then one cohort written. -/
theorem cohortSetSetsWindowAndPolicy : Obligations.CohortSetSetsWindowAndPolicy := by
  unfold Obligations.CohortSetSetsWindowAndPolicy
  intro s hfree
  have he : exec .cohortSet s = .next s.cohortSet := State.hostWrite_trigger s _ hfree
  rw [he]
  unfold State.cohortSet
  refine ⟨fun h => ?_, fun c hc => ?_⟩
  · rw [objectArg_none (by omega)]; rfl
  rw [State.objectArg_eq _ c hc]
  refine ⟨fun h => ?_, fun h hw => ?_, fun h hw hp => ?_, fun h hw hp => ?_⟩ <;> simp only []
  · rw [if_pos (by rw [h]; nofun)]; rfl
  · rw [if_neg (not_not.mpr h), if_pos (show Config.longestWindow < _ from hw)]; rfl
  · rw [if_neg (not_not.mpr h), if_neg (show ¬ Config.longestWindow < _ from Nat.not_lt.mpr hw), policyArg_none hp]; rfl
  · rw [if_neg (not_not.mpr h), if_neg (show ¬ Config.longestWindow < _ from Nat.not_lt.mpr hw), policyArg_some hp]
    exact ⟨_, rfl, State.cohort_setCohort_self .., fun d hd => (State.cohort_setCohort ..).trans (if_neg hd), rfl⟩

/-- Settles O17: an expiry that is not due is none; one that is due publishes or discards by POLICY. -/
theorem windowExpiryPublishesOrDiscards : Obligations.WindowExpiryPublishesOrDiscards := by
  unfold Obligations.WindowExpiryPublishesOrDiscards
  refine fun s c => ⟨fun h => ?_, fun hs hw ht hone => ?_⟩
  · have hn : ¬ s.windowDue c = true := fun hd => by
      obtain ⟨hs, hw, ht⟩ := (State.windowDue_iff s c).mp hd
      obtain h | h | h := h
      · rw [hs] at h; cases h
      · exact hw h
      · exact h ht
    exact congrArg Host.Outcome.next (State.windowExpiry_notDue hn)
  have hd := (State.windowDue_iff s c).mpr ⟨hs, hw, ht⟩
  obtain ⟨honly, _, hother⟩ := State.windowExpiry_spec s c
  refine ⟨s.windowExpiry c, rfl, State.windowExpiry_cohort hd, hother, fun i => State.windowExpiry_slot_other,
    fun i g hi hg => ⟨fun hp => ?_, fun hp => ?_, fun h hne => ?_⟩, fun hp => ?_, honly⟩
  · rw [State.windowExpiry_published hd hp hi hg (hone i)]
    refine ⟨by rw [gen_published, if_pos rfl], ?_⟩
    have hseq : (if (s.slot i).nextSeq.toNat = 4294967295 then 1 else (s.slot i).nextSeq + 1) =
        nextSeqAfter (s.slot i).nextSeq := seqAfter_eq _
    rw [hseq]
    rfl
  · rw [State.windowExpiry_abandoned hd hp hi hg (hone i)]
    exact ⟨by rw [Slot.gen_abandoned, if_pos rfl]; rfl, rfl⟩
  · cases hp : (s.cohort c).policy with
    | publish => rw [State.windowExpiry_published hd hp hi hg (hone i), gen_published, if_neg hne]
    | discard => rw [State.windowExpiry_abandoned hd hp hi hg (hone i), Slot.gen_abandoned, if_neg hne]
  · rw [State.windowExpiry_publish hd hp, State.partialPublish_events]

/-- Settles O18, by induction on the slots in ascending order. -/
theorem discardReportsEverySeal : Obligations.DiscardReportsEverySeal := by
  unfold Obligations.DiscardReportsEverySeal
  intro s c gen hs hw ht hp hg
  have hd := (State.windowDue_iff s c).mpr ⟨hs, hw, ht⟩
  exact ⟨s.cohortDiscard c, congrArg Host.Outcome.next (State.windowExpiry_discard hd hp), State.cohortDiscard_events hg⟩

end Sys2Proof.Machine

/-! SUPPORT. The schedule memory, its protection, the program check and the commands that begin it, as their statements say
them (R71, R75 to R79, R84 to R86, R91, R92). -/

namespace Sys2Proof.Machine

theorem Program.holds_iff (q : Program) (e : Nat) : q.holds e = true ↔ q.base ≤ e ∧ e < q.base + q.len := by
  unfold Program.holds
  rw [Bool.and_eq_true, decide_eq_true_eq, decide_eq_true_eq]

theorem Link.protects_iff (l : Link) (e : Nat) : l.protects e = true ↔
    l.state ≠ .off ∧ (l.active.holds e = true ∨ (l.pendingValid = true ∧ l.pending.holds e = true)) := by
  unfold Link.protects
  rw [Bool.and_eq_true, Bool.or_eq_true, Bool.and_eq_true, decide_eq_true_eq]

namespace State

/-! ### Schedule writes (R71, R79) -/

/-- A link or the check in progress protects the entry (R79, R80). -/
theorem isProtected_iff (s : State) (e : Nat) : s.isProtected e = true ↔
    (∃ k, (s.link k).protects e = true) ∨ ∃ c, s.check = some c ∧ c.prog.holds e = true := by
  have hlinks : (allLinks.any fun k => (s.link k).protects e) = true ↔ ∃ k, (s.link k).protects e = true := by
    rw [List.any_eq_true]
    exact ⟨fun ⟨k, _, h⟩ => ⟨k, h⟩, fun ⟨k, h⟩ => ⟨k, mem_allLinks k, h⟩⟩
  unfold isProtected
  rw [Bool.or_eq_true, hlinks]
  cases s.check with
  | none => simp
  | some c => simp

theorem writeSchedule_again {s : State} {e : EntryId} (h : s.isProtected e.val = true) (hw : s.protectedWrite = true)
    (second : Bool) (v : Word) : s.writeSchedule e second v = s := by
  unfold writeSchedule
  rw [if_pos h, if_pos hw]

theorem writeSchedule_recorded {s : State} {e : EntryId} (h : s.isProtected e.val = true) (hw : s.protectedWrite = false)
    (second : Bool) (v : Word) : s.writeSchedule e second v = { s with protectedWrite := true, protectedEntry := e } := by
  unfold writeSchedule
  rw [if_pos h, if_neg (by rw [hw]; exact Bool.false_ne_true)]

theorem writeSchedule_stored {s : State} {e : EntryId} (h : ¬ s.isProtected e.val = true) (second : Bool) (v : Word) :
    s.writeSchedule e second v = { s with
      schedule := Cells.write clearedWord s.schedule (2 * e.val + second.toNat) (v &&& entryMask second) } := by
  unfold writeSchedule
  exact if_neg h

/-- The schedule memory after a word is written: that address reads as the word, every other as before. -/
theorem scheduleWord_write {s : State} (h : s.memoriesWf = true) (a b : Nat) (w : Word) :
    ({ s with schedule := Cells.write clearedWord s.schedule a w } : State).scheduleWord b =
      if b = a then w else s.scheduleWord b := by
  obtain ⟨hwords, _⟩ := (memoriesWf_iff s).mp h
  unfold scheduleWord
  rw [Cells.read_write _ _ _ _ _ (Cells.rising_of_wf hwords.schedule)]
  split <;> rfl

/-! ### One examination of the check (R76, R77) -/

section
variable {s : State} {c : Check}

theorem checkExamine_none (h : s.check = none) : s.checkExamine = s := by
  unfold checkExamine
  rw [h]

theorem checkExamine_invalid (hc : s.check = some c) (h : (s.entry (c.prog.base + c.pos)).action = .invalid) :
    s.checkExamine = s.checkFail c.link .badAction (c.prog.base + c.pos) := by
  unfold checkExamine
  rw [hc]
  simp only [h]

theorem checkExamine_frameEnd (hc : s.check = some c) (h : (s.entry (c.prog.base + c.pos)).action = .frameEnd) :
    s.checkExamine = s.examineEnd c := by
  unfold checkExamine
  rw [hc]
  simp only [h]

theorem checkExamine_item (hc : s.check = some c) (h : (s.entry (c.prog.base + c.pos)).action = .emit ∨
    (s.entry (c.prog.base + c.pos)).action = .emitFresh) :
    s.checkExamine = s.examineItem c (s.entry (c.prog.base + c.pos)) := by
  unfold checkExamine
  rw [hc]
  rcases h with h | h <;> simp only [h]

theorem examineEnd_emptyFrame (h : c.items = 0) :
    s.examineEnd c = s.checkFail c.link .emptyFrame (c.prog.base + c.pos) := if_pos h

theorem examineEnd_pass (h : c.items ≠ 0) (hlast : c.pos + 1 = c.prog.len) : s.examineEnd c = s.checkPass c :=
  (if_neg h).trans (if_pos hlast)

theorem examineEnd_next (h : c.items ≠ 0) (hlast : c.pos + 1 ≠ c.prog.len) :
    s.examineEnd c = s.checkNext { c with slots := [], run := 5, items := 0 } :=
  (if_neg h).trans (if_neg hlast)

variable {e : SchedEntry}

theorem examineItem_window (h : 1024 < e.offset + e.count) :
    s.examineItem c e = s.checkFail c.link .window (c.prog.base + c.pos) := if_pos h

theorem examineItem_tooManySlots (hw : e.offset + e.count ≤ 1024) (hs : 9 ≤ (slotsWith c.slots e.slot).length) :
    s.examineItem c e = s.checkFail c.link .tooManySlots (c.prog.base + c.pos) :=
  (if_neg hw.not_gt).trans (if_pos hs)

theorem examineItem_frameTooLong (hw : e.offset + e.count ≤ 1024) (hs : (slotsWith c.slots e.slot).length < 9)
    (hr : 4096 < c.run + worstItem e) :
    s.examineItem c e = s.checkFail c.link .frameTooLong (c.prog.base + c.pos) :=
  (if_neg hw.not_gt).trans ((if_neg hs.not_ge).trans (if_pos hr))

/-- An item that passes the three tests of R76 of its own must not be the last entry of the program (R77). -/
theorem examineItem_fits (hw : e.offset + e.count ≤ 1024) (hs : (slotsWith c.slots e.slot).length < 9)
    (hr : c.run + worstItem e ≤ 4096) :
    s.examineItem c e =
      if c.pos + 1 = c.prog.len then s.checkFail c.link .noFinalEnd (c.prog.base + c.pos)
      else s.checkNext { c with
        slots := slotsWith c.slots e.slot, run := c.run + worstItem e, items := c.items + 1 } :=
  (if_neg hw.not_gt).trans ((if_neg hs.not_ge).trans (if_neg hr.not_gt))
end

/-- The words of a frame so far with an item's worst case added (R76). -/
theorem add_worstItem (run : Nat) (e : SchedEntry) :
    run + worstItem e = run + 3 + (if e.count = 0 then 1024 - e.offset else e.count) := by
  unfold worstItem
  split <;> exact (Nat.add_assoc ..).symm

/-! ### A check that passes (R78, R85, R92) -/

theorem checkPass_eq (s : State) (c : Check) : s.checkPass c = { s with
    check := none, links := (s.checkPass c).links
    events := s.events.take (s.record .commandDone c.link.val 0 0)
    cmd := { s.cmd with code := .ok, detail := 0, state := .idle, running := none } } := by
  unfold checkPass
  cases c.kind with
  | start => unfold startLink; cases hr : s.cmd.running <;> simp only [hr] <;> rfl
  | load | configure => rfl

theorem checkPass_link_load (s : State) {c : Check} (h : c.kind = .load) :
    (s.checkPass c).link c.link = { s.link c.link with pending := c.prog, pendingValid := true } := by
  unfold checkPass
  rw [h]
  exact link_setLink_self ..

theorem checkPass_link_start {s : State} {c : Check} {r : Running} (h : c.kind = .start) (hr : s.cmd.running = some r) :
    (s.checkPass c).link c.link = { s.link c.link with
      state := .wait, active := c.prog, period := (r.args.get 3).toNat, sync := r.args.get 4
      stallLimit := (r.args.get 5).toNat, frameNo := 0, cycleNo := 0, cursor := 0, slips := 0, aborts := 0
      lastSeen := Vector.replicate 32 0, pendingValid := false
      remain := firstRemain (r.args.get 3).toNat (ticksBetween s.now r.began) } := by
  unfold checkPass startLink
  simp only [h, hr]
  exact link_setLink_self ..

theorem checkPass_link_other (s : State) (c : Check) {k : LinkId} (h : k ≠ c.link) :
    (s.checkPass c).link k = s.link k := by
  unfold checkPass
  cases c.kind with
  | start =>
    unfold startLink
    cases hr : s.cmd.running with
    | none => simp only [hr]; rfl
    | some r => simp only [hr]; exact (link_setLink ..).trans (if_neg h)
  | load => exact (link_setLink ..).trans (if_neg h)
  | configure => rfl

/-! ### The commands that begin a check (R75, R84, R91) -/

section
variable {s : State} {k : LinkId} {prog : Program}

theorem checkStart_inRange (h : 1 ≤ prog.len ∧ prog.len ≤ 1024 ∧ prog.base + prog.len ≤ 1024) (kind : LongCommand) :
    s.checkStart k kind prog = { s with
      check := some { link := k, kind := kind, prog := prog, pos := 0, slots := [], run := 5, items := 0 } } := if_pos h

theorem checkStart_outOfRange (h : ¬ (1 ≤ prog.len ∧ prog.len ≤ 1024 ∧ prog.base + prog.len ≤ 1024)) (kind : LongCommand) :
    s.checkStart k kind prog = s.checkFail k .range prog.base := if_neg h

theorem linkStart_notOff (hk : (s.arg 0).toNat = k.val) (h : (s.link k).state ≠ .off) :
    s.linkStart = s.refusedBy .state 2 := by
  unfold linkStart
  rw [objectArg_eq _ k hk]
  exact if_pos h

/-- LINK_START of a link in OFF, after its first two tests (R91). -/
theorem linkStart_off (hk : (s.arg 0).toNat = k.val) (h : (s.link k).state = .off) :
    s.linkStart =
      if 65535 < (s.arg 2).toNat then s.refusedBy .badArg 3
      else if ¬ (1 ≤ (s.arg 3).toNat ∧ (s.arg 3).toNat ≤ 16777215) then s.refusedBy .badArg 4
      else if ¬ (1 ≤ (s.arg 5).toNat ∧ (s.arg 5).toNat ≤ 65535) then s.refusedBy .badArg 5
      else (s.startCommand .start).checkStart k .start s.argProgram := by
  unfold linkStart
  rw [objectArg_eq _ k hk]
  exact if_neg (not_not.mpr h)

theorem linkLoad_notRunning (hk : (s.arg 0).toNat = k.val) (h : ¬ ((s.link k).state = .wait ∨ (s.link k).state = .frame)) :
    s.linkLoad = s.refusedBy .state 2 := by
  unfold linkLoad
  rw [objectArg_eq _ k hk]
  exact if_pos h

/-- LINK_LOAD of a link in WAIT or FRAME, after its first two tests (R84). -/
theorem linkLoad_running (hk : (s.arg 0).toNat = k.val) (h : (s.link k).state = .wait ∨ (s.link k).state = .frame) :
    s.linkLoad =
      if 65535 < (s.arg 2).toNat then s.refusedBy .badArg 3
      else (s.startCommand .load).checkStart k .load s.argProgram := by
  unfold linkLoad
  rw [objectArg_eq _ k hk]
  exact if_neg (not_not.mpr h)
end

end State

/-- Settles O29: the protection is `isProtected`, and a write that takes effect is one write of the schedule memory. -/
theorem scheduleWritesRespectProtection : Obligations.ScheduleWritesRespectProtection := by
  unfold Obligations.ScheduleWritesRespectProtection
  intro s e second v hfree hwf lies protectedBy
  have hexec : exec (.scheduleWrite e second v) s = .next (s.writeSchedule e second v) := s.hostWrite_free _ hfree
  have hprot : s.isProtected e.val = true ↔ protectedBy := by
    rw [State.isProtected_iff]
    simp only [Link.protects_iff, Program.holds_iff]
    rfl
  rw [hexec, ← hprot]
  refine ⟨fun h hw => ?_, fun h hw => ?_, fun h => ⟨_, rfl, fun a => ?_, ?_⟩⟩
  · rw [State.writeSchedule_again h hw]
  · rw [State.writeSchedule_recorded h hw]
  · rw [State.writeSchedule_stored h, State.scheduleWord_write hwf]
    cases second <;> rfl
  · rw [State.writeSchedule_stored h]

/-- Settles O30: an examination by the ACTION of its entry, each test by its place in the order of R76 and R77, and the pass by
the link's context and the end of the command. -/
theorem checkExaminesOneEntry : Obligations.CheckExaminesOneEntry := by
  unfold Obligations.CheckExaminesOneEntry
  refine ⟨fun s h => congrArg Host.Outcome.next (State.checkExamine_none h), ?_, ?_⟩
  · intro s c hc n e isItem slots run fails
    have failed : ∀ why : CheckFailure, s.checkExamine = s.checkFail c.link why n → fails why.value :=
      fun why h => congrArg Host.Outcome.next h
    have hrun : c.run + worstItem e = run := State.add_worstItem c.run e
    have item : isItem → s.checkExamine = s.examineItem c e := State.checkExamine_item hc
    have atEnd : e.action = .frameEnd → s.checkExamine = s.examineEnd c := State.checkExamine_frameEnd hc
    have fits : isItem → e.offset + e.count ≤ 1024 → slots.length < 9 → run ≤ 4096 → s.checkExamine =
        if c.pos + 1 = c.prog.len then s.checkFail c.link .noFinalEnd n
        else s.checkNext { c with slots := slots, run := run, items := c.items + 1 } := fun hi hw hs hr => by
      rw [← hrun] at hr ⊢
      exact (item hi).trans (State.examineItem_fits hw hs hr)
    refine ⟨fun h => failed .badAction (State.checkExamine_invalid hc h),
      fun hi hw => failed .window ((item hi).trans (State.examineItem_window hw)),
      fun hi hw hs => failed .tooManySlots ((item hi).trans (State.examineItem_tooManySlots hw hs)),
      fun hi hw hs hr => failed .frameTooLong ((item hi).trans (State.examineItem_frameTooLong hw hs (hrun.symm ▸ hr))),
      fun hi hw hs hr hl => failed .noFinalEnd ((fits hi hw hs hr).trans (if_pos hl)),
      fun h h0 => failed .emptyFrame ((atEnd h).trans (State.examineEnd_emptyFrame h0)),
      fun hi hw hs hr hl => congrArg Host.Outcome.next ((fits hi hw hs hr).trans (if_neg hl)),
      fun h h0 hl => congrArg Host.Outcome.next ((atEnd h).trans (State.examineEnd_next h0 hl))⟩
  · intro s c r hc hr h h0 hl ticks period
    have hpass : s.checkExamine = s.checkPass c := (State.checkExamine_frameEnd hc h).trans (State.examineEnd_pass h0 hl)
    exact ⟨s.checkPass c, congrArg Host.Outcome.next hpass, s.checkPass_link_load, fun hk => State.checkPass_link_start hk hr,
      fun _ => s.checkPass_link_other c, s.checkPass_eq c⟩

/-- Settles O31: the tests in the order of R84 and R91, then the range test of R75. -/
theorem linkStartAndLoadBeginTheCheck : Obligations.LinkStartAndLoadBeginTheCheck := by
  unfold Obligations.LinkStartAndLoadBeginTheCheck
  intro s hfree prog inRange begins
  have hstart : exec .linkStart s = .next s.linkStart := State.hostWrite_trigger s _ hfree
  have hload : exec .linkLoad s = .next s.linkLoad := State.hostWrite_trigger s _ hfree
  have begun : ∀ i k kind, exec i s = .next ((s.startCommand kind).checkStart k kind prog) → begins i k kind :=
    fun i k kind he => ⟨fun h => he.trans (congrArg _ (State.checkStart_inRange h kind)),
      fun h => he.trans (congrArg _ (State.checkStart_outOfRange h kind))⟩
  refine ⟨fun h => ?_, fun k hk => ⟨fun h => ?_, fun hw hf => ?_, fun htag => ⟨fun h => ?_, fun h => ?_⟩,
    fun htag h => ⟨fun hper => ?_, fun hper1 hper2 => ⟨fun hst => ?_, fun hst1 hst2 => ?_⟩⟩, fun htag h => ?_⟩⟩
  · rw [hstart, hload]
    unfold State.linkStart State.linkLoad
    rw [objectArg_none (by omega)]
    exact ⟨rfl, rfl⟩
  · rw [hstart, State.linkStart_notOff hk h]
  · rw [hload, State.linkLoad_notRunning hk (not_or.mpr ⟨hw, hf⟩)]
  · rw [hstart, State.linkStart_off hk h, if_pos htag]
  · rw [hload, State.linkLoad_running hk h, if_pos htag]
  · rw [hstart, State.linkStart_off hk h, if_neg htag.not_gt, if_pos hper]
  · rw [hstart, State.linkStart_off hk h, if_neg htag.not_gt, if_neg (not_not.mpr ⟨hper1, hper2⟩), if_pos hst]
  · refine begun _ k .start (hstart.trans (congrArg _ ?_))
    rw [State.linkStart_off hk h, if_neg htag.not_gt, if_neg (not_not.mpr ⟨hper1, hper2⟩),
      if_neg (not_not.mpr ⟨hst1, hst2⟩)]
    rfl
  · refine begun _ k .load (hload.trans (congrArg _ ?_))
    rw [State.linkLoad_running hk h, if_neg htag.not_gt]
    rfl

/-- Settles O32: the two tests of R86, then one link written and the result, with no other part of the unit. -/
theorem linkCancelClearsValid : Obligations.LinkCancelClearsValid := by
  unfold Obligations.LinkCancelClearsValid
  intro s hfree
  have he : exec .linkCancel s = .next s.linkCancel := State.hostWrite_trigger s _ hfree
  rw [he]
  unfold State.linkCancel
  refine ⟨fun h => ?_, fun k hk => ?_⟩
  · rw [objectArg_none (by omega)]; rfl
  rw [State.objectArg_eq _ k hk]
  refine ⟨fun h => ?_, fun h => ?_⟩ <;> simp only []
  · rw [if_pos h]; rfl
  · rw [if_neg h]
    exact ⟨_, rfl, State.link_setLink_self .., fun j hj => (State.link_setLink ..).trans (if_neg hj), rfl⟩

end Sys2Proof.Machine

/-! SUPPORT. The words of a frame (O36, O37): where the words of the items stand, the fields of a packed word, the CRC as a
shift register, and the classification of an entry's item. -/

namespace Sys2Proof.Machine

/-! ### The items' words (R99, R118) -/

/-- The words of a list of items: three header words and the data words of each. -/
def itemWords (l : List Item) : Nat := (l.map fun it => 3 + it.n).sum

theorem itemWords_cons (it : Item) (l : List Item) : itemWords (it :: l) = 3 + it.n + itemWords l := List.sum_cons

theorem frameLength_eq (l : List Item) : frameLength l = 4 + itemWords l + 1 := rfl

theorem itemWord_ne_trailer (it : Item) (j : Nat) : itemWord it j ≠ .trailer := by
  unfold itemWord
  split <;> nofun

theorem bodyWord_trailer_iff : ∀ (l : List Item) (j : Nat), bodyWord l j = some .trailer ↔ j = itemWords l
  | [], 0 => by simp [bodyWord, itemWords]
  | [], j + 1 => by simp [bodyWord, itemWords]
  | it :: l, j => by
    rw [bodyWord, itemWords_cons]
    split
    · exact iff_of_false (fun e => itemWord_ne_trailer it j (Option.some.inj e)) (by omega)
    · rw [bodyWord_trailer_iff l]; omega

theorem bodyWord_none_iff : ∀ (l : List Item) (j : Nat), bodyWord l j = none ↔ itemWords l < j
  | [], 0 => by simp [bodyWord, itemWords]
  | [], j + 1 => by simp [bodyWord, itemWords]
  | it :: l, j => by
    rw [bodyWord, itemWords_cons]
    split
    · exact iff_of_false nofun (by omega)
    · rw [bodyWord_none_iff l]; omega

/-- The words of an item stand behind those of the items before it. -/
theorem bodyWord_item {it : Item} {after : List Item} {j : Nat} (hj : j < 3 + it.n) : ∀ before : List Item,
    bodyWord (before ++ it :: after) (itemWords before + j) = some (itemWord it j)
  | [] => by
    rw [List.nil_append, bodyWord, show itemWords [] + j = j from Nat.zero_add j, if_pos hj]
  | b :: before => by
    rw [List.cons_append, bodyWord, itemWords_cons, if_neg (by omega), ← bodyWord_item hj before]
    congr 1
    omega

variable {k : LinkId} {l : Link} {f : Frame} {j : Nat}

theorem frameWord_trailer_iff : frameWord k l f j = some .trailer ↔ j + 1 = frameLength l.items := by
  rw [frameWord, frameLength_eq]
  split
  · exact iff_of_false nofun (by omega)
  · rw [bodyWord_trailer_iff]; omega

theorem frameWord_none_iff : frameWord k l f j = none ↔ frameLength l.items ≤ j := by
  rw [frameWord, frameLength_eq]
  split
  · exact iff_of_false nofun (by omega)
  · rw [bodyWord_none_iff]; omega

theorem frameWord_item {it : Item} {before after : List Item} (h : l.items = before ++ it :: after) (hj : j < 3 + it.n) :
    frameWord k l f (4 + itemWords before + j) = some (itemWord it j) := by
  rw [frameWord, if_neg (by omega), h, ← bodyWord_item hj before]
  congr 1
  omega

end Sys2Proof.Machine

namespace Sys2Proof.Machine

/-! ### The fields of a packed word (§11.8) -/

theorem getLsbD_field {hi lo v n : Nat} (hhi : hi < 32) :
    (field hi lo v).getLsbD n = (decide (lo ≤ n ∧ n ≤ hi) && v.testBit (n - lo)) := by
  rw [field, BitVec.getLsbD_shiftLeft, BitVec.getLsbD_ofNat, Nat.testBit_mod_two_pow]
  cases v.testBit (n - lo) <;> simp
  grind

/-- The fields of a list, each in its place. -/
def packed (fields : List (Nat × Nat × Nat)) : Word := fields.foldr (fun f w => field f.1 f.2.1 f.2.2 ||| w) 0

/-- A bit of a packed word is the bit of a field over it. -/
theorem getLsbD_packed {n : Nat} : ∀ {fields : List (Nat × Nat × Nat)}, (∀ f ∈ fields, f.1 < 32) →
    (packed fields).getLsbD n = fields.any fun f => decide (f.2.1 ≤ n ∧ n ≤ f.1) && f.2.2.testBit (n - f.2.1)
  | [], _ => by simp [packed]
  | f :: fields, h => by
    have ih := getLsbD_packed (n := n) fun g hg => h g (List.mem_cons_of_mem _ hg)
    rw [List.any_cons, ← ih, ← getLsbD_field (h f List.mem_cons_self), ← BitVec.getLsbD_or]
    rfl

/-- A word packed from fields that lie apart has those fields, and 0 elsewhere. -/
theorem hasFields_packed {fields : List (Nat × Nat × Nat)} (hin : ∀ f ∈ fields, f.1 < 32)
    (hapart : fields.Pairwise fun f g => f.1 < g.2.1 ∨ g.1 < f.2.1) : hasFields (packed fields) fields := by
  refine ⟨fun f hf => Nat.eq_of_testBit_eq fun b => ?_, fun n _ hout => ?_⟩
  · have : Std.Symm fun f g : Nat × Nat × Nat => f.1 < g.2.1 ∨ g.1 < f.2.1 := ⟨fun _ _ h => h.symm⟩
    rw [bits, BitVec.testBit_toNat, BitVec.getLsbD_extractLsb', getLsbD_packed hin, Nat.testBit_mod_two_pow]
    by_cases hb : b < f.1 + 1 - f.2.1
    · have hmine : f.2.1 ≤ f.2.1 + b ∧ f.2.1 + b ≤ f.1 := by omega
      rw [decide_eq_true hb, Bool.true_and, Bool.true_and, Bool.eq_iff_iff, List.any_eq_true]
      constructor
      · rintro ⟨g, hg, hbit⟩
        rw [Bool.and_eq_true, decide_eq_true_eq] at hbit
        obtain rfl | hne := eq_or_ne g f
        · rw [Nat.add_sub_cancel_left] at hbit; exact hbit.2
        · have := hapart.forall hg hf hne; omega
      · intro hbit
        exact ⟨f, hf, by rw [decide_eq_true hmine, Nat.add_sub_cancel_left, hbit]; rfl⟩
    · rw [decide_eq_false hb, Bool.false_and, Bool.false_and]
  · rw [getLsbD_packed hin, List.any_eq_false]
    intro f hf
    rw [decide_eq_false (hout f hf), Bool.false_and]
    exact Bool.false_ne_true

/-! ### The CRC (R119) -/

theorem crcBit_eq (c : Word) (b : Bool) :
    crcBit c b = if c.getLsbD 31 ≠ b then (c <<< 1) ^^^ 0x04C11DB7#32 else c <<< 1 := by
  rw [crcBit, BitVec.msb_eq_getLsbD_last, ite_not]

/-- The register takes the low bits of a word from the highest of them down. -/
theorem crcBits_foldl (w : Word) : ∀ (n : Nat) (r : Word),
    crcBits r w n = (List.range n).foldl (fun c j => crcBit c (w.getLsbD (n - 1 - j))) r
  | 0, _ => rfl
  | n + 1, r => by
    have hbit : ∀ j, n + 1 - 1 - (j + 1) = n - 1 - j := fun j => by omega
    rw [crcBits, crcBits_foldl w n, List.range_succ_eq_map, List.foldl_cons, List.foldl_map]
    simp only [Nat.succ_eq_add_one, hbit]
    rfl

theorem crcWord_foldl (r w : Word) : crcWord r w = (List.range 32).foldl (fun (c : Word) n =>
    if c.getLsbD 31 ≠ w.getLsbD (31 - n) then (c <<< 1) ^^^ 0x04C11DB7#32 else c <<< 1) r := by
  rw [crcWord, crcBits_foldl]
  simp only [crcBit_eq, Nat.reduceSub]

/-! ### The header words (R118, §11.8) -/

theorem headerWord_number (k : LinkId) (l : Link) (f : Frame) : hasFields (headerWord k l f 1)
    [(31, 16, f.number.toNat), (15, 12, k.val), (10, 0, l.items.length)] := by
  have h : headerWord k l f 1 = packed [(31, 16, f.number.toNat), (15, 12, k.val), (10, 0, l.items.length)] := by
    simp [headerWord, packed, BitVec.or_assoc]
  rw [h]
  exact hasFields_packed (by simp) (by simp)

theorem headerWord_cycle (k : LinkId) (l : Link) (f : Frame) : hasFields (headerWord k l f 2)
    [(31, 16, f.cycle.toNat), (15, 0, f.tag.toNat)] := by
  have h : headerWord k l f 2 = packed [(31, 16, f.cycle.toNat), (15, 0, f.tag.toNat)] := by simp [headerWord, packed]
  rw [h]
  exact hasFields_packed (by simp) (by simp)

theorem itemHeader_fields (it : Item) : hasFields (itemHeader it)
    [(31, 30, it.kind.value), (28, 24, it.slot.val), (17, 17, it.isShort.toNat), (16, 16, it.isPartial.toNat),
      (10, 0, it.n)] := by
  have h : itemHeader it = packed [(31, 30, it.kind.value), (28, 24, it.slot.val), (17, 17, it.isShort.toNat),
      (16, 16, it.isPartial.toNat), (10, 0, it.n)] := by
    simp [itemHeader, flagBit, packed, BitVec.or_assoc]
  rw [h]
  exact hasFields_packed (by simp) (by simp)

/-- Settles O37: the header words by their fields, the items' words by the list of items, and the CRC bit by bit. -/
theorem frameWordsFollowTheLayout : Obligations.FrameWordsFollowTheLayout := by
  unfold Obligations.FrameWordsFollowTheLayout
  refine ⟨fun k l f j => ⟨⟨_, _, rfl, rfl, rfl, rfl, headerWord_number k l f, headerWord_cycle k l f⟩,
    frameWord_trailer_iff, frameWord_none_iff, rfl, fun it before after h => ?_⟩, rfl, crcWord_foldl⟩
  refine ⟨⟨_, frameWord_item (j := 0) h (by omega), itemHeader_fields it⟩, frameWord_item (j := 1) h (by omega),
    frameWord_item (j := 2) h (by omega), fun hj => ?_⟩
  have hword := frameWord_item (k := k) (f := f) (j := j + 3) h (by omega)
  rwa [show 4 + itemWords before + (j + 3) = 4 + itemWords before + 3 + j by omega] at hword

/-! ### Classification (R97, R98) -/

/-- The data words of an item, WORDS being at most 1024: COUNT of them, or what the window still holds (R98). -/
theorem dataCount_eq {offset count w : Nat} (hw : w ≤ 1024) :
    dataCount offset count w = min (if count = 0 then 1024 else count) (w - offset) := by
  unfold dataCount
  split
  · omega
  · split <;> omega

/-- The only pin of a set on a slot is the frame's pin on it (R96). -/
theorem Link.pinOn_of_unique {l : Link} {p : PinEntry} (hp : p ∈ l.pinSet)
    (honly : ∀ q ∈ l.pinSet, q.slot = p.slot → q = p) :
    l.pinOn p.slot = some p := by
  unfold Link.pinOn
  cases hf : l.pinSet.find? fun q => decide (q.slot = p.slot) with
  | none => exact absurd (decide_eq_true rfl) (List.find?_eq_none.mp hf p hp)
  | some q =>
    have hslot : q.slot = p.slot := of_decide_eq_true (List.find?_some (p := fun q : PinEntry => decide (q.slot = p.slot)) hf)
    rw [honly q (List.mem_of_find?_eq_some hf) hslot]

section

variable {l : Link} {t : Tick} {n : Nat} {e : SchedEntry}

theorem classify_absent (h : l.pinOn e.slot = none) : classify l t (n, e) =
    { entry := n, kind := .absent, slot := e.slot, seq := 0, stamp := 0, isShort := false, isPartial := false, n := 0,
      first := e.offset } := by
  simp only [classify, h]

variable {p : PinEntry} (h : l.pinOn e.slot = some p)
include h

theorem classify_stale (hage : e.maxAge ≠ 0 ∧ e.maxAge < (t - p.stamp).toNat) : classify l t (n, e) =
    { entry := n, kind := .stale, slot := e.slot, seq := p.seq, stamp := p.stamp, isShort := p.isShort,
      isPartial := p.isPartial, n := 0, first := e.offset } := by
  simp only [classify, h]
  exact if_pos hage

theorem classify_repeated (hage : e.maxAge = 0 ∨ (t - p.stamp).toNat ≤ e.maxAge) (hfresh : e.action = .emitFresh)
    (hseen : p.seq = l.lastSeen.get e.slot) : classify l t (n, e) =
    { entry := n, kind := .repeated, slot := e.slot, seq := p.seq, stamp := p.stamp, isShort := p.isShort,
      isPartial := p.isPartial, n := 0, first := e.offset } := by
  simp only [classify, h]
  exact (if_neg (by unfold ticksBetween; omega)).trans (if_pos ⟨hfresh, hseen⟩)

theorem classify_data (hage : e.maxAge = 0 ∨ (t - p.stamp).toNat ≤ e.maxAge)
    (hnew : e.action ≠ .emitFresh ∨ p.seq ≠ l.lastSeen.get e.slot) : classify l t (n, e) =
    { entry := n, kind := .data, slot := e.slot, seq := p.seq, stamp := p.stamp,
      isShort := p.isShort || (decide (e.count ≠ 0) && decide (dataCount e.offset e.count p.words < e.count)) ||
        (decide (e.count = 0) && decide (dataCount e.offset e.count p.words = 0)),
      isPartial := p.isPartial, n := dataCount e.offset e.count p.words, first := e.offset } := by
  simp only [classify, h]
  exact (if_neg (by unfold ticksBetween; omega)).trans (if_neg (not_and_or.mpr hnew))

end

/-- Settles O36: the branches of the classification in their order, for the one pin of the set on the entry's slot. -/
theorem itemsAreClassifiedInOrder : Obligations.ItemsAreClassifiedInOrder := by
  unfold Obligations.ItemsAreClassifiedInOrder
  intro l t n e
  refine ⟨fun h => classify_absent (Link.pinOn_eq_none h), fun p hp hslot honly => ?_⟩
  have hpin : l.pinOn e.slot = some p := by
    rw [← hslot] at honly ⊢
    exact Link.pinOn_of_unique hp honly
  by_cases hstale : e.maxAge ≠ 0 ∧ e.maxAge < (t - p.stamp).toNat
  · rw [classify_stale hpin hstale]
    exact ⟨rfl, rfl, rfl, rfl, rfl, rfl, fun _ _ => ⟨rfl, rfl, rfl⟩, fun h => by omega⟩
  have hage : e.maxAge = 0 ∨ (t - p.stamp).toNat ≤ e.maxAge := by omega
  by_cases hseen : e.action = .emitFresh ∧ p.seq = l.lastSeen.get e.slot
  · rw [classify_repeated hpin hage hseen.1 hseen.2]
    exact ⟨rfl, rfl, rfl, rfl, rfl, rfl, fun h0 h => absurd ⟨h0, h⟩ hstale, fun _ =>
      ⟨fun _ _ => ⟨rfl, rfl, rfl⟩, fun h => absurd hseen (not_and_or.mpr h)⟩⟩
  · rw [classify_data hpin hage (not_and_or.mp hseen)]
    refine ⟨rfl, rfl, rfl, rfl, rfl, rfl, fun h0 h => absurd ⟨h0, h⟩ hstale, fun _ =>
      ⟨fun h1 h2 => absurd ⟨h1, h2⟩ hseen, fun _ => ⟨rfl, fun hw => ⟨dataCount_eq hw, ?_⟩⟩⟩⟩
    simp only [dataCount_eq hw, Bool.or_eq_true, Bool.and_eq_true, decide_eq_true_eq, or_assoc]

end Sys2Proof.Machine

/-! SUPPORT. The end of a frame (R87, R104, R107, R112): what it leaves of its link and which records it offers. -/

namespace Sys2Proof.Machine
namespace State

/-- The link after the cursor has moved past a FRAME_END; the end of the program ends the cycle (R104, R107). -/
theorem advanceCursor_link (s : State) (k : LinkId) (n : Nat) : (s.advanceCursor k n).link k = { s.link k with
    items := [], frame := none
    cursor := if (s.link k).active.len ≤ n then 0 else n
    cycleNo := if (s.link k).active.len ≤ n then (s.link k).cycleNo + 1 else (s.link k).cycleNo } := by
  unfold advanceCursor cycleEnd
  by_cases hend : (s.link k).active.len ≤ n
  · simp only [Nat.not_lt_of_le hend, hend, if_true, if_false, link_offer, link_setLink_self]
  · simp only [Nat.lt_of_not_le hend, hend, if_true, if_false, link_setLink_self]

theorem advanceCursor_events (s : State) (k : LinkId) (n : Nat) : (s.advanceCursor k n).events =
    if (s.link k).active.len ≤ n then
      s.events.take (s.record .cycleDone k.val ((s.link k).cycleNo.setWidth 32) 0) else s.events := by
  unfold advanceCursor cycleEnd
  by_cases hend : (s.link k).active.len ≤ n
  · simp only [Nat.not_lt_of_le hend, hend, if_true, if_false, offer_only, link_setLink_self]
    rfl
  · simp only [Nat.lt_of_not_le hend, hend, if_true, if_false, events_setLink]

theorem advanceCursor_now (s : State) (k : LinkId) (n : Nat) : (s.advanceCursor k n).now = s.now := by
  unfold advanceCursor cycleEnd
  simp only []
  split <;> rfl

section

variable {s : State} {k : LinkId} {f : Frame} (r : BitVec 4) (hf : (s.link k).frame = some f)
include hf

theorem frameDone_stopping (hs : (s.link k).state = .stopping) :
    s.frameDone k r = (s.advanceCursor k f.next).linkOff k r := by
  simp only [frameDone, hf, hs, if_true]

theorem frameDone_running (hs : (s.link k).state ≠ .stopping) : s.frameDone k r =
    let t := s.advanceCursor k f.next
    let u := if (s.link k).active.len ≤ f.next ∧ (s.link k).pendingValid = true then t.swapProgram k else t
    u.setLink k { u.link k with state := .wait } := by
  simp only [frameDone, hf, hs, if_false]

/-- The link after a frame's end in STOPPING: in OFF, without a swap (R110, R112). -/
theorem frameDone_link_stopping (hs : (s.link k).state = .stopping) :
    (s.frameDone k r).link k = { s.link k with
      state := .off, pendingValid := false, pinSet := [], items := [], buffer := [], frame := none
      cursor := if (s.link k).active.len ≤ f.next then 0 else f.next
      cycleNo := if (s.link k).active.len ≤ f.next then (s.link k).cycleNo + 1 else (s.link k).cycleNo } := by
  rw [frameDone_stopping r hf hs]
  simp only [linkOff, link_offer, link_setLink_self, advanceCursor_link]

theorem frameDone_events_stopping (hs : (s.link k).state = .stopping) :
    (s.frameDone k r).events =
      (if (s.link k).active.len ≤ f.next then
        s.events.take (s.record .cycleDone k.val ((s.link k).cycleNo.setWidth 32) 0) else s.events).take
        (s.record .linkStopped k.val ((s.link k).frameNo.setWidth 32) r) := by
  rw [frameDone_stopping r hf hs]
  simp only [linkOff, events_offer, events_setLink, now_setLink, advanceCursor_link, advanceCursor_events, advanceCursor_now]
  rfl

/-- The link after a frame's end in FRAME: back in WAIT, with the swap where the program has ended (R87, R104, R107). -/
theorem frameDone_link_running (hs : (s.link k).state ≠ .stopping) :
    (s.frameDone k r).link k = { s.link k with
      state := .wait, items := [], frame := none
      cursor := if (s.link k).active.len ≤ f.next then 0 else f.next
      cycleNo := if (s.link k).active.len ≤ f.next then (s.link k).cycleNo + 1 else (s.link k).cycleNo
      active := if (s.link k).active.len ≤ f.next ∧ (s.link k).pendingValid = true then (s.link k).pending
        else (s.link k).active
      pendingValid := if (s.link k).active.len ≤ f.next then false else (s.link k).pendingValid } := by
  rw [frameDone_running r hf hs]
  simp only [link_setLink_self]
  by_cases hend : (s.link k).active.len ≤ f.next
  · cases hv : (s.link k).pendingValid
    · simp only [hend, advanceCursor_link, hv, Bool.false_eq_true, and_false, if_true, if_false]
    · simp only [hend, and_self, if_true, swapProgram, link_offer, link_setLink_self, advanceCursor_link]
  · simp only [hend, false_and, if_false, advanceCursor_link]

theorem frameDone_events_running (hs : (s.link k).state ≠ .stopping) :
    (s.frameDone k r).events =
      let ends := if (s.link k).active.len ≤ f.next then
        s.events.take (s.record .cycleDone k.val ((s.link k).cycleNo.setWidth 32) 0) else s.events
      if (s.link k).active.len ≤ f.next ∧ (s.link k).pendingValid = true then
        ends.take (s.record .programSwapped k.val ((s.link k).pending.tag.setWidth 32) 0) else ends := by
  rw [frameDone_running r hf hs]
  simp only [events_setLink]
  by_cases hswap : (s.link k).active.len ≤ f.next ∧ (s.link k).pendingValid = true
  · simp only [if_pos hswap, swapProgram, events_offer, events_setLink, now_setLink, advanceCursor_link, advanceCursor_events,
      advanceCursor_now]
    rfl
  · simp only [if_neg hswap, advanceCursor_events]

end

end State
end Sys2Proof.Machine

/-! SUPPORT. Each link and its line in agreement (O56; R90, R96, R100, R106, R116, R117): what of a link the agreement depends
on, and what each act makes of it. -/

namespace Sys2Proof.Machine

/-- A link with the fields blanked on which its agreement with the line does not depend. -/
def Link.lineView (l : Link) : Link := { l with
  active := Program.reset, pending := Program.reset, pendingValid := false, cursor := 0, period := 0, remain := 0
  stallLimit := 0, frameNo := 0, cycleNo := 0, slips := 0, aborts := 0, lastSeen := Vector.replicate 32 0, stallTimer := 0
  giveUpDue := false }

theorem Link.state_of_lineView {l m : Link} (h : m.lineView = l.lineView) : m.state = l.state :=
  (congrArg Link.state h :)

/-- Links that agree but for pins and last-seen entries, and on their pins. -/
theorem Link.lineView_of_bare {l m : Link} (hb : m.bare = l.bare) (hp : m.pinSet = l.pinSet) : m.lineView = l.lineView := by
  have h := congrArg (fun x : Link => ({ x with pinSet := l.pinSet } : Link).lineView) hb
  calc m.lineView = ({ m.bare with pinSet := l.pinSet } : Link).lineView := by rw [← hp]; rfl
    _ = ({ l.bare with pinSet := l.pinSet } : Link).lineView := h
    _ = l.lineView := rfl

namespace State

/-! ### One link -/

section

variable {k : LinkId} {l m : Link} {f : Frame}

theorem linkOk_lineView : linkOk k l.lineView ↔ linkOk k l := Iff.rfl

theorem linkOk_congr (hl : linkOk k l) (h : m.lineView = l.lineView) : linkOk k m :=
  linkOk_lineView.mp (h ▸ linkOk_lineView.mpr hl)

theorem linkOk_idle_iff (hs : l.state = .off ∨ l.state = .wait) : linkOk k l ↔ linkAtRest l := by
  unfold linkOk
  obtain hs | hs := hs <;> rw [hs]

theorem linkOk_busy_iff (hs : l.state = .frame ∨ l.state = .stopping) :
    linkOk k l ↔ ∃ f, l.frame = some f ∧ (linkDriving k l f ∨ linkAborted l) := by
  unfold linkOk
  obtain hs | hs := hs <;> rw [hs]

theorem Link.idle_or_busy (l : Link) : (l.state = .off ∨ l.state = .wait) ∨ (l.state = .frame ∨ l.state = .stopping) := by
  cases l.state <;> simp

theorem linkDriving_line (h : linkDriving k l f) : l.line = .drive ∨ l.line = .gap := by
  obtain ⟨_, _, _, _, ⟨e, _⟩ | ⟨e, _⟩, _⟩ := h
  · exact .inl e
  · exact .inr e

/-- A link with a frame in flight is in FRAME or STOPPING, and its frame is sent or aborted. -/
theorem linkOk_of_frame (h : linkOk k l) (hf : l.frame = some f) :
    (l.state = .frame ∨ l.state = .stopping) ∧ (linkDriving k l f ∨ linkAborted l) := by
  obtain hs | hs := Link.idle_or_busy l
  · obtain ⟨_, _, _, _, hnone, _⟩ := (linkOk_idle_iff hs).mp h
    rw [hnone] at hf; cases hf
  · obtain ⟨g, hg, hd⟩ := (linkOk_busy_iff hs).mp h
    obtain rfl : g = f := Option.some.inj (hg.symm.trans hf)
    exact ⟨hs, hd⟩

theorem linkDriving_of_frame (h : linkOk k l) (hf : l.frame = some f) (hl : l.line ≠ .abort) : linkDriving k l f :=
  (linkOk_of_frame h hf).2.resolve_right fun ha => hl ha.1

/-- A link whose line presents a word has a frame in flight. -/
theorem frame_of_line (h : linkOk k l) (hl : l.line ≠ .quiet) :
    (l.state = .frame ∨ l.state = .stopping) ∧ ∃ f, l.frame = some f := by
  obtain hs | hs := Link.idle_or_busy l
  · exact absurd ((linkOk_idle_iff hs).mp h).1 hl
  · obtain ⟨f, hf, _⟩ := (linkOk_busy_iff hs).mp h
    exact ⟨hs, f, hf⟩

theorem linkAborted_of_line (h : linkOk k l) (hl : l.line = .abort) : linkAborted l := by
  obtain ⟨hs, f, hf⟩ := frame_of_line h (by rw [hl]; decide)
  refine (linkOk_of_frame h hf).2.resolve_left fun hd => ?_
  obtain e | e := linkDriving_line hd <;> rw [e] at hl <;> cases hl

/-- A link holds a request only while a data word of its frame comes next (R100). -/
theorem linkDriving_req_none (h : linkDriving k l f) (hn : ∀ i pos, frameWord k l f f.placed ≠ some (.data i pos)) :
    l.req = none := by
  obtain ⟨_, _, _, _, _, hreq⟩ := h
  by_contra hne
  obtain ⟨_, i, pos, hw⟩ := hreq hne
  exact hn i pos hw

/-- One word more in the buffer of a link without a request (R100, R116). -/
theorem linkDriving_place {w crc : Word} (h : linkDriving k l f) (hreq : l.req = none)
    (hroom : l.buffer.length < Config.bufferDepth) (hmore : f.placed < frameLength l.items) :
    linkDriving k { l with
        buffer := l.buffer ++ [w], frame := some { f with placed := f.placed + 1, crc := crc }, line := .drive }
      { f with placed := f.placed + 1, crc := crc } := by
  obtain ⟨hnoAbort, hplaced, _⟩ := h
  have hlen : (l.buffer ++ [w]).length = l.buffer.length + 1 := List.length_append
  refine ⟨hnoAbort, ?_, hmore, ?_, .inl ⟨rfl, by simp⟩, fun hne => absurd hreq hne⟩
  · show f.placed + 1 = f.taken + (l.buffer ++ [w]).length
    omega
  · show (l.buffer ++ [w]).length ≤ _
    omega

end

/-! ### Every link -/

section

variable {s t : State}

/-- One link changed; the others may differ in what their agreement does not depend on. -/
theorem linkInv_step (h : s.linkInv) (k : LinkId) (ho : ∀ j, j ≠ k → (t.link j).lineView = (s.link j).lineView)
    (hk : linkOk k (t.link k)) (hoff : (s.link k).state = .off → (t.link k).state = .off) (hc : t.check = s.check) :
    t.linkInv := by
  obtain ⟨hcheck, hok⟩ := h
  refine ⟨fun c e hstart => ?_, fun j => ?_⟩
  · have hs := hcheck c (hc ▸ e) hstart
    by_cases hj : c.link = k
    · rw [hj] at hs ⊢; exact hoff hs
    · exact (Link.state_of_lineView (ho _ hj)).trans hs
  · by_cases hj : j = k
    · exact hj ▸ hk
    · exact linkOk_congr (hok j) (ho j hj)

theorem linkInv_same (h : s.linkInv) (ho : ∀ j, (t.link j).lineView = (s.link j).lineView) (hc : t.check = s.check) :
    t.linkInv :=
  linkInv_step h 0 (fun j _ => ho j) (linkOk_congr (h.2 0) (ho 0)) (Link.state_of_lineView (ho 0)).trans hc

theorem linkInv_frame (h : s.linkInv) (hl : t.links = s.links) (hc : t.check = s.check) : t.linkInv :=
  linkInv_same h (fun j => by unfold link; rw [hl]) hc

theorem linkInv_setLink (h : s.linkInv) (k : LinkId) (l : Link) (hl : linkOk k l)
    (hoff : (s.link k).state = .off → l.state = .off) : (s.setLink k l).linkInv :=
  linkInv_step h k (fun j e => by rw [link_setLink, if_neg e]) (by rw [link_setLink_self]; exact hl)
    (by rw [link_setLink_self]; exact hoff) rfl

theorem linkInv_offer (h : s.linkInv) (e : EventKind) (a : Nat) (w : Word) (r : BitVec 4) : (s.offer e a w r).linkInv :=
  linkInv_frame h rfl rfl

/-- A command's result is no link's affair. -/
theorem linkInv_result (h : s.linkInv) (c : ResultCode) (w : Word) : (s.result c w).linkInv := linkInv_frame h rfl rfl

theorem linkInv_endCommand (h : s.linkInv) (a : Nat) (c : ResultCode) (w : Word) : (s.endCommand a c w).linkInv :=
  linkInv_frame h rfl rfl

/-- A link replaced by one that differs in what its agreement does not depend on. -/
theorem linkInv_setLink_same (h : s.linkInv) (k : LinkId) (l : Link) (hl : l.lineView = (s.link k).lineView) :
    (s.setLink k l).linkInv :=
  linkInv_setLink h k l (linkOk_congr (h.2 k) hl) (Link.state_of_lineView hl).trans

/-- A link in FRAME or STOPPING replaced. -/
theorem linkInv_setLink_busy (h : s.linkInv) (k : LinkId) (l : Link) (hl : linkOk k l)
    (hs : (s.link k).state = .frame ∨ (s.link k).state = .stopping) : (s.setLink k l).linkInv :=
  linkInv_setLink h k l hl fun e => by rw [e] at hs; simp at hs

/-- The check changed. -/
theorem linkInv_setCheck (h : s.linkInv) (hl : t.links = s.links)
    (hc : ∀ c, t.check = some c → c.kind = .start → (s.link c.link).state = .off) : t.linkInv := by
  have e : ∀ k, t.link k = s.link k := fun k => by unfold link; rw [hl]
  exact ⟨fun c h1 h2 => by rw [e]; exact hc c h1 h2, fun k => by rw [e]; exact h.2 k⟩

/-! ### Frames -/

theorem presentRead_linkInv (h : s.linkInv) (k : LinkId) : (s.presentRead k).linkInv := by
  unfold presentRead
  simp only []
  split <;> [exact h; skip]
  rename_i f hf
  split <;> [skip; exact h]
  rename_i hopen
  obtain ⟨hline, _, hroom⟩ := hopen
  split <;> [skip; exact h; exact h; exact h]
  rename_i i pos hw
  split <;> [skip; exact h]
  obtain ⟨hbusy, _⟩ := linkOk_of_frame (h.2 k) hf
  obtain ⟨h1, h2, h3, h4, h5, _⟩ := linkDriving_of_frame (h.2 k) hf hline
  refine linkInv_setLink_busy h k _ ((linkOk_busy_iff (by exact hbusy)).mpr ⟨f, hf, .inl ?_⟩) hbusy
  exact ⟨h1, h2, h3, h4, h5, fun _ => ⟨hroom, i, pos, hw⟩⟩

/-- A word placed by a link without a request, with room in its buffer and a word of the frame still to come (R100). -/
theorem placeWord_linkInv (h : s.linkInv) {k : LinkId} {f : Frame} (w : Word) (b : Bool) (hf : (s.link k).frame = some f)
    (hline : (s.link k).line ≠ .abort) (hreq : (s.link k).req = none)
    (hroom : (s.link k).buffer.length < Config.bufferDepth) (hmore : f.placed < frameLength (s.link k).items) :
    (s.placeWord k w b).linkInv := by
  obtain ⟨hbusy, _⟩ := linkOk_of_frame (h.2 k) hf
  rw [placeWord_frame s k w b f hf, if_neg hline]
  refine linkInv_setLink_busy h k _ ((linkOk_busy_iff (by exact hbusy)).mpr ⟨_, rfl, .inl ?_⟩) hbusy
  exact linkDriving_place (linkDriving_of_frame (h.2 k) hf hline) hreq hroom hmore

theorem placeNext_linkInv (h : s.linkInv) (k : LinkId) : (s.placeNext k).linkInv := by
  unfold placeNext
  simp only []
  split <;> [exact h; skip]
  rename_i f hf
  split <;> [skip; exact h]
  rename_i hopen
  obtain ⟨hline, hroom⟩ := hopen
  have place : ∀ w b, (∀ i pos, frameWord k (s.link k) f f.placed ≠ some (.data i pos)) →
      frameWord k (s.link k) f f.placed ≠ none → (s.placeWord k w b).linkInv := fun w b hdata hnone => by
    refine placeWord_linkInv h w b hf hline ?_ hroom ?_
    · exact linkDriving_req_none (linkDriving_of_frame (h.2 k) hf hline) hdata
    · exact Nat.lt_of_not_le fun e => hnone (frameWord_none_iff.mpr e)
  split
  · rename_i w hw
    exact presentRead_linkInv (place w false (by rw [hw]; nofun) (by rw [hw]; nofun)) k
  · rename_i hw
    exact place _ true (by rw [hw]; nofun) (by rw [hw]; nofun)
  all_goals exact h

/-- The end of a frame leaves at rest a link whose line is QUIET and that holds no pin, word, request or abort word. -/
theorem frameDone_atRest (r : BitVec 4) {k : LinkId} {f : Frame} (hf : (s.link k).frame = some f)
    (hl : (s.link k).line = .quiet) (hp : (s.link k).pinSet = []) (hb : (s.link k).buffer = []) (hq : (s.link k).req = none)
    (ha : (s.link k).abortWord = none) : linkOk k ((s.frameDone k r).link k) := by
  by_cases hs : (s.link k).state = .stopping
  · rw [frameDone_link_stopping r hf hs]
    exact ⟨hl, rfl, rfl, rfl, rfl, hq, ha⟩
  · rw [frameDone_link_running r hf hs]
    exact ⟨hl, hp, rfl, hb, rfl, hq, ha⟩

/-- The frame of a link ends after its link alone has changed, but for last-seen entries. -/
theorem frameDone_linkInv (h : s.linkInv) {u : State} {k : LinkId} {f : Frame} (r : BitVec 4)
    (hbusy : (s.link k).state = .frame ∨ (s.link k).state = .stopping)
    (ho : ∀ j, j ≠ k → (u.link j).lineView = (s.link j).lineView) (hc : u.check = s.check)
    (hk : u.link k = { s.link k with
      frame := some f, line := .quiet, pinSet := [], buffer := [], req := none, abortWord := none
      stallTimer := (u.link k).stallTimer, giveUpDue := (u.link k).giveUpDue, lastSeen := (u.link k).lastSeen }) :
    (u.frameDone k r).linkInv := by
  refine linkInv_step h k (fun j e => ?_) ?_ (fun e => ?_) ?_
  · rw [(frameDone_link u k j r).1 e]; exact ho j e
  · exact frameDone_atRest (f := f) r (by rw [hk]) (by rw [hk]) (by rw [hk]) (by rw [hk]) (by rw [hk]) (by rw [hk])
  · rw [e] at hbusy; simp at hbusy
  · rw [frameDone_only]; exact hc

/-- The abort word leaves the line, taken or given up, and the frame ends (R122). -/
theorem clearAbort_linkInv (h : s.linkInv) (k : LinkId) (r : BitVec 4) (ha : (s.link k).line = .abort) :
    ((s.clearAbortWord k).frameDone k r).linkInv := by
  obtain ⟨hbusy, f, hf⟩ := frame_of_line (h.2 k) (by rw [ha]; decide)
  obtain ⟨_, _, hp, hb, hq⟩ := linkAborted_of_line (h.2 k) ha
  refine frameDone_linkInv (f := f) h r hbusy (fun j e => ?_) rfl ?_ <;> unfold clearAbortWord
  · rw [link_setLink, if_neg e]
  · rw [link_setLink_self, ← hf, ← hp, ← hb, ← hq]

theorem giveUp_linkInv (h : s.linkInv) (k : LinkId) : (s.giveUp k).linkInv := by
  unfold giveUp
  split <;> [skip; exact h]
  rename_i hd
  simp only [giveUpDue, Bool.and_eq_true, decide_eq_true_eq] at hd
  exact clearAbort_linkInv h k 1 hd.1.1

/-- A link after the release of its pins. -/
theorem releasePins_link (s : State) (k : LinkId) :
    (s.releasePins k).link k = { s.link k with pinSet := [], lastSeen := ((s.releasePins k).link k).lastSeen } := by
  have hb := congrArg (fun x : Link => ({ x with lastSeen := ((s.releasePins k).link k).lastSeen } : Link))
    (releasePins_bare s k k)
  have hp := releasePins_pinSet s k k
  rw [if_pos rfl] at hp
  calc (s.releasePins k).link k = { (s.releasePins k).link k with pinSet := [] } := by rw [← hp]
    _ = _ := hb

theorem releasePins_lineView_other (s : State) {k j : LinkId} (hj : j ≠ k) :
    ((s.releasePins k).link j).lineView = (s.link j).lineView :=
  Link.lineView_of_bare (releasePins_bare s k j) (by rw [releasePins_pinSet, if_neg hj])

/-- The abort of a frame in flight (R106, R121). -/
theorem abortFrame_linkInv (h : s.linkInv) (k : LinkId) (w : AbortReason) : (s.abortFrame k w).linkInv := by
  unfold abortFrame
  simp only []
  split <;> [exact h; skip]
  rename_i f hf
  obtain ⟨hbusy, _⟩ := linkOk_of_frame (h.2 k) hf
  generalize hv : ({ s.link k with
      req := none, buffer := [], abortWord := some (~~~ (s.link k).sync), line := .abort, stallTimer := 0
      giveUpDue := false } : Link) = v
  have hlink := releasePins_link (s.setLink k v) k
  rw [link_setLink_self] at hlink
  refine linkInv_step h k (fun j e => ?_) ?_ (fun e => by rw [e] at hbusy; simp at hbusy) ?_
  · rw [link_offer, link_setLink, if_neg e, releasePins_lineView_other _ e, link_setLink, if_neg e]
  · rw [link_offer, link_setLink_self, hlink, ← hv]
    refine (linkOk_busy_iff (by exact hbusy)).mpr ⟨f, hf, .inr ?_⟩
    exact ⟨rfl, rfl, rfl, rfl, rfl⟩
  · rw [releasePins_only]; rfl

theorem stallAbort_linkInv (h : s.linkInv) (k : LinkId) : (s.stallAbort k).linkInv := by
  unfold stallAbort
  split <;> [exact abortFrame_linkInv h k _; exact h]

theorem itemDone_linkInv (h : s.linkInv) (k : LinkId) (it : Item) : (s.itemDone k it).linkInv := by
  unfold itemDone
  simp only []
  have hseen : (if it.kind = .data ∨ it.kind = .repeated then
      s.setLink k { s.link k with lastSeen := Table.put (s.link k).lastSeen it.slot it.seq } else s).linkInv := by
    split <;> [exact linkInv_setLink_same h k _ rfl; exact h]
  split <;> [exact linkInv_frame hseen rfl rfl; exact hseen]

theorem afterTake_linkInv (h : s.linkInv) (k : LinkId) (j : Nat) : (s.afterTake k j).linkInv := by
  unfold afterTake
  split <;> [exact presentRead_linkInv (itemDone_linkInv h k _) k; exact presentRead_linkInv h k]

/-- The trailer is the last word in the buffer, and no read is waiting behind it (R100, R104). -/
theorem linkDriving_trailer {k : LinkId} {l : Link} {f : Frame} {w : Word} {rest : List Word} (h : linkDriving k l f)
    (hb : l.buffer = w :: rest) (ht : frameWord k l f f.taken = some .trailer) : rest = [] ∧ l.req = none := by
  obtain ⟨_, hplaced, hmost, _⟩ := id h
  have hlast := frameWord_trailer_iff.mp ht
  rw [hb, List.length_cons] at hplaced
  refine ⟨List.eq_nil_of_length_eq_zero (by omega), linkDriving_req_none h fun i pos hw => ?_⟩
  have hnone : frameWord k l f f.placed = none := frameWord_none_iff.mpr (by omega)
  rw [hnone] at hw; cases hw

/-- A word that is not the trailer leaves the buffer (R117). -/
theorem linkDriving_take {k : LinkId} {l : Link} {f : Frame} {w : Word} {rest : List Word} (h : linkDriving k l f)
    (hb : l.buffer = w :: rest) (ht : frameWord k l f f.taken ≠ some .trailer) :
    linkDriving k { l with
        buffer := rest, frame := some { f with taken := f.taken + 1 }, stallTimer := 0
        line := if rest.isEmpty then .gap else .drive } { f with taken := f.taken + 1 } := by
  obtain ⟨hnoAbort, hplaced, hmost, hroom, _, hreq⟩ := h
  have hlast := mt frameWord_trailer_iff.mpr ht
  rw [hb, List.length_cons] at hplaced hroom
  refine ⟨hnoAbort, ?_, hmost, Nat.le_of_succ_le hroom, ?_, fun hne => ⟨hroom, (hreq hne).2⟩⟩
  · show f.placed = f.taken + 1 + rest.length
    omega
  · cases rest with
    | nil =>
      refine .inr ⟨rfl, rfl, ?_⟩
      show f.placed < frameLength l.items
      rw [List.length_nil] at hplaced
      omega
    | cons x rest => exact .inl ⟨rfl, nofun⟩

theorem wordTaken_linkInv (h : s.linkInv) (k : LinkId) : (s.wordTaken k).linkInv := by
  unfold wordTaken
  simp only []
  split
  · exact h
  · exact h
  · rename_i ha; exact clearAbort_linkInv h k 0 ha
  · rename_i hd
    split <;> [skip; exact h]
    rename_i w rest f hb hf
    obtain ⟨hbusy, _⟩ := linkOk_of_frame (h.2 k) hf
    have hdrive := linkDriving_of_frame (h.2 k) hf (by rw [hd]; decide)
    split
    · rename_i ht
      obtain ⟨hrest, hreq⟩ := linkDriving_trailer hdrive hb ht
      generalize hv : ({ s.link k with
        buffer := rest, frame := some { f with taken := f.taken + 1 }, stallTimer := 0, line := .quiet } : Link) = v
      have hlink := releasePins_link (s.setLink k v) k
      rw [link_setLink_self] at hlink
      refine frameDone_linkInv (f := { f with taken := f.taken + 1 }) h 0 hbusy (fun j e => ?_) ?_ ?_
      · rw [releasePins_lineView_other _ e, link_setLink, if_neg e]
      · rw [releasePins_only]; rfl
      · rw [hlink, ← hv, hrest, ← hreq, ← hdrive.1]
    · rename_i ht
      refine afterTake_linkInv (linkInv_setLink_busy h k _ ?_ hbusy) k _
      refine (linkOk_busy_iff (by exact hbusy)).mpr ⟨_, rfl, .inl ?_⟩
      exact linkDriving_take hdrive hb ht

/-- Frame begin in WAIT: SYNC is placed, and the frame's other words are still to come (R94, R100). -/
theorem frameBegin_linkInv (h : s.linkInv) (k : LinkId) (hw : (s.link k).state = .wait) : (s.frameBegin k).linkInv := by
  obtain ⟨hline, _, _, hbuffer, _, hreq, hword⟩ := (linkOk_idle_iff (.inr hw)).mp (h.2 k)
  unfold frameBegin
  simp only []
  obtain ⟨hother, hbare⟩ := claimPins_link s k (distinctSlots (s.frameRun (s.link k).active.base
    ((s.link k).active.len - (s.link k).cursor) (s.link k).cursor).1)
  have hcheck : (s.claimPins k (distinctSlots (s.frameRun (s.link k).active.base
    ((s.link k).active.len - (s.link k).cursor) (s.link k).cursor).1)).check = s.check := by rw [claimPins_only]
  generalize s.claimPins k (distinctSlots _) = t at hother hbare hcheck ⊢
  have hb : (t.link k).buffer = [] := ((congrArg Link.buffer hbare :)).trans hbuffer
  have hl : (t.link k).line = .quiet := ((congrArg Link.line hbare :)).trans hline
  have hq : (t.link k).req = none := ((congrArg Link.req hbare :)).trans hreq
  have ha : (t.link k).abortWord = none := ((congrArg Link.abortWord hbare :)).trans hword
  refine linkInv_step h k (fun j e => ?_) ?_ (fun e => by rw [hw] at e; cases e) ?_
  · rw [placeWord_other _ _ _ _ _ e, link_setLink, if_neg e, hother j e]
  · rw [placeWord_frame _ k _ _ _ (by rw [link_setLink_self]), link_setLink_self]
    refine (linkOk_busy_iff (.inl (by rw [link_setLink_self]))).mpr ⟨_, rfl, .inl ?_⟩
    simp only [link_setLink_self, hb, hl]
    refine ⟨ha, rfl, ?_, ?_, .inl ⟨rfl, by simp⟩, fun hne => absurd hq hne⟩
    · show 1 ≤ frameLength _
      rw [frameLength_eq]; omega
    · show 1 ≤ Config.bufferDepth
      decide
  · rw [placeWord_only]; exact hcheck

theorem periodExpiry_linkInv (h : s.linkInv) (k : LinkId) : (s.periodExpiry k).linkInv := by
  unfold periodExpiry
  simp only []
  split <;> [skip; exact h]
  have hr : (s.setLink k { s.link k with remain := (s.link k).period }).linkInv := linkInv_setLink_same h k _ rfl
  split
  · rename_i hw
    exact frameBegin_linkInv hr k (by rw [link_setLink_self]; exact hw)
  · refine linkInv_offer ?_ ..
    exact linkInv_setLink_same hr k _ rfl

/-! ### Link commands and checks -/

/-- LINK_STOP in WAIT: a link at rest goes to OFF (R112). -/
theorem linkOff_linkInv (h : s.linkInv) (k : LinkId) (r : BitVec 4) (hw : (s.link k).state = .wait) :
    (s.linkOff k r).linkInv := by
  obtain ⟨hline, _, _, _, _, hreq, hword⟩ := (linkOk_idle_iff (.inr hw)).mp (h.2 k)
  refine linkInv_frame (linkInv_setLink h k _ ?_ fun _ => rfl) rfl rfl
  exact ⟨hline, rfl, rfl, rfl, rfl, hreq, hword⟩

theorem stopFrame_linkInv (h : s.linkInv) (k : LinkId) (b : Bool) (hs : (s.link k).state = .frame) :
    (s.stopFrame k b).linkInv := by
  unfold stopFrame
  simp only []
  have ht : (if b = true ∧ (s.link k).line ≠ .abort then s.abortFrame k .stop else s).linkInv ∧
      ((if b = true ∧ (s.link k).line ≠ .abort then s.abortFrame k .stop else s).link k).state = .frame := by
    split
    · exact ⟨abortFrame_linkInv h k .stop, by rw [abortFrame_state, hs]⟩
    · exact ⟨h, hs⟩
  generalize (if b = true ∧ (s.link k).line ≠ .abort then s.abortFrame k .stop else s) = t at ht ⊢
  obtain ⟨ht, hframe⟩ := ht
  refine linkInv_setLink_busy ht k _ ((linkOk_busy_iff (.inr rfl)).mpr ?_) (.inl hframe)
  exact (linkOk_busy_iff (.inl hframe)).mp (ht.2 k)

theorem linkStop_linkInv (h : s.linkInv) : s.linkStop.linkInv := by
  unfold linkStop
  split <;> [exact linkInv_frame h rfl rfl; skip]
  rename_i k _
  split <;> [exact linkInv_frame h rfl rfl; skip]
  rename_i hrun
  split <;> [exact linkInv_frame h rfl rfl; skip]
  split
  · rename_i hw; exact linkInv_frame (linkOff_linkInv h k 0 hw) rfl rfl
  · rename_i b _ hw
    exact linkInv_frame (stopFrame_linkInv h k b ((not_not.mp hrun).resolve_left hw)) rfl rfl

theorem linkCancel_linkInv (h : s.linkInv) : s.linkCancel.linkInv := by
  unfold linkCancel
  split <;> [exact linkInv_frame h rfl rfl; skip]
  split <;> [exact linkInv_frame h rfl rfl; refine linkInv_result ?_ ..]
  exact linkInv_setLink_same h _ _ rfl

theorem checkStart_linkInv (h : s.linkInv) (k : LinkId) (c : LongCommand) (p : Program)
    (hk : c = .start → (s.link k).state = .off) : (s.checkStart k c p).linkInv := by
  unfold checkStart
  split
  · refine linkInv_setCheck h rfl fun d hd hstart => ?_
    obtain rfl := Option.some.inj hd
    exact hk hstart
  · exact linkInv_setCheck h rfl fun d hd => by cases hd

theorem linkStart_linkInv (h : s.linkInv) : s.linkStart.linkInv := by
  unfold linkStart
  split <;> [exact linkInv_frame h rfl rfl; skip]
  split <;> [exact linkInv_frame h rfl rfl; skip]
  rename_i hoff
  split <;> [exact linkInv_frame h rfl rfl; skip]
  split <;> [exact linkInv_frame h rfl rfl; skip]
  split <;> [exact linkInv_frame h rfl rfl; skip]
  exact checkStart_linkInv (linkInv_frame (t := s.startCommand .start) h rfl rfl) _ _ _ fun _ => not_not.mp hoff

theorem linkLoad_linkInv (h : s.linkInv) : s.linkLoad.linkInv := by
  unfold linkLoad
  split <;> [exact linkInv_frame h rfl rfl; skip]
  split <;> [exact linkInv_frame h rfl rfl; skip]
  split <;> [exact linkInv_frame h rfl rfl; skip]
  exact checkStart_linkInv (linkInv_frame (t := s.startCommand .load) h rfl rfl) _ _ _ nofun

/-- A check that passes starts a link in OFF, which is at rest, or loads a link (R85, R92). -/
theorem checkPass_linkInv (h : s.linkInv) {c : Check} (hc : s.check = some c) : (s.checkPass c).linkInv := by
  have hnone : ({ s with check := none } : State).linkInv := linkInv_setCheck h rfl (fun _ e => by cases e)
  unfold checkPass
  simp only []
  split
  · rename_i hk
    have hrest := (linkOk_idle_iff (.inl (h.1 c hc hk))).mp (h.2 c.link)
    unfold startLink
    split <;> [exact linkInv_frame hnone rfl rfl; skip]
    refine ⟨fun _ e => (by cases e), fun j => ?_⟩
    show linkOk j ((State.setLink _ c.link _).link j)
    rw [link_setLink]
    split
    · exact hrest
    · exact h.2 j
  · refine linkInv_endCommand ?_ ..
    exact linkInv_setLink_same hnone c.link _ rfl
  · exact linkInv_frame hnone rfl rfl

theorem checkExamine_linkInv (h : s.linkInv) : s.checkExamine.linkInv := by
  have fail : ∀ k w n, (s.checkFail k w n).linkInv := fun k w n => linkInv_setCheck h rfl (fun _ e => by cases e)
  unfold checkExamine
  split <;> [exact h; skip]
  rename_i c hc
  have next : ∀ c' : Check, c'.link = c.link → c'.kind = c.kind → (s.checkNext c').linkInv := fun c' e1 e2 => by
    refine linkInv_setCheck h rfl fun d hd hs => ?_
    have hd : { c' with pos := c'.pos + 1 } = d := Option.some.inj hd
    subst hd
    exact e1 ▸ h.1 c hc (e2 ▸ hs)
  have item : ∀ e, (s.examineItem c e).linkInv := fun e => by
    unfold examineItem
    simp only []
    split <;> [exact fail ..; skip]
    split <;> [exact fail ..; skip]
    split <;> [exact fail ..; skip]
    split <;> [exact fail ..; exact next _ rfl rfl]
  simp only []
  split
  · exact fail ..
  · unfold examineEnd
    split <;> [exact fail ..; skip]
    split <;> [exact checkPass_linkInv h hc; exact next _ rfl rfl]
  · exact item _
  · exact item _

/-! ### Ticks, drains and resets -/

theorem lineView_tick (l : Link) (ready : Bool) : (l.tickPeriod.tickStall ready).lineView = l.lineView := by
  have hp : l.tickPeriod.lineView = l.lineView := by unfold Link.tickPeriod; split <;> rfl
  unfold Link.tickStall
  split
  · exact hp
  · split <;> exact hp

theorem advanceTime_linkInv (h : s.linkInv) (ready : BitVec 6) : (s.advanceTime ready).linkInv := by
  obtain ⟨hlink, honly⟩ := advanceTime_spec ready s
  exact linkInv_same h (fun j => by rw [hlink]; exact lineView_tick ..) (by rw [honly])

/-- The end of a drain clears last-seen entries only (R20). -/
theorem drainCheck_linkInv (h : s.linkInv) (i : SlotId) : (s.drainCheck i).linkInv := by
  unfold drainCheck
  split <;> [skip; exact h]
  refine linkInv_same h (fun j => ?_) (by rw [drainEnd_only])
  rw [drainEnd_link]
  rfl

theorem release_linkInv (h : s.linkInv) (i : SlotId) (g : GenId) : (s.release i g).linkInv :=
  drainCheck_linkInv (s := s.setSlot i _) (linkInv_frame h rfl rfl) i

theorem handleRelease_linkInv (h : s.linkInv) : s.handleRelease.linkInv := by
  unfold handleRelease
  split <;> [exact linkInv_frame h rfl rfl; skip]
  simp only []
  split
  · refine linkInv_result ?_ ..
    exact release_linkInv (s := s.setHandle _ _) (linkInv_frame h rfl rfl) ..
  · exact linkInv_frame h rfl rfl
  · exact linkInv_frame h rfl rfl

theorem slotTeardown_linkInv (h : s.linkInv) : s.slotTeardown.linkInv := by
  unfold slotTeardown
  split <;> [exact linkInv_frame h rfl rfl; skip]
  split <;> [skip; exact linkInv_frame h rfl rfl]
  rename_i i _ _
  rw [acceptTeardown_eq]
  have hb : (s.teardownBegun i).linkInv := linkInv_frame h (by rw [teardownBegun_only]) (by rw [teardownBegun_only])
  generalize s.teardownBegun i = u at hb ⊢
  have hr : ∀ force : Bool, (if force then u.revokeHandles i else u).linkInv := fun force => by
    split <;> [exact linkInv_frame hb (by rw [revokeHandles_only]) (by rw [revokeHandles_only]); exact hb]
  have hd := drainCheck_linkInv (hr (decide (s.arg 1 ≠ 0))) i
  refine linkInv_result (linkInv_frame hd ?_ ?_) .. <;> rw [leaveCohort_only]

theorem linkInv_reset_blocks (hl : s.links = State.reset.links) (hc : s.check = none) : s.linkInv := by
  refine ⟨fun c e => (by rw [hc] at e; cases e), fun k => ?_⟩
  have e : s.link k = Link.reset := by rw [← link_reset k]; unfold link; rw [hl]
  rw [e]
  exact linkAtRest_reset

theorem writeControl_linkInv (h : s.linkInv) (v : Word) : (s.writeControl v).linkInv := by
  unfold writeControl
  simp only []
  split <;> [skip; exact linkInv_frame h rfl rfl]
  unfold startDeviceReset
  split <;> [exact linkInv_reset_blocks rfl rfl; exact linkInv_frame h rfl rfl; exact linkInv_frame h rfl rfl]

/-! ### Grants and acts -/

/-- The word of a link's read request enters its buffer (R100). -/
theorem linkRead_linkInv (h : s.linkInv) {k : LinkId} {q : ReadReq} (hq : (s.link k).req = some q) (w : Word) :
    (((s.setLink k { s.link k with req := none }).placeWord k w false).presentRead k).linkInv := by
  have hreq : (s.link k).req ≠ none := by rw [hq]; nofun
  have hline : (s.link k).line ≠ .abort := fun ha => hreq (linkAborted_of_line (h.2 k) ha).2.2.2.2
  obtain hidle | hbusy := Link.idle_or_busy (s.link k)
  · obtain ⟨_, _, _, _, _, hnone, _⟩ := (linkOk_idle_iff hidle).mp (h.2 k)
    exact absurd hnone hreq
  obtain ⟨f, hf, _⟩ := (linkOk_busy_iff hbusy).mp (h.2 k)
  obtain ⟨h1, h2, h3, h4, h5, hnext⟩ := linkDriving_of_frame (h.2 k) hf hline
  obtain ⟨hroom, i, pos, hdata⟩ := hnext hreq
  have hmore : f.placed < frameLength (s.link k).items :=
    Nat.lt_of_not_le fun e => by rw [frameWord_none_iff.mpr e] at hdata; cases hdata
  have hu : (s.setLink k { s.link k with req := none }).linkInv := by
    refine linkInv_setLink_busy h k _ ((linkOk_busy_iff (by exact hbusy)).mpr ⟨f, hf, .inl ?_⟩) hbusy
    exact ⟨h1, h2, h3, h4, h5, fun e => absurd rfl e⟩
  refine presentRead_linkInv (placeWord_linkInv (f := f) hu w false ?_ ?_ ?_ ?_ ?_) k <;> rw [link_setLink_self] <;> assumption

theorem grantAct_linkInv (h : s.linkInv) (e : GrantAct s t) : t.linkInv := by
  cases e with
  | idle => exact h
  | portWrite | portWithdraw => exact linkInv_frame h (by rw [afterRequest_only]; rfl) (by rw [afterRequest_only]; rfl)
  | feedWrite | feedWithdraw | handleRead => exact linkInv_frame h rfl rfl
  | linkRead r k q w hq hw => exact linkInv_frame (linkRead_linkInv h hq w) rfl rfl

theorem timeAct_linkInv (h : s.linkInv) (e : TimeAct s t) : t.linkInv := by
  cases e with
  | stallAbort k => exact stallAbort_linkInv h k
  | giveUp k => exact giveUp_linkInv h k
  | periodExpiry k => exact periodExpiry_linkInv h k
  | windowExpiry c =>
    have honly := (windowExpiry_spec s c).1
    exact linkInv_frame h (by rw [honly]) (by rw [honly])
  | feedExpiry => exact linkInv_frame h (by rw [feedExpiry_only]) (by rw [feedExpiry_only])
  | advanceTime ready => exact advanceTime_linkInv h ready
  | countCycle => exact linkInv_frame h rfl rfl

theorem act_linkInv (h : s.linkInv) (e : Act s t) : t.linkInv := by
  cases e with
  | plain e => rw [plainAct_only e]; exact linkInv_frame h rfl rfl
  | time e => exact timeAct_linkInv h e
  | slotConfigure => rw [slotConfigure_only]; exact linkInv_frame h rfl rfl
  | slotFreeze => rw [slotFreeze_only]; exact linkInv_frame h rfl rfl
  | slotThaw => rw [slotThaw_only]; exact linkInv_frame h rfl rfl
  | slotTeardown => exact slotTeardown_linkInv h
  | cohortSet => rw [cohortSet_only]; exact linkInv_frame h rfl rfl
  | linkStart => exact linkStart_linkInv h
  | linkLoad => exact linkLoad_linkInv h
  | linkCancel => exact linkCancel_linkInv h
  | linkStop => exact linkStop_linkInv h
  | handlePin => rw [handlePin_only]; exact linkInv_frame h rfl rfl
  | handleRelease => exact handleRelease_linkInv h
  | feedOpen => rw [feedOpen_only]; exact linkInv_frame h rfl rfl
  | feedClose => rw [feedClose_only]; exact linkInv_frame h rfl rfl
  | feedAbort => rw [feedAbort_only]; exact linkInv_frame h rfl rfl
  | pageTake => rw [pageTake_only]; exact linkInv_frame h rfl rfl
  | checkExamine => exact checkExamine_linkInv h
  | intake p x => rw [intake_only]; exact linkInv_frame h rfl rfl
  | headStart p => rw [headStart_only]; exact linkInv_frame h rfl rfl
  | headWord p =>
    obtain e | e := headWord_eq s p <;> rw [e]
    · exact h
    · rw [takeWord_only]; exact linkInv_frame h rfl rfl
  | headDrop p =>
    obtain e | e := headDrop_eq s p <;> rw [e]
    · exact h
    · rw [leaveEntry_only]; exact linkInv_frame h rfl rfl
  | headEnd p =>
    obtain e | e := headEnd_eq s p <;> rw [e]
    · exact h
    · rw [takeWord_only]; exact linkInv_frame h rfl rfl
  | headError p => rw [headError_only]; exact linkInv_frame h rfl rfl
  | enablePort p => rw [enablePort_only]; exact linkInv_frame h rfl rfl
  | disablePort p => rw [disablePort_only]; exact linkInv_frame h rfl rfl
  | writeEnables v => rw [writeEnables_only]; exact linkInv_frame h rfl rfl
  | placeNext k => exact placeNext_linkInv h k
  | wordTaken k => exact wordTaken_linkInv h k
  | readHandle n => rw [readHandle_only]; exact linkInv_frame h rfl rfl
  | writeFeed v => rw [writeFeed_only]; exact linkInv_frame h rfl rfl
  | clearOverflowed | writeHandleAddr | clearOverread | clearOverlength => exact linkInv_frame h rfl rfl
  | writeControl v => exact writeControl_linkInv h v
  | assertReset => exact linkInv_reset_blocks rfl rfl
  | releaseReset => unfold releaseReset; split <;> exact linkInv_frame h rfl rfl
  | rebuildPage =>
    unfold rebuildPage
    split <;> [skip; exact h; exact h]
    split <;> [skip; exact h]
    simp only []
    split <;> exact linkInv_frame h rfl rfl
  | clearSchedule =>
    unfold clearSchedule
    split <;> [skip; exact h; exact h; exact h]
    simp only []
    split <;> exact linkInv_frame h rfl rfl

end

end State

/-- Settles O56: every grant and every act keeps each link in agreement with its line. -/
theorem linksAndLinesAgree : Obligations.LinksAndLinesAgree := by
  unfold Obligations.LinksAndLinesAgree
  exact fun s t _ h e => step_keeps_of_acts State.linkInv (fun _ _ h => State.linkInv_frame h rfl rfl)
    (fun _ _ => State.grantAct_linkInv) (fun _ _ => State.act_linkInv) h e

end Sys2Proof.Machine

/-! SUPPORT. A period expiry in FRAME and the placing of words (O34, O38; R93, R95, R100). -/

namespace Sys2Proof.Machine
namespace State

variable {s : State} {k : LinkId} {f : Frame}

theorem saturate16_eq (n : Nat) : saturate16 n = min (n + 1) 65535 := rfl

/-! ### Period expiry -/

theorem periodExpiry_notDue (h : s.periodDue k = false) : s.periodExpiry k = s := by
  unfold periodExpiry
  rw [h]
  exact if_neg Bool.false_ne_true

theorem periodDue_eq_false (h : (s.link k).state = .off ∨ (s.link k).state = .stopping ∨ (s.link k).remain ≠ 0) :
    s.periodDue k = false := by
  unfold periodDue
  obtain h | h | h := h <;> simp [h]

theorem periodExpiry_frame (hs : (s.link k).state = .frame) (hr : (s.link k).remain = 0) :
    s.periodExpiry k = (s.setLink k { s.link k with remain := (s.link k).period }).slip k := by
  unfold periodExpiry
  rw [if_pos (by unfold periodDue; simp [hs, hr]), if_neg (by rw [hs]; nofun)]

theorem periodExpiry_wait (hs : (s.link k).state = .wait) (hr : (s.link k).remain = 0) :
    s.periodExpiry k = (s.setLink k { s.link k with remain := (s.link k).period }).frameBegin k := by
  unfold periodExpiry
  rw [if_pos (by unfold periodDue; simp [hs, hr]), if_pos hs]

/-! ### The next word -/

theorem placeNext_plain {w : Word} (hf : (s.link k).frame = some f) (hline : (s.link k).line ≠ .abort)
    (hroom : (s.link k).buffer.length < Config.bufferDepth) (hw : frameWord k (s.link k) f f.placed = some (.plain w)) :
    s.placeNext k = (s.placeWord k w false).presentRead k := by
  unfold placeNext
  simp only [hf, hw]
  exact if_pos ⟨hline, hroom⟩

theorem placeNext_trailer (hf : (s.link k).frame = some f) (hline : (s.link k).line ≠ .abort)
    (hroom : (s.link k).buffer.length < Config.bufferDepth) (hw : frameWord k (s.link k) f f.placed = some .trailer) :
    s.placeNext k = s.placeWord k (~~~ f.crc) true := by
  unfold placeNext
  simp only [hf, hw]
  exact if_pos ⟨hline, hroom⟩

theorem placeNext_idle (hf : (s.link k).frame = some f)
    (h : (s.link k).line = .abort ∨ Config.bufferDepth ≤ (s.link k).buffer.length ∨
      frameWord k (s.link k) f f.placed = none ∨ ∃ i pos, frameWord k (s.link k) f f.placed = some (.data i pos)) :
    s.placeNext k = s := by
  unfold placeNext
  simp only [hf]
  split <;> [skip; rfl]
  rename_i hopen
  obtain ⟨hline, hroom⟩ := hopen
  obtain h | h | h | ⟨i, pos, h⟩ := h
  · exact absurd h hline
  · exact absurd hroom h.not_gt
  · rw [h]
  · rw [h]

/-- A link keeps the request it holds, and without one presents the read of its next word (R33, R100; log 13). -/
theorem presentRead_presentsRead (s : State) (k : LinkId) :
    presentsRead k (s.link k).req ((s.presentRead k).link k) := by
  cases hreq : (s.link k).req with
  | none => exact presentRead_presents hreq
  | some q =>
    have same : s.presentRead k = s := by
      unfold presentRead
      simp only [hreq, reduceCtorEq, false_and, and_false, if_false]
      split <;> rfl
    rw [same]
    exact ⟨fun q' e => hreq.trans e, nofun⟩

end State

/-- Settles O34: the two branches of the expiry outside WAIT. -/
theorem periodExpiryInFrameIsASlip : Obligations.PeriodExpiryInFrameIsASlip := by
  unfold Obligations.PeriodExpiryInFrameIsASlip
  refine fun s k => ⟨fun h => ?_, fun hs hr => ?_⟩
  · exact congrArg _ (State.periodExpiry_notDue (State.periodDue_eq_false h))
  · refine ⟨_, congrArg Host.Outcome.next (State.periodExpiry_frame hs hr), ?_⟩
    unfold State.slip
    simp only [State.link_setLink_self, State.saturate16_eq]
    refine ⟨State.link_setLink_self .., fun j hj => ?_, rfl⟩
    show (State.setLink _ k _).link j = _
    rw [State.link_setLink, if_neg hj, State.link_setLink, if_neg hj]

/-- Settles O38: a header word is placed and the next read presented; the trailer is placed and nothing comes after it. -/
theorem linkPlacesItsNextWord : Obligations.LinkPlacesItsNextWord := by
  unfold Obligations.LinkPlacesItsNextWord
  intro s k f hf next
  refine ⟨fun h => congrArg _ (State.placeNext_idle hf h), fun hline hroom => ⟨fun w hw => ?_, fun hw => ?_⟩⟩
  · refine ⟨_, congrArg Host.Outcome.next (State.placeNext_plain hf hline hroom hw), ?_⟩
    rw [State.placeWord_frame s k w false f hf, if_neg hline]
    generalize hu : s.setLink k _ = u
    have huk : u.link k = { s.link k with
        buffer := (s.link k).buffer ++ [w], frame := some { f with placed := f.placed + 1, crc := crcWord f.crc w }
        line := .drive } := by
      rw [← hu, State.link_setLink_self]; rfl
    have hreads := State.presentRead_presentsRead u k
    have hreq : (u.link k).req = (s.link k).req := by rw [huk]
    rw [hreq] at hreads
    obtain ⟨q, hq⟩ := State.presentRead_req u k
    refine ⟨?_, hreads, fun j hj => ?_, ?_⟩
    · rw [hq, State.link_setLink_self, huk]
    · rw [hq, State.link_setLink, if_neg hj, ← hu, State.link_setLink, if_neg hj]
    · rw [hq, ← hu]; rfl
  · refine ⟨_, congrArg Host.Outcome.next (State.placeNext_trailer hf hline hroom hw), ?_⟩
    rw [State.placeWord_frame s k _ true f hf, if_neg hline]
    exact ⟨State.link_setLink_self .., fun j hj => (State.link_setLink ..).trans (if_neg hj), rfl⟩

end Sys2Proof.Machine

/-! SUPPORT. The begin of a frame (O35; R94, R96 to R100): the entries of its run, the slots they name, and the claim of their
pins. -/

namespace Sys2Proof.Machine

/-! ### The entries of a frame -/

/-- A run of n entries and its FRAME_END, with their entry numbers (R96). -/
theorem State.frameRun_eq (s : State) (base : Nat) : ∀ (n fuel c : Nat), n < fuel →
    (∀ j, j < n → (s.entry (base + c + j)).action ≠ .frameEnd) → (s.entry (base + c + n)).action = .frameEnd →
    s.frameRun base fuel c = ((List.range n).map fun j => (base + c + j, s.entry (base + c + j)), c + n + 1)
  | _, 0, _, hn, _, _ => absurd hn (Nat.not_lt_zero _)
  | 0, fuel + 1, c, _, _, hend => if_pos hend
  | n + 1, fuel + 1, c, hn, hitems, hend => by
    have hnext : ∀ j, base + (c + 1) + j = base + c + (j + 1) := fun j => by omega
    have hrest := frameRun_eq s base n fuel (c + 1) (Nat.lt_of_succ_lt_succ hn)
      (fun j hj => by rw [hnext]; exact hitems _ (Nat.succ_lt_succ hj)) (by rw [hnext]; exact hend)
    have hfirst : (s.entry (base + c)).action ≠ .frameEnd := hitems 0 (Nat.succ_pos n)
    rw [State.frameRun, if_neg hfirst, hrest, List.range_succ_eq_map, List.map_cons, List.map_map]
    simp only [hnext, Function.comp_def]
    rw [show c + 1 + n + 1 = c + (n + 1) + 1 by omega]
    rfl

theorem distinctSlots_concat (l : List (Nat × SchedEntry)) (c : Nat × SchedEntry) : distinctSlots (l ++ [c]) =
    if c.2.slot ∈ distinctSlots l then distinctSlots l else distinctSlots l ++ [c.2.slot] := by
  unfold distinctSlots
  rw [List.foldl_append]
  rfl

theorem mem_distinctSlots {i : SlotId} (l : List (Nat × SchedEntry)) : i ∈ distinctSlots l ↔ ∃ c ∈ l, c.2.slot = i := by
  induction l using List.reverseRecOn with
  | nil => exact iff_of_false nofun (fun ⟨_, h, _⟩ => nomatch h)
  | append_singleton l c ih =>
    have hmem : (∃ d ∈ l ++ [c], d.2.slot = i) ↔ i ∈ distinctSlots l ∨ c.2.slot = i := by
      simp only [List.mem_append, List.mem_singleton, or_and_right, exists_or, exists_eq_left, ih]
    rw [distinctSlots_concat, hmem]
    split
    · rename_i h
      exact ⟨.inl, fun h' => h'.elim id fun e => e ▸ h⟩
    · rw [List.mem_append, List.mem_singleton, eq_comm (a := i)]

/-- The slots of the first n entries stand in the order of their first entries (R96). -/
theorem distinctSlots_pairwise (e : Nat → Nat × SchedEntry) (n : Nat) :
    (distinctSlots ((List.range n).map e)).Pairwise fun a b =>
      ∃ j, j < n ∧ (e j).2.slot = a ∧ ∀ m, m ≤ j → (e m).2.slot ≠ b := by
  induction n with
  | zero => exact .nil
  | succ n ih =>
    have hold := ih.imp fun {a b} ⟨j, hj, h⟩ => (⟨j, Nat.lt_succ_of_lt hj, h⟩ :
      ∃ j, j < n + 1 ∧ (e j).2.slot = a ∧ ∀ m, m ≤ j → (e m).2.slot ≠ b)
    rw [List.range_succ, List.map_append, List.map_singleton, distinctSlots_concat]
    split <;> [exact hold; skip]
    rename_i hnew
    refine List.pairwise_append.mpr ⟨hold, List.pairwise_singleton .., fun a ha b hb => ?_⟩
    obtain rfl := List.mem_singleton.mp hb
    obtain ⟨_, hc, rfl⟩ := (mem_distinctSlots _).mp ha
    obtain ⟨j, hj, rfl⟩ := List.mem_map.mp hc
    have hj := List.mem_range.mp hj
    refine ⟨j, Nat.lt_succ_of_lt hj, rfl, fun m hm heq => hnew ?_⟩
    exact (mem_distinctSlots _).mpr ⟨e m, List.mem_map_of_mem (List.mem_range.mpr (by omega)), heq⟩

theorem classify_entry (l : Link) (t : Tick) (c : Nat × SchedEntry) : (classify l t c).entry = c.1 := by
  unfold classify
  simp only []
  split <;> [rfl; skip]
  split <;> [rfl; skip]
  split <;> rfl

theorem classify_slot (l : Link) (t : Tick) (c : Nat × SchedEntry) : (classify l t c).slot = c.2.slot := by
  unfold classify
  simp only []
  split <;> [rfl; skip]
  split <;> [rfl; skip]
  split <;> rfl

/-! ### The claim of the pins -/

/-- A slot grants a pin on NEWEST when it is ACTIVE or FROZEN and holds one (R10). -/
theorem Slot.pinAnswer_granted_iff {x : Slot} {g : GenId} :
    x.pinAnswer = .granted g ↔ (x.state = .active ∨ x.state = .frozen) ∧ x.newest = some g := by
  refine ⟨fun h => (State.pinAnswer_granted h).symm, fun ⟨hs, hn⟩ => ?_⟩
  unfold Slot.pinAnswer
  obtain hs | hs := hs <;> simp only [hs, hn]

/-- A slot after a link has asked it for a pin (R10, R96). -/
def Slot.claimed (x : Slot) : Slot :=
  match x.pinAnswer with
  | .granted g => x.setPins g ((x.gen g).pins + 1)
  | .notReady | .refused => x

theorem Slot.claimed_eq (x : Slot) : x.claimed = { x with gens := x.claimed.gens } := by
  unfold Slot.claimed
  split <;> rfl

theorem Slot.claimed_granted {x : Slot} {g : GenId} (h : x.pinAnswer = .granted g) :
    x.claimed.gen g = { x.gen g with pins := (x.gen g).pins + 1 } ∧ ∀ o, o ≠ g → x.claimed.gen o = x.gen o := by
  unfold Slot.claimed Slot.setPins
  simp only [h, Slot.gen_setGen, if_true, true_and]
  exact fun o ho => if_neg ho

theorem Slot.claimed_refused {x : Slot} (h : ∀ g, x.pinAnswer ≠ .granted g) : x.claimed = x := by
  unfold Slot.claimed
  split
  · rename_i g hg; exact absurd hg (h g)
  all_goals rfl

namespace State

/-- The pin a link takes on a slot, where the slot grants one (R96). -/
def pinFor (s : State) (i : SlotId) : Option PinEntry :=
  match (s.slot i).pinAnswer with
  | .granted g =>
    let y := (s.slot i).gen g
    some { slot := i, gen := g, seq := y.seq, stamp := y.stamp, words := y.words, isShort := y.isShort
           isPartial := y.isPartial, epoch := y.epoch }
  | .notReady | .refused => none

theorem pinFor_eq_some_iff {s : State} {i : SlotId} {p : PinEntry} : s.pinFor i = some p ↔ p.slot = i ∧
    ((s.slot p.slot).state = .active ∨ (s.slot p.slot).state = .frozen) ∧ (s.slot p.slot).newest = some p.gen ∧
    p.seq = ((s.slot p.slot).gen p.gen).seq ∧ p.stamp = ((s.slot p.slot).gen p.gen).stamp ∧
    p.words = ((s.slot p.slot).gen p.gen).words ∧ p.isShort = ((s.slot p.slot).gen p.gen).isShort ∧
    p.isPartial = ((s.slot p.slot).gen p.gen).isPartial ∧ p.epoch = ((s.slot p.slot).gen p.gen).epoch := by
  unfold pinFor
  constructor
  · intro h
    split at h <;> [skip; cases h; cases h]
    rename_i g hg
    obtain ⟨hs, hn⟩ := Slot.pinAnswer_granted_iff.mp hg
    cases h
    exact ⟨rfl, hs, hn, rfl, rfl, rfl, rfl, rfl, rfl⟩
  · rintro ⟨rfl, hs, hn, hfields⟩
    rw [Slot.pinAnswer_granted_iff.mpr ⟨hs, hn⟩]
    obtain ⟨h1, h2, h3, h4, h5, h6⟩ := hfields
    simp only [← h1, ← h2, ← h3, ← h4, ← h5, ← h6]

theorem claimPin_slot (s : State) (k : LinkId) (i : SlotId) : (s.claimPin k i).slot i = (s.slot i).claimed := by
  unfold claimPin Slot.claimed
  cases (s.slot i).pinAnswer with
  | granted g => exact slot_setSlot_self ..
  | notReady | refused => rfl

theorem claimPin_other (s : State) (k : LinkId) {i j : SlotId} (h : j ≠ i) : (s.claimPin k i).slot j = s.slot j := by
  unfold claimPin
  split
  · exact (slot_setSlot ..).trans (if_neg h)
  all_goals rfl

theorem claimPin_link_self (s : State) (k : LinkId) (i : SlotId) : (s.claimPin k i).link k = { s.link k with
    pinSet := (s.link k).pinSet ++ (s.pinFor i).toList } := by
  unfold claimPin pinFor
  cases (s.slot i).pinAnswer with
  | granted g => exact link_setLink_self ..
  | notReady | refused => simp only [Option.toList_none, List.append_nil]

theorem claimPins_slot (s : State) (k : LinkId) {l : List SlotId} (hn : l.Nodup) (i : SlotId) :
    (s.claimPins k l).slot i = if i ∈ l then (s.slot i).claimed else s.slot i := by
  split
  · rename_i hi
    rw [← claimPin_slot s k i]
    exact foldl_slot id (fun t i => t.claimPin k i) (fun t i j hj => claimPin_other t k hj)
      (fun t u i h => by rw [id, claimPin_slot, claimPin_slot]; exact congrArg _ h) l (by rwa [List.map_id]) i hi s
  · rename_i hi
    exact foldl_get (fun t : State => t.slot i) _ l (fun t j hj => claimPin_other t k fun e => hi (e ▸ hj)) s

theorem claimPins_link_self (k : LinkId) : ∀ (l : List SlotId), l.Nodup → ∀ s : State, (s.claimPins k l).link k =
    { s.link k with pinSet := (s.link k).pinSet ++ l.filterMap s.pinFor }
  | [], _, s => by rw [List.filterMap_nil, List.append_nil]; rfl
  | i :: l, hn, s => by
    obtain ⟨hi, hn⟩ := List.nodup_cons.mp hn
    have hlater : l.filterMap (s.claimPin k i).pinFor = l.filterMap s.pinFor := List.filterMap_congr fun j hj => by
      unfold pinFor
      rw [claimPin_other s k fun e : j = i => hi (e ▸ hj)]
    have hcons : (i :: l).filterMap s.pinFor = (s.pinFor i).toList ++ l.filterMap s.pinFor := by
      rw [List.filterMap_cons]; cases s.pinFor i <;> rfl
    have hfold := claimPins_link_self k l hn (s.claimPin k i)
    rw [hlater, claimPin_link_self, List.append_assoc, ← hcons] at hfold
    exact hfold

/-! ### The begin of a frame -/

/-- The frame that a link begins with the SYNC placed (R94, R100, R119). -/
def begunFrame (s : State) (l : Link) (next : Nat) : Frame :=
  { number := l.frameNo, cycle := l.cycleNo, tag := l.active.tag, begun := s.now, next := next, placed := 1, taken := 0
    crc := crcWord crcStart l.sync }

/-- Link k, at rest, has begun a frame with a run of entries at a period expiry (R93, R94, R96 to R100). -/
structure FrameBegun (s t : State) (k : LinkId) (run : List (Nat × SchedEntry) × Nat) : Prop where
  link : t.link k =
    let pins := (distinctSlots run.1).filterMap s.pinFor
    { s.link k with
      state := .frame, remain := (s.link k).period, frameNo := (s.link k).frameNo + 1
      frame := some (s.begunFrame (s.link k) run.2), pinSet := pins, buffer := [(s.link k).sync], line := .drive
      items := run.1.map (classify { s.link k with pinSet := pins } s.now) }
  slot : ∀ i, t.slot i = if i ∈ distinctSlots run.1 then (s.slot i).claimed else s.slot i
  other : ∀ j, j ≠ k → t.link j = s.link j
  only : t = { s with slots := t.slots, links := t.links }

theorem frameRun_congr {s t : State} (h : t.entry = s.entry) (base fuel c : Nat) :
    t.frameRun base fuel c = s.frameRun base fuel c := by
  induction fuel generalizing c with
  | zero => rfl
  | succ fuel ih => rw [frameRun, frameRun, h, ih]

/-- A frame's begin by the parts it changes: its link, and the slots that the claim pins. -/
theorem frameBegin_parts {s : State} {k : LinkId} {run : List (Nat × SchedEntry) × Nat}
    (hrun : s.frameRun (s.link k).active.base ((s.link k).active.len - (s.link k).cursor) (s.link k).cursor = run) :
    (s.frameBegin k).slots = (s.claimPins k (distinctSlots run.1)).slots ∧
    (s.frameBegin k).link k =
      let pins := (s.link k).pinSet ++ (distinctSlots run.1).filterMap s.pinFor
      { s.link k with
        state := .frame, frameNo := (s.link k).frameNo + 1, frame := some (s.begunFrame (s.link k) run.2), pinSet := pins
        items := run.1.map (classify { s.link k with pinSet := pins } s.now)
        buffer := (s.link k).buffer ++ [(s.link k).sync]
        line := if (s.link k).line = .abort then .abort else .drive } := by
  have hclaim := claimPins_link_self k _ (distinctSlots_nodup run.1) s
  unfold frameBegin
  simp only [hrun]
  rw [placeWord_frame _ k _ false _ (by rw [link_setLink_self]), link_setLink_self, link_setLink_self, hclaim]
  exact ⟨rfl, rfl⟩

theorem periodExpiry_begins {s : State} {k : LinkId} {run : List (Nat × SchedEntry) × Nat} (hw : (s.link k).state = .wait)
    (hr : (s.link k).remain = 0) (hrest : linkAtRest (s.link k))
    (hrun : s.frameRun (s.link k).active.base ((s.link k).active.len - (s.link k).cursor) (s.link k).cursor = run) :
    FrameBegun s (s.periodExpiry k) k run := by
  obtain ⟨hline, hpins, _, hbuffer, _⟩ := hrest
  rw [periodExpiry_wait hw hr]
  generalize hu : s.setLink k { s.link k with remain := (s.link k).period } = u
  have hlu : u.link k = { s.link k with remain := (s.link k).period } := by rw [← hu, link_setLink_self]
  have hentry : u.entry = s.entry := by rw [← hu]; rfl
  have hpin : u.pinFor = s.pinFor := by rw [← hu]; rfl
  have hnow : u.now = s.now := by rw [← hu]; rfl
  have hrun' : u.frameRun (u.link k).active.base ((u.link k).active.len - (u.link k).cursor) (u.link k).cursor = run := by
    rw [frameRun_congr hentry, hlu]; exact hrun
  obtain ⟨hslots, hlink⟩ := frameBegin_parts hrun'
  refine ⟨?_, fun i => ?_, fun j hj => ?_, ?_⟩
  · rw [hlink, hlu, hpin, hnow]
    simp only [hpins, hbuffer, hline, List.nil_append]
    rw [← hu]
    rfl
  · have h := claimPins_slot u k (distinctSlots_nodup run.1) i
    unfold slot at h ⊢
    rw [hslots, h, ← hu]
    rfl
  · rw [(frameBegin_link u k j).1 hj, ← hu, link_setLink, if_neg hj]
  · rw [frameBegin_only, ← hu]
    rfl

end State

/-- Settles O35: the run of the frame's entries, the claim of the slots they name in the order of their first entries, and
SYNC placed. -/
theorem periodExpiryInWaitBeginsAFrame : Obligations.PeriodExpiryInWaitBeginsAFrame := by
  unfold Obligations.PeriodExpiryInWaitBeginsAFrame
  intro s k n hw hremain hrest l entry hlen hitems hend named offers
  have hrun := State.frameRun_eq s l.active.base n (l.active.len - l.cursor) l.cursor (by omega) hitems hend
  obtain ⟨hlink, hslot, hother, honly⟩ := State.periodExpiry_begins hw hremain hrest hrun
  have hpairs := distinctSlots_pairwise (fun j => (l.active.base + l.cursor + j, entry j)) n
  have hnamed : ∀ i, i ∈ distinctSlots ((List.range n).map fun j => (l.active.base + l.cursor + j, entry j)) ↔ named i :=
    fun i => by
      rw [mem_distinctSlots]
      simp only [List.mem_map, List.mem_range, exists_exists_and_eq_and]
      rfl
  simp only [] at hlink
  generalize distinctSlots _ = slots at hlink hslot hpairs hnamed
  generalize hpins : slots.filterMap s.pinFor = pins at hlink
  have hpinSet : ((s.periodExpiry k).link k).pinSet = pins := by rw [hlink]
  refine ⟨_, s.begunFrame l (l.cursor + n + 1), rfl, by rw [hlink], rfl, rfl, rfl, rfl, rfl, rfl, rfl, rfl,
    ?_, ?_, ?_, ?_, fun p => ?_, ?_, fun i g hi hoff hnew => ?_, fun i => ?_, fun i hi => ?_, hother, honly⟩
  · rw [hlink]
    simp only [List.map_map, Function.comp_def, classify_entry]
  · rw [hlink]
    simp only [List.map_map, Function.comp_def, classify_slot]
    rfl
  · rw [hlink, List.map_map]
    rfl
  · rw [hlink]
  · rw [hpinSet, ← hpins, List.mem_filterMap]
    constructor
    · rintro ⟨_, hi, hpin⟩
      obtain ⟨rfl, hgranted⟩ := State.pinFor_eq_some_iff.mp hpin
      exact ⟨(hnamed _).mp hi, hgranted⟩
    · rintro ⟨hi, hpin⟩
      exact ⟨p.slot, (hnamed _).mpr hi, State.pinFor_eq_some_iff.mpr ⟨rfl, hpin⟩⟩
  · rw [hpinSet, ← hpins]
    refine hpairs.filterMap _ fun a b hab p hp q hq => ?_
    rw [(State.pinFor_eq_some_iff.mp hp).1, (State.pinFor_eq_some_iff.mp hq).1]
    exact hab
  · rw [hslot, if_pos ((hnamed i).mpr hi)]
    exact Slot.claimed_granted (Slot.pinAnswer_granted_iff.mpr ⟨hoff, hnew⟩)
  · rw [hslot]
    split
    · exact Slot.claimed_eq _
    · rfl
  · rw [hslot]
    split
    · rename_i hm
      refine Slot.claimed_refused fun g hg => ?_
      obtain ⟨hoff, hnew⟩ := Slot.pinAnswer_granted_iff.mp hg
      obtain h | h | h := hi
      · exact h ((hnamed i).mp hm)
      · exact h hoff
      · rw [h] at hnew; cases hnew
    · rfl

end Sys2Proof.Machine

/-! SUPPORT. The release of a list of pins (R11, R20, R30): what becomes of their slots, of the pool, of the links and of the
records. -/

namespace Sys2Proof.Machine
namespace State

/-! ### Chains that go back -/

/-- The chains of the slots of a list are back behind the free list, the memories are in canonical form, and NEXT of every
other page is as it was (R30). -/
def ChainsBack (s t : State) (slots : List SlotId) : Prop :=
  ∀ (free : List PageId) (chain : SlotId → GenId → List PageId), s.memoriesWf = true → freeList s.pool free →
    (∀ i ∈ slots, ∀ g : GenId, g.val < (s.slot i).depth → chain i g ≠ [] ∧ (chain i g).length = (s.slot i).ppg ∧
      linkedList s.pool ((s.slot i).gen g).head (chain i g)) →
    (free ++ slots.flatMap (s.chainPages chain)).Nodup →
    freeList t.pool (free ++ slots.flatMap (s.chainPages chain)) ∧ t.memoriesWf = true ∧
      ∀ p, p ∉ free ++ slots.flatMap (s.chainPages chain) → t.pool.nextOf p = s.pool.nextOf p

theorem ChainsBack.returnsChains {s t : State} {l : List SlotId} (h : ChainsBack s t l) : s.returnsChains t l :=
  fun free chain hw hf hc hd => (h free chain hw hf hc hd).1

theorem chainsBack_nil {s t : State} (hp : t.pool = s.pool) (hw : t.memoriesWf = s.memoriesWf) : ChainsBack s t [] := by
  intro free chain hs hf _ _
  rw [List.flatMap_nil, List.append_nil, hp, hw]
  exact ⟨hf, hs, fun _ _ => rfl⟩

theorem mem_chainPages {s : State} {chain : SlotId → GenId → List PageId} {i : SlotId} {g : GenId} {p : PageId}
    (hg : g.val < (s.slot i).depth) (hp : p ∈ chain i g) : p ∈ s.chainPages chain i :=
  List.mem_flatMap.mpr ⟨g, List.mem_filter.mpr ⟨List.mem_finRange g, decide_eq_true hg⟩, hp⟩

/-- Chains go back after others, those of slots that the first return leaves as they are. -/
theorem ChainsBack.trans {s t u : State} {a b : List SlotId} (h : ChainsBack s t a) (h' : ChainsBack t u b)
    (hb : ∀ i ∈ b, (t.slot i).depth = (s.slot i).depth ∧ (t.slot i).ppg = (s.slot i).ppg ∧
      ∀ g, ((t.slot i).gen g).head = ((s.slot i).gen g).head) : ChainsBack s u (a ++ b) := by
  intro free chain hw hf hc hd
  have hpages : b.flatMap (s.chainPages chain) = b.flatMap (t.chainPages chain) := by
    refine List.flatMap_congr fun i hi => ?_
    unfold chainPages
    rw [(hb i hi).1]
  rw [List.flatMap_append, ← List.append_assoc] at hd ⊢
  obtain ⟨hnodup, _, hdisjoint⟩ := List.nodup_append.mp hd
  obtain ⟨hfree, hwf, hnext⟩ := h free chain hw hf (fun i hi => hc i (List.mem_append_left b hi)) hnodup
  have hlater : ∀ i ∈ b, ∀ g : GenId, g.val < (t.slot i).depth → chain i g ≠ [] ∧
      (chain i g).length = (t.slot i).ppg ∧ linkedList t.pool ((t.slot i).gen g).head (chain i g) := fun i hi g hg => by
    obtain ⟨hdepth, hppg, hhead⟩ := hb i hi
    rw [hdepth] at hg
    obtain ⟨hne, hlen, hlink⟩ := hc i (List.mem_append_right a hi) g hg
    rw [hppg, hhead]
    refine ⟨hne, hlen, linkedList_congr (fun p hp => hnext p fun hm => ?_) hlink⟩
    exact hdisjoint p hm p (List.mem_flatMap.mpr ⟨i, hi, mem_chainPages hg hp⟩) rfl
  rw [hpages] at hd ⊢
  obtain ⟨hfree', hwf', hnext'⟩ := h' _ chain hwf hfree hlater hd
  exact ⟨hfree', hwf', fun p hp => (hnext' p hp).trans (hnext p fun hm => hp (List.mem_append_left _ hm))⟩

theorem drainEnd_chainsBack (s : State) (i : SlotId) : ChainsBack s (s.drainEnd i) [i] := by
  intro free chain hw hf hc hd
  obtain ⟨⟨hstore, hschedule⟩, hnext⟩ := (memoriesWf_iff s).mp hw
  refine ⟨drainEnd_returnsChains s i free chain hw hf hc hd, (memoriesWf_iff _).mpr ⟨⟨?_, ?_⟩, wf_drainEnd hnext i⟩,
    fun p hp => ?_⟩
  · rw [drainEnd_only]; exact hstore
  · rw [drainEnd_only]; exact hschedule
  · rw [List.flatMap_singleton] at hd hp
    rw [drainEnd_pool]
    refine nextOf_returnChains _ s free ((List.nodup_finRange 5).filter _) hnext hf (fun g hg => ?_) hd p hp
    exact hc i List.mem_cons_self g (of_decide_eq_true (List.mem_filter.mp hg).2)

/-! ### One pin -/

/-- PINS of a generation of a pin's slot after the pin's release (R11). -/
def pinsLeft (s : State) (p : PinEntry) (g : GenId) : Nat :=
  if g = p.gen then ((s.slot p.slot).gen g).pins - 1 else ((s.slot p.slot).gen g).pins

/-- The release of a pin ends the drain of its slot (R20). -/
def endsDrain (s : State) (p : PinEntry) : Bool := decide ((s.slot p.slot).state = .draining ∧ ∀ g, s.pinsLeft p g = 0)

/-- The slots whose drains the release of a list of pins ends, in the list's order. -/
def endedBy (s : State) (l : List PinEntry) : List SlotId := (l.filter s.endsDrain).map PinEntry.slot

/-- The slot of a pin after the pin's release (R11, R20). -/
structure SlotReleased (s t : State) (p : PinEntry) : Prop where
  gen : ∀ g, (t.slot p.slot).gen g = { (s.slot p.slot).gen g with
    pins := s.pinsLeft p g
    head := if s.endsDrain p = true ∧ g.val < (s.slot p.slot).depth then none else ((s.slot p.slot).gen g).head }
  slot : t.slot p.slot = { s.slot p.slot with
    state := if s.endsDrain p then .unused else (s.slot p.slot).state, gens := (t.slot p.slot).gens }

theorem endsDrain_congr {s t : State} {p : PinEntry} (h : t.slot p.slot = s.slot p.slot) :
    t.endsDrain p = s.endsDrain p := by
  unfold endsDrain pinsLeft
  rw [h]

theorem SlotReleased.congr {s s' t t' : State} {p : PinEntry} (h : SlotReleased s t p)
    (hs : s'.slot p.slot = s.slot p.slot) (ht : t'.slot p.slot = t.slot p.slot) : SlotReleased s' t' p := by
  obtain ⟨hgen, hslot⟩ := h
  refine ⟨fun g => ?_, ?_⟩ <;> rw [endsDrain_congr hs, hs, ht]
  · rw [hgen]
    unfold pinsLeft
    rw [hs]
  · exact hslot

theorem endedBy_congr {s t : State} {l : List PinEntry} (h : ∀ p ∈ l, t.slot p.slot = s.slot p.slot) :
    t.endedBy l = s.endedBy l := by
  unfold endedBy
  rw [List.filter_congr fun p hp => endsDrain_congr (h p hp)]

theorem mem_endedBy {s : State} {l : List PinEntry} {i : SlotId} (h : i ∈ s.endedBy l) : ∃ p ∈ l, p.slot = i := by
  obtain ⟨p, hp, e⟩ := List.mem_map.mp h
  exact ⟨p, (List.mem_filter.mp hp).1, e⟩

theorem endedBy_cons (s : State) (p : PinEntry) (l : List PinEntry) : s.endedBy (p :: l) = s.endedBy [p] ++ s.endedBy l := by
  unfold endedBy
  rw [← List.map_append, ← List.filter_append, List.singleton_append]

/-! ### A list of pins -/

/-- What the release of the pins of a list does (R11, R20, R30). -/
structure PinsReleased (s t : State) (l : List PinEntry) : Prop where
  pin : ∀ p ∈ l, SlotReleased s t p
  other : ∀ i, i ∉ l.map PinEntry.slot → t.slot i = s.slot i
  chains : ChainsBack s t (s.endedBy l)
  pool : s.endedBy l = [] → t.pool = s.pool
  alloc : t.pool.alloc = s.pool.alloc
  link : ∀ j, t.link j = { s.link j with lastSeen := forgetAll (s.endedBy l) (s.link j).lastSeen }
  events : t.events = s.events.takeAll (s.releaseRecords (s.endedBy l))
  only : t = { s with slots := t.slots, pool := t.pool, links := t.links, events := t.events }

theorem pinsReleased_nil (s : State) : PinsReleased s s [] :=
  ⟨nofun, fun _ _ => rfl, chainsBack_nil rfl rfl, fun _ => rfl, rfl, fun _ => rfl, rfl, rfl⟩

theorem record_congr {s t : State} (h : t.now = s.now) : t.record = s.record := by
  funext kind object arg reason
  unfold record
  rw [h]

theorem releaseRecords_congr {s t : State} {l : List SlotId} (hn : t.now = s.now) (h : ∀ i ∈ l, t.slot i = s.slot i) :
    t.releaseRecords l = s.releaseRecords l := by
  unfold releaseRecords
  refine List.map_congr_left fun i hi => ?_
  rw [h i hi, record_congr hn]

/-- A pin's own count falls (R11). -/
def unpin (s : State) (p : PinEntry) : State :=
  s.setSlot p.slot ((s.slot p.slot).setPins p.gen (((s.slot p.slot).gen p.gen).pins - 1))

theorem unpin_gen (s : State) (p : PinEntry) (g : GenId) :
    ((s.unpin p).slot p.slot).gen g = { (s.slot p.slot).gen g with pins := s.pinsLeft p g } := by
  unfold unpin pinsLeft
  rw [slot_setSlot_self, Slot.setPins, Slot.gen_setGen]
  by_cases h : g = p.gen
  · rw [if_pos h, if_pos h, h]
  · rw [if_neg h, if_neg h]

theorem unpin_slot (s : State) (p : PinEntry) :
    (s.unpin p).slot p.slot = { s.slot p.slot with gens := ((s.unpin p).slot p.slot).gens } := by
  unfold unpin
  rw [slot_setSlot_self]
  rfl

theorem unpin_other (s : State) (p : PinEntry) {i : SlotId} (h : i ≠ p.slot) : (s.unpin p).slot i = s.slot i := by
  unfold unpin
  rw [slot_setSlot, if_neg h]

/-- A release is the count's fall and, where the drain ends with it, the end of the drain (R11, R20). -/
theorem release_eq (s : State) (p : PinEntry) :
    s.release p.slot p.gen = if s.endsDrain p then (s.unpin p).drainEnd p.slot else s.unpin p := by
  have hends : ((s.unpin p).slot p.slot).state = .draining ∧ ((s.unpin p).slot p.slot).unpinned = true ↔
      s.endsDrain p = true := by
    unfold endsDrain
    rw [unpinned_iff, decide_eq_true_eq, unpin_slot]
    simp only [← unpin_slot, unpin_gen]
  exact if_congr hends rfl rfl

/-- The release of one pin (R11, R20, R30). -/
theorem pinsReleased_release (s : State) (p : PinEntry) : PinsReleased s (s.release p.slot p.gen) [p] := by
  have hslot := unpin_slot s p
  rw [release_eq]
  cases hends : s.endsDrain p with
  | false =>
    have hnone : s.endedBy [p] = [] := by unfold endedBy; rw [List.filter_singleton, hends]; rfl
    simp only [Bool.false_eq_true, if_false]
    refine ⟨fun q hq => ?_, fun i hi => ?_, ?_, fun _ => rfl, rfl, ?_, ?_, rfl⟩
    · obtain rfl := List.mem_singleton.mp hq
      refine ⟨fun g => ?_, ?_⟩ <;> rw [hends]
      · rw [unpin_gen, if_neg (by simp)]
      · exact hslot
    · exact unpin_other s p (List.ne_of_not_mem_cons hi)
    · rw [hnone]; exact chainsBack_nil rfl rfl
    · rw [hnone]; exact fun _ => rfl
    · rw [hnone]; rfl
  | true =>
    have hone : s.endedBy [p] = [p.slot] := by unfold endedBy; rw [List.filter_singleton, hends]; rfl
    simp only [if_true]
    refine ⟨fun q hq => ?_, fun i hi => ?_, ?_, ?_, ?_, ?_, ?_, ?_⟩
    · obtain rfl := List.mem_singleton.mp hq
      refine ⟨fun g => ?_, ?_⟩
      · rw [drainEnd_gen, unpin_gen, hslot, hends]
        simp only [true_and]
      · rw [drainEnd_slot, hends, hslot]
        rfl
    · have hne := List.ne_of_not_mem_cons hi
      rw [drainEnd_other _ _ _ hne, unpin_other s p hne]
    · rw [hone]
      refine (chainsBack_nil (s := s) (t := s.unpin p) rfl rfl).trans (drainEnd_chainsBack (s.unpin p) p.slot) fun i hi => ?_
      obtain rfl := List.mem_singleton.mp hi
      refine ⟨by rw [hslot], by rw [hslot], fun g => by rw [unpin_gen]⟩
    · rw [hone]; exact nofun
    · exact drainEnd_alloc ..
    · intro j
      rw [hone, drainEnd_link]
      rfl
    · rw [hone, drainEnd_events, hslot]
      rfl
    · rw [drainEnd_only]
      rfl

/-- A pin's release, then that of pins on other slots. -/
theorem PinsReleased.cons {s t u : State} {p : PinEntry} {l : List PinEntry} (hp : p.slot ∉ l.map PinEntry.slot)
    (h : PinsReleased s t [p]) (h' : PinsReleased t u l) : PinsReleased s u (p :: l) := by
  have hne : ∀ q ∈ l, q.slot ≠ p.slot := fun q hq e => hp (e ▸ List.mem_map_of_mem hq)
  have hsame : ∀ i, i ≠ p.slot → t.slot i = s.slot i := fun i hi => h.other i (by simpa using hi)
  have hended : t.endedBy l = s.endedBy l := endedBy_congr fun q hq => hsame _ (hne q hq)
  have hkept : ∀ i ∈ s.endedBy l, t.slot i = s.slot i := fun i hi => by
    obtain ⟨q, hq, rfl⟩ := mem_endedBy hi
    exact hsame _ (hne q hq)
  have hnow : t.now = s.now := by rw [h.only]; rfl
  refine ⟨fun q hq => ?_, fun i hi => ?_, ?_, fun hnil => ?_, h'.alloc.trans h.alloc, fun j => ?_, ?_, ?_⟩
  · obtain rfl | hq := List.mem_cons.mp hq
    · exact (h.pin q List.mem_cons_self).congr rfl (h'.other _ hp)
    · exact (h'.pin q hq).congr (hsame _ (hne q hq)).symm rfl
  · rw [List.map_cons, List.mem_cons, not_or] at hi
    rw [h'.other i hi.2, hsame i hi.1]
  · rw [endedBy_cons s p l]
    have hchains := h'.chains
    rw [hended] at hchains
    exact h.chains.trans hchains fun i hi => by rw [hkept i hi]; exact ⟨rfl, rfl, fun _ => rfl⟩
  · rw [endedBy_cons s p l, List.append_eq_nil_iff] at hnil
    rw [h'.pool (hended.trans hnil.2), h.pool hnil.1]
  · rw [h'.link, h.link, hended, endedBy_cons s p l]
    unfold forgetAll
    rw [List.foldl_append]
  · rw [h'.events, h.events, hended, releaseRecords_congr hnow hkept, endedBy_cons s p l, ← EventQueue.takeAll_append]
    unfold releaseRecords
    rw [List.map_append]
  · rw [h'.only, h.only]

/-- The pins of a list on different slots, released in the list's order (R11). -/
theorem pinsReleased_foldl : ∀ (l : List PinEntry), (l.map PinEntry.slot).Nodup → ∀ s : State,
    PinsReleased s (l.foldl (fun t p => t.release p.slot p.gen) s) l
  | [], _, s => pinsReleased_nil s
  | p :: l, hn, s => by
    obtain ⟨hp, hn⟩ := List.nodup_cons.mp hn
    exact (pinsReleased_release s p).cons hp (pinsReleased_foldl l hn _)

/-- A pin's slot goes from DRAINING to UNUSED where the release ends its drain, and only there (R20). -/
theorem SlotReleased.ended_iff {s t : State} {p : PinEntry} (h : SlotReleased s t p) :
    (s.slot p.slot).state = .draining ∧ (t.slot p.slot).state = .unused ↔ s.endsDrain p = true := by
  rw [h.slot]
  cases hends : s.endsDrain p with
  | false => exact iff_of_false (fun e => nomatch e.1.symm.trans e.2) nofun
  | true => exact iff_of_true ⟨(of_decide_eq_true hends).1, rfl⟩ rfl

/-- The drains that end between the two states are those that the pins' releases end. -/
theorem PinsReleased.drained {s t : State} {l : List PinEntry} (h : PinsReleased s t l) : s.drained t l = s.endedBy l := by
  unfold State.drained endedBy
  rw [List.filter_map]
  refine congrArg _ (List.filter_congr fun p hp => ?_)
  exact Bool.eq_iff_iff.mpr (decide_eq_true_iff.trans (h.pin p hp).ended_iff)

theorem PinsReleased.mem_endedBy {s t : State} {l : List PinEntry} (h : PinsReleased s t l) {p : PinEntry} (hp : p ∈ l) :
    p.slot ∈ s.endedBy l ↔ s.endsDrain p = true := by
  rw [← h.drained, State.drained, List.mem_filter, decide_eq_true_eq, (h.pin p hp).ended_iff]
  exact and_iff_right (List.mem_map_of_mem hp)

end State
end Sys2Proof.Machine

/-! SUPPORT. The release of a frame's pins at its end and at its abort (R104, R106), and LINK_STOP (R108 to R112). -/

namespace Sys2Proof.Machine
namespace State

/-! ### The pin set of a link -/

theorem slot_eq_of_slots {s t : State} (h : t.slots = s.slots) : t.slot = s.slot :=
  funext fun i => by unfold slot; rw [h]

theorem drained_congr {s t u : State} (h : t.slots = u.slots) (l : List PinEntry) : s.drained t l = s.drained u l := by
  unfold State.drained
  rw [slot_eq_of_slots h]

/-- The pins of link k released from a state in which that link has another record. -/
theorem releasesPins_of_setLink {s t : State} {k : LinkId} {v : Link}
    (h : PinsReleased (s.setLink k v) t (s.link k).pinSet) (hv : v.lastSeen = (s.link k).lastSeen) :
    s.releasesPins t k := by
  have hended : s.drained t (s.link k).pinSet = s.endedBy (s.link k).pinSet := h.drained
  have hmem : ∀ p ∈ (s.link k).pinSet, (p.slot ∈ s.endedBy (s.link k).pinSet ↔ s.endsDrain p = true) :=
    fun p => h.mem_endedBy
  unfold releasesPins
  simp only []
  rw [hended]
  refine ⟨fun p hp => ?_, h.other, h.chains.returnsChains, h.pool, h.alloc, ?_, fun j hj => ?_⟩
  · obtain ⟨hgen, hpin⟩ := h.pin p hp
    simp only [hmem p hp]
    exact ⟨decide_eq_true_iff, hgen, hpin⟩
  · rw [h.link, link_setLink_self, ← hv]
    rfl
  · rw [h.link, link_setLink, if_neg hj]
    rfl

/-- The release of pins concerns the slots, the pool and the last-seen entries. -/
theorem releasesPins_congr {s t u : State} {k : LinkId} (h : s.releasesPins u k) (hslots : t.slots = u.slots)
    (hpool : t.pool = u.pool) (hk : (t.link k).lastSeen = (u.link k).lastSeen) (ho : ∀ j, j ≠ k → t.link j = u.link j) :
    s.releasesPins t k := by
  unfold releasesPins returnsChains at h ⊢
  simp only [drained_congr hslots, slot_eq_of_slots hslots, hpool, hk]
  obtain ⟨hpins, hother, hchains, hstays, halloc, hseen, hlinks⟩ := h
  exact ⟨hpins, hother, hchains, hstays, halloc, hseen, fun j hj => (ho j hj).trans (hlinks j hj)⟩

/-- What the release of the pins of link k leaves, from a state that differs in that link's record v. -/
structure PinSetReleased (s t : State) (k : LinkId) (v : Link) : Prop where
  pins : s.releasesPins t k
  link : t.link k = { v with pinSet := [], lastSeen := (t.link k).lastSeen }
  events : t.events = s.events.takeAll (s.releaseRecords (s.drained t (s.link k).pinSet))
  only : t = { s with slots := t.slots, pool := t.pool, links := t.links, events := t.events }

theorem releasePins_setLink (s : State) {k : LinkId} {v : Link} (hn : ((s.link k).pinSet.map PinEntry.slot).Nodup)
    (hp : v.pinSet = (s.link k).pinSet) (hv : v.lastSeen = (s.link k).lastSeen) :
    PinSetReleased s ((s.setLink k v).releasePins k) k v := by
  have h := pinsReleased_foldl (s.link k).pinSet hn (s.setLink k v)
  unfold releasePins
  rw [link_setLink_self, hp]
  generalize (s.link k).pinSet.foldl _ (s.setLink k v) = u at h
  have hlink := h.link k
  rw [link_setLink_self] at hlink
  simp only []
  refine ⟨releasesPins_congr (releasesPins_of_setLink h hv) rfl rfl ?_ fun j hj => ?_, ?_, ?_, ?_⟩
  · rw [link_setLink_self]
  · rw [link_setLink, if_neg hj]
  · rw [link_setLink_self, hlink]
  · rw [events_setLink, h.events, ← h.drained]
    rfl
  · rw [h.only]
    rfl

/-! ### The abort of a frame -/

/-- The abort of frame f of link k (R106, R121). -/
structure FrameAborted (s t : State) (k : LinkId) (f : Frame) (why : BitVec 4) : Prop where
  pins : s.releasesPins t k
  link : t.link k = { s.link k with
    line := .abort, abortWord := some (~~~ (s.link k).sync), buffer := [], req := none, stallTimer := 0, giveUpDue := false
    pinSet := [], aborts := min ((s.link k).aborts + 1) 65535, lastSeen := (t.link k).lastSeen }
  events : t.events = (s.events.takeAll (s.releaseRecords (s.drained t (s.link k).pinSet))).take
    (s.record .frameAborted k.val (f.number.setWidth 32) why)
  only : t = { s with slots := t.slots, pool := t.pool, links := t.links, events := t.events }

theorem abortFrame_eq {s : State} {k : LinkId} {f : Frame} (hf : (s.link k).frame = some f) (why : AbortReason) :
    s.abortFrame k why =
      let t := (s.setLink k { s.link k with
        req := none, buffer := [], abortWord := some (~~~ (s.link k).sync), line := .abort, stallTimer := 0
        giveUpDue := false }).releasePins k
      (t.setLink k { t.link k with aborts := saturate16 (t.link k).aborts }).offer .frameAborted k.val
        (f.number.setWidth 32) why.value := by
  unfold abortFrame
  simp only []
  split
  · rename_i h; rw [h] at hf; cases hf
  · rename_i g h
    obtain rfl := Option.some.inj (h.symm.trans hf)
    rfl

theorem abortFrame_aborted {s : State} {k : LinkId} {f : Frame} (hf : (s.link k).frame = some f)
    (hn : ((s.link k).pinSet.map PinEntry.slot).Nodup) (why : AbortReason) :
    FrameAborted s (s.abortFrame k why) k f why.value := by
  rw [abortFrame_eq hf]
  simp only []
  generalize hv : ({ s.link k with
      req := none, buffer := [], abortWord := some (~~~ (s.link k).sync), line := .abort, stallTimer := 0
      giveUpDue := false } : Link) = v
  have hr := releasePins_setLink s (v := v) hn (by rw [← hv]) (by rw [← hv])
  generalize (s.setLink k v).releasePins k = u at hr
  obtain ⟨hpins, hlink, hevents, honly⟩ := hr
  have hnow : u.now = s.now := by rw [honly]; rfl
  refine ⟨releasesPins_congr hpins rfl rfl ?_ fun j hj => ?_, ?_, ?_, ?_⟩
  · rw [link_offer, link_setLink_self]
  · rw [link_offer, link_setLink, if_neg hj]
  · rw [link_offer, link_setLink_self, hlink, ← hv, saturate16_eq]
  · rw [events_offer, events_setLink, hevents]
    rw [← record_congr hnow]
    rfl
  · rw [honly]
    rfl

theorem stallAbort_due {s : State} {k : LinkId} (hd : (s.link k).line = .drive)
    (ht : (s.link k).stallTimer = (s.link k).stallLimit) : s.stallAbort k = s.abortFrame k .stall :=
  if_pos (by simp [stallDue, hd, ht])

theorem stallAbort_notDue {s : State} {k : LinkId}
    (h : (s.link k).line ≠ .drive ∨ (s.link k).stallTimer ≠ (s.link k).stallLimit) :
    s.stallAbort k = s := by
  refine if_neg fun e => ?_
  simp only [stallDue, Bool.and_eq_true, decide_eq_true_eq] at e
  exact h.elim (fun h => h e.1) fun h => h e.2

/-! ### LINK_STOP -/

theorem linkStop_refused {s : State} {k : LinkId} (hk : (s.arg 0).toNat = k.val)
    (h : ¬ ((s.link k).state = .wait ∨ (s.link k).state = .frame)) : s.linkStop = s.refuse .state 2 := by
  unfold linkStop
  rw [objectArg_eq _ k hk]
  exact if_pos h

theorem linkStop_running {s : State} {k : LinkId} (hk : (s.arg 0).toNat = k.val)
    (h : (s.link k).state = .wait ∨ (s.link k).state = .frame) : s.linkStop =
      match stopMode (s.arg 1) with
      | none => s.refuse .badArg 3
      | some b => (if (s.link k).state = .wait then s.linkOff k 0 else s.stopFrame k b).result .ok 0 := by
  unfold linkStop
  rw [objectArg_eq _ k hk]
  exact if_neg (not_not.mpr h)

theorem stopMode_none {w : Word} (h : 1 < w.toNat) : stopMode w = none := by
  unfold stopMode
  rw [if_neg (by rintro rfl; simp at h), if_neg (by rintro rfl; simp at h)]

theorem stopMode_some {w : Word} (h : w.toNat ≤ 1) : stopMode w = some (decide (w = 1)) := by
  obtain rfl | rfl : w = 0 ∨ w = 1 := by bv_omega
  · rfl
  · rfl

theorem linkStop_wait {s : State} {k : LinkId} (hk : (s.arg 0).toNat = k.val) (hs : (s.link k).state = .wait)
    (hm : (s.arg 1).toNat ≤ 1) : s.linkStop = (s.linkOff k 0).result .ok 0 := by
  rw [linkStop_running hk (.inl hs), stopMode_some hm]
  simp only [if_pos hs]

theorem linkStop_frame {s : State} {k : LinkId} (hk : (s.arg 0).toNat = k.val) (hs : (s.link k).state = .frame)
    (hm : (s.arg 1).toNat ≤ 1) : s.linkStop = (s.stopFrame k (decide (s.arg 1 = 1))).result .ok 0 := by
  rw [linkStop_running hk (.inr hs), stopMode_some hm]
  simp only [hs, reduceCtorEq, if_false]

/-- FINISH, or an abort whose abort word is already waiting: the link enters STOPPING and the frame goes on (R110, R111). -/
theorem stopFrame_finish {s : State} {k : LinkId} {b : Bool} (h : ¬ (b = true ∧ (s.link k).line ≠ .abort)) :
    s.stopFrame k b = s.setLink k { s.link k with state := .stopping } := by
  unfold stopFrame
  simp only [if_neg h]

/-- ABORT: the frame is aborted and the link enters STOPPING (R111). -/
theorem stopFrame_abort {s : State} {k : LinkId} (h : (s.link k).line ≠ .abort) :
    s.stopFrame k true =
      (s.abortFrame k .stop).setLink k { (s.abortFrame k .stop).link k with state := .stopping } := by
  unfold stopFrame
  rw [if_pos ⟨rfl, h⟩]

/-- The abort of a frame that holds no pin (R106). -/
theorem abortFrame_noPins {s : State} {k : LinkId} {f : Frame} (hf : (s.link k).frame = some f)
    (hp : (s.link k).pinSet = []) (why : AbortReason) : ∃ t : State, s.abortFrame k why = t.offer .frameAborted k.val
      (f.number.setWidth 32) why.value ∧ (∀ j, j ≠ k → t.link j = s.link j) ∧ t = { s with links := t.links } ∧
      t.link k = { s.link k with
        line := .abort, abortWord := some (~~~ (s.link k).sync), buffer := [], req := none, stallTimer := 0
        giveUpDue := false, aborts := min ((s.link k).aborts + 1) 65535 } := by
  rw [abortFrame_eq hf]
  unfold releasePins
  simp only [link_setLink_self, hp, List.foldl_nil, saturate16_eq]
  refine ⟨_, rfl, fun j hj => ?_, rfl, link_setLink_self ..⟩
  rw [link_setLink, if_neg hj, link_setLink, if_neg hj, link_setLink, if_neg hj]

end State

/-- Settles O33: the tests of R109, then the link's way to OFF, to STOPPING, or to STOPPING with the frame aborted. -/
theorem linkStopByMode : Obligations.LinkStopByMode := by
  unfold Obligations.LinkStopByMode
  intro s hfree
  have he : exec .linkStop s = .next s.linkStop := State.hostWrite_trigger s _ hfree
  rw [he]
  refine ⟨fun h => ?_, fun k hk => ⟨fun hw hf => ?_, fun hs hm => ?_, fun hs hm => ?_, fun hs hm => ?_,
    fun f hs hm hl hf hp => ?_⟩⟩
  · unfold State.linkStop
    rw [objectArg_none (by omega)]
    rfl
  · rw [State.linkStop_refused hk (not_or.mpr ⟨hw, hf⟩)]
    rfl
  · rw [State.linkStop_running hk hs, State.stopMode_none hm]
    rfl
  · rw [State.linkStop_wait hk hs hm]
    exact ⟨_, rfl, State.link_setLink_self .., fun j hj => (State.link_setLink ..).trans (if_neg hj), rfl⟩
  · have hmode : (s.arg 1).toNat ≤ 1 := by obtain h | ⟨h, _⟩ := hm <;> rw [h] <;> decide
    rw [State.linkStop_frame hk hs hmode, State.stopFrame_finish]
    · exact ⟨_, rfl, State.link_setLink_self .., fun j hj => (State.link_setLink ..).trans (if_neg hj), rfl⟩
    · rintro ⟨h1, hl⟩
      obtain h | ⟨_, h⟩ := hm
      · rw [h] at h1; simp at h1
      · exact hl h
  · rw [State.linkStop_frame hk hs (by rw [hm]; decide), hm, decide_eq_true rfl, State.stopFrame_abort hl]
    obtain ⟨t, ht, hother, honly, hlink⟩ := State.abortFrame_noPins hf hp .stop
    rw [ht]
    refine ⟨_, rfl, ?_, fun j hj => ?_, ?_⟩
    · rw [State.link_result, State.link_setLink_self, State.link_offer, hlink]
    · rw [State.link_result, State.link_setLink, if_neg hj, State.link_offer, hother j hj]
    · rw [honly]
      rfl

end Sys2Proof.Machine

/-! SUPPORT. The end of a frame with its pins (O40, O41; R104, R106, R122). -/

namespace Sys2Proof.Machine
namespace State

/-! ### The take of a frame's last word -/

theorem wordTaken_trailer {s : State} {k : LinkId} {f : Frame} {w : Word} {rest : List Word}
    (hd : (s.link k).line = .drive) (hb : (s.link k).buffer = w :: rest) (hf : (s.link k).frame = some f)
    (ht : frameWord k (s.link k) f f.taken = some .trailer) :
    s.wordTaken k = ((s.setLink k { s.link k with
      buffer := rest, frame := some { f with taken := f.taken + 1 }, stallTimer := 0, line := .quiet }).releasePins
        k).frameDone k 0 := by
  unfold wordTaken
  simp only [hd, hb, hf, ht, if_true]
  rfl

theorem wordTaken_abort {s : State} {k : LinkId} (ha : (s.link k).line = .abort) :
    s.wordTaken k = (s.clearAbortWord k).frameDone k 0 := by
  unfold wordTaken
  simp only [ha]

/-! ### The end of a frame -/

theorem frameDone_lastSeen {s : State} {k : LinkId} {f : Frame} (r : BitVec 4) (hf : (s.link k).frame = some f) :
    ((s.frameDone k r).link k).lastSeen = (s.link k).lastSeen := by
  by_cases hs : (s.link k).state = .stopping
  · rw [frameDone_link_stopping r hf hs]
  · rw [frameDone_link_running r hf hs]

theorem frameDone_pinSet {s : State} {k : LinkId} {f : Frame} (r : BitVec 4) (hf : (s.link k).frame = some f)
    (hp : (s.link k).pinSet = []) : ((s.frameDone k r).link k).pinSet = [] := by
  by_cases hs : (s.link k).state = .stopping
  · rw [frameDone_link_stopping r hf hs]
  · rw [frameDone_link_running r hf hs]; exact hp

section

variable {s u : State} {k : LinkId} {v : Link} {f : Frame} (h : PinSetReleased s u k v) (hf : v.frame = some f) (r : BitVec 4)
include h

theorem PinSetReleased.frameDone_only : u.frameDone k r = { s with
    slots := (u.frameDone k r).slots, pool := (u.frameDone k r).pool, links := (u.frameDone k r).links
    events := (u.frameDone k r).events } := by
  rw [State.frameDone_only, h.only]

include hf

theorem PinSetReleased.frame : (u.link k).frame = some f := by
  rw [h.link]; exact hf

theorem PinSetReleased.frameDone_pins : s.releasesPins (u.frameDone k r) k :=
  releasesPins_congr h.pins (by rw [State.frameDone_only]) (by rw [State.frameDone_only]) (frameDone_lastSeen r (h.frame hf))
    fun j hj => (frameDone_link u k j r).1 hj

theorem PinSetReleased.frameDone_pinSet : ((u.frameDone k r).link k).pinSet = [] :=
  State.frameDone_pinSet r (h.frame hf) (by rw [h.link])

end

/-- The record that link l has at the end of its frame f, of which n words were taken: the line presents nothing, and an abort
word is gone (R104, R122; log 14). -/
def Link.atFrameEnd (l : Link) (f : Frame) (n : Nat) : Link := { l with
  line := .quiet, buffer := [], frame := some { f with taken := n }, stallTimer := 0
  abortWord := if l.line = .abort then none else l.abortWord
  giveUpDue := if l.line = .abort then false else l.giveUpDue }

theorem atFrameEnd_of_trailer {l : Link} (hl : l.line ≠ .abort) (f : Frame) (n : Nat) : { l with
    buffer := [], frame := some { f with taken := n }, stallTimer := 0, line := .quiet } = Link.atFrameEnd l f n := by
  unfold Link.atFrameEnd
  rw [if_neg hl, if_neg hl]

theorem atFrameEnd_of_abort {l : Link} {f : Frame} (hl : l.line = .abort) (hb : l.buffer = []) (hf : l.frame = some f) :
    { l with abortWord := none, line := .quiet, stallTimer := 0, giveUpDue := false } = Link.atFrameEnd l f f.taken := by
  unfold Link.atFrameEnd
  rw [if_pos hl, if_pos hl, ← hb, ← hf]

/-- A link that holds no pin releases none. -/
theorem pinSetReleased_nil {s : State} {k : LinkId} {v : Link} (hp : (s.link k).pinSet = []) (hv : v.pinSet = [])
    (hs : v.lastSeen = (s.link k).lastSeen) : PinSetReleased s (s.setLink k v) k v := by
  have h := pinsReleased_nil (s.setLink k v)
  rw [← hp] at h
  refine ⟨releasesPins_of_setLink h hs, ?_, ?_, rfl⟩
  · rw [link_setLink_self, ← hv]
  · rw [hp]
    rfl

/-- The frame that WORD_TAKEN ends, sent whole or aborted: its pins are released, then the frame ends (R104, R122). -/
theorem wordTaken_ends {s : State} {k : LinkId} {f : Frame} {w : Word} (hf : (s.link k).frame = some f)
    (hn : ((s.link k).pinSet.map PinEntry.slot).Nodup)
    (h : ((s.link k).line = .drive ∧ (s.link k).buffer = [w] ∧ frameWord k (s.link k) f f.taken = some .trailer) ∨
      ((s.link k).line = .abort ∧ (s.link k).buffer = [] ∧ (s.link k).pinSet = [])) :
    ∃ u n, s.wordTaken k = u.frameDone k 0 ∧ PinSetReleased s u k (Link.atFrameEnd (s.link k) f n) := by
  obtain ⟨hd, hb, ht⟩ | ⟨ha, hb, hp⟩ := h
  · refine ⟨_, f.taken + 1, wordTaken_trailer hd hb hf ht, ?_⟩
    rw [atFrameEnd_of_trailer (by rw [hd]; nofun)]
    exact releasePins_setLink s hn rfl rfl
  · refine ⟨_, f.taken, wordTaken_abort ha, ?_⟩
    unfold clearAbortWord
    rw [atFrameEnd_of_abort ha hb hf]
    exact pinSetReleased_nil hp hp rfl

end State

/-- Settles O40: the pins are released first, and then the cursor moves, by the link's state. -/
theorem frameEndMovesTheCursor : Obligations.FrameEndMovesTheCursor := by
  unfold Obligations.FrameEndMovesTheCursor
  intro s k f w hf hn h l ended
  obtain ⟨u, n, htaken, hr⟩ := State.wordTaken_ends hf hn h
  have hframe := hr.frame rfl
  have hlink := hr.link
  have hseen := State.frameDone_lastSeen 0 hframe
  have hevents := hr.events
  have hnow : u.now = s.now := by rw [hr.only]; rfl
  have hdrained : s.drained (u.frameDone k 0) l.pinSet = s.drained u l.pinSet :=
    State.drained_congr (by rw [State.frameDone_only]) _
  refine ⟨_, congrArg Host.Outcome.next htaken, hr.frameDone_pins rfl 0, ⟨fun hs => ?_, fun hs => ?_⟩,
    hr.frameDone_only 0⟩
  · have hstate : (u.link k).state ≠ .stopping := by rw [hlink]; exact fun e => nomatch hs.symm.trans e
    rw [hseen, hdrained, State.frameDone_link_running 0 hframe hstate, State.frameDone_events_running 0 hframe hstate,
      hevents, State.record_congr hnow, hlink]
    exact ⟨rfl, rfl⟩
  · have hstate : (u.link k).state = .stopping := by rw [hlink]; exact hs
    rw [hseen, hdrained, State.frameDone_link_stopping 0 hframe hstate, State.frameDone_events_stopping 0 hframe hstate,
      hevents, State.record_congr hnow, hlink]
    exact ⟨rfl, rfl⟩

/-- Settles O41: a due stall and LINK_STOP in mode ABORT abort the frame, and the trailer's take ends it; each releases the
pin set as a whole. -/
theorem framesReleaseTheirPins : Obligations.FramesReleaseTheirPins := by
  unfold Obligations.FramesReleaseTheirPins
  intro s k
  refine ⟨fun h => congrArg Host.Outcome.next (State.stallAbort_notDue h), fun f hf hn => ?_⟩
  have habort := fun why => State.abortFrame_aborted hf hn why
  refine ⟨fun hd ht => ?_, fun hfree hk hm hs hl => ?_, fun w rest hd hb ht => ?_⟩
  · obtain ⟨hpins, hlink, hevents, honly⟩ := habort .stall
    refine ⟨_, congrArg Host.Outcome.next (State.stallAbort_due hd ht), ⟨hpins, ?_, ?_⟩, ⟨hlink, hevents⟩, ?_⟩
    · rw [hlink]
    · rw [honly]
    · rw [honly]
  · have he : exec .linkStop s = .next s.linkStop := State.hostWrite_trigger s _ hfree
    rw [he, State.linkStop_frame hk hs (by rw [hm]; decide), hm, decide_eq_true rfl, State.stopFrame_abort hl]
    obtain ⟨hpins, hlink, hevents, honly⟩ := habort .stop
    generalize s.abortFrame k .stop = t at hpins hlink hevents honly
    refine ⟨_, rfl, ⟨State.releasesPins_congr hpins rfl rfl ?_ fun j hj => ?_, ?_, ?_⟩, ⟨?_, hevents⟩, ?_⟩
    · rw [State.link_result, State.link_setLink_self]
    · rw [State.link_result, State.link_setLink, if_neg hj]
    · rw [State.link_result, State.link_setLink_self, hlink]
    · rw [honly]
      rfl
    · rw [State.link_result, State.link_setLink_self, hlink]
    · rw [honly]
      rfl
  · refine ⟨_, congrArg Host.Outcome.next (State.wordTaken_trailer hd hb hf ht), ?_⟩
    generalize hv : ({ s.link k with
      buffer := rest, frame := some { f with taken := f.taken + 1 }, stallTimer := 0, line := .quiet } : Link) = v
    have hr := State.releasePins_setLink s (v := v) hn (by rw [← hv]) (by rw [← hv])
    have hframe : v.frame = some { f with taken := f.taken + 1 } := by rw [← hv]
    have honly := hr.frameDone_only 0
    refine ⟨⟨hr.frameDone_pins hframe 0, hr.frameDone_pinSet hframe 0, ?_⟩, ?_⟩
    · rw [honly]
    · rw [honly]

end Sys2Proof.Machine

/-! SUPPORT. A word that is not the trailer leaves the buffer (O39; R100, R102, R103, R117): the item whose last word it is,
what the completion of an item does, and the read the link then presents. -/

namespace Sys2Proof.Machine

/-! ### The last word of an item (§6.6) -/

/-- An item's words, its last one at j: those of the first item of a list, or behind them those of an item of the rest. -/
theorem item_ends_cons_iff {a it : Item} {l : List Item} {j : Nat} :
    (∃ before after, a :: l = before ++ it :: after ∧ j + 1 = itemWords before + (3 + it.n)) ↔
      (a = it ∧ j + 1 = 3 + a.n) ∨ (3 + a.n ≤ j ∧
        ∃ before after, l = before ++ it :: after ∧ j - (3 + a.n) + 1 = itemWords before + (3 + it.n)) := by
  constructor
  · rintro ⟨before, after, hl, hj⟩
    cases before with
    | nil =>
      obtain ⟨rfl, -⟩ := List.cons.inj hl
      exact .inl ⟨rfl, hj.trans (Nat.zero_add _)⟩
    | cons b before =>
      obtain ⟨rfl, hrest⟩ := List.cons.inj hl
      rw [itemWords_cons] at hj
      exact .inr ⟨by omega, before, after, hrest, by omega⟩
  · rintro (⟨rfl, hj⟩ | ⟨hle, before, after, rfl, hj⟩)
    · exact ⟨[], l, rfl, hj.trans (Nat.zero_add _).symm⟩
    · exact ⟨a :: before, after, rfl, by rw [itemWords_cons]; omega⟩

theorem itemEndingAt_iff {it : Item} : ∀ (l : List Item) (j : Nat), itemEndingAt l j = some it ↔
    ∃ before after, l = before ++ it :: after ∧ j + 1 = itemWords before + (3 + it.n)
  | [], _ => by simp [itemEndingAt]
  | a :: l, j => by
    rw [itemEndingAt, item_ends_cons_iff]
    split_ifs with hlast hinside
    · rw [Option.some_inj, and_iff_left hlast, or_iff_left (by omega)]
    · exact iff_of_false nofun (by omega)
    · rw [itemEndingAt_iff l, or_iff_right (by omega), and_iff_right (by omega)]

/-- The record of link l in frame f after a word has left its buffer and `rest` stays there (R117). -/
def Link.wordLeft (l : Link) (f : Frame) (rest : List Word) : Link := { l with
  buffer := rest, frame := some { f with taken := f.taken + 1 }, stallTimer := 0
  line := if rest.isEmpty then .gap else .drive }

namespace State

variable {s u : State} {k : LinkId}

theorem itemEnding_iff {j : Nat} {it : Item} : s.itemEnding k j = some it ↔
    ∃ before after, (s.link k).items = before ++ it :: after ∧ j + 1 = 4 + itemWords before + (3 + it.n) := by
  unfold itemEnding
  split_ifs with hj
  · rw [itemEndingAt_iff]
    refine exists₂_congr fun before after => and_congr_right fun _ => ?_
    omega
  · refine iff_of_false nofun ?_
    rintro ⟨before, after, -, he⟩
    omega

/-- The items stay as they are when a word leaves the buffer. -/
theorem itemEnding_wordLeft (s : State) (k : LinkId) (f : Frame) (rest : List Word) (j : Nat) :
    (s.setLink k ((s.link k).wordLeft f rest)).itemEnding k j = s.itemEnding k j := by
  unfold itemEnding
  rw [link_setLink_self]
  rfl

/-! ### The completion of an item (R102, R103) -/

/-- The last-seen table of link k after item `it`: the slot of a DATA or REPEAT item is seen at the item's SEQ (R102). -/
theorem itemDone_link (s : State) (k : LinkId) (it : Item) : (s.itemDone k it).link k = { s.link k with
    lastSeen := if it.kind = .data ∨ it.kind = .repeated then Table.put (s.link k).lastSeen it.slot it.seq
      else (s.link k).lastSeen } := by
  unfold itemDone
  simp only [apply_ite (fun x : State => x.link k), link_offer, ite_self]
  split_ifs
  · exact link_setLink_self ..
  · rfl

theorem itemDone_other (s : State) (it : Item) {j : LinkId} (hj : j ≠ k) : (s.itemDone k it).link j = s.link j := by
  unfold itemDone
  simp only [apply_ite (fun x : State => x.link j), link_offer, ite_self, link_setLink, if_neg hj]

theorem itemDone_events (s : State) (k : LinkId) (it : Item) : (s.itemDone k it).events =
    if (s.entry it.entry).mark then s.events.take (s.record .itemMark (markObject k it.entry) it.seq 0) else s.events := by
  unfold itemDone
  split_ifs <;> rfl

/-! ### The next read -/

theorem presentRead_events (s : State) (k : LinkId) : (s.presentRead k).events = s.events := by
  rw [presentRead_only]

theorem presentRead_lastSeen (s : State) (k : LinkId) : ((s.presentRead k).link k).lastSeen = (s.link k).lastSeen := by
  obtain ⟨q, hq⟩ := presentRead_req s k
  rw [hq, link_setLink_self]

/-- From s to t, link k may have seen an item's slot and presented its next read, and a record may be queued. -/
structure ReadsOn (s t : State) (k : LinkId) : Prop where
  link : t.link k = { s.link k with req := (t.link k).req, lastSeen := (t.link k).lastSeen }
  reads : presentsRead k (s.link k).req (t.link k)
  other : ∀ j, j ≠ k → t.link j = s.link j
  only : t = { s with links := t.links, events := t.events }

theorem presentRead_readsOn (hlink : u.link k = { s.link k with lastSeen := (u.link k).lastSeen })
    (hother : ∀ j, j ≠ k → u.link j = s.link j) (honly : u = { s with links := u.links, events := u.events }) :
    ReadsOn s (u.presentRead k) k := by
  have hreads := presentRead_presentsRead u k
  have hreq : (u.link k).req = (s.link k).req := by rw [hlink]
  rw [hreq] at hreads
  obtain ⟨q, hq⟩ := presentRead_req u k
  refine ⟨?_, hreads, fun j hj => ?_, ?_⟩
  · rw [hq, link_setLink_self, hlink]
  · rw [hq, link_setLink, if_neg hj, hother j hj]
  · rw [hq, honly]
    rfl

/-! ### A word that is not the trailer (R117) -/

theorem afterTake_inside {j : Nat} (h : s.itemEnding k j = none) : s.afterTake k j = s.presentRead k := by
  unfold afterTake
  rw [h]

theorem afterTake_last {j : Nat} {it : Item} (h : s.itemEnding k j = some it) :
    s.afterTake k j = (s.itemDone k it).presentRead k := by
  unfold afterTake
  rw [h]

theorem afterTake_readsOn (s : State) (k : LinkId) (j : Nat) : ReadsOn s (s.afterTake k j) k := by
  cases h : s.itemEnding k j with
  | none =>
    rw [afterTake_inside h]
    exact presentRead_readsOn rfl (fun _ _ => rfl) rfl
  | some it =>
    rw [afterTake_last h]
    refine presentRead_readsOn ?_ (fun j hj => itemDone_other s it hj) (itemDone_only s k it)
    rw [itemDone_link]

theorem wordTaken_idle (h : (s.link k).line = .quiet ∨ (s.link k).line = .gap) : s.wordTaken k = s := by
  unfold wordTaken
  obtain h | h := h <;> simp only [h]

/-- WORD_TAKEN of a word that is not the trailer: it leaves the buffer, and then its item may be complete (R117). -/
theorem wordTaken_inside {f : Frame} {w : Word} {rest : List Word} (hd : (s.link k).line = .drive)
    (hb : (s.link k).buffer = w :: rest) (hf : (s.link k).frame = some f)
    (ht : frameWord k (s.link k) f f.taken ≠ some .trailer) :
    s.wordTaken k = (s.setLink k ((s.link k).wordLeft f rest)).afterTake k f.taken := by
  unfold wordTaken
  simp only [hd, hb, hf, if_neg ht]
  rfl

end State

/-- Settles O39: the word leaves the buffer, the item it ends is complete, and the link presents its next read. -/
theorem wordTakenInsideAFrame : Obligations.WordTakenInsideAFrame := by
  unfold Obligations.WordTakenInsideAFrame
  intro s k f w rest
  refine ⟨fun h => congrArg Host.Outcome.next (State.wordTaken_idle h), fun hd hb hf ht => ?_⟩
  refine ⟨_, congrArg Host.Outcome.next (State.wordTaken_inside hd hb hf ht), ?_⟩
  have hending := State.itemEnding_wordLeft s k f rest f.taken
  obtain ⟨hlink, hreads, hother, honly⟩ := State.afterTake_readsOn (s.setLink k ((s.link k).wordLeft f rest)) k f.taken
  rw [State.link_setLink_self] at hlink hreads
  refine ⟨hlink, hreads, fun it => State.itemEnding_iff, fun hnone => ?_, fun it hit => ?_, fun j hj => ?_, ?_⟩
  · rw [State.afterTake_inside (hending.trans hnone), State.presentRead_events, State.presentRead_lastSeen,
      State.link_setLink_self]
    exact ⟨rfl, rfl⟩
  · rw [State.afterTake_last (hending.trans hit), State.presentRead_events, State.presentRead_lastSeen,
      State.itemDone_link, State.itemDone_events, State.link_setLink_self]
    refine ⟨fun hkind => if_pos hkind, fun hkind => if_neg ?_, fun hmark => if_pos hmark, fun hmark => if_neg ?_⟩
    · obtain h | h := hkind <;> rw [h] <;> decide
    · exact ne_true_of_eq_false hmark
  · rw [hother j hj, State.link_setLink, if_neg hj]
  · rw [honly]
    rfl

end Sys2Proof.Machine

/-! SUPPORT. An abort word given up (O42; R111, R112, R122). -/

namespace Sys2Proof.Machine
namespace State

variable {s : State} {k : LinkId}

theorem giveUpDue_iff : s.giveUpDue k = true ↔
    (s.link k).line = .abort ∧ (s.link k).state = .stopping ∧ (s.link k).giveUpDue = true := by
  unfold giveUpDue
  simp only [Bool.and_eq_true, decide_eq_true_eq, and_assoc]

theorem giveUp_notDue (h : ¬ s.giveUpDue k = true) : s.giveUp k = s := if_neg h

theorem giveUp_due (h : s.giveUpDue k = true) : s.giveUp k = (s.clearAbortWord k).frameDone k 1 := if_pos h

theorem clearAbortWord_link (s : State) (k : LinkId) : (s.clearAbortWord k).link k = { s.link k with
    abortWord := none, line := .quiet, stallTimer := 0, giveUpDue := false } := link_setLink_self ..

theorem clearAbortWord_other {j : LinkId} (hj : j ≠ k) : (s.clearAbortWord k).link j = s.link j :=
  (link_setLink ..).trans (if_neg hj)

end State

/-- Settles O42: the abort word leaves the line, and the frame ends in STOPPING with UNFLUSHED. -/
theorem giveUpTakesTheLinkOff : Obligations.GiveUpTakesTheLinkOff := by
  unfold Obligations.GiveUpTakesTheLinkOff
  refine fun s k => ⟨fun h => congrArg Host.Outcome.next (State.giveUp_notDue fun e => ?_), fun f ha hs hg hf => ?_⟩
  · obtain ⟨ha, hs, hg⟩ := State.giveUpDue_iff.mp e
    simp [ha, hs, hg] at h
  · intro l ended done stopped
    have hdue := State.giveUp_due (State.giveUpDue_iff.mpr ⟨ha, hs, hg⟩)
    have hlink := State.clearAbortWord_link s k
    have hframe : ((s.clearAbortWord k).link k).frame = some f := by rw [hlink]; exact hf
    have hstate : ((s.clearAbortWord k).link k).state = .stopping := by rw [hlink]; exact hs
    refine ⟨_, rfl, ?_, fun j hj => ?_, ?_, State.giveUp_only s k⟩
    · rw [hdue, State.frameDone_link_stopping 1 hframe hstate, hlink]
    · rw [hdue, (State.frameDone_link _ k j 1).1 hj, State.clearAbortWord_other hj]
    · rw [hdue, State.frameDone_events_stopping 1 hframe hstate, hlink]
      exact apply_ite (fun q : EventQueue => q.take stopped) _ _ _

end Sys2Proof.Machine

/-! SUPPORT. A feed session (O45, O46): FEED_OPEN by the slot's answer (R4, R5, R131), a write of its data register (R132),
and its ends (R133 to R135). -/

namespace Sys2Proof.Machine

/-- What a publish does to its slot beside the generation (R3, R6). -/
theorem published_eq (x : Slot) (g : GenId) (y : Gen) (e : BitVec 16) (b : Bool) : x.published g y e b = { x with
    newest := some g, gens := (x.published g y e b).gens, nextSeq := State.seqAfter x.nextSeq } := by
  rw [seqAfter_eq]
  rfl

namespace State

/-! ### FEED_OPEN (R131) -/

/-- FEED_OPEN of a slot that exists is its other tests in their order. -/
theorem feedOpen_slot {s : State} {i : SlotId} (hi : (s.arg 0).toNat = i.val) : s.feedOpen =
    if s.feed.state ≠ .idle then s.refusedBy .inUse 2
    else if 255 < (s.arg 1).toNat then s.refusedBy .badArg 3
    else if ¬ (1 ≤ (s.arg 2).toNat ∧ (s.arg 2).toNat ≤ 1048575) then s.refusedBy .badArg 4
    else if (s.slot i).state ≠ .active then s.refusedBy .state 5
    else if (s.slot i).source ≠ .feed then s.refusedBy .badArg 6
    else s.openFeed i := by
  unfold feedOpen
  rw [objectArg_eq _ i hi]
  rfl

theorem openFeed_none {s : State} {i : SlotId} (h : (s.slot i).target = none) : s.openFeed i =
    ((s.setSlot i { s.slot i with overruns := saturate16 (s.slot i).overruns }).offer .slotOverrun i.val
      (s.slot i).newestSeq 0).result .noGeneration 0 := by
  unfold openFeed
  simp only [h]
  rw [requestTarget_none h]

theorem openFeed_some {s : State} {i : SlotId} {g : GenId} (h : (s.slot i).target = some g) : s.openFeed i =
    ((s.setSlot i ((s.slot i).setGen g (Slot.filled ((s.slot i).gen g) s.now ((s.arg 1).setWidth 8)))).setFeed
      { state := .opened, slot := i, gen := g, wordIndex := 0, idleLimit := (s.arg 2).toNat, idleCount := 0
        overlength := false, fill := s.targetFill i g, req := s.feed.req }).result .ok (BitVec.ofNat 32 g.val) := by
  unfold openFeed
  simp only [h]
  rw [requestTarget_some h]

/-! ### The session -/

theorem writeFeed_idle {s : State} (h : s.feed.state = .idle) (v : Word) : s.writeFeed v = s := by
  unfold writeFeed
  simp only [h]

theorem writeFeed_opened {s : State} (h : s.feed.state = .opened) (v : Word) : s.writeFeed v =
    if s.feed.wordIndex < (s.slot s.feed.slot).length then
      s.setFeed { s.feed with
        idleCount := 0
        req := some { slot := s.feed.slot, gen := s.feed.gen, pos := s.feed.wordIndex, word := v, fill := s.feed.fill } }
    else s.setFeed { s.feed with idleCount := 0, overlength := true, wordIndex := saturate16 s.feed.wordIndex } := by
  unfold writeFeed
  simp only [h]

theorem feedClose_idle {s : State} (h : s.feed.state = .idle) : s.feedClose = s.refusedBy .state 1 := by
  unfold feedClose
  rw [h]
  rfl

theorem feedAbort_idle {s : State} (h : s.feed.state = .idle) : s.feedAbort = s.refusedBy .state 1 := by
  unfold feedAbort
  rw [h]
  rfl

theorem feedAbort_opened {s : State} (h : s.feed.state = .opened) : s.feedAbort =
    ((s.setFeed { s.feed with state := .idle }).abandon s.feed.slot s.feed.gen .feedAbort).result .ok
      (BitVec.ofNat 32 s.feed.wordIndex) := by
  unfold feedAbort
  rw [h]

theorem feedDue_iff {s : State} : s.feedDue = true ↔ s.feed.state = .opened ∧ s.feed.idleLimit ≤ s.feed.idleCount := by
  unfold feedDue
  simp only [Bool.and_eq_true, decide_eq_true_eq]

theorem feedExpiry_due {s : State} (h : s.feedDue = true) : s.feedExpiry =
    ((s.setFeed { s.feed with state := .idle }).abandon s.feed.slot s.feed.gen .feedTimeout).offer
      .feedTimeout s.feed.slot.val (BitVec.ofNat 32 s.feed.wordIndex) 0 := if_pos h

theorem feedExpiry_notDue {s : State} (h : ¬ s.feedDue = true) : s.feedExpiry = s := if_neg h

/-- A FILLING generation given up, with its record (R9). -/
structure GivenUp (s t : State) (i : SlotId) (g : GenId) (why : BitVec 4) : Prop where
  gen : (t.slot i).gen g = { (s.slot i).gen g with
    state := .empty, words := 0, isShort := false, isPartial := false, epoch := 0 }
  gens : ∀ g', g' ≠ g → (t.slot i).gen g' = (s.slot i).gen g'
  slot : t.slot i = { s.slot i with gens := (t.slot i).gens, abandons := min ((s.slot i).abandons + 1) 65535 }
  other : ∀ j, j ≠ i → t.slot j = s.slot j
  only : t = { s with
    slots := t.slots
    events := s.events.take (s.record .genAbandoned i.val (BitVec.ofNat 32 ((s.slot i).gen g).words) why) }

theorem abandon_givesUp {s : State} {i : SlotId} {g : GenId} (h : ((s.slot i).gen g).state = .filling)
    (why : AbandonReason) : GivenUp s (s.abandon i g why) i g why.value := by
  rw [abandon_filling s i g why h]
  have hslot : ((s.setSlot i ((s.slot i).abandoned g)).offer .genAbandoned i.val
      (BitVec.ofNat 32 ((s.slot i).gen g).words) why.value).slot i = (s.slot i).abandoned g := slot_setSlot_self ..
  have hgen : ∀ g', ((s.slot i).abandoned g).gen g' =
      if g' = g then Slot.emptied ((s.slot i).gen g) else (s.slot i).gen g' := fun g' => Slot.gen_setGen ..
  refine ⟨?_, fun g' hg => ?_, ?_, fun j hj => ?_, rfl⟩
  · rw [hslot, hgen, if_pos rfl]; rfl
  · rw [hslot, hgen, if_neg hg]
  · rw [hslot]; rfl
  · exact (slot_setSlot ..).trans (if_neg hj)

end State

/-- Settles O45: the tests in the order of R131, and then the slot's answer. -/
theorem feedOpenAsksForAGeneration : Obligations.FeedOpenAsksForAGeneration := by
  unfold Obligations.FeedOpenAsksForAGeneration
  intro s hfree
  have hexec : exec .feedOpen s = .next s.feedOpen := State.hostWrite_trigger s _ hfree
  rw [hexec]
  refine ⟨fun h => congrArg _ ?_, fun i hi => ?_⟩
  · unfold State.feedOpen
    rw [objectArg_none (by omega)]
    rfl
  rw [State.feedOpen_slot hi]
  refine ⟨fun h => ?_, fun h h1 => ?_, fun h h1 => ?_⟩
  · rw [if_pos (by rw [h]; decide)]
  · rw [if_neg (not_not.mpr h), if_pos h1]
  rw [if_neg (not_not.mpr h), if_neg (Nat.not_lt.mpr h1)]
  refine ⟨fun h2 => by rw [if_pos h2], fun hmin hmax => ?_⟩
  rw [if_neg (not_not.mpr ⟨hmin, hmax⟩)]
  refine ⟨fun ha => by rw [if_pos ha], fun ha hs => by rw [if_neg (not_not.mpr ha), if_pos hs], fun ha hs => ?_⟩
  rw [if_neg (not_not.mpr ha), if_neg (not_not.mpr hs)]
  refine ⟨_, rfl, ?_⟩
  cases ht : (s.slot i).target with
  | none =>
    rw [State.openFeed_none ht]
    refine ⟨fun j hj => (State.slot_setSlot ..).trans (if_neg hj), fun _ => ⟨State.slot_setSlot_self .., rfl⟩, nofun⟩
  | some g =>
    rw [State.openFeed_some ht, ← BitVec.ofNat_toNat]
    refine ⟨fun j hj => (State.slot_setSlot ..).trans (if_neg hj), nofun, fun g' hg => ?_⟩
    obtain rfl := Option.some.inj hg
    have hslot := State.slot_setSlot_self s i
      ((s.slot i).setGen g (Slot.filled ((s.slot i).gen g) s.now (BitVec.ofNat 8 (s.arg 1).toNat)))
    rw [State.slot_result, State.slot_setFeed, hslot]
    refine ⟨?_, fun g' hg => ?_, rfl, rfl⟩
    · rw [Slot.gen_setGen, if_pos rfl]; rfl
    · rw [Slot.gen_setGen, if_neg hg]

/-- Settles O46: the session's writes, its completion in a slot without a cohort, and its two abandons. -/
theorem feedSessionEnds : Obligations.FeedSessionEnds := by
  unfold Obligations.FeedSessionEnds
  rintro s v i g rfl rfl f y n
  refine ⟨fun hfree h => ?_, fun hfree h => ⟨?_, ?_⟩, fun h => ?_, fun hfree h => ⟨fun hw => ?_, fun hw => ?_⟩,
    fun h hy => ⟨fun hfree hc => ?_, ?_⟩⟩
  · exact (State.hostWrite_free s _ hfree).trans (congrArg _ (State.writeFeed_idle h v))
  · exact (State.hostWrite_trigger s _ hfree).trans (congrArg _ (State.feedClose_idle h))
  · exact (State.hostWrite_trigger s _ hfree).trans (congrArg _ (State.feedAbort_idle h))
  · refine congrArg Host.Outcome.next (State.feedExpiry_notDue fun e => ?_)
    obtain ⟨hopen, hdue⟩ := State.feedDue_iff.mp e
    obtain h | h := h
    · exact nomatch hopen.symm.trans h
    · exact absurd hdue (Nat.not_le.mpr h)
  · exact (State.hostWrite_free s _ hfree).trans (congrArg _ ((State.writeFeed_opened h v).trans (if_pos hw)))
  · exact (State.hostWrite_free s _ hfree).trans
      (congrArg _ ((State.writeFeed_opened h v).trans (if_neg (Nat.not_lt.mpr hw))))
  · have hpublish := State.complete_publish (s.setFeed { f with state := .idle }) f.slot f.gen n hy hc
    have hgen := gen_published (s.slot f.slot) f.gen
    refine ⟨_, (State.hostWrite_trigger s _ hfree).trans (congrArg _ (State.feedClose_opened h)), ?_⟩
    rw [show s.feedWords = n from rfl, hpublish, State.slot_result, State.slot_setSlot_self]
    refine ⟨?_, fun g' hg => ?_, ?_, fun j hj => ?_, rfl⟩
    · exact (hgen ..).trans (if_pos rfl)
    · exact (hgen ..).trans (if_neg hg)
    · exact published_eq ..
    · exact (State.slot_setSlot ..).trans (if_neg hj)
  · have hended := State.abandon_givesUp (s := s.setFeed { s.feed with state := .idle }) (i := s.feed.slot)
      (g := s.feed.gen) hy
    refine ⟨fun hfree => ?_, fun hdue => ?_⟩
    · have habort := State.feedAbort_opened h
      refine ⟨_, (State.hostWrite_trigger s _ hfree).trans (congrArg _ habort), ?_⟩
      obtain ⟨hgen, hgens, hslot, hother, honly⟩ := hended .feedAbort
      generalize (s.setFeed { s.feed with state := .idle }).abandon s.feed.slot s.feed.gen .feedAbort = t at *
      exact ⟨⟨hgen, hgens, hslot, hother⟩, congrArg (State.result · .ok (BitVec.ofNat 32 f.wordIndex)) honly⟩
    · have hexpiry := State.feedExpiry_due (State.feedDue_iff.mpr ⟨h, hdue⟩)
      refine ⟨_, congrArg Host.Outcome.next hexpiry, ?_⟩
      obtain ⟨hgen, hgens, hslot, hother, honly⟩ := hended .feedTimeout
      generalize (s.setFeed { s.feed with state := .idle }).abandon s.feed.slot s.feed.gen .feedTimeout = t at *
      exact ⟨⟨hgen, hgens, hslot, hother⟩,
        congrArg (State.offer · .feedTimeout f.slot.val (BitVec.ofNat 32 f.wordIndex) 0) honly⟩

end Sys2Proof.Machine

/-! SUPPORT. HANDLE_PIN and HANDLE_RELEASE (O43; R10, R11, R126, R128): each by its tests, and what the release of a handle's
pin does, with the end of a drain (R20, R30). -/

namespace Sys2Proof.Machine
namespace State

variable {s : State} {h : HandleId}

/-! ### Pins and handles (R10, R128) -/

/-- A pin request's answer (R10). -/
theorem pinAnswer_newest {x : Slot} {g : GenId} (hx : x.state = .active ∨ x.state = .frozen) (hg : x.newest = some g) :
    x.pinAnswer = .granted g := by
  unfold Slot.pinAnswer
  obtain hx | hx := hx <;> rw [hx, hg]

theorem pinAnswer_noNewest {x : Slot} (hx : x.state = .active ∨ x.state = .frozen) (hg : x.newest = none) :
    x.pinAnswer = .notReady := by
  unfold Slot.pinAnswer
  obtain hx | hx := hx <;> rw [hx, hg]

theorem pinAnswer_refused {x : Slot} (ha : x.state ≠ .active) (hf : x.state ≠ .frozen) : x.pinAnswer = .refused := by
  unfold Slot.pinAnswer
  cases hx : x.state with
  | active => exact absurd hx ha
  | frozen => exact absurd hx hf
  | unused | configuring | draining => rfl

/-- The generations of a slot after a change of one's PINS. -/
theorem gen_setPins (x : Slot) (g g' : GenId) (n : Nat) :
    (x.setPins g n).gen g' = if g' = g then { x.gen g with pins := n } else x.gen g' := Slot.gen_setGen ..

/-- The slot of a granted pin (R10). -/
theorem pinHandle_slot (s : State) (h : HandleId) (i : SlotId) (g : GenId) :
    (s.pinHandle h i g).slot i = (s.slot i).setPins g (((s.slot i).gen g).pins + 1) := slot_setSlot_self ..

/-- The state with a handle FREE and its record otherwise kept (R128). -/
def handleFreed (s : State) (h : HandleId) : State := s.setHandle h { s.handle h with state := .free }

theorem handle_handleFreed (s : State) (h : HandleId) : (s.handleFreed h).handle h = { s.handle h with state := .free } :=
  handle_setHandle_self ..

theorem handle_handleFreed_ne (s : State) {h k : HandleId} (hk : k ≠ h) : (s.handleFreed h).handle k = s.handle k :=
  (handle_setHandle ..).trans (if_neg hk)

theorem endsDrain_handleFreed (s : State) (h : HandleId) (p : PinEntry) :
    (s.handleFreed h).endsDrain p = s.endsDrain p := rfl

section
variable (hh : (s.arg 0).toNat = h.val)
include hh

/-! ### The tests of HANDLE_PIN (R126) -/

theorem handlePin_inUse (hy : (s.handle h).state ≠ .free) : s.handlePin = s.refusedBy .inUse 2 := by
  unfold handlePin
  rw [objectArg_eq _ h hh]
  exact if_pos hy

theorem handlePin_badSlot (hy : (s.handle h).state = .free) (hi : 31 < (s.arg 1).toNat) :
    s.handlePin = s.refusedBy .badArg 3 := by
  unfold handlePin
  rw [objectArg_eq _ h hh, objectArg_none hi]
  exact if_neg (not_not.mpr hy)

section
variable {i : SlotId} (hy : (s.handle h).state = .free) (hi : (s.arg 1).toNat = i.val)
include hy hi

theorem handlePin_granted {g : GenId} (ha : (s.slot i).pinAnswer = .granted g) : s.handlePin = s.pinHandle h i g := by
  unfold handlePin
  rw [objectArg_eq _ h hh, objectArg_eq _ i hi]
  simp only [ha]
  exact if_neg (not_not.mpr hy)

theorem handlePin_notReady (ha : (s.slot i).pinAnswer = .notReady) :
    s.handlePin = { s with cmd := s.withResult .notReady 0 } := by
  unfold handlePin
  rw [objectArg_eq _ h hh, objectArg_eq _ i hi]
  simp only [ha]
  exact if_neg (not_not.mpr hy)

theorem handlePin_refused (ha : (s.slot i).pinAnswer = .refused) :
    s.handlePin = { s with cmd := s.withResult .state 0 } := by
  unfold handlePin
  rw [objectArg_eq _ h hh, objectArg_eq _ i hi]
  simp only [ha]
  exact if_neg (not_not.mpr hy)

end

/-! ### HANDLE_RELEASE by the handle's state (R128) -/

theorem handleRelease_free (hy : (s.handle h).state = .free) :
    s.handleRelease = s.refusedBy .state 2 := by
  unfold handleRelease
  rw [objectArg_eq _ h hh]
  simp only [hy]
  rfl

theorem handleRelease_revoked (hy : (s.handle h).state = .revoked) :
    s.handleRelease = (s.handleFreed h).result .ok 1 := by
  unfold handleRelease
  rw [objectArg_eq _ h hh]
  simp only [hy]
  rfl

theorem handleRelease_held (hy : (s.handle h).state = .held) :
    s.handleRelease = ((s.handleFreed h).release (s.handle h).slot (s.handle h).gen).result .ok 0 := by
  unfold handleRelease
  rw [objectArg_eq _ h hh]
  simp only [hy]
  rfl

end

end State

/-- The pin a handle holds, as a pin set names it. -/
def Handle.pin (y : Handle) : PinEntry :=
  { slot := y.slot, gen := y.gen, seq := y.seq, stamp := y.stamp, words := y.words, isShort := y.isShort
    isPartial := y.isPartial, epoch := y.epoch }

namespace State

variable {s : State} {h : HandleId}

/-! ### The release of a handle's pin (R11, R20, R30) -/

/-- The one slot whose drain a release ends. -/
theorem endedBy_singleton {p : PinEntry} (hp : s.endsDrain p = true) : s.endedBy [p] = [p.slot] := by
  unfold endedBy
  rw [List.filter_singleton, hp]
  rfl

theorem SlotReleased.pins {t : State} {p : PinEntry} (hr : SlotReleased s t p) (g : GenId) :
    ((t.slot p.slot).gen g).pins = s.pinsLeft p g := by rw [hr.gen]

/-- In a DRAINING slot the drain ends exactly where no pin is left (R20). -/
theorem SlotReleased.endsDrain_iff {t : State} {p : PinEntry} (hr : SlotReleased s t p)
    (hd : (s.slot p.slot).state = .draining) : s.endsDrain p = true ↔ ∀ g, ((t.slot p.slot).gen g).pins = 0 := by
  simp only [endsDrain, decide_eq_true_eq, hr.pins, hd, true_and]

/-- A DRAINING slot is UNUSED after the release exactly where its drain ended. -/
theorem SlotReleased.unused_iff {t : State} {p : PinEntry} (hr : SlotReleased s t p)
    (hd : (s.slot p.slot).state = .draining) : (t.slot p.slot).state = .unused ↔ s.endsDrain p = true := by
  rw [← hr.ended_iff]
  exact (and_iff_right hd).symm

/-- A generation of a DRAINING slot after a release, by the slot's own state (R11, R20, R30). -/
theorem SlotReleased.gen_eq {t : State} {p : PinEntry} (hr : SlotReleased s t p)
    (hd : (s.slot p.slot).state = .draining) (g : GenId) : (t.slot p.slot).gen g = { (s.slot p.slot).gen g with
      pins := ((t.slot p.slot).gen g).pins
      head := if (t.slot p.slot).state = .unused ∧ g.val < (s.slot p.slot).depth then none
        else ((s.slot p.slot).gen g).head } := by
  simp only [hr.pins, hr.unused_iff hd]
  exact hr.gen g

/-- What the release of a handle's pin does (R11, R20, R30, R128). -/
structure HandleReleased (s t : State) (h : HandleId) : Prop where
  pin : SlotReleased s t (s.handle h).pin
  slots : ∀ j, j ≠ (s.handle h).slot → t.slot j = s.slot j
  handle : t.handle h = { s.handle h with state := .free }
  handles : ∀ k, k ≠ h → t.handle k = s.handle k
  kept : s.endsDrain (s.handle h).pin = false → t = { s with slots := t.slots, handles := t.handles }
  chains : s.endsDrain (s.handle h).pin = true → s.returnsChains t [(s.handle h).slot]
  alloc : t.pool.alloc = s.pool.alloc
  links : s.endsDrain (s.handle h).pin = true →
    ∀ k, t.link k = { s.link k with lastSeen := Table.put (s.link k).lastSeen (s.handle h).slot 0 }
  events : s.endsDrain (s.handle h).pin = true → t.events = s.events.take (s.record .slotReleased (s.handle h).slot.val
    (BitVec.ofNat 32 ((s.slot (s.handle h).slot).depth * (s.slot (s.handle h).slot).ppg)) 0)
  only : t = { s with
    slots := t.slots, pool := t.pool, links := t.links, handles := t.handles, events := t.events }

theorem release_handleReleased (s : State) (h : HandleId) : HandleReleased s
    ((s.handleFreed h).release (s.handle h).slot (s.handle h).gen) h := by
  have hr := pinsReleased_release (s.handleFreed h) (s.handle h).pin
  have honly := release_only (s.handleFreed h) (s.handle h).slot (s.handle h).gen
  have hone : s.endsDrain (s.handle h).pin = true →
      (s.handleFreed h).endedBy [(s.handle h).pin] = [(s.handle h).slot] :=
    fun e => endedBy_singleton e
  refine ⟨(hr.pin _ List.mem_cons_self).congr rfl rfl, fun j hj => ?_, ?_, fun k hk => ?_, fun e => ?_, fun e => ?_, hr.alloc,
    fun e k => ?_, fun e => ?_, ?_⟩
  · exact hr.other j fun hm => hj (List.mem_singleton.mp hm)
  · rw [honly]; exact handle_handleFreed s h
  · rw [honly]; exact handle_handleFreed_ne s hk
  · have hunpin := release_eq (s.handleFreed h) (s.handle h).pin
    rw [endsDrain_handleFreed, if_neg (ne_true_of_eq_false e)] at hunpin
    change (s.handleFreed h).release (s.handle h).slot (s.handle h).gen = _ at hunpin
    rw [hunpin]
    rfl
  · have hchains := hr.chains.returnsChains
    rw [hone e] at hchains
    exact hchains
  · have hlink := hr.link k
    rw [hone e] at hlink
    exact hlink
  · have hevents := hr.events
    rw [hone e] at hevents
    exact hevents
  · rw [honly]; rfl

end State

/-- Settles O43: the tests and the slot table's answer; a release is one pin's, whose drain ends where no pin is left. -/
theorem handlePinAndRelease : Obligations.HandlePinAndRelease := by
  unfold Obligations.HandlePinAndRelease
  intro s hfree
  have hpin : exec .handlePin s = .next s.handlePin := State.hostWrite_trigger s _ hfree
  have hrelease : exec .handleRelease s = .next s.handleRelease := State.hostWrite_trigger s _ hfree
  rw [hpin, hrelease]
  refine ⟨fun h0 => ?_, fun h hh => ⟨fun hy => ?_, fun hy hi => ?_, fun hy => ?_,
    fun i hy hi => ⟨fun ha hf => ?_, fun ha => ⟨fun hn => ?_, fun g hn => ?_⟩⟩, fun hy => ?_, ?_, ?_⟩⟩
  · unfold State.handlePin State.handleRelease
    rw [objectArg_none (by omega)]
    exact ⟨rfl, rfl⟩
  · rw [State.handlePin_inUse hh hy]
  · rw [State.handlePin_badSlot hh hy hi]
  · rw [State.handleRelease_free hh hy]
  · rw [State.handlePin_refused hh hy hi (State.pinAnswer_refused ha hf)]
  · rw [State.handlePin_notReady hh hy hi (State.pinAnswer_noNewest ha hn)]
  · rw [State.handlePin_granted hh hy hi (State.pinAnswer_newest ha hn)]
    have hslot := s.pinHandle_slot h i g
    refine ⟨_, rfl, State.handle_setHandle_self .., ?_, fun g' hg => ?_, ?_, fun j hj => ?_, fun k hk => ?_, rfl⟩
    · rw [hslot, State.gen_setPins, if_pos rfl]
    · rw [hslot, State.gen_setPins, if_neg hg]
    · rw [hslot]; rfl
    · exact (State.slot_setSlot ..).trans (if_neg hj)
    · exact (State.handle_setHandle ..).trans (if_neg hk)
  · rw [State.handleRelease_revoked hh hy]
    exact ⟨_, rfl, s.handle_handleFreed h, fun k hk => s.handle_handleFreed_ne hk, rfl⟩
  · rintro i g hy rfl rfl hd
    have hends : s.endsDrain (s.handle h).pin = false := decide_eq_false fun e => hd e.1
    have hr := State.release_handleReleased s h
    rw [State.handleRelease_held hh hy]
    generalize (s.handleFreed h).release (s.handle h).slot (s.handle h).gen = t at *
    obtain ⟨hgen, hslot⟩ := hr.pin
    rw [hends] at hslot
    simp only [hends, Bool.false_eq_true, false_and, if_false] at hgen
    refine ⟨_, rfl, hr.handle, ?_, fun g' hg => ?_, hslot, hr.slots, hr.handles, ?_⟩
    · exact (hgen _).trans (congrArg (fun n => { (s.slot _).gen _ with pins := n }) (if_pos rfl))
    · exact (hgen g').trans (congrArg (fun n => { (s.slot _).gen g' with pins := n }) (if_neg hg))
    · exact congrArg (State.result · .ok 0) (hr.kept hends)
  · rintro i g hy rfl rfl hd
    have hr := State.release_handleReleased s h
    rw [State.handleRelease_held hh hy]
    generalize (s.handleFreed h).release (s.handle h).slot (s.handle h).gen = t at *
    have hpins := hr.pin.pins
    have hends := hr.pin.endsDrain_iff hd
    refine ⟨_, rfl, hr.handle, (hpins _).trans (if_pos rfl), fun g' hg => (hpins g').trans (if_neg hg),
      hr.pin.gen_eq hd, fun ⟨g', hg⟩ => ?_, fun hall => ?_, hr.slots, hr.handles, ?_⟩
    · have hnot : s.endsDrain (s.handle h).pin = false := by
        rw [← Bool.not_eq_true, hends]
        exact fun hall => absurd (hall g') (Nat.ne_of_gt hg)
      have hslot := hr.pin.slot
      rw [hnot] at hslot
      exact ⟨hslot, congrArg (State.result · .ok 0) (hr.kept hnot)⟩
    · have hend := hends.mpr hall
      have hslot := hr.pin.slot
      rw [hend] at hslot
      exact ⟨hslot, hr.chains hend, hr.alloc, hr.links hend, hr.events hend⟩
    · exact congrArg (State.result · .ok 0) hr.only

end Sys2Proof.Machine

/-! SUPPORT. A read of a handle's data register (O44; R127, R159, R160), and the quiet of the handles and of the feed during a
reset (R158): what every grant and every act does to it. -/

namespace Sys2Proof.Machine
namespace State

/-! ### The read (R127) -/

theorem readHandle_notHeld {s : State} {h : HandleId} (hy : (s.handle h).state ≠ .held) :
    s.readHandle h = { s with busRead := 0 } := by
  unfold readHandle
  cases hs : (s.handle h).state with
  | held => exact absurd hs hy
  | free | revoked => simp only [hs]

theorem readHandle_held {s : State} {h : HandleId} (hy : (s.handle h).state = .held) : s.readHandle h =
    if (s.handle h).addr.toNat < (s.handle h).words then
      s.setHandle h { s.handle h with
        req := some { slot := (s.handle h).slot, gen := (s.handle h).gen, pos := (s.handle h).addr.toNat } }
    else { s.setHandle h { s.handle h with overread := true, addr := (s.handle h).addr + 1 } with busRead := 0 } := by
  unfold readHandle
  simp only [hy]

theorem hostRead_held {s : State} (act : State → State) (h : s.resetPhase = .held) :
    s.hostRead act = .next { s with busRead := 0 } := by
  unfold hostRead
  rw [h]

/-- The wait line is asserted exactly while a handle or the feed has a request waiting (R160). -/
theorem waitLine_iff {s : State} : s.waitLine = true ↔
    (∃ h, (s.handle h).req.isSome = true) ∨ s.feed.req.isSome = true := by
  have hall : ∀ h : HandleId, h ∈ allHandles := by decide
  unfold waitLine
  rw [Bool.or_eq_true, List.any_eq_true]
  exact or_congr_left ⟨fun ⟨h, _, e⟩ => ⟨h, e⟩, fun ⟨h, e⟩ => ⟨h, hall h, e⟩⟩

/-- With no access held, no handle and no feed waits. -/
theorem noRequest_of_waitLine {s : State} (hw : s.waitLine = false) :
    (∀ h, (s.handle h).req = none) ∧ s.feed.req = none := by
  rw [← Bool.not_eq_true, waitLine_iff, not_or, not_exists] at hw
  simpa using hw

/-! ### What keeps the quiet (R158) -/

theorem resetIsQuiet_none {s : State} (h : s.resetPhase = .none) : s.resetIsQuiet := fun hr => absurd h hr

/-- The quiet speaks of the handles, of the feed's state and request, and of whether a reset is in progress. -/
theorem resetIsQuiet_kept {s t : State} (h : s.resetIsQuiet) (hh : t.handles = s.handles)
    (hf : t.feed.state = s.feed.state ∧ t.feed.req = s.feed.req) (hp : t.resetPhase ≠ .none → s.resetPhase ≠ .none) :
    t.resetIsQuiet := by
  intro hr
  obtain ⟨hstate, hreq⟩ := hf
  have hquiet := h (hp hr)
  unfold waitLine handle at hquiet ⊢
  rw [hh, hstate, hreq]
  exact hquiet

/-- The handles, the feed and the progress of a reset are as they were. -/
structure SessionsSame (s t : State) : Prop where
  handles : t.handles = s.handles
  feed : t.feed = s.feed
  phase : t.resetPhase = s.resetPhase

theorem SessionsSame.quiet {s t : State} (h : SessionsSame s t) (hs : s.resetIsQuiet) : t.resetIsQuiet :=
  resetIsQuiet_kept hs h.handles (by rw [h.feed]; exact ⟨rfl, rfl⟩) (by rw [h.phase]; exact id)

/-- The blocks' reset values are quiet (R138). -/
theorem resetIsQuiet_reset {t : State} (hh : t.handles = State.reset.handles) (hf : t.feed = State.reset.feed) :
    t.resetIsQuiet := by
  intro _
  have hwait : State.reset.waitLine = false := by decide
  unfold waitLine handle at hwait ⊢
  rw [hh, hf]
  exact ⟨hwait, fun h => congrArg Handle.state (handle_reset h), rfl⟩

/-! ### Grants, time and the course of a reset -/

/-- A grant finds no request of a handle or of the feed during a reset. -/
theorem grantAct_quiet {s t : State} (h : s.resetIsQuiet) (e : GrantAct s t) : t.resetIsQuiet := by
  by_cases hr : s.resetPhase = .none
  · exact resetIsQuiet_none ((grantAct_pool e).2.1.trans hr)
  · obtain ⟨hwait, _⟩ := h hr
    obtain ⟨hhandles, hfeed⟩ := noRequest_of_waitLine hwait
    cases e with
    | idle => exact h
    | portWrite | portWithdraw => rw [afterRequest_only]; exact SessionsSame.quiet ⟨rfl, rfl, rfl⟩ h
    | linkRead => rw [presentRead_only, placeWord_only]; exact SessionsSame.quiet ⟨rfl, rfl, rfl⟩ h
    | feedWrite _ _ _ hq | feedWithdraw _ hq => exact nomatch hfeed.symm.trans hq
    | handleRead _ n _ _ hq => exact nomatch (hhandles n).symm.trans hq

theorem grantRun_quiet {s t : State} (h : s.resetIsQuiet) (e : GrantRun s t) : t.resetIsQuiet :=
  run_keeps resetIsQuiet (fun _ _ => grantAct_quiet) h e

theorem grantAt_quiet (s : State) (r : Fin 21) (t : State) (h : s.resetIsQuiet)
    (e : s.grantAt r = .done t ∨ s.grantAt r = .withdrawn t) : t.resetIsQuiet := grantAct_quiet h (grantAt_act e)

/-- The feed's idle timer is not due during a reset. -/
theorem feedExpiry_quiet {s : State} (h : s.resetIsQuiet) : s.feedExpiry.resetIsQuiet := by
  by_cases hr : s.resetPhase = .none
  · exact resetIsQuiet_none (by rw [feedExpiry_only]; exact hr)
  · obtain ⟨_, _, hidle⟩ := h hr
    have hnot : ¬ s.feedDue = true := fun e => nomatch hidle.symm.trans (feedDue_iff.mp e).1
    rw [feedExpiry_notDue hnot]
    exact h

theorem timeAct_quiet {s t : State} (h : s.resetIsQuiet) (e : TimeAct s t) : t.resetIsQuiet := by
  cases e with
  | stallAbort k => rw [stallAbort_only]; exact SessionsSame.quiet ⟨rfl, rfl, rfl⟩ h
  | giveUp k => rw [giveUp_only]; exact SessionsSame.quiet ⟨rfl, rfl, rfl⟩ h
  | periodExpiry k => rw [periodExpiry_only]; exact SessionsSame.quiet ⟨rfl, rfl, rfl⟩ h
  | windowExpiry c => rw [(windowExpiry_spec s c).1]; exact SessionsSame.quiet ⟨rfl, rfl, rfl⟩ h
  | feedExpiry => exact feedExpiry_quiet h
  | advanceTime ready => rw [(advanceTime_spec ready s).2]; exact resetIsQuiet_kept h rfl ⟨rfl, rfl⟩ id
  | countCycle => exact h

theorem timeRun_quiet {s t : State} (h : s.resetIsQuiet) (e : TimeRun s t) : t.resetIsQuiet :=
  run_keeps resetIsQuiet (fun _ _ => timeAct_quiet) h e

theorem plainAct_quiet {s t : State} (h : s.resetIsQuiet) (e : PlainAct s t) : t.resetIsQuiet := by
  rw [plainAct_only e]
  exact SessionsSame.quiet ⟨rfl, rfl, rfl⟩ h

theorem readHandle_quiet (n : HandleId) (s : State) (h : s.resetIsQuiet) : (s.readHandle n).resetIsQuiet := by
  by_cases hr : s.resetPhase = .none
  · exact resetIsQuiet_none (by rw [readHandle_only]; exact hr)
  · obtain ⟨_, hfree, _⟩ := h hr
    rw [readHandle_notHeld (by rw [hfree n]; decide)]
    exact h

/-- A device reset begins with the blocks' reset values (R157). -/
theorem writeControl_quiet (v : Word) (s : State) (h : s.resetIsQuiet) : (s.writeControl v).resetIsQuiet := by
  unfold writeControl
  simp only []
  split <;> [skip; exact SessionsSame.quiet ⟨rfl, rfl, rfl⟩ h]
  unfold startDeviceReset
  split
  · exact resetIsQuiet_reset rfl rfl
  all_goals exact SessionsSame.quiet ⟨rfl, rfl, rfl⟩ h

theorem releaseReset_quiet {s : State} (h : s.resetIsQuiet) : s.releaseReset.resetIsQuiet := by
  unfold releaseReset
  split
  · rename_i hr
    exact resetIsQuiet_kept h rfl ⟨rfl, rfl⟩ fun _ => by rw [hr]; decide
  all_goals exact h

theorem rebuildPage_quiet {s : State} (h : s.resetIsQuiet) : s.rebuildPage.resetIsQuiet := by
  obtain hidle | ⟨n, clearing, hr, hn⟩ := rebuildPage_cases s
  · rw [hidle]; exact h
  · rw [rebuildPage_running hr hn]
    split <;> exact resetIsQuiet_kept h rfl ⟨rfl, rfl⟩ fun _ => by rw [hr]; exact nofun

theorem clearSchedule_quiet {s : State} (h : s.resetIsQuiet) : s.clearSchedule.resetIsQuiet := by
  by_cases hdue : ∃ n, s.resetPhase = .running n true
  · obtain ⟨n, hr⟩ := hdue
    rw [clearSchedule_running hr]
    split <;> exact resetIsQuiet_kept h rfl ⟨rfl, rfl⟩ fun _ => by rw [hr]; exact nofun
  · rw [clearSchedule_idle (not_exists.mp hdue)]; exact h

/-! ### Every act outside a reset -/

/-- Outside a reset only what begins one leads into one, and that sets the blocks to their reset values (R157, R159). -/
theorem act_quiet {s t : State} (hr : s.resetPhase = .none) (e : Act s t) : t.resetIsQuiet := by
  have same : t.resetPhase = s.resetPhase → t.resetIsQuiet := fun h => resetIsQuiet_none (h.trans hr)
  have hs : s.resetIsQuiet := resetIsQuiet_none hr
  cases e with
  | plain e => exact plainAct_quiet hs e
  | time e => exact timeAct_quiet hs e
  | writeControl v => exact writeControl_quiet v s hs
  | assertReset => exact resetIsQuiet_reset rfl rfl
  | releaseReset => exact releaseReset_quiet hs
  | rebuildPage => exact rebuildPage_quiet hs
  | clearSchedule => exact clearSchedule_quiet hs
  | slotConfigure => exact same (by rw [slotConfigure_only])
  | slotFreeze => exact same (by rw [slotFreeze_only])
  | slotThaw => exact same (by rw [slotThaw_only])
  | slotTeardown => exact same (pageRun_phase (slotTeardown_run s))
  | cohortSet => exact same (by rw [cohortSet_only])
  | linkStart => exact same (by rw [linkStart_only])
  | linkLoad => exact same (by rw [linkLoad_only])
  | linkCancel => exact same (by rw [linkCancel_only])
  | linkStop => exact same (by rw [linkStop_only])
  | handlePin => exact same (by rw [handlePin_only])
  | handleRelease => exact same (by rw [handleRelease_only])
  | feedOpen => exact same (by rw [feedOpen_only])
  | feedClose => exact same (by rw [feedClose_only])
  | feedAbort => exact same (by rw [feedAbort_only])
  | pageTake => exact same (by rw [pageTake_only])
  | checkExamine => exact same (by rw [checkExamine_only])
  | intake p x => exact same (by rw [intake_only])
  | headStart p => exact same (by rw [headStart_only])
  | headWord p => exact same (pageRun_phase (headWord_run s p))
  | headDrop p => exact same (pageRun_phase (headDrop_run s p))
  | headEnd p => exact same (pageRun_phase (headEnd_run s p))
  | headError p => exact same (by rw [headError_only])
  | enablePort p => exact same (by rw [enablePort_only])
  | disablePort p => exact same (by rw [disablePort_only])
  | writeEnables v => exact same (by rw [writeEnables_only])
  | placeNext k => exact same (by rw [placeNext_only])
  | wordTaken k => exact same (by rw [wordTaken_only])
  | readHandle n => exact readHandle_quiet n s hs
  | writeFeed v => exact same (by rw [writeFeed_only])
  | clearOverflowed | writeHandleAddr | clearOverread | clearOverlength => exact same rfl

end State

/-- A command that a reset does not discard keeps the quiet: it is an act of a block that touches no handle and no feed, or
begins a reset, or goes on with one. -/
theorem exec_quiet_kept {c : Instr} {s t : State} (hc : isDiscardedInReset c = false) (h : s.resetIsQuiet)
    (e : exec c s = .next t) : t.resetIsQuiet := by
  have own : ∀ {u : State}, u.resetIsQuiet → (Host.Outcome.next u : Result) = .next t → t.resetIsQuiet :=
    fun hu e => by cases e; exact hu
  have same : ∀ {u : State}, State.SessionsSame s u → (Host.Outcome.next u : Result) = .next t → t.resetIsQuiet :=
    fun hu => own (hu.quiet h)
  have control : ∀ {act : State → State}, (∀ u : State, u.resetIsQuiet → (act u).resetIsQuiet) →
      s.controlWrite act = .next t → t.resetIsQuiet :=
    fun ha => State.controlWrite_keeps State.resetIsQuiet State.grantAt_quiet _ ha s t h
  have read : ∀ {act : State → State}, (∀ u : State, u.resetIsQuiet → (act u).resetIsQuiet) →
      s.hostRead act = .next t → t.resetIsQuiet :=
    fun ha => State.hostRead_keeps State.resetIsQuiet State.grantAt_quiet _ ha (fun _ hu => hu) s t h
  cases c with
  | pageTake => exact same (by rw [State.pageTake_only]; exact ⟨rfl, rfl, rfl⟩) e
  | checkExamine => exact same (by rw [State.checkExamine_only]; exact ⟨rfl, rfl, rfl⟩) e
  | captureTransfer p x => exact same (by rw [State.intake_only]; exact ⟨rfl, rfl, rfl⟩) e
  | headTakeStart p => exact same (by rw [State.headStart_only]; exact ⟨rfl, rfl, rfl⟩) e
  | headTakeWord p =>
    refine same ?_ e
    obtain e | e := State.headWord_eq s p <;> rw [e] <;> [skip; rw [State.takeWord_only]] <;> exact ⟨rfl, rfl, rfl⟩
  | headDropEntry p =>
    refine same ?_ e
    obtain e | e := State.headDrop_eq s p <;> rw [e] <;> [skip; rw [State.leaveEntry_only]] <;> exact ⟨rfl, rfl, rfl⟩
  | headTakeEnd p =>
    refine same ?_ e
    obtain e | e := State.headEnd_eq s p <;> rw [e] <;> [skip; rw [State.takeWord_only]] <;> exact ⟨rfl, rfl, rfl⟩
  | sourceError p => exact same (by rw [State.headError_only]; exact ⟨rfl, rfl, rfl⟩) e
  | linkPlaceWord k => exact same (by rw [State.placeNext_only]; exact ⟨rfl, rfl, rfl⟩) e
  | wordTaken k => exact same (by rw [State.wordTaken_only]; exact ⟨rfl, rfl, rfl⟩) e
  | storeGrant => exact State.grantRun_quiet h (State.grantOne_run e)
  | tick ready => exact own (State.timeRun_quiet h (State.tick_run s ready)) e
  | periodExpiry k => exact own (State.timeAct_quiet h (.periodExpiry k)) e
  | stallAbort k => exact own (State.timeAct_quiet h (.stallAbort k)) e
  | abortWordGiveUp k => exact own (State.timeAct_quiet h (.giveUp k)) e
  | windowExpiry k => exact own (State.timeAct_quiet h (.windowExpiry k)) e
  | feedIdleExpiry => exact own (State.feedExpiry_quiet h) e
  | handleDataRead n => exact read (State.readHandle_quiet n) e
  | eventLost => exact read (fun _ hu => State.plainAct_quiet hu .readLost) e
  | eventMask v => exact control (fun _ hu => State.plainAct_quiet hu (.writeMask v)) e
  | prescale v => exact control (fun _ hu => State.plainAct_quiet hu (.writePrescale v)) e
  | irqEnable b => exact control (fun _ hu => State.plainAct_quiet hu (.writeIrqEnable b)) e
  | resetDevice v => exact control (State.writeControl_quiet v) e
  | powerOnReset => exact own (State.resetIsQuiet_reset (t := s.assertReset) rfl rfl) e
  | resetRelease => exact own (State.releaseReset_quiet h) e
  | rebuildLinkPage => exact own (State.rebuildPage_quiet h) e
  | scheduleClear => exact own (State.clearSchedule_quiet h) e
  | registerWrite a v =>
    rw [exec_registerWrite] at e
    rw [isDiscardedInReset_registerWrite, Bool.and_eq_false_iff, decide_eq_false_iff_not, decide_eq_false_iff_not, not_not,
      not_not] at hc
    obtain rfl | rfl := hc
    · rw [State.writeWord_control] at e
      exact control (State.writeControl_quiet v) e
    · rw [State.writeWord_mask] at e
      exact control (fun _ hu => State.plainAct_quiet hu (.writeMask v)) e
  | _ => cases hc

/-- Every command keeps the quiet of a reset: a command of the host to a handle or the feed is discarded in one (R158). -/
theorem exec_quiet {c : Instr} {s t : State} (h : s.resetIsQuiet) (e : exec c s = .next t) : t.resetIsQuiet := by
  by_cases hr : s.resetPhase = .none
  · obtain ⟨u, hu, act⟩ | run := exec_shape e
    · exact State.act_quiet ((State.grantRun_still hu).phase.trans hr) act
    · exact State.timeRun_quiet h run
  · cases hc : isDiscardedInReset c with
    | false => exact exec_quiet_kept hc h e
    | true =>
      rw [exec_discarded hc hr] at e
      cases e
      exact h

theorem step_quiet {s t : State} (h : s.resetIsQuiet) (e : step s = .next t) : t.resetIsQuiet := by
  unfold step at e
  split at e
  · cases e; exact State.timeRun_quiet h (State.clockCycle_run s)
  · rename_i rest _; exact exec_quiet (s := { s with pending := rest }) h e

/-- Settles O44: the read by what the handle holds; the quiet of a reset is kept by every command, and by a clock cycle. -/
theorem handleDataReads : Obligations.HandleDataReads := by
  unfold Obligations.HandleDataReads
  refine ⟨fun s h => ?_, fun s hquiet => ⟨fun h hr => ?_, fun t => step_quiet hquiet⟩⟩
  · refine ⟨State.hostRead_held _, fun hr hw hy => ?_, fun hr hw hy => ?_⟩
    · exact (State.hostRead_free s _ hr hw).trans (congrArg _ (State.readHandle_notHeld hy))
    · refine ⟨_, State.hostRead_free s _ hr hw, ?_⟩
      rw [State.readHandle_held hy]
      split <;> rename_i hlt
      · refine ⟨fun g hg => (State.handle_setHandle ..).trans (if_neg hg), fun _ => ⟨?_, State.handle_setHandle_self .., rfl⟩,
          fun hge => absurd hlt (Nat.not_lt.mpr hge)⟩
        exact State.waitLine_iff.mpr (.inl ⟨h, by rw [State.handle_setHandle_self]; rfl⟩)
      · refine ⟨fun g hg => (State.handle_setHandle ..).trans (if_neg hg), fun hlt' => absurd hlt' hlt,
          fun _ => ⟨(State.handle_setHandle_self ..).trans ?_, rfl⟩⟩
        have haddr : (s.handle h).addr + 1 = BitVec.ofNat 10 (((s.handle h).addr.toNat + 1) % 1024) := by
          bv_omega
        rw [haddr]
  · obtain ⟨hwait, hfree, _⟩ := hquiet hr
    refine ⟨?_, hwait⟩
    by_cases hheld : s.resetPhase = .held
    · exact State.hostRead_held _ hheld
    · refine (State.hostRead_free s _ hheld hwait).trans (congrArg _ (State.readHandle_notHeld ?_))
      rw [hfree h]
      decide

end Sys2Proof.Machine
